-- ==== Sys2Proof/Word.lean ====
section
/-! DEFINITION. The byte: the unit in which every frame, record and page payload of the 4610 is written (R1, R190). -/

namespace Sys2Proof

/-- One byte on the serial link or in the flash. -/
abbrev Byte := BitVec 8

/-- A set of zones or of weekdays as it travels: bit n is 1 when member n is in the set (R191). -/
abbrev SetByte := BitVec 8

end Sys2Proof
end

