-- ==== Sys2Proof/Syntax.lean ====
section
/-! DEFINITION. The commands of the block: one constructor of Instr for each row of spec/opcode_table.json. A request row carries
the tag of its frame and the fields of its body as the bytes spell them (R190 to R201), in range or not; an event row carries
what the outside world decides (a pin level, whether a flash operation verified). -/

namespace Sys2Proof

/-- V0 to V6; V6 is the override voice. -/
abbrev VoiceId := Fin 7

/-- The nine contact inputs: 0 to 7 are TI0 to TI7, 8 is OVR (R145). -/
abbrev InputId := Fin 9

/-- The level of a contact input (R145). -/
inductive Level where
  | opened
  | closed
  deriving DecidableEq, Repr

/-- The six bytes of a start order (R196). -/
structure RawOrder where
  program     : Byte
  zones       : SetByte
  priority    : Byte
  wait        : Byte
  partialOpt  : Byte
  suspendable : Byte
  deriving DecidableEq, Repr

/-- The seven bytes of a step record (R196). -/
structure RawStep where
  kind  : Byte
  clip  : Byte
  count : Byte
  limit : BitVec 16
  gap   : BitVec 16
  deriving DecidableEq, Repr

/-- The twelve bytes of a cue record (R196). -/
structure RawCue where
  hour   : Byte
  minute : Byte
  second : Byte
  days   : SetByte
  rept   : Byte
  state  : Byte
  order  : RawOrder
  deriving DecidableEq, Repr

/-- The body of TRIG.SET after the input number (R199). -/
structure RawTrigger where
  action         : Byte
  edge           : Byte
  order          : RawOrder
  stopPriority   : Byte
  releaseProgram : Byte
  log            : Byte
  deriving DecidableEq, Repr

/-- A whole request frame as received: the start byte and the two length bytes are implied by R193 (the body length is the
length of the body received), `crc` is the number its last two bytes spell. -/
structure Frame where
  kind : Byte
  tag  : Byte
  body : List Byte
  crc  : BitVec 16
  deriving DecidableEq, Repr

/-- The 71 commands of spec/opcode_table.json. -/
inductive Instr where
  -- Reset and the receiver (R166, R176 to R180)
  | reset
  | resetAsserted
  | frameComplete (f : Frame)
  | frameCrcError (f : Frame)
  | overrun (f : Frame)
  | frameLengthDrop (length : BitVec 16)
  | linkTimeout
  | byteError
  | replySent
  -- Link requests (R185 to R188)
  | ident (tag : Byte)
  | report (tag : Byte)
  | eventsMask (tag : Byte) (mask : BitVec 24)
  | restart (tag : Byte)
  -- Store requests (R21 to R25)
  | storeStatus (tag : Byte)
  | storeConfig (tag : Byte) (deferErase : Byte)
  | storeInspect (tag : Byte) (block : BitVec 16) (page : Byte)
  | storeFormat (tag : Byte)
  -- Clip requests (R34 to R50)
  | clipOpen (tag clip format rate protect : Byte) (name : Vector Byte 16)
  | clipData (tag clip : Byte) (offset : BitVec 32) (chunk : List Byte)
  | clipClose (tag clip : Byte)
  | clipAbort (tag clip : Byte)
  | clipErase (tag clip : Byte)
  | clipRead (tag clip : Byte) (offset : BitVec 32) (length : BitVec 16)
  | clipInfo (tag clip : Byte)
  | clipList (tag first : Byte)
  -- Program requests (R56 to R63)
  | progWrite (tag program cycle count : Byte) (steps : List RawStep)
  | progRead (tag program : Byte)
  | progDelete (tag program : Byte)
  -- Voice requests (R68 to R97)
  | voiceStart (tag : Byte) (order : RawOrder)
  | voicePrepare (tag : Byte) (order : RawOrder)
  | voiceGo (tag : Byte) (start : BitVec 32)
  | voiceStop (tag : Byte) (start : BitVec 32) (mode : Byte)
  | voicePause (tag : Byte) (start : BitVec 32)
  | voiceResume (tag : Byte) (start : BitVec 32)
  | voiceRelease (tag : Byte) (start : BitVec 32)
  | voiceStatus (tag voice : Byte)
  | voiceConfig (tag mode : Byte)
  -- Zone and output requests (R112 to R120)
  | zoneSet (tag zone level enabled : Byte)
  | zoneStatus (tag : Byte)
  | outputHalt (tag force : Byte)
  | outputRun (tag : Byte)
  -- Clock and cue requests (R131 to R143)
  | clockSet (tag weekday hour minute second tenth start : Byte)
  | clockStart (tag : Byte)
  | clockRead (tag : Byte)
  | cueWrite (tag cue : Byte) (record : RawCue)
  | cueRead (tag cue : Byte)
  | cueEnable (tag cue : Byte)
  | cueDisable (tag cue : Byte)
  | cueDelete (tag cue : Byte)
  -- Trigger and override requests (R148 to R164)
  | trigSet (tag input : Byte) (entry : RawTrigger)
  | trigRead (tag : Byte)
  | trigStatus (tag : Byte)
  | overrideSet (tag program level : Byte)
  | overrideClear (tag : Byte)
  | overrideStatus (tag : Byte)
  -- Flash completions (R17 to R20, R167)
  | fetchComplete (payloadGood : Bool)
  | clipReadReadbackComplete (payloadGood : Bool)
  | inspectReadbackComplete (tagGood : Bool)
  | pageProgramComplete (verified : Bool)
  | blockEraseComplete (verified : Bool)
  | scanReadComplete (tagGood payloadGood : Bool)
  -- Playing (R80, R81, R84, R89, R72, R106)
  | frameEvent
  | starved (voice : VoiceId)
  | gapTimerExpiry (voice : VoiceId)
  | holdTimerExpiry (voice : VoiceId)
  | discardTimerExpiry (voice : VoiceId)
  | waitTimerExpiry (voice : VoiceId)
  -- Time base and inputs (R123, R145)
  | tenthEvent
  | pinChange (input : InputId) (level : Level)
  | settleTimerExpiry (input : InputId)
  | startByte
  deriving DecidableEq, Repr

end Sys2Proof
end

