-- ==== Sys2Proof/Decode.lean ====
section
/-! DEFINITION. The commands that a word of the opcode table spells. The 4610 is a block: no row of its table gives bits, so no
word spells a command. The frames of the serial link, which do carry requests as bytes, are read in Machine/RequestFrames.lean. -/

namespace Sys2Proof

/-- No row of spec/opcode_table.json gives bits, so no word spells a command. -/
def decodeTableWord (_nbits _w : Nat) : Option Instr := none

end Sys2Proof
end

