-- ==== Sys2Proof/Config.lean ====
section
/-! DEFINITION. What one part fixes (the capacities of R187) and the free values: what the flash holds after an operation
that a reset cut short or that failed, which the manual leaves open (R13, 8.7, 11.4; log entry 1). -/

namespace Sys2Proof

/-- What an operation that was cut short, or that failed, left of one flash page (R13, section 8.7). -/
inductive PageResidue where
  | complete      -- the page is as the operation would have left it
  | untouched     -- the page is as the operation found it
  | tagErased     -- the tag reads erased, the payload holds any bytes
  | tagUnreadable -- the tag fails its check, the payload holds any bytes
  deriving DecidableEq, Repr, Inhabited

namespace Config

/-- FREE VALUE (log entry 1). The residue of a page of the operation numbered by the state's free counter. -/
opaque residue : Nat → Nat → PageResidue

/-- FREE VALUE (log entry 1). A payload byte of such a page: operation, page, byte. -/
opaque residueByte : Nat → Nat → Nat → Byte

/-- Payload bytes of a flash page (R1). -/
def pageBytes : Nat := 2048
/-- Pages of a flash block (R1). -/
def pagesPerBlock : Nat := 16
/-- Payload bytes of a flash block (R1). -/
def blockBytes : Nat := 32768
/-- Flash blocks (R1). -/
def blockCount : Nat := 2048
/-- Bytes the load buffer holds at most (R10). -/
def loadBufferBytes : Nat := 8192
/-- Blocks of one clip at most (R28). -/
def blocksPerClip : Nat := 512
/-- Bytes of a frame body at most (R176). -/
def largestBody : Nat := 520
/-- Bytes of a CLIP.DATA chunk, and of a CLIP.READ span, at most (R36, R47). -/
def largestChunk : Nat := 512
/-- Steps of a program at most (R53). -/
def stepsPerProgram : Nat := 12
/-- Entries of the trigger FIFO at most (R155). -/
def triggerFifoEntries : Nat := 16
/-- Entries of one CLIP.LIST reply at most (R50). -/
def clipListEntries : Nat := 64
/-- Consecutive underrun frames at which a voice is STARVED (R81). -/
def starvedFrames : Nat := 1600
/-- The greatest start number, load number and total underrun count (R67, R9, R198). -/
def greatestNumber : Nat := 4294967295
/-- The greatest pass count and link count (R65, R183). -/
def greatestCount : Nat := 65535

end Config

end Sys2Proof
end

