-- ==== Sys2Proof/Machine/State.lean ====
section
/-! DEFINITION. Everything the 4610 holds, block by block as the introduction of the manual lists them (00_scope.md, Block Diagram),
with the queue of commands that wait; the reasons a step could stop; the state right after reset. -/

namespace Sys2Proof.Machine

/-! ### Names and numbers (00_scope.md, Names and Numbering) -/

/-- Clip ids 1 to 255; the clip numbered n is `n - 1` here. -/
abbrev ClipId := Fin 255
/-- Program ids 1 to 32; the program numbered n is `n - 1` here. -/
abbrev ProgramId := Fin 32
/-- Cue numbers 1 to 96; the cue numbered n is `n - 1` here. -/
abbrev CueId := Fin 96
/-- Zones Z0 to Z7. -/
abbrev ZoneId := Fin 8
/-- Trigger inputs TI0 to TI7. -/
abbrev TriggerId := Fin 8
/-- Flash blocks 0 to 2047. -/
abbrev BlockNo := Fin 2048
/-- Pages 0 to 15 within a block. -/
abbrev PageNo := Fin 16

/-- A table with one entry for each key: a list of keys and entries; a key it does not list reads as the table's own
default (Table.read). -/
abbrev Table (α : Type) := List (Nat × α)

/-- The status codes (R195). -/
inductive Status where
  | ok | unknownKind | badLength | badField | starting | busy | notFound | already | inUse | protected_ | locked | noVoice
  | noZone | noSpace | full | offset | notReady | failed | tooLate | stale | notHolding | lineActive | wrongState
  deriving DecidableEq, Repr

/-! ### The sample flash (chapter 1) -/

/-- The spare area of a flash page (R2): erased, or the bytes of a tag (R200) with the outcome of the tag's own check. -/
inductive Spare where
  | erased
  | written (bytes : List Byte) (checkGood : Bool)
  deriving DecidableEq, Repr

/-- One flash page: 2048 bytes of payload and the spare area (R1). -/
structure FlashPage where
  payload : List Byte
  spare   : Spare
  deriving DecidableEq, Repr

/-- The flash: page address (16 × block + page) and page, addresses strictly rising, no erased page listed (Memory.wf). -/
abbrev Memory := List (Nat × FlashPage)

/-! ### Clips (chapter 2) -/

/-- R30 to R32. -/
inductive Format where
  | s16 | s24 | l8
  deriving DecidableEq, Repr

/-- R27. -/
inductive Rate where
  | khz8 | khz16
  deriving DecidableEq, Repr

/-- The states of a clip record other than ABSENT (R29). -/
inductive ClipState where
  | opened | failed | closing | ready | erasing
  deriving DecidableEq, Repr

/-- A clip record that is not ABSENT (R27). `places` is the block list: place k holds a block or is vacated (R28). -/
structure Clip where
  state      : ClipState
  format     : Format
  rate       : Rate
  protect    : Bool
  name       : List Byte
  load       : Nat
  places     : List (Option BlockNo)
  accepted   : Nat
  programmed : Nat
  samples    : Option Nat
  deriving DecidableEq, Repr

/-- The header a page tag carries on page 0 of block sequence 0 (R2). -/
structure Header where
  format  : Format
  rate    : Rate
  protect : Bool
  name    : List Byte
  deriving DecidableEq, Repr

/-- A page tag (R2): the sample count is present on the final page only, the header on the first page only. -/
structure Tag where
  clip     : ClipId
  load     : Nat
  sequence : Nat
  page     : PageNo
  final    : Option Nat
  header   : Option Header
  deriving DecidableEq, Repr

/-! ### Store Controller (chapters 1 and 8) -/

/-- R3. -/
inductive StoreState where
  | starting | service | formatting
  deriving DecidableEq, Repr

/-- The state of a block table entry (R4), with owner clip and sequence where OWNED; `unclassified` before the scan has
decided the block. -/
inductive BlockState where
  | unclassified
  | free
  | owned (clip : ClipId) (sequence : Nat)
  | stale
  | retired
  deriving DecidableEq, Repr

/-- A block table entry (section 1.3). -/
structure Block where
  state       : BlockState
  programmed  : Nat
  retireMark  : Bool
  eraseQueued : Bool
  deriving DecidableEq, Repr

/-- A page of the load buffer (R10); `final` is the sample count handed to it at CLIP.CLOSE (R40). -/
structure LoadPage where
  clip     : ClipId
  sequence : Nat
  page     : PageNo
  bytes    : List Byte
  final    : Option Nat
  deriving DecidableEq, Repr

/-- A page program in flight: the payload and the tag composed when it was granted (R2, R18), and the clip bytes it carries. -/
structure ProgramJob where
  clip    : ClipId
  block   : BlockNo
  page    : PageNo
  payload : List Byte
  tag     : List Byte
  carried : Nat
  final   : Bool
  deriving DecidableEq, Repr

/-- The flash port (R13): idle, or the one operation in flight. -/
inductive Port where
  | idle
  | scanRead (block : BlockNo) (page : PageNo)
  | fetch (voice : VoiceId) (block : BlockNo) (page : PageNo)
  | program (job : ProgramJob)
  | readback (block : BlockNo) (page : PageNo)
  | erase (block : BlockNo)
  deriving DecidableEq, Repr

/-- The condition of a page read by the scan (R170). -/
inductive PageCondition where
  | erased
  | valid (tag : Tag)
  | unreadable
  deriving DecidableEq, Repr

/-- A block that the scan found to hold valid pages of one load (R171). -/
structure Candidate where
  block    : BlockNo
  clip     : ClipId
  load     : Nat
  sequence : Nat
  pages    : Nat
  final    : Option Nat
  header   : Option Header
  deriving DecidableEq, Repr

/-- What the scan has found so far (R167 to R172): the conditions of the pages of the block being read, the candidates in
block order, and for each clip the greatest load number any valid tag carries (0 for none). -/
structure Scan where
  pages      : List PageCondition
  candidates : List Candidate
  greatest   : Table Nat
  deriving DecidableEq, Repr

/-- The Store Controller. `loadCounter` is none when exhausted (R9); an unlisted block is a FREE one. -/
structure Store where
  state       : StoreState
  blocks      : Table Block
  eraseQueue  : List BlockNo
  buffer      : List LoadPage
  cursor      : BlockNo
  loadCounter : Option Nat
  deferErase  : Bool
  port        : Port
  readback    : Option (BlockNo × PageNo)
  scan        : Scan
  deriving DecidableEq, Repr

/-! ### Programs (chapter 3) -/

/-- A step of a program (R54). -/
inductive Step where
  | play (clip : ClipId) (count : Nat)
  | hold (clip : ClipId) (limit : Nat)
  | gap (tenths : Nat)
  | walk (clip : ClipId)
  deriving DecidableEq, Repr

/-- A DEFINED program record (R53). -/
structure Program where
  cycle : Bool
  steps : List Step
  deriving DecidableEq, Repr

/-- A start order (00_scope.md, The Start Order). -/
structure StartOrder where
  program     : ProgramId
  zones       : SetByte
  priority    : Nat
  wait        : Nat
  partialOpt  : Bool
  suspendable : Bool
  deriving DecidableEq, Repr

/-! ### The day clock's time (chapter 6) -/

/-- A weekday and a time of day (R122). -/
structure ClockTime where
  weekday : Nat
  hour    : Nat
  minute  : Nat
  second  : Nat
  tenth   : Nat
  deriving DecidableEq, Repr

/-! ### Voice Engine (chapter 4) -/

/-- R66. -/
inductive VoiceState where
  | idle | prepared | waiting | active | suspended
  deriving DecidableEq, Repr

/-- What asked for a start (R65). -/
inductive Origin where
  | none
  | link
  | cue (number : CueId)
  | input (number : TriggerId)
  | override
  deriving DecidableEq, Repr

/-- What the Clip Map answers about a READY clip (R51). -/
structure ClipAnswer where
  format  : Format
  rate    : Rate
  samples : Nat
  blocks  : List BlockNo
  deriving DecidableEq, Repr

/-- A page in a voice's sample buffer: the clip page, the pass it belongs to counted from the current one, and its bytes;
none is a page replaced by silence after a read error (R77, R78). -/
structure BufferPage where
  page : Nat
  pass : Nat
  data : Option (List Byte)
  deriving DecidableEq, Repr

/-- A voice's outstanding fetch (R16, R77, R79): the flash page, the clip page and pass it is for, the start number it was
requested under, whether it is still to be kept, and whether the arbiter has granted it. -/
structure Fetch where
  block     : BlockNo
  blockPage : PageNo
  page      : Nat
  pass      : Nat
  start     : Nat
  keep      : Bool
  granted   : Bool
  deriving DecidableEq, Repr

/-- R95. -/
inductive EndCause where
  | completed | stopped | preempted | waitExpired | discarded | fault | forced
  deriving DecidableEq, Repr

/-- R93. -/
inductive FaultCode where
  | none | underrun | readError | clipMissing | starved
  deriving DecidableEq, Repr

/-- The end record of a voice (R95); `time` is none for "clock unset". -/
structure EndRecord where
  cause   : EndCause
  fault   : FaultCode
  program : Option ProgramId
  step    : Nat
  origin  : Origin
  start   : Nat
  time    : Option ClockTime
  deriving DecidableEq, Repr

/-- The four fault flags (R93). -/
structure FaultFlags where
  starved     : Bool
  clipMissing : Bool
  readError   : Bool
  underrun    : Bool
  deriving DecidableEq, Repr

/-- A voice context (R65). `start` is 0 while the voice has no start number; `stepProgram` is the program that the last step
start read (R61, R95); the timers hold whole seconds and frames remaining. -/
structure Voice where
  state         : VoiceState
  paused        : Bool
  start         : Nat
  origin        : Origin
  order         : Option StartOrder
  wanted        : SetByte
  stepIndex     : Nat
  stepProgram   : Option ProgramId
  step          : Option Step
  answer        : Option ClipAnswer
  passCount     : Nat
  walkZone      : Option ZoneId
  walked        : SetByte
  position      : Nat
  secondPhase   : Bool
  fetchPage     : Nat
  fetchPass     : Nat
  buffer        : List BufferPage
  fetch         : Option Fetch
  leadIn        : Bool
  releaseMark   : Bool
  holdEndMark   : Bool
  stopAfterPass : Bool
  discardTimer  : Nat
  waitTimer     : Nat
  gapTimer      : Nat
  holdTimer     : Option Nat
  underTotal    : Nat
  underRun      : Nat
  lastSample    : Int
  faults        : FaultFlags
  endRecord     : Option EndRecord
  deriving DecidableEq, Repr

/-- R97. -/
inductive DiscardMode where
  | normal | short
  deriving DecidableEq, Repr

/-- The Voice Engine. -/
structure Engine where
  voices      : Vector Voice 7
  nextStart   : Nat
  discardMode : DiscardMode
  deriving DecidableEq, Repr

/-! ### Zone Arbiter (chapter 5) -/

/-- A zone record (R99): the holder and the holder priority change together. -/
structure Zone where
  holder  : Option (VoiceId × Nat)
  level   : Nat
  enabled : Bool
  deriving DecidableEq, Repr

/-- R119. -/
inductive BusState where
  | halted | running
  deriving DecidableEq, Repr

/-- The Zone Arbiter; `output` is the last zone-bus frame sent: eight slots of 24 bits (R116). -/
structure Arbiter where
  zones   : Vector Zone 8
  waiting : List VoiceId
  bus     : BusState
  output  : Option (Vector (BitVec 24) 8)
  deriving DecidableEq, Repr

/-! ### Day Clock and Schedule (chapter 6) -/

/-- R122. -/
inductive ClockState where
  | unset | held | running
  deriving DecidableEq, Repr

/-- The clock record (R122). -/
structure Clock where
  state : ClockState
  time  : ClockTime
  deriving DecidableEq, Repr

/-- The states of a cue record other than EMPTY (R127). -/
inductive CueState where
  | armed | disabled | spent
  deriving DecidableEq, Repr

/-- R126. -/
inductive Repeat where
  | once | weekly
  deriving DecidableEq, Repr

/-- The contents of a cue record that is not EMPTY (R126). -/
structure CueEntry where
  state  : CueState
  hour   : Nat
  minute : Nat
  second : Nat
  days   : SetByte
  rept   : Repeat
  order  : StartOrder
  deriving DecidableEq, Repr

/-- A cue's last outcome with its outcome time, which NONE lacks (R126). -/
inductive CueOutcome where
  | none
  | started (voice : VoiceId) (start : Nat) (time : ClockTime)
  | missed (status : Status) (time : ClockTime)
  | passed (time : ClockTime)
  deriving DecidableEq, Repr

/-- A cue record: EMPTY when it has no entry (R126). -/
structure Cue where
  entry   : Option CueEntry
  done    : Bool
  outcome : CueOutcome
  deriving DecidableEq, Repr

/-- The Day Clock and Schedule. -/
structure Schedule where
  clock : Clock
  cues  : Table Cue
  deriving DecidableEq, Repr

/-! ### Input Unit (chapter 7) -/

/-- R145. -/
inductive Edge where
  | close | opening
  deriving DecidableEq, Repr

/-- The action of a trigger entry with the fields it has (R147). -/
inductive TriggerAction where
  | none
  | start (edge : Edge) (order : StartOrder)
  | follow (order : StartOrder)
  | stop (edge : Edge) (priority : Nat)
  | release (edge : Edge) (program : ProgramId)
  | mark (edge : Edge)
  deriving DecidableEq, Repr

/-- A trigger entry (R147); `lastStart` is 0 for none. -/
structure TriggerEntry where
  action    : TriggerAction
  log       : Bool
  lastStart : Nat
  deriving DecidableEq, Repr

/-- The action taken at an edge (R149). -/
inductive ActionTaken where
  | none | start | followStart | followStop | stop | release | mark
  deriving DecidableEq, Repr

/-- A trigger FIFO entry (R155). -/
structure FifoEntry where
  input  : TriggerId
  edge   : Edge
  time   : Option ClockTime
  action : ActionTaken
  result : Status
  start  : Nat
  deriving DecidableEq, Repr

/-- R160. -/
inductive OverrideResult where
  | none | pending | started | noProgram | noZone
  deriving DecidableEq, Repr

/-- One contact input (R145): the level at its pin, its debounced level, whether its settle timer runs. -/
structure Input where
  pin      : Level
  level    : Level
  settling : Bool
  deriving DecidableEq, Repr

/-- The Input Unit. -/
structure Inputs where
  inputs          : Vector Input 9
  triggers        : Vector TriggerEntry 8
  fifo            : List FifoEntry
  overflow        : Bool
  latch           : Bool
  overrideResult  : OverrideResult
  overrideProgram : Option ProgramId
  overrideLevel   : Nat
  deriving DecidableEq, Repr

/-! ### Link Controller (chapter 9) -/

/-- The receiver (R176). A frame in progress carries whether a reply was owed when its start byte came (R180). -/
inductive Receiver where
  | hunting
  | receiving (begunOwed : Bool)
  deriving DecidableEq, Repr

/-- A reply whose composing waits on the flash (R25, R47); `taken` is what CLIP.READ has read of its span. -/
inductive HeldReply where
  | clipRead (tag : Byte) (clip : ClipId) (offset length : Nat) (taken : List Byte)
  | inspect (tag : Byte) (block : BlockNo) (page : PageNo)
  deriving DecidableEq, Repr

/-- The owed reply (R179): none, held, or being sent as the bytes of its frame; a reset may follow it (R188). -/
inductive Owed where
  | none
  | held (reply : HeldReply)
  | sending (frame : List Byte) (thenReset : Bool)
  deriving DecidableEq, Repr

/-- The Link Controller: flag n of `flags` and `mask` is the flag at position n (R195). -/
structure Link where
  receiver   : Receiver
  owed       : Owed
  flags      : BitVec 20
  mask       : BitVec 20
  attn       : Bool
  linkErrors : Nat
  overruns   : Nat
  deriving DecidableEq, Repr

/-! ### The whole part -/

/-- The 4610 and the queue of its waiting commands. `freeCount` is the model's own: it numbers the flash operations whose residue
is a free value (log entry 1). -/
structure State where
  link      : Link
  store     : Store
  flash     : Memory
  clips     : Table (Option Clip)
  programs  : Table (Option Program)
  engine    : Engine
  arbiter   : Arbiter
  schedule  : Schedule
  inputs    : Inputs
  inReset   : Bool
  freeCount : Nat
  pending   : List Instr
  deriving DecidableEq, Repr

/-- The reasons a step could stop with a fault. The manual gives the 4610 none (every trouble is a status, a flag or a count), so
there is no constructor: that no step faults is safe or unsafe only as far as the rules themselves are read right. -/
inductive Fault where
  deriving DecidableEq, Repr

/-- The reasons a step could be refused. -/
inductive Refusal where
  /-- Raised by no arm of exec: every row of the table has its meaning. It would be safe: the model stops where the part goes on. -/
  | notModelled (mnemonic : String)
  deriving DecidableEq, Repr

/-! ### After reset -/

/-- A voice after reset (R98). -/
def Voice.reset : Voice where
  state := .idle
  paused := false
  start := 0
  origin := .none
  order := none
  wanted := 0
  stepIndex := 0
  stepProgram := none
  step := none
  answer := none
  passCount := 0
  walkZone := none
  walked := 0
  position := 0
  secondPhase := false
  fetchPage := 0
  fetchPass := 0
  buffer := []
  fetch := none
  leadIn := false
  releaseMark := false
  holdEndMark := false
  stopAfterPass := false
  discardTimer := 0
  waitTimer := 0
  gapTimer := 0
  holdTimer := none
  underTotal := 0
  underRun := 0
  lastSample := 0
  faults := { starved := false, clipMissing := false, readError := false, underrun := false }
  endRecord := none

/-- A block table entry before the scan has classified it (R26; DESIGN CHOICE for its two silent fields, log entry 2). -/
def Block.unclassified : Block :=
  { state := .unclassified, programmed := 0, retireMark := false, eraseQueued := false }

/-- The machine right after the first reset: every chapter's "values after reset" (R26, R52, R64, R98, R121, R144, R165, R189),
the scan's first read in flight (R167), no command waiting. The flash is all erased and the pins are open: DESIGN CHOICE, log
entries 3 and 5 (a later reset keeps the flash and samples the pins, Machine.afterReset). -/
def State.reset : State where
  link :=
    { receiver := .hunting, owed := .none, flags := 0, mask := BitVec.allOnes 20, attn := false,
      linkErrors := 0, overruns := 0 }
  store :=
    { state := .starting, blocks := (List.range Config.blockCount).map fun b => (b, Block.unclassified),
      eraseQueue := [], buffer := [], cursor := 0, loadCounter := some 1, deferErase := true,
      port := .scanRead 0 0, readback := none, scan := { pages := [], candidates := [], greatest := [] } }
  flash := []
  clips := []
  programs := []
  engine := { voices := Vector.replicate 7 Voice.reset, nextStart := 1, discardMode := .normal }
  arbiter :=
    { zones := Vector.replicate 8 { holder := none, level := 0, enabled := true }, waiting := [],
      bus := .running, output := none }
  schedule :=
    { clock := { state := .unset, time := { weekday := 0, hour := 0, minute := 0, second := 0, tenth := 0 } },
      cues := [] }
  inputs :=
    { inputs := Vector.replicate 9 { pin := .opened, level := .opened, settling := false },
      triggers := Vector.replicate 8 { action := .none, log := false, lastStart := 0 },
      fifo := [], overflow := false, latch := false, overrideResult := .none, overrideProgram := none,
      overrideLevel := 0 }
  inReset := false
  freeCount := 0
  pending := []

end Sys2Proof.Machine
end

