-- ==== Sys2Proof/Machine/Flags.lean ====
section
/-! DEFINITION. The twenty event flags, the attention mask and ATTN (R184 to R186): every setting and clearing of a flag goes
through here, so that ATTN follows at the event that changes its condition. -/

namespace Sys2Proof.Machine

/-- The event flags (section 9.5). -/
inductive EventFlag where
  | voiceEnd (voice : VoiceId)
  | cueFired | cueMissed | trigger | triggerOverflow | underrun | clipReady | clipFailed | eraseDone | formatDone
  | storeFault | overrideOn | overrideOff | startDone
  deriving DecidableEq, Repr

/-- The position of a flag in the flag set (R195). -/
def EventFlag.position : EventFlag → Nat
  | .voiceEnd v => v.val
  | .cueFired => 7
  | .cueMissed => 8
  | .trigger => 9
  | .triggerOverflow => 10
  | .underrun => 11
  | .clipReady => 12
  | .clipFailed => 13
  | .eraseDone => 14
  | .formatDone => 15
  | .storeFault => 16
  | .overrideOn => 17
  | .overrideOff => 18
  | .startDone => 19

/-- The flag set that holds one flag. -/
def EventFlag.bit (f : EventFlag) : BitVec 20 := BitVec.twoPow 20 f.position

/-- ATTN is asserted while a flag is set whose mask setting is on (R185). -/
def attnOf (flags mask : BitVec 20) : Bool := flags &&& mask ≠ 0

/-- The link with these flags and this mask, ATTN following them (R185). -/
def Link.withFlags (l : Link) (flags mask : BitVec 20) : Link :=
  { l with flags := flags, mask := mask, attn := attnOf flags mask }

/-- An event sets its flag; a flag already set stays set (R184). -/
def setFlag (f : EventFlag) (s : State) : State :=
  { s with link := s.link.withFlags (s.link.flags ||| f.bit) s.link.mask }

/-- REPORT clears every flag, and ATTN is deasserted (R186). -/
def clearFlags (s : State) : State :=
  { s with link := s.link.withFlags 0 s.link.mask }

/-- EVENTS.MASK replaces the mask whole (R185). -/
def setMask (mask : BitVec 20) (s : State) : State :=
  { s with link := s.link.withFlags s.link.flags mask }

/-- Whether a flag is set. -/
def State.flagSet (s : State) (f : EventFlag) : Bool := s.link.flags.getLsbD f.position

end Sys2Proof.Machine
end

