-- ==== Sys2Proof/Machine/Ops.lean ====
section
/-! DEFINITION. The named operations every meaning is built from: tables, the flash, the records of State by their own numbers, sets
of zones, numbers as bytes, the CRC and the frame of a reply, and the shape of an event. -/

namespace Sys2Proof.Machine

/-! ### Tables -/

/-- The entry of a key; a key the table does not list reads as `d`. -/
def Table.read {α : Type} (d : α) : Table α → Nat → α
  | [], _ => d
  | (j, x) :: t, k => if k = j then x else Table.read d t k

/-- The table with the entry of a key replaced, keys kept in rising order. -/
def Table.write {α : Type} : Table α → Nat → α → Table α
  | [], k, x => [(k, x)]
  | (j, y) :: t, k, x =>
    if k < j then (k, x) :: (j, y) :: t
    else if k = j then (k, x) :: t
    else (j, y) :: Table.write t k x

/-! ### The sample flash (R1) -/

/-- A page as a block erase leaves it (R1). -/
def FlashPage.erased : FlashPage := { payload := List.replicate Config.pageBytes 255, spare := .erased }

/-- The address of a page: 16 × block + page. -/
def pageAddress (b : BlockNo) (p : PageNo) : Nat := Config.pagesPerBlock * b.val + p.val

/-- The page at an address; an unlisted page reads as erased (R1). -/
def Memory.read : Memory → Nat → FlashPage
  | [], _ => FlashPage.erased
  | (j, x) :: m, a => if a = j then x else Memory.read m a

/-- The flash with one page replaced; writing an erased page removes its entry. -/
def Memory.write : Memory → Nat → FlashPage → Memory
  | [], a, x => if x = FlashPage.erased then [] else [(a, x)]
  | (j, y) :: m, a, x =>
    if a < j then (if x = FlashPage.erased then (j, y) :: m else (a, x) :: (j, y) :: m)
    else if a = j then (if x = FlashPage.erased then m else (a, x) :: m)
    else (j, y) :: Memory.write m a x

/-- The canonical form above a lower bound: addresses strictly rising below 32 768, no erased page, payloads of 2048 bytes. -/
def Memory.wfFrom : Nat → Memory → Bool
  | _, [] => true
  | lo, (a, x) :: m =>
    lo ≤ a && a < Config.pagesPerBlock * Config.blockCount && x ≠ FlashPage.erased
      && x.payload.length = Config.pageBytes && Memory.wfFrom (a + 1) m

/-- The canonical form of the flash. -/
def Memory.wf (m : Memory) : Bool := Memory.wfFrom 0 m

/-- A payload of 2048 bytes: the bytes given, beyond them 0 (R1). -/
def padPayload (bytes : List Byte) : List Byte :=
  (bytes ++ List.replicate Config.pageBytes 0).take Config.pageBytes

/-- One payload byte of the flash. -/
def Memory.byteAt (m : Memory) (b : BlockNo) (p : PageNo) (i : Nat) : Byte :=
  (m.read (pageAddress b p)).payload.getD i 255

/-- All pages of a block in ascending order. -/
def allPages : List PageNo := List.finRange 16

/-- A page that held `old` and was to become `new`, as its residue says; the bytes are free values (R13; log entry 1). -/
def residuePage (r : PageResidue) (count page : Nat) (old new : FlashPage) : FlashPage :=
  let bytes := (List.range Config.pageBytes).map (Config.residueByte count page)
  match r with
  | .complete => new
  | .untouched => old
  | .tagErased => { payload := bytes, spare := .erased }
  | .tagUnreadable => { payload := bytes, spare := .written [] false }

/-- After a program that failed the page is no longer erased (R18). -/
def failedProgramResidue : PageResidue → PageResidue
  | .untouched => .tagUnreadable
  | r => r

/-- A page program writes payload and tag together (R1). -/
def programmedPage (j : ProgramJob) : FlashPage :=
  { payload := padPayload j.payload, spare := .written j.tag true }

/-- The flash after a page program that verified (R1, R18). -/
def flashProgrammed (j : ProgramJob) (m : Memory) : Memory :=
  m.write (pageAddress j.block j.page) (programmedPage j)

/-- The flash after a page program that left the residue `r` (R13, R18; log entry 1). -/
def flashProgramResidue (r : PageResidue) (count : Nat) (j : ProgramJob) (m : Memory) : Memory :=
  let a := pageAddress j.block j.page
  m.write a (residuePage r count j.page.val (m.read a) (programmedPage j))

/-- The flash after a block erase that verified: all 16 pages erased (R1, R20). -/
def flashErased (b : BlockNo) (m : Memory) : Memory :=
  allPages.foldl (fun m p => m.write (pageAddress b p) FlashPage.erased) m

/-- The flash after a block erase that was cut short or failed (R13, R20; log entry 1). -/
def flashEraseResidue (count : Nat) (b : BlockNo) (m : Memory) : Memory :=
  allPages.foldl (fun m p =>
    let a := pageAddress b p
    m.write a (residuePage (Config.residue count p.val) count p.val (m.read a) FlashPage.erased)) m

/-! ### The records of State by their numbers -/

/-- V0 to V6 in ascending order. -/
def allVoices : List VoiceId := [0, 1, 2, 3, 4, 5, 6]
/-- V0 to V5, the general voices, in ascending order. -/
def generalVoices : List VoiceId := [0, 1, 2, 3, 4, 5]
/-- V6, the override voice. -/
def overrideVoice : VoiceId := 6
/-- Z0 to Z7 in ascending order. -/
def allZones : List ZoneId := [0, 1, 2, 3, 4, 5, 6, 7]
/-- OVR among the nine inputs. -/
def overrideInput : InputId := 8

/-- A FREE block table entry (R4). -/
def Block.free : Block := { state := .free, programmed := 0, retireMark := false, eraseQueued := false }

/-- The block table entry of a block; an unlisted block is FREE. -/
def State.block (s : State) (b : BlockNo) : Block := s.store.blocks.read Block.free b.val
/-- The state with one block table entry replaced. -/
def State.setBlock (s : State) (b : BlockNo) (x : Block) : State :=
  { s with store.blocks := s.store.blocks.write b.val x }

/-- The record of a clip; none is ABSENT. -/
def State.clip (s : State) (c : ClipId) : Option Clip := s.clips.read none c.val
/-- The state with one clip record replaced. -/
def State.setClip (s : State) (c : ClipId) (x : Option Clip) : State :=
  { s with clips := s.clips.write c.val x }

/-- The record of a program; none is EMPTY. -/
def State.program (s : State) (p : ProgramId) : Option Program := s.programs.read none p.val
/-- The state with one program record replaced. -/
def State.setProgram (s : State) (p : ProgramId) (x : Option Program) : State :=
  { s with programs := s.programs.write p.val x }

/-- An EMPTY cue record (R144). -/
def Cue.empty : Cue := { entry := none, done := false, outcome := .none }
/-- The record of a cue. -/
def State.cue (s : State) (c : CueId) : Cue := s.schedule.cues.read Cue.empty c.val
/-- The state with one cue record replaced. -/
def State.setCue (s : State) (c : CueId) (x : Cue) : State :=
  { s with schedule.cues := s.schedule.cues.write c.val x }

/-- The context of a voice. -/
def State.voice (s : State) (v : VoiceId) : Voice := s.engine.voices[v]
/-- The state with one voice context replaced. -/
def State.setVoice (s : State) (v : VoiceId) (x : Voice) : State :=
  { s with engine.voices := s.engine.voices.set v x }

/-- The record of a zone. -/
def State.zone (s : State) (z : ZoneId) : Zone := s.arbiter.zones[z]
/-- The state with one zone record replaced. -/
def State.setZone (s : State) (z : ZoneId) (x : Zone) : State :=
  { s with arbiter.zones := s.arbiter.zones.set z x }

/-- A contact input. -/
def State.input (s : State) (i : InputId) : Input := s.inputs.inputs[i]
/-- The state with one contact input replaced. -/
def State.setInput (s : State) (i : InputId) (x : Input) : State :=
  { s with inputs.inputs := s.inputs.inputs.set i x }

/-- The trigger entry of an input. -/
def State.trigger (s : State) (t : TriggerId) : TriggerEntry := s.inputs.triggers[t]
/-- The state with one trigger entry replaced. -/
def State.setTrigger (s : State) (t : TriggerId) (x : TriggerEntry) : State :=
  { s with inputs.triggers := s.inputs.triggers.set t x }

/-- The state with the flash port as given. -/
def State.setPort (s : State) (p : Port) : State := { s with store.port := p }

/-- Whether a clip is READY (R29). -/
def State.clipReady (s : State) (c : ClipId) : Bool :=
  match s.clip c with
  | some x => x.state = .ready
  | none => false

/-- The time a record carries: none is "clock unset" (R125). -/
def State.clockTime (s : State) : Option ClockTime :=
  match s.schedule.clock.state with
  | .unset => none
  | _ => some s.schedule.clock.time

/-! ### Sets of zones -/

/-- Membership of a zone set (R191). -/
def hasZone (zs : SetByte) (z : ZoneId) : Bool := zs.getLsbD z.val
/-- The set of one zone. -/
def oneZone (z : ZoneId) : SetByte := BitVec.twoPow 8 z.val
/-- The set with a zone added. -/
def addZone (zs : SetByte) (z : ZoneId) : SetByte := zs ||| oneZone z
/-- The set without a zone. -/
def dropZone (zs : SetByte) (z : ZoneId) : SetByte := zs &&& ~~~ oneZone z
/-- The set of the zones that satisfy a test. -/
def zonesWhere (p : ZoneId → Bool) : SetByte :=
  allZones.foldl (fun zs z => if p z then addZone zs z else zs) 0
/-- The lowest zone of a set that satisfies a test. -/
def lowestZone (zs : SetByte) (p : ZoneId → Bool) : Option ZoneId :=
  allZones.find? fun z => hasZone zs z && p z

/-- Whether a voice holds a zone (R99). -/
def State.holds (s : State) (v : VoiceId) (z : ZoneId) : Bool :=
  match (s.zone z).holder with
  | some (w, _) => w = v
  | none => false
/-- The held set of a voice, read from the zone table (R99). -/
def State.heldSet (s : State) (v : VoiceId) : SetByte := zonesWhere (s.holds v)
/-- The set of the enabled zones. -/
def State.enabledSet (s : State) : SetByte := zonesWhere fun z => (s.zone z).enabled

/-! ### Numbers as bytes (R190) -/

/-- The low byte of a number. -/
def byteOf (n : Nat) : Byte := BitVec.ofNat 8 n
/-- A number of two bytes, least significant first. -/
def le16 (n : Nat) : List Byte := [byteOf n, byteOf (n / 256)]
/-- A number of four bytes, least significant first. -/
def le32 (n : Nat) : List Byte := [byteOf n, byteOf (n / 256), byteOf (n / 65536), byteOf (n / 16777216)]
/-- The number that bytes spell, least significant first. -/
def fromLe : List Byte → Nat
  | [] => 0
  | b :: bs => b.toNat + 256 * fromLe bs
/-- A yes-or-no field: 1 is yes (R190). -/
def yesNo (b : Bool) : Byte := if b then 1 else 0
/-- A count that stays at its greatest value when it would rise (R183, R65). -/
def riseTo (greatest n : Nat) : Nat := if n < greatest then n + 1 else n

/-! ### The CRC and the frame (R177, R193) -/

/-- One bit of the CRC register's division by x¹⁶ + x¹² + x⁵ + 1. -/
def crcShift (r : BitVec 16) : BitVec 16 :=
  if r.msb then (r <<< 1) ^^^ 0x1021#16 else r <<< 1

/-- One byte enters the CRC register, most significant bit first. -/
def crcByte (r : BitVec 16) (b : Byte) : BitVec 16 :=
  Nat.repeat crcShift 8 (r ^^^ (b.zeroExtend 16 <<< 8))

/-- The CRC of a run of bytes: preset to 65 535, no final inversion (R177). -/
def crc16 (bytes : List Byte) : BitVec 16 := bytes.foldl crcByte 0xFFFF#16

/-- The bytes of a frame that its CRC covers: length, kind, tag and body (R177). -/
def crcCover (kind tag : Byte) (body : List Byte) : List Byte := le16 body.length ++ kind :: tag :: body

/-- The CRC a frame of this content must carry. -/
def frameCrc (kind tag : Byte) (body : List Byte) : BitVec 16 := crc16 (crcCover kind tag body)

/-- A whole frame as its bytes on the line (R193). -/
def frameBytes (kind tag : Byte) (body : List Byte) : List Byte :=
  165 :: crcCover kind tag body ++ le16 (frameCrc kind tag body).toNat

/-! ### The shape of a command -/

/-- Every meaning answers a next state. -/
abbrev Result := Host.Outcome State Fault Refusal

/-- An event: held in reset nothing comes about (R166), otherwise `f` does. -/
def event (f : State → State) (s : State) : Result := .next (if s.inReset then s else f s)

/-- An event that comes about only where the state admits it (log entry 12). -/
def eventWhen (guard : State → Bool) (f : State → State) (s : State) : Result :=
  event (fun s => if guard s then f s else s) s

/-- What the owning block gives the Link Controller for a request: a reply body, or a reply held for the flash (R179). -/
inductive Reply where
  | body (bytes : List Byte)
  | held (reply : HeldReply)
  deriving DecidableEq, Repr

/-- A request as its block serves it: the state after it and the reply. -/
structure Served where
  state : State
  reply : Reply

/-- The numeric value of a status (R195). -/
def Status.code : Status → Byte
  | .ok => 0 | .unknownKind => 1 | .badLength => 2 | .badField => 3 | .starting => 4 | .busy => 5 | .notFound => 6
  | .already => 7 | .inUse => 8 | .protected_ => 9 | .locked => 10 | .noVoice => 11 | .noZone => 12 | .noSpace => 13
  | .full => 14 | .offset => 15 | .notReady => 16 | .failed => 17 | .tooLate => 18 | .stale => 19 | .notHolding => 20
  | .lineActive => 21 | .wrongState => 22

/-- A reply of a status and fields, taken with the state as given. -/
def answer (s : State) (st : Status) (fields : List Byte) : Served := { state := s, reply := .body (st.code :: fields) }

/-- A refusal or an acceptance that carries its status alone (R182). -/
def answerOnly (s : State) (st : Status) : Served := answer s st []

/-- The reply becomes owed: its whole frame is being sent, or it is held (R179, R182). -/
def owe (kind tag : Byte) (thenReset : Bool) (v : Served) : State :=
  match v.reply with
  | .body bytes => { v.state with link.owed := .sending (frameBytes kind tag bytes) thenReset }
  | .held h => { v.state with link.owed := .held h }

/-- Whether the frame that ends now was begun while a reply was owed (R180). In HUNTING the command stands for the whole frame,
its start byte included (log entry 14). -/
def State.frameIsLate (s : State) : Bool :=
  match s.link.receiver with
  | .receiving late => late
  | .hunting => s.link.owed ≠ .none

/-- The receiver looks for the next start byte. -/
def hunt (s : State) : State := { s with link.receiver := .hunting }

/-- A good frame ends: an overrun is counted and dropped, any other request is taken (R179 to R181). -/
def requestFrame (kind tag : Byte) (thenReset : Bool) (serve : State → Served) (s : State) : State :=
  if s.frameIsLate then
    hunt { s with link.overruns := riseTo Config.greatestCount s.link.overruns }
  else owe kind tag thenReset (serve (hunt s))

/-- The meaning of a request row: its request's frame ends with a good CRC (log entry 15). -/
def request (kind tag : Byte) (serve : State → Served) (s : State) : Result :=
  event (requestFrame kind tag false serve) s

end Sys2Proof.Machine
end

