-- ==== Sys2Proof/Machine/Operands.lean ====
section
/-! DEFINITION. Every operand form of the link: the fields of request bodies as the rules admit them (none is out of range, R190), and
the fields of replies and page tags as they are written (R191 to R201). -/

namespace Sys2Proof.Machine

/-! ### Ranges -/

/-- A number from 1 to n, as an index from 0. -/
def oneBased (n m : Nat) : Option (Fin n) :=
  if h : 1 ≤ m ∧ m ≤ n then some ⟨m - 1, by omega⟩ else none

/-- A number below n. -/
def below (n m : Nat) : Option (Fin n) := if h : m < n then some ⟨m, h⟩ else none

/-- A yes-or-no field (R190). -/
def readYesNo (b : Byte) : Option Bool :=
  if b = 0 then some false else if b = 1 then some true else none

/-- A clip id, 1 to 255. -/
def readClip (b : Byte) : Option ClipId := oneBased 255 b.toNat
/-- A program id, 1 to 32. -/
def readProgram (b : Byte) : Option ProgramId := oneBased 32 b.toNat
/-- A cue number, 1 to 96. -/
def readCue (b : Byte) : Option CueId := oneBased 96 b.toNat

/-- The number of a clip, program or cue as the link carries it. -/
def numberByte {n : Nat} (i : Fin n) : Byte := byteOf (i.val + 1)

/-! ### Enumerated fields -/

/-- R194. -/
def Format.code : Format → Byte
  | .s16 => 1 | .s24 => 2 | .l8 => 3
/-- R194. -/
def readFormat (b : Byte) : Option Format :=
  if b = 1 then some .s16 else if b = 2 then some .s24 else if b = 3 then some .l8 else none
/-- R194. -/
def Rate.code : Rate → Byte
  | .khz8 => 1 | .khz16 => 2
/-- R194. -/
def readRate (b : Byte) : Option Rate :=
  if b = 1 then some .khz8 else if b = 2 then some .khz16 else none
/-- R199. -/
def Edge.code : Edge → Byte
  | .close => 1 | .opening => 2
/-- R199. -/
def readEdge (b : Byte) : Option Edge :=
  if b = 1 then some .close else if b = 2 then some .opening else none
/-- R196. -/
def Repeat.code : Repeat → Byte
  | .once => 1 | .weekly => 2
/-- R196. -/
def readRepeat (b : Byte) : Option Repeat :=
  if b = 1 then some .once else if b = 2 then some .weekly else none
/-- R196. -/
def CueState.code : CueState → Byte
  | .armed => 1 | .disabled => 2 | .spent => 3
/-- The initial states that CUE.WRITE may ask for (R138, R196). -/
def readInitialState (b : Byte) : Option CueState :=
  if b = 1 then some .armed else if b = 2 then some .disabled else none
/-- R198. -/
def VoiceState.code : VoiceState → Byte
  | .idle => 0 | .prepared => 1 | .waiting => 2 | .active => 3 | .suspended => 4
/-- R198. -/
def StoreState.code : StoreState → Byte
  | .starting => 0 | .service => 1 | .formatting => 2
/-- R201. -/
def ClipState.code : ClipState → Byte
  | .opened => 1 | .failed => 2 | .closing => 3 | .ready => 4 | .erasing => 5
/-- R201. -/
def ClockState.code : ClockState → Byte
  | .unset => 0 | .held => 1 | .running => 2
/-- R201. -/
def BusState.code : BusState → Byte
  | .halted => 0 | .running => 1
/-- R201. -/
def levelCode : Level → Byte
  | .opened => 0 | .closed => 1
/-- R201. -/
def OverrideResult.code : OverrideResult → Byte
  | .none => 0 | .pending => 1 | .started => 2 | .noProgram => 3 | .noZone => 4
/-- R200. -/
def BlockState.code : BlockState → Byte
  | .unclassified => 0 | .free => 0 | .owned _ _ => 1 | .stale => 2 | .retired => 3
/-- R198. -/
def EndCause.code : EndCause → Byte
  | .completed => 1 | .stopped => 2 | .preempted => 3 | .waitExpired => 4 | .discarded => 5 | .fault => 6 | .forced => 7
/-- R198. -/
def FaultCode.code : FaultCode → Byte
  | .none => 0 | .underrun => 1 | .readError => 2 | .clipMissing => 3 | .starved => 4
/-- R199. -/
def ActionTaken.code : ActionTaken → Byte
  | .none => 0 | .start => 1 | .followStart => 2 | .followStop => 3 | .stop => 4 | .release => 5 | .mark => 6

/-! ### Start orders, steps, cues, trigger entries -/

/-- A start order, none when a field of it is out of range (check 3 of R69). -/
def readOrder (r : RawOrder) : Option StartOrder := do
  let program ← readProgram r.program
  let partialOpt ← readYesNo r.partialOpt
  let suspendable ← readYesNo r.suspendable
  if r.zones ≠ 0 ∧ r.priority.toNat ≤ 14 then
    some { program, zones := r.zones, priority := r.priority.toNat, wait := r.wait.toNat, partialOpt, suspendable }
  else none

/-- A start order as six bytes (R196). -/
def StartOrder.bytes (o : StartOrder) : List Byte :=
  [numberByte o.program, o.zones, byteOf o.priority, byteOf o.wait, yesNo o.partialOpt, yesNo o.suspendable]

/-- The six zeros of an absent start order (R190). -/
def noOrder : List Byte := List.replicate 6 0

/-- A start order that is absent is written as zeros (R190). -/
def orderBytes : Option StartOrder → List Byte
  | some o => o.bytes
  | none => noOrder

/-- A step, none when its record is faulty (R54, R57). -/
def readStep (r : RawStep) : Option Step :=
  if r.kind = 1 then do
    let clip ← readClip r.clip
    if 1 ≤ r.count.toNat ∧ r.count.toNat ≤ 15 ∧ r.limit = 0 ∧ r.gap = 0 then some (.play clip r.count.toNat) else none
  else if r.kind = 2 then do
    let clip ← readClip r.clip
    if r.limit.toNat ≤ 3600 ∧ r.count = 0 ∧ r.gap = 0 then some (.hold clip r.limit.toNat) else none
  else if r.kind = 3 then
    if 1 ≤ r.gap.toNat ∧ r.gap.toNat ≤ 600 ∧ r.clip = 0 ∧ r.count = 0 ∧ r.limit = 0 then some (.gap r.gap.toNat) else none
  else if r.kind = 4 then do
    let clip ← readClip r.clip
    if r.count = 0 ∧ r.limit = 0 ∧ r.gap = 0 then some (.walk clip) else none
  else none

/-- A step as seven bytes, unused fields 0 (R196). -/
def Step.bytes : Step → List Byte
  | .play c n => [1, numberByte c, byteOf n] ++ le16 0 ++ le16 0
  | .hold c limit => [2, numberByte c, 0] ++ le16 limit ++ le16 0
  | .gap tenths => [3, 0, 0] ++ le16 0 ++ le16 tenths
  | .walk c => [4, numberByte c, 0] ++ le16 0 ++ le16 0

/-- An absent step is written as zeros (R190). -/
def stepBytes : Option Step → List Byte
  | some p => p.bytes
  | none => List.replicate 7 0

/-- The clip a step names (R60). -/
def Step.clip? : Step → Option ClipId
  | .play c _ => some c
  | .hold c _ => some c
  | .gap _ => none
  | .walk c => some c

/-- The contents of a cue, none when a field is out of range (R138). -/
def readCueEntry (r : RawCue) : Option CueEntry := do
  let rept ← readRepeat r.rept
  let state ← readInitialState r.state
  let order ← readOrder r.order
  if r.hour.toNat ≤ 23 ∧ r.minute.toNat ≤ 59 ∧ r.second.toNat ≤ 59 ∧ r.days ≠ 0 ∧ r.days.msb = false then
    some { state, hour := r.hour.toNat, minute := r.minute.toNat, second := r.second.toNat, days := r.days, rept, order }
  else none

/-- The action of a trigger entry, none when a field it uses is out of range (R148); fields it does not use are disregarded. -/
def readAction (r : RawTrigger) : Option TriggerAction :=
  if r.action = 0 then some .none
  else if r.action = 1 then do
    let edge ← readEdge r.edge
    let order ← readOrder r.order
    some (.start edge order)
  else if r.action = 2 then do
    let order ← readOrder r.order
    some (.follow order)
  else if r.action = 3 then do
    let edge ← readEdge r.edge
    if r.stopPriority.toNat ≤ 14 then some (.stop edge r.stopPriority.toNat) else none
  else if r.action = 4 then do
    let edge ← readEdge r.edge
    let program ← readProgram r.releaseProgram
    some (.release edge program)
  else if r.action = 5 then do
    let edge ← readEdge r.edge
    some (.mark edge)
  else none

/-- The action, edge, start order, stop priority and release program of an entry, absent fields 0 (R201). -/
def TriggerAction.bytes : TriggerAction → List Byte
  | .none => [0, 0] ++ noOrder ++ [0, 0]
  | .start e o => [1, e.code] ++ o.bytes ++ [0, 0]
  | .follow o => [2, 0] ++ o.bytes ++ [0, 0]
  | .stop e p => [3, e.code] ++ noOrder ++ [byteOf p, 0]
  | .release e p => [4, e.code] ++ noOrder ++ [0, numberByte p]
  | .mark e => [5, e.code] ++ noOrder ++ [0, 0]

/-! ### Text and times (R191, R192) -/

/-- A printable character. -/
def printable (b : Byte) : Bool := 32 ≤ b.toNat && b.toNat ≤ 126

/-- The text of a text field: the run of bytes before the first 0; none when a character is not printable or a byte after
the first 0 is not 0 (R191). -/
def readText (bytes : List Byte) : Option (List Byte) :=
  let text := bytes.takeWhile (· ≠ 0)
  let rest := bytes.dropWhile (· ≠ 0)
  if text.all printable && rest.all (· = 0) then some text else none

/-- A text field of 16 bytes (R191). -/
def textField (text : List Byte) : List Byte := (text ++ List.replicate 16 0).take 16

/-- A time of day as five bytes (R192). -/
def ClockTime.bytes (t : ClockTime) : List Byte :=
  [byteOf t.weekday, byteOf t.hour, byteOf t.minute, byteOf t.second, byteOf t.tenth]

/-- "Clock unset" is written as 255 in all five bytes (R192). -/
def timeBytes : Option ClockTime → List Byte
  | some t => t.bytes
  | none => List.replicate 5 255

/-! ### Page tags (R2, R170, R200) -/

/-- The tag fields as the spare area holds them: offsets 9 to 41 of R200. -/
def Tag.bytes (t : Tag) : List Byte :=
  numberByte t.clip :: le32 t.load ++ le16 t.sequence ++ [byteOf t.page.val, yesNo t.final.isSome]
    ++ le32 (t.final.getD 0)
    ++ match t.header with
       | none => List.replicate 20 0
       | some h => [1, h.format.code, h.rate.code, yesNo h.protect] ++ textField h.name

/-- The field of n bytes at an offset. -/
def field (bytes : List Byte) (offset n : Nat) : List Byte := (bytes.drop offset).take n

/-- The sample count of a tag: none where it is out of range (R170), absent without the final flag. -/
def readFinal (bytes : List Byte) : Option (Option Nat) := do
  let final ← readYesNo (bytes.getD 8 0)
  if final then
    let n := fromLe (field bytes 9 4)
    if 1 ≤ n ∧ n ≤ 16777216 then some (some n) else none
  else some none

/-- The header of a tag: none where it is out of range (R170). -/
def readHeader (bytes : List Byte) : Option (Option Header) := do
  let present ← readYesNo (bytes.getD 13 0)
  if present then
    let format ← readFormat (bytes.getD 14 0)
    let rate ← readRate (bytes.getD 15 0)
    let protect ← readYesNo (bytes.getD 16 0)
    let name ← readText (field bytes 17 16)
    some (some { format, rate, protect, name })
  else some none

/-- A tag from its bytes; none when a field lies outside the range of R2 (R170). -/
def readTag (bytes : List Byte) : Option Tag := do
  let clip ← readClip (bytes.getD 0 0)
  let page ← below 16 (bytes.getD 7 0).toNat
  let final ← readFinal bytes
  let header ← readHeader bytes
  let load := fromLe (field bytes 1 4)
  let sequence := fromLe (field bytes 5 2)
  if bytes.length = 33 ∧ 1 ≤ load ∧ sequence ≤ 511 then some { clip, load, sequence, page, final, header } else none

/-- The fields of a tag lie in the ranges of R2. -/
def Tag.inRange (t : Tag) : Bool :=
  1 ≤ t.load && t.load ≤ Config.greatestNumber && t.sequence ≤ 511
    && (match t.final with
        | some n => 1 ≤ n && n ≤ 16777216
        | none => true)
    && (match t.header with
        | some h => h.name.length ≤ 16 && h.name.all printable
        | none => true)

/-- The condition in which a read finds a tag (R2): `good` is the device's report of the read. -/
def tagCondition (good : Bool) (sp : Spare) : PageCondition :=
  if good then
    match sp with
    | .erased => .erased
    | .written bytes check =>
      match check, readTag bytes with
      | true, some t => .valid t
      | _, _ => .unreadable
  else .unreadable

end Sys2Proof.Machine
end

