-- ==== Sys2Proof/Machine/FlashPort.lean ====
section
/-! DEFINITION. The flash port arbiter (R13 to R16), the reservation, release and queuing of blocks (R7, R8, R12), and what the
pages of a clip are (R1, R33). -/

namespace Sys2Proof.Machine

/-! ### The bytes and pages of a clip (R30 to R33) -/

/-- The sample size in bytes (R33). -/
def Format.size : Format → Nat
  | .s16 => 2 | .s24 => 4 | .l8 => 1

/-- Samples in a full page (R30 to R32). -/
def Format.pageSamples (f : Format) : Nat := Config.pageBytes / f.size

/-- Clip bytes of the clip answered. -/
def ClipAnswer.bytes (a : ClipAnswer) : Nat := a.samples * a.format.size

/-- Pages of a clip of b bytes: b divided by 2048, rounded up (R33). -/
def pagesOf (b : Nat) : Nat := (b + (Config.pageBytes - 1)) / Config.pageBytes

/-- Pages of the clip answered. -/
def ClipAnswer.pages (a : ClipAnswer) : Nat := pagesOf a.bytes

/-- Clip bytes that clip page p carries. -/
def ClipAnswer.pageBytes (a : ClipAnswer) (p : Nat) : Nat := min Config.pageBytes (a.bytes - Config.pageBytes * p)

/-- The buffer bytes of a voice: clip bytes in its buffer not yet yielded (R77). A sample leaves the count when the position
passes it (log entry 9). -/
def Voice.bufferBytes (x : Voice) : Nat :=
  match x.answer with
  | none => 0
  | some a =>
    let consumed := match x.buffer with
      | p :: _ =>
        if p.pass = 0 ∧ p.page = x.position / a.format.pageSamples then (x.position % a.format.pageSamples) * a.format.size else 0
      | [] => 0
    (x.buffer.map fun p => a.pageBytes p.page).sum - consumed

/-! ### The block table and the erase queue -/

/-- A block joins the tail of the erase queue unless it is queued already (R12). -/
def queueErase (b : BlockNo) (s : State) : State :=
  let x := s.block b
  if x.eraseQueued then s
  else { s.setBlock b { x with eraseQueued := true } with store.eraseQueue := s.store.eraseQueue ++ [b] }

/-- Whether a page program to the block is granted and uncompleted (R8). -/
def programInFlight (b : BlockNo) (s : State) : Bool :=
  match s.store.port with
  | .program j => j.block = b
  | _ => false

/-- The place of a block list that holds a block is vacated (R28). -/
def vacate (b : BlockNo) (x : Clip) : Clip :=
  { x with places := x.places.map fun p => if p = some b then none else p }

/-- A block of a clip that is aborted or formatted is released to FREE, or queued for erasure (R8). -/
def releaseBlock (c : ClipId) (b : BlockNo) (s : State) : State :=
  if (s.block b).programmed = 0 ∧ programInFlight b s = false then
    let s := s.setBlock b Block.free
    match s.clip c with
    | some x => s.setClip c (some (vacate b x))
    | none => s
  else queueErase b s

/-- The blocks a block list holds, in sequence order (R28). -/
def Clip.heldBlocks (x : Clip) : List BlockNo := x.places.filterMap id

/-- The search for a FREE block: the cursor's block first, then each higher one, wrapping (R7). -/
def findFree (s : State) : Option BlockNo :=
  ((List.finRange 2048).map (s.store.cursor + ·)).find? fun b => (s.block b).state = .free

/-- A block becomes OWNED by a clip at the next sequence, and the cursor moves past it (R7). -/
def reserveBlock (c : ClipId) (b : BlockNo) (s : State) : State :=
  match s.clip c with
  | none => s
  | some x =>
    let s := s.setBlock b { state := .owned c x.places.length, programmed := 0, retireMark := false, eraseQueued := false }
    let s := s.setClip c (some { x with places := x.places ++ [some b] })
    { s with store.cursor := b + 1 }

/-- The bytes the load buffer holds (R10). -/
def bufferedBytes (s : State) : Nat := (s.store.buffer.map fun p => p.bytes.length).sum

/-- The room of the load buffer (R10). -/
def bufferRoom (s : State) : Nat := Config.loadBufferBytes - bufferedBytes s

/-! ### The arbiter (R13, R14, R15) -/

/-- Whether a voice's fetch is pending, that is requested and not yet granted. -/
def Voice.fetchPending (x : Voice) : Bool :=
  match x.fetch with
  | some f => !f.granted
  | none => false

/-- Positions 1 and 2 of R14: V6 first; among V0 to V5 the fewest buffer bytes, then the lower number. -/
def chooseFetch (s : State) : Option VoiceId :=
  if (s.voice overrideVoice).fetchPending then some overrideVoice
  else generalVoices.foldl (fun best v =>
    if (s.voice v).fetchPending then
      match best with
      | none => some v
      | some w => if (s.voice v).bufferBytes < (s.voice w).bufferBytes then some v else best
    else best) none

/-- A voice's fetch takes the port (R14). -/
def grantFetch (v : VoiceId) (s : State) : State :=
  match (s.voice v).fetch with
  | some f => (s.setVoice v { s.voice v with fetch := some { f with granted := true } }).setPort (.fetch v f.block f.blockPage)
  | none => s

/-- The head page of the load buffer when it is eligible (R11). -/
def eligibleHead : List LoadPage → Option LoadPage
  | [] => none
  | p :: rest => if (p.bytes.length = Config.pageBytes ∧ rest ≠ []) ∨ p.final.isSome then some p else none

/-- The tag composed for a page at the grant of its program (R2). -/
def composeTag (x : Clip) (p : LoadPage) : Tag :=
  { clip := p.clip, load := x.load, sequence := p.sequence, page := p.page, final := p.final,
    header := if p.sequence = 0 ∧ p.page = 0 then
        some { format := x.format, rate := x.rate, protect := x.protect, name := x.name } else none }

/-- The program of the head page takes the port (R14, R18): into the block at its sequence in the clip's block list. -/
def grantProgram (p : LoadPage) (s : State) : State :=
  match s.clip p.clip with
  | none => s
  | some x =>
    match x.places.getD p.sequence none with
    | none => s
    | some b =>
      s.setPort (.program { clip := p.clip, block := b, page := p.page, payload := padPayload p.bytes,
                            tag := (composeTag x p).bytes, carried := p.bytes.length, final := p.final.isSome })

/-- The pending readback takes the port (R14). -/
def grantReadback (b : BlockNo) (p : PageNo) (s : State) : State :=
  { s with store.port := .readback b p, store.readback := none }

/-- Whether any voice is ACTIVE, paused or not (R15). -/
def anyActive (s : State) : Bool := allVoices.any fun v => (s.voice v).state = .active

/-- Whether erases are deferred (R15). -/
def erasesDeferred (s : State) : Bool :=
  s.store.state = .service && s.store.deferErase && anyActive s

/-- A grant decision over the requests at positions 1 to 4 of R14, on an idle port. -/
def grantRequest (s : State) : State :=
  match chooseFetch s with
  | some v => grantFetch v s
  | none =>
    match eligibleHead s.store.buffer with
    | some p => grantProgram p s
    | none =>
      match s.store.readback with
      | some (b, p) => grantReadback b p s
      | none => s

/-- The decision at the arrival of a request within an event (R13; log entry 8). -/
def arbitrateArrival (s : State) : State :=
  if s.store.port = .idle then grantRequest s else s

/-- The decision at the end of an event, the erase queue included: deferral is judged on the voices as the event leaves them
(R13 to R15). -/
def arbitrate (s : State) : State :=
  let s := arbitrateArrival s
  if s.store.port = .idle then
    match s.store.eraseQueue with
    | b :: _ => if erasesDeferred s then s else s.setPort (.erase b)
    | [] => s
  else s

end Sys2Proof.Machine
end

