-- ==== Sys2Proof/Machine/VoiceEngine.lean ====
section
/-! DEFINITION. What a voice does whatever command caused it: fetches, step starts, step ends, ends, zone claims, preemption, offers,
allocation and starts (chapters 4 and 5). An end frees zones, an offer of them may grant a claim, a claim may end another voice:
each operation takes what offering zones means (`Offers`) as an argument, and `offers` ties the knot. -/

namespace Sys2Proof.Machine

/-- What making the offers of a set of zones does to the state. -/
abbrev Offers := SetByte → State → State

/-- No offer is made: the ends of OUTPUT.HALT (R109, R119), and those of the losers of a claim, whose zones are offered after all of them
have acted (R107). -/
def noOffers : Offers := fun _ s => s

/-! ### Fetches (R77, R79) -/

/-- Whether a further page is certain at the fetch point (R77). -/
def Voice.certain (x : Voice) : Bool :=
  match x.step with
  | some (.play _ count) => x.fetchPass = 0 || (x.fetchPass = 1 && x.fetchPage = 0 && x.passCount + 1 < count)
  | some (.hold _ _) => x.fetchPass = 0 || (x.fetchPass = 1 && x.fetchPage = 0 && !x.releaseMark && !x.holdEndMark)
  | some (.walk _) => x.fetchPass = 0
  | some (.gap _) => false
  | none => false

/-- The voice with the fetch of its fetch point requested and the fetch point advanced (R77); as it is when its clip has no
such page. -/
def Voice.withRequest (x : Voice) : Voice :=
  match x.answer with
  | none => x
  | some a =>
    match a.blocks[x.fetchPage / Config.pagesPerBlock]? with
    | none => x
    | some b =>
      let f : Fetch :=
        { block := b, blockPage := Fin.ofNat 16 x.fetchPage, page := x.fetchPage, pass := x.fetchPass, start := x.start,
          keep := true, granted := false }
      if x.fetchPage + 1 < a.pages then { x with fetch := some f, fetchPage := x.fetchPage + 1 }
      else { x with fetch := some f, fetchPage := 0, fetchPass := x.fetchPass + 1 }

/-- The conditions under which a voice requests a fetch (R77). -/
def Voice.wantsFetch (x : Voice) : Bool :=
  x.state ≠ .idle && x.fetch.isNone && x.buffer.length < 2 && x.certain

/-- The test for a further fetch; a request that arrives is a grant event (R77, R13). -/
def fetchTest (v : VoiceId) (s : State) : State :=
  if (s.voice v).wantsFetch then arbitrateArrival (s.setVoice v (s.voice v).withRequest) else s

/-- A pending fetch is withdrawn; a granted one is left to complete and will be discarded (R79, R94). -/
def withdrawFetch : Option Fetch → Option Fetch
  | some f => if f.granted then some { f with keep := false } else none
  | none => none

/-- The voice at sample 0 of a first pass with its buffer flushed (R75, R79, R88). -/
def Voice.atPassStart (x : Voice) : Voice :=
  { x with buffer := [], fetch := withdrawFetch x.fetch, position := 0, secondPhase := false, fetchPage := 0,
           fetchPass := 0, leadIn := true }

/-! ### Ends (R93 to R95) -/

/-- The fault code: the highest-ranked flag set (R93). -/
def FaultFlags.code (f : FaultFlags) : FaultCode :=
  if f.starved then .starved else if f.clipMissing then .clipMissing else if f.readError then .readError
  else if f.underrun then .underrun else .none

/-- The end record of a voice (R95). -/
def endRecordOf (x : Voice) (cause : EndCause) (time : Option ClockTime) : EndRecord :=
  { cause, fault := x.faults.code,
    program := match x.stepProgram with
      | some p => some p
      | none => x.order.map (·.program),
    step := x.stepIndex, origin := x.origin, start := x.start, time }

/-- The voice returned to IDLE: its fault flags, underrun counts and last output sample keep their values, a granted fetch is
left to complete, and the end record stands (R71, R94). That lead-in and stop-after-pass are clear is log entry 23. -/
def Voice.cleared (x : Voice) : Voice :=
  { Voice.reset with
    fetch := withdrawFetch x.fetch, faults := x.faults, underTotal := x.underTotal, underRun := x.underRun,
    lastSample := x.lastSample, endRecord := x.endRecord }

/-- A voice leaves the waiting list; the order of the rest is unchanged (R105). -/
def leaveWaiting (v : VoiceId) (s : State) : State :=
  { s with arbiter.waiting := s.arbiter.waiting.filter (· ≠ v) }

/-- Every zone a voice holds is freed (R108). -/
def freeZones (v : VoiceId) (s : State) : State :=
  allZones.foldl (fun s z => if s.holds v z then s.setZone z { s.zone z with holder := none } else s) s

/-- An end of a voice (R94), in the order the rule lists; an IDLE voice has none. -/
def endVoice (o : Offers) (v : VoiceId) (cause : EndCause) (s : State) : State :=
  let x := s.voice v
  if x.state = .idle then s
  else
    let held := s.heldSet v
    let r := endRecordOf x cause s.clockTime
    let s := s.setVoice v { x.cleared with endRecord := some r }
    let s := leaveWaiting v s
    let s := setFlag (.voiceEnd v) s
    o held (freeZones v s)

/-! ### Step starts and step ends (R75, R76) -/

/-- What the Clip Map answers about a clip: none when it is not READY (R51). -/
def State.clipAnswer (s : State) (c : ClipId) : Option ClipAnswer :=
  match s.clip c with
  | some x =>
    if x.state = .ready then
      some { format := x.format, rate := x.rate, samples := x.samples.getD 0, blocks := x.heldBlocks }
    else none
  | none => none

/-- The context a latched step sets (R75). A GAP step clears lead-in too, of which R75 does not speak (log entry 25). -/
def Voice.withStep (x : Voice) (index : Nat) (p : Step) (a : Option ClipAnswer) : Voice :=
  { x.atPassStart with
    stepIndex := index, step := some p, answer := a, passCount := 0, releaseMark := false, holdEndMark := false,
    walkZone := none, walked := 0, leadIn := a.isSome,
    gapTimer := match p with
      | .gap tenths => tenths * 1600
      | _ => 0,
    holdTimer := match p with
      | .hold _ limit => if limit = 0 then none else some (limit * 16000)
      | _ => none }

/-- Whether the latched step is a WALK step. -/
def Voice.inWalk (x : Voice) : Bool :=
  match x.step with
  | some (.walk _) => true
  | _ => false

/-- An ACTIVE voice in a WALK step that has no walk zone yet takes the lowest zone it holds (R86). -/
def chooseWalkZone (v : VoiceId) (s : State) : State :=
  let x := s.voice v
  if x.state = .active ∧ x.inWalk ∧ x.walkZone = none then
    match lowestZone (s.heldSet v) (fun _ => true) with
    | some z => s.setVoice v { x with walkZone := some z, walked := addZone x.walked z }
    | none => s
  else s

/-- A step is latched, or its clip is not READY and the voice ends with a fault (R75). -/
def latchStep (o : Offers) (v : VoiceId) (index : Nat) (p : Step) (s : State) : State :=
  match p.clip? with
  | none => s.setVoice v ((s.voice v).withStep index p none)
  | some c =>
    match s.clipAnswer c with
    | some a => fetchTest v (chooseWalkZone v (s.setVoice v ((s.voice v).withStep index p (some a))))
    | none =>
      let x := s.voice v
      endVoice o v .fault
        (s.setVoice v { x with stepIndex := index, faults := { x.faults with clipMissing := true } })

/-- The program a voice asks for at a step start: a general voice the one of its start order; V6 the override program, or, when
that is 0 or EMPTY, the one it latched its last step from (R76). -/
def askedProgram (v : VoiceId) (s : State) : Option ProgramId :=
  let x := s.voice v
  if v = overrideVoice then
    match s.inputs.overrideProgram with
    | some p => if (s.program p).isSome then some p else x.stepProgram
    | none => x.stepProgram
  else x.order.map (·.program)

/-- A step start at the voice's step index (R59, R75). -/
def stepStart (o : Offers) (v : VoiceId) (s : State) : State :=
  match askedProgram v s with
  | none => s
  | some p =>
    match s.program p with
    | none => s
    | some prog =>
      let x := s.voice v
      let s := s.setVoice v { x with stepProgram := some p }
      match prog.steps[x.stepIndex]?, prog.steps[0]? with
      | some step, _ => latchStep o v x.stepIndex step s
      | none, some first =>
        if prog.cycle ∨ v = overrideVoice then latchStep o v 0 first s else endVoice o v .completed s
      | none, none => endVoice o v .completed s

/-- A step end: STOPPED when stop-after-pass is set, else the next step start (R76). -/
def stepEnd (o : Offers) (v : VoiceId) (s : State) : State :=
  let x := s.voice v
  if x.stopAfterPass then endVoice o v .stopped s
  else stepStart o v (s.setVoice v { x with stepIndex := x.stepIndex + 1 })

/-! ### Losses of zones (R88, R90, R107) -/

/-- Whether a voice is in a WALK step and its walk zone is not among the zones it holds. -/
def walkZoneLost (v : VoiceId) (s : State) : Bool :=
  match (s.voice v).walkZone with
  | some z => (s.voice v).inWalk && !s.holds v z
  | none => false

/-- The lowest zone a voice holds above a given one (R87, R88). -/
def nextWalkZone (v : VoiceId) (above : ZoneId) (s : State) : Option ZoneId :=
  lowestZone (s.heldSet v) fun z => above < z

/-- A WALK voice that has lost its walk zone moves up and starts the pass over, or its step ends (R88). -/
def walkMove (o : Offers) (v : VoiceId) (s : State) : State :=
  let x := s.voice v
  match x.walkZone with
  | none => s
  | some lost =>
    match nextWalkZone v lost s with
    | some z => fetchTest v (s.setVoice v { x.atPassStart with walkZone := some z, walked := addZone x.walked z })
    | none => stepEnd o v s

/-- The notice to a loser that holds no zone any more: SUSPENDED when suspendable, else it ends PREEMPTED (R90, R107). -/
def loseLast (o : Offers) (v : VoiceId) (s : State) : State :=
  let x := s.voice v
  if x.state = .active ∧ s.heldSet v = 0 then
    if x.order.any (·.suspendable) then s.setVoice v { x with state := .suspended } else endVoice o v .preempted s
  else s

/-- The notice to a loser that still holds zones: a WALK voice that lost its walk zone moves (R88, R107). -/
def loseSome (o : Offers) (v : VoiceId) (s : State) : State :=
  if (s.voice v).state = .active ∧ walkZoneLost v s then walkMove o v s else s

/-- A zone joins the wanted set of a voice that loses it (R107, R113). -/
def wantAlso (v : VoiceId) (zs : SetByte) (s : State) : State :=
  let x := s.voice v
  s.setVoice v { x with wanted := x.wanted ||| zs }

/-! ### Claims (R100 to R107) -/

/-- The claim set: the requested zones that are enabled (R100). -/
def claimSet (order : StartOrder) (s : State) : SetByte := order.zones &&& s.enabledSet

/-- Whether a zone is grantable at a priority: no holder, or one of lower priority (R100). -/
def grantable (priority : Nat) (s : State) (z : ZoneId) : Bool :=
  match (s.zone z).holder with
  | none => true
  | some (_, p) => p < priority

/-- The grantable zones of the claim set. -/
def grantableSet (order : StartOrder) (s : State) : SetByte :=
  zonesWhere fun z => hasZone (claimSet order s) z && grantable order.priority s z

/-- The zones a claim takes if it is granted; none when it is not (R101, R102). -/
def evaluateClaim (order : StartOrder) (s : State) : Option SetByte :=
  let zs := grantableSet order s
  if zs = 0 then none
  else if order.partialOpt then some zs
  else if zs = claimSet order s then some zs
  else none

/-- The holders that lose a zone of a set to another voice, in ascending number. -/
def losersOf (v : VoiceId) (zs : SetByte) (s : State) : List VoiceId :=
  allVoices.filter fun w => w ≠ v ∧ s.heldSet w &&& zs ≠ 0

/-- The zones of a set pass to a voice at its priority (R104). -/
def takeZones (v : VoiceId) (priority : Nat) (zs : SetByte) (s : State) : State :=
  allZones.foldl
    (fun s z => if hasZone zs z then s.setZone z { s.zone z with holder := some (v, priority) } else s) s

/-- A voice becomes ACTIVE by a grant: its timers stop, it leaves the waiting list, and in a WALK step it chooses its walk zone
(R90, R104, R86). -/
def becomeActive (v : VoiceId) (wanted : SetByte) (s : State) : State :=
  let x := s.voice v
  chooseWalkZone v (leaveWaiting v
    (s.setVoice v { x with state := .active, wanted := wanted, discardTimer := 0, waitTimer := 0 }))

/-- The zones that have a holder in one state and none in a later one. -/
def freedBetween (s t : State) : SetByte := zonesWhere fun z => (s.zone z).holder.isSome && (t.zone z).holder.isNone

/-- The losers of a claim act, each once and each on its held set as the claim leaves it (R104, R107): those left without a zone, then
the WALK voices, each in ascending number. Nothing is offered between their acts; the zones that ends among them free are offered
after the last (log entry 7). -/
def tellLosers (o : Offers) (losers : List VoiceId) (s : State) : State :=
  let t := losers.foldl (fun t w => loseLast noOffers w t) s
  let t := losers.foldl (fun t w => loseSome noOffers w t) t
  o (freedBetween s t) t

/-- A claim is granted the zones `zs` (R104): they pass to the claimant, which becomes ACTIVE, and the losers are told (R107). -/
def grantClaim (o : Offers) (v : VoiceId) (order : StartOrder) (zs : SetByte) (s : State) : State :=
  let losers := losersOf v zs s
  let s := losers.foldl (fun s w => wantAlso w (s.heldSet w &&& zs) s) s
  let s := takeZones v order.priority zs s
  tellLosers o losers (becomeActive v (order.zones &&& ~~~ zs) s)

/-- The order in which voices stand: priority, highest first, then start number, lowest first (R105, R110). -/
def Voice.standsBefore (x y : Voice) : Bool :=
  let px := x.order.elim 0 (·.priority)
  let py := y.order.elim 0 (·.priority)
  py < px || (px = py && x.start < y.start)

/-- A voice placed among others that stand in order (R105, R110). -/
def placeVoice (s : State) (v : VoiceId) : List VoiceId → List VoiceId
  | [] => [v]
  | w :: ws => if (s.voice v).standsBefore (s.voice w) then v :: w :: ws else w :: placeVoice s v ws

/-- A claim is queued: the voice becomes WAITING with its wait timer at the wait limit (R101, R105, R106). -/
def queueClaim (v : VoiceId) (order : StartOrder) (s : State) : State :=
  let x := s.voice v
  let s := s.setVoice v { x with state := .waiting, discardTimer := 0, waitTimer := order.wait }
  { s with arbiter.waiting := placeVoice s v s.arbiter.waiting }

/-- The outcomes of a claim (section 5.2). -/
inductive ClaimOutcome where
  | granted | queued | refused
  deriving DecidableEq, Repr

/-- A claim by a voice for the zones of its start order (R100 to R103). -/
def claimZones (o : Offers) (v : VoiceId) (order : StartOrder) (s : State) : State × ClaimOutcome :=
  match evaluateClaim order s with
  | some zs => (grantClaim o v order zs s, .granted)
  | none => if 0 < order.wait then (queueClaim v order s, .queued) else (s, .refused)

/-! ### Offers (R109, R110) -/

/-- Whether a voice is a claimant for a free enabled zone (R110). -/
def isClaimant (s : State) (z : ZoneId) (v : VoiceId) : Bool :=
  let x := s.voice v
  match x.state with
  | .waiting => x.order.any fun order => hasZone order.zones z
  | .active => hasZone x.wanted z
  | .suspended => hasZone x.wanted z
  | .idle => false
  | .prepared => false

/-- The claimants for a zone in the order they are tried (R110). -/
def claimants (s : State) (z : ZoneId) : List VoiceId :=
  (allVoices.filter (isClaimant s z)).foldl (fun vs v => placeVoice s v vs) []

/-- An ACTIVE or SUSPENDED voice takes the offered zone; a SUSPENDED one becomes ACTIVE, and in a WALK step acts by R88 when its
walk zone is not among the zones it then holds (R90, R110). -/
def takeOffered (o : Offers) (v : VoiceId) (z : ZoneId) (s : State) : State :=
  let x := s.voice v
  let s := s.setZone z { s.zone z with holder := some (v, x.order.elim 0 (·.priority)) }
  let s := s.setVoice v { x with state := .active, wanted := dropZone x.wanted z }
  if x.state = .suspended ∧ walkZoneLost v s then walkMove o v s else s

/-- The claimants are tried in order, and the first that obtains the zone ends the search (R110). -/
def tryClaimants (o : Offers) (z : ZoneId) : List VoiceId → State → State
  | [], s => s
  | v :: vs, s =>
    if (s.voice v).state = .waiting then
      match (s.voice v).order with
      | none => tryClaimants o z vs s
      | some order =>
        match evaluateClaim order s with
        | some zs => grantClaim o v order zs s
        | none => tryClaimants o z vs s
    else takeOffered o v z s

/-- The offer of one zone: skipped when it has a holder by then or is disabled, and never made while the override latch is set
(R109). -/
def offerZone (o : Offers) (z : ZoneId) (s : State) : State :=
  if s.inputs.latch ∨ (s.zone z).holder ≠ none ∨ (s.zone z).enabled = false then s
  else tryClaimants o z (claimants s z) s

/-- The zones of a set are offered one at a time in ascending number (R109). -/
def offerZones (o : Offers) : Offers := fun zs s =>
  allZones.foldl (fun s z => if hasZone zs z then offerZone o z s else s) s

/-- Offers within which at most n ends follow one from another. -/
def offersWithin : Nat → Offers
  | 0 => noOffers
  | n + 1 => offerZones (offersWithin n)

/-- The offers that an event makes. An end within an offer is the end of a further voice and there are seven, so eight nested
offers are never exhausted (log entry 7). -/
def offers : Offers := offersWithin 8

/-! ### Allocation and starts (R67 to R74) -/

/-- The start number after n: 4 294 967 295 wraps to 1 (R67). -/
def numberAfter (n : Nat) : Nat := if n < Config.greatestNumber then n + 1 else 1

/-- Whether a start number names a live voice (R67). -/
def isLive (s : State) (n : Nat) : Bool := allVoices.any fun v => (s.voice v).state ≠ .idle ∧ (s.voice v).start = n

/-- The counter's value, passing over the start numbers of live voices (R67): at most seven. -/
def passOverLive (s : State) : Nat → Nat → Nat
  | 0, n => n
  | k + 1, n => if isLive s n then passOverLive s k (numberAfter n) else n

/-- The start number the next allocation issues (R67). -/
def issuedNumber (s : State) : Nat := passOverLive s 7 s.engine.nextStart

/-- A voice takes a start order: a new start number, a fresh context, and step 0 latched (R70). It stands as PREPARED until the
rule that asked for it has it claim or leaves it so. -/
def allocate (v : VoiceId) (origin : Origin) (order : StartOrder) (s : State) : State :=
  let n := issuedNumber s
  let x := s.voice v
  let s := { s with engine.nextStart := numberAfter n }
  stepStart offers v (s.setVoice v
    { Voice.reset with
      state := .prepared, start := n, origin := origin, order := some order, fetch := x.fetch, endRecord := x.endRecord })

/-- The voice of a claim that is refused NO_ZONE at its allocation returns to IDLE without an end (R71). -/
def returnToIdle (v : VoiceId) (s : State) : State := s.setVoice v (s.voice v).cleared

/-- The lowest-numbered IDLE general voice (R70). -/
def idleVoice (s : State) : Option VoiceId := generalVoices.find? fun v => (s.voice v).state = .idle

/-- Whether a clip is READY where a step names one (checks of R69 and R74). -/
def stepClipReady (s : State) (p : Option Step) : Bool :=
  match p.bind Step.clip? with
  | some c => s.clipReady c
  | none => true

/-- The checks of a start order, in their order; the first that fails decides (R69). -/
def startChecks (order : Option StartOrder) (claims : Bool) (s : State) : Except Status (StartOrder × VoiceId) :=
  if s.store.state = .starting then .error .starting
  else if s.store.state = .formatting then .error .busy
  else if s.inputs.latch then .error .locked
  else match order with
    | none => .error .badField
    | some o =>
      match s.program o.program with
      | none => .error .notFound
      | some prog =>
        if stepClipReady s prog.steps.head? = false then .error .notReady
        else match idleVoice s with
          | none => .error .noVoice
          | some v => if claims ∧ s.arbiter.bus = .halted then .error .wrongState else .ok (o, v)

/-- The outcome of a start that claims at once (R71). -/
inductive StartResult where
  | refused (status : Status)
  | started (voice : VoiceId) (start : Nat) (state : VoiceState)
  deriving DecidableEq, Repr

/-- The status of a start's outcome. -/
def StartResult.status : StartResult → Status
  | .refused st => st
  | .started _ _ _ => .ok

/-- The start number of a start's outcome, 0 where refused. -/
def StartResult.start : StartResult → Nat
  | .refused _ => 0
  | .started _ n _ => n

/-- A start order from VOICE.START, a firing cue or a trigger edge: checked, allocated, and its zones claimed at once (R69 to
R71). -/
def startVoice (origin : Origin) (order : Option StartOrder) (s : State) : State × StartResult :=
  match startChecks order true s with
  | .error st => (s, .refused st)
  | .ok (o, v) =>
    let s := allocate v origin o s
    let n := (s.voice v).start
    match claimZones offers v o s with
    | (s, .granted) => (s, .started v n .active)
    | (s, .queued) => (s, .started v n .waiting)
    | (s, .refused) => (returnToIdle v s, .refused .noZone)

/-- The override program when the checks of R74 find it DEFINED with a READY step 0 clip. -/
def overrideStartProgram (s : State) : Option ProgramId :=
  match s.inputs.overrideProgram with
  | none => none
  | some p =>
    match s.program p with
    | none => none
    | some prog => if stepClipReady s prog.steps.head? then some p else none

/-- The start order V6 runs under (R74). -/
def overrideOrder (p : ProgramId) (s : State) : StartOrder :=
  { program := p, zones := s.enabledSet, priority := 15, wait := 0, partialOpt := false, suspendable := false }

/-- The start of V6: allocated, it claims every enabled zone at priority 15; the result is shown (R74, R103, R160). -/
def startOverride (s : State) : State :=
  match overrideStartProgram s with
  | none => { s with inputs.overrideResult := .noProgram }
  | some p =>
    let order := overrideOrder p s
    let s := allocate overrideVoice .override order s
    match claimZones offers overrideVoice order s with
    | (s, .granted) => { s with inputs.overrideResult := .started }
    | (s, .queued) => { s with inputs.overrideResult := .started }
    | (s, .refused) => { returnToIdle overrideVoice s with inputs.overrideResult := .noZone }

/-- The voice a start number names, if it names a live one (R68). -/
def liveVoice (s : State) (n : Nat) : Option VoiceId :=
  allVoices.find? fun v => (s.voice v).state ≠ .idle ∧ (s.voice v).start = n

end Sys2Proof.Machine
end

