-- ==== Sys2Proof/WellFormed.lean ====
section
/-! DEFINITION. Which commands are well formed: those whose parts of varying length have a length that a frame can carry
(R36, R57, R176, R194). Every other field is a byte or a word of its own width and takes every value of it. -/

namespace Sys2Proof

/-- A frame that the receiver can gather to its end: a body of at most 520 bytes (R176). -/
def Frame.wellFormed (f : Frame) : Bool := f.body.length ≤ Config.largestBody

/-- The lengths that a frame can give the parts of varying length of a command (R36, R176, R194). -/
def Instr.wellFormed : Instr → Bool
  | .frameComplete f => f.wellFormed
  | .frameCrcError f => f.wellFormed
  | .overrun f => f.wellFormed
  | .frameLengthDrop n => Config.largestBody < n.toNat
  | .clipData _ _ _ chunk => 1 ≤ chunk.length && chunk.length ≤ Config.largestChunk
  | .progWrite _ _ _ _ steps => steps.length ≤ Config.stepsPerProgram
  | .reset | .resetAsserted | .linkTimeout | .byteError | .replySent => true
  | .ident _ | .report _ | .eventsMask _ _ | .restart _ => true
  | .storeStatus _ | .storeConfig _ _ | .storeInspect _ _ _ | .storeFormat _ => true
  | .clipOpen _ _ _ _ _ _ | .clipClose _ _ | .clipAbort _ _ | .clipErase _ _ => true
  | .clipRead _ _ _ _ | .clipInfo _ _ | .clipList _ _ => true
  | .progRead _ _ | .progDelete _ _ => true
  | .voiceStart _ _ | .voicePrepare _ _ | .voiceGo _ _ | .voiceStop _ _ _ => true
  | .voicePause _ _ | .voiceResume _ _ | .voiceRelease _ _ => true
  | .voiceStatus _ _ | .voiceConfig _ _ => true
  | .zoneSet _ _ _ _ | .zoneStatus _ | .outputHalt _ _ | .outputRun _ => true
  | .clockSet _ _ _ _ _ _ _ | .clockStart _ | .clockRead _ => true
  | .cueWrite _ _ _ | .cueRead _ _ | .cueEnable _ _ | .cueDisable _ _ | .cueDelete _ _ => true
  | .trigSet _ _ _ | .trigRead _ | .trigStatus _ => true
  | .overrideSet _ _ _ | .overrideClear _ | .overrideStatus _ => true
  | .fetchComplete _ | .clipReadReadbackComplete _ | .inspectReadbackComplete _ => true
  | .pageProgramComplete _ | .blockEraseComplete _ | .scanReadComplete _ _ => true
  | .frameEvent | .starved _ | .gapTimerExpiry _ | .holdTimerExpiry _ => true
  | .discardTimerExpiry _ | .waitTimerExpiry _ => true
  | .tenthEvent | .pinChange _ _ | .settleTimerExpiry _ | .startByte => true

end Sys2Proof
end

