-- ==== Sys2Proof/Machine/Link.lean ====
section
/-! DEFINITION. Reset (R166), the receiver and the transmitter (R176 to R180), and the requests of the Link Controller (R185 to R188). -/

namespace Sys2Proof.Machine

/-! ### Reset -/

/-- What the flash is left as by the operation that a reset abandons (R13; log entry 1). -/
def abandonedFlash (s : State) : Memory :=
  match s.store.port with
  | .program j => flashProgramResidue (Config.residue s.freeCount j.page.val) s.freeCount j s.flash
  | .erase b => flashEraseResidue s.freeCount b s.flash
  | _ => s.flash

/-- An input sampled at a reset: its debounced level is the level found, with no settle timer running (R146). -/
def Input.sampled (x : Input) : Input := { pin := x.pin, level := x.pin, settling := false }

/-- The machine after a reset (R166): every volatile table at its value after reset, the flash as it was left, the inputs sampled,
the scan begun. -/
def afterReset (s : State) : State :=
  { State.reset with
    flash := abandonedFlash s
    inputs.inputs := Vector.ofFn fun i => (s.input i).sampled
    freeCount := s.freeCount + 1
    pending := s.pending }

/-- RESET (R166): the release of RESET, or power-up. -/
def execReset (s : State) : Result := .next (afterReset s)

/-- RESET_ASSERTED (R166): held in reset the part takes and sends nothing, and ATTN is high (R185). -/
def execResetAsserted (s : State) : Result :=
  .next { s with inReset := true, link.attn := false, arbiter.output := none }

/-! ### The receiver -/

/-- A frame in progress is dropped and counted (R176, R178, R183). -/
def dropFrame (s : State) : State :=
  hunt { s with link.linkErrors := riseTo Config.greatestCount s.link.linkErrors }

/-- Whether the receiver gathers a frame. -/
def isReceiving (s : State) : Bool := s.link.receiver ≠ .hunting

/-- Whether a frame's CRC is the one computed over it (R177). -/
def frameGood (f : Frame) : Bool := frameCrc f.kind f.tag f.body = f.crc

/-- START_BYTE (R176): HUNTING gives way to RECEIVING; whether a reply is owed then fixes whether the frame is an overrun (R180). In
RECEIVING the byte is data. -/
def execStartByte (s : State) : Result :=
  eventWhen (fun s => !isReceiving s) (fun s => { s with link.receiver := .receiving (s.link.owed ≠ .none) }) s

/-- FRAME_CRC_ERROR (R176): a complete frame whose CRC differs is dropped and counted. -/
def execFrameCrcError (f : Frame) (s : State) : Result :=
  eventWhen (fun _ => f.wellFormed && !frameGood f) dropFrame s

/-- OVERRUN (R180): a good frame begun while a reply was owed is dropped, and the overrun count rises. -/
def execOverrun (f : Frame) (s : State) : Result :=
  eventWhen (fun s => f.wellFormed && frameGood f && s.frameIsLate)
    (fun s => hunt { s with link.overruns := riseTo Config.greatestCount s.link.overruns }) s

/-- FRAME_LENGTH_DROP (R176): a body length above 520 drops the frame at its second length byte. -/
def execFrameLengthDrop (length : BitVec 16) (s : State) : Result :=
  eventWhen (fun _ => Config.largestBody < length.toNat) dropFrame s

/-- LINK_TIMEOUT (R178): a gap of 50 ms while RECEIVING drops the frame. -/
def execLinkTimeout (s : State) : Result := eventWhen isReceiving dropFrame s

/-- BYTE_ERROR (R178): in RECEIVING it drops the frame in progress; in HUNTING it is discarded and counted nowhere. -/
def execByteError (s : State) : Result := eventWhen isReceiving dropFrame s

/-- What the last byte of a reply leaves (R179, R188): no reply is owed, and after RESTART the reset takes effect. -/
def replyGone (s : State) : State :=
  match s.link.owed with
  | .sending _ true => afterReset s
  | .sending _ false => { s with link.owed := .none }
  | .held _ => s
  | .none => s

/-- REPLY_SENT (R179): the last byte of the owed reply leaves TXD; a held reply is not yet being sent. -/
def execReplySent (s : State) : Result := event replyGone s

/-! ### Requests of the Link Controller -/

/-- The text "ULCAST 4610" (R187). -/
def partName : List Byte := [85, 76, 67, 65, 83, 84, 32, 52, 54, 49, 48]

/-- The fields of IDENT after the status (R187, R201). -/
def identFields : List Byte :=
  textField partName ++ [1, 7, 6, 8, 8, 255] ++ le16 512 ++ [32, 12, 96] ++ le16 2048 ++ [16] ++ le16 2048 ++ le16 8192
    ++ le16 520 ++ le16 512 ++ [16, 20]

/-- IDENT at its block (R187). -/
def serveIdent (s : State) : Served := answer s .ok identFields

/-- IDENT (R187): changes no state. -/
def execIdent (tag : Byte) (s : State) : Result := request 1 tag serveIdent s

/-- The blocks in a state, counted over the block table (R23). -/
def countBlocks (p : BlockState → Bool) (s : State) : Nat :=
  (List.finRange 2048).countP fun b => p (s.block b).state

/-- Whether a block state is FREE. -/
def BlockState.isFree : BlockState → Bool
  | .free => true
  | _ => false

/-- The fields of REPORT after the status (R186, R198). -/
def reportFields (s : State) : List Byte :=
  let flags := s.link.flags.toNat
  [byteOf flags, byteOf (flags / 256), byteOf (flags / 65536), s.store.state.code, yesNo s.inputs.latch]
    ++ allVoices.map (fun v => (s.voice v).state.code)
    ++ le16 (countBlocks BlockState.isFree s) ++ le16 s.link.linkErrors ++ le16 s.link.overruns

/-- REPORT at its block (R186): the reply is taken, then every flag is cleared. -/
def serveReport (s : State) : Served := answer (clearFlags s) .ok (reportFields s)

/-- REPORT (R186). -/
def execReport (tag : Byte) (s : State) : Result := request 2 tag serveReport s

/-- EVENTS.MASK at its block (R185): a spare position that is not 0 is refused. -/
def serveEventsMask (mask : BitVec 24) (s : State) : Served :=
  if mask >>> 20 ≠ 0 then answerOnly s .badField else answerOnly (setMask (mask.truncate 20) s) .ok

/-- EVENTS.MASK (R185). -/
def execEventsMask (tag : Byte) (mask : BitVec 24) (s : State) : Result := request 3 tag (serveEventsMask mask) s

/-- RESTART (R188): answered OK; the reset takes effect when the reply has been sent. -/
def execRestart (tag : Byte) (s : State) : Result :=
  event (requestFrame 4 tag true fun s => answerOnly s .ok) s

end Sys2Proof.Machine
end

