-- ==== Sys2Proof/Machine/StoreRequests.lean ====
section
/-! DEFINITION. The store requests (R21 to R25) and the completions of the flash port's readback of a tag, of a page program and of a
block erase (R17 to R20, R22). -/

namespace Sys2Proof.Machine

/-! ### STORE.STATUS, STORE.CONFIG -/

/-- The fields of STORE.STATUS after the status (R23, R201). -/
def storeStatusFields (s : State) : List Byte :=
  [s.store.state.code]
    ++ le16 (countBlocks BlockState.isFree s)
    ++ le16 (countBlocks (fun b => match b with | .owned _ _ => true | _ => false) s)
    ++ le16 (countBlocks (fun b => b = .stale) s)
    ++ le16 (countBlocks (fun b => b = .retired) s)
    ++ le16 s.store.eraseQueue.length ++ [yesNo s.store.deferErase] ++ le32 (s.store.loadCounter.getD 0)

/-- STORE.STATUS at its block (R23). -/
def serveStoreStatus (s : State) : Served := answer s .ok (storeStatusFields s)

/-- STORE.STATUS (R23): taken in every store state. -/
def execStoreStatus (tag : Byte) (s : State) : Result := request 16 tag serveStoreStatus s

/-- STORE.CONFIG at its block (R24): turning the setting off lets the head erase be granted (R15). -/
def serveStoreConfig (deferErase : Byte) (s : State) : Served :=
  if s.store.state = .starting then answerOnly s .starting
  else match readYesNo deferErase with
    | none => answerOnly s .badField
    | some b => answerOnly (arbitrate { s with store.deferErase := b }) .ok

/-- STORE.CONFIG (R24). -/
def execStoreConfig (tag deferErase : Byte) (s : State) : Result := request 17 tag (serveStoreConfig deferErase) s

/-! ### STORE.INSPECT -/

/-- STORE.INSPECT at its block (R25): the readback of the tag becomes pending and the reply is held. -/
def serveStoreInspect (tag : Byte) (block : BitVec 16) (page : Byte) (s : State) : Served :=
  if s.store.state = .starting then answerOnly s .starting
  else match below 2048 block.toNat, below 16 page.toNat with
    | some b, some p =>
      { state := arbitrate { s with store.readback := some (b, p) }, reply := .held (.inspect tag b p) }
    | _, _ => answerOnly s .badField

/-- STORE.INSPECT (R25). -/
def execStoreInspect (tag : Byte) (block : BitVec 16) (page : Byte) (s : State) : Result :=
  request 18 tag (serveStoreInspect tag block page) s

/-- The block table entry as STORE.INSPECT carries it (R25, R200). -/
def blockFields (x : Block) : List Byte :=
  x.state.code ::
    (match x.state with
      | .owned c q => numberByte c :: le16 q
      | _ => [0, 0, 0])
    ++ [byteOf x.programmed, yesNo x.retireMark, yesNo x.eraseQueued]

/-- The tag condition and the tag's fields as STORE.INSPECT carries them (R25, R200). -/
def conditionFields : PageCondition → List Byte
  | .erased => 0 :: List.replicate 33 0
  | .valid t => 1 :: t.bytes
  | .unreadable => 2 :: List.replicate 33 0

/-- A held reply is composed and sent (R179). -/
def sendReply (kind tag : Byte) (bytes : List Byte) (s : State) : State :=
  { s with link.owed := .sending (frameBytes kind tag bytes) false }

/-- The readback of a tag completes (R25): an unreadable tag sets STORE_FAULT (R17), and the reply is OK. -/
def inspectDone (good : Bool) (s : State) : State :=
  match s.store.port, s.link.owed with
  | .readback b p, .held (.inspect tag _ _) =>
    let c := tagCondition good (s.flash.read (pageAddress b p)).spare
    let s := s.setPort .idle
    let s := if c = .unreadable then setFlag .storeFault s else s
    arbitrate (sendReply 18 tag (Status.ok.code :: blockFields (s.block b) ++ conditionFields c) s)
  | _, _ => s

/-- INSPECT_READBACK_COMPLETE (R25); `tagGood` is the device's report of the read. -/
def execInspectReadbackComplete (tagGood : Bool) (s : State) : Result := event (inspectDone tagGood) s

/-! ### STORE.FORMAT -/

/-- Whether a clip holds the single place for a load that is not READY (R29). -/
def Clip.loading (x : Clip) : Bool :=
  match x.state with
  | .opened => true | .failed => true | .closing => true
  | .ready => false | .erasing => false

/-- The clip ids in ascending order. -/
def allClips : List ClipId := List.finRange 255

/-- The clip that is OPEN, FAILED or CLOSING; there is at most one (R29). -/
def loadingClip (s : State) : Option ClipId := allClips.find? fun c => (s.clip c).any Clip.loading

/-- Whether every voice is IDLE. -/
def allIdle (s : State) : Bool := allVoices.all fun v => (s.voice v).state = .idle

/-- A READY clip becomes ERASING (R21, R44). -/
def eraseClip (c : ClipId) (s : State) : State :=
  match s.clip c with
  | some x => if x.state = .ready then s.setClip c (some { x with state := .erasing }) else s
  | none => s

/-- STORE.FORMAT releases an OWNED block with no page programmed and queues every other OWNED or STALE block (R21, R8). -/
def formatBlock (b : BlockNo) (s : State) : State :=
  match (s.block b).state with
  | .owned c _ => releaseBlock c b s
  | .stale => queueErase b s
  | .unclassified => s
  | .free => s
  | .retired => s

/-- FORMATTING ends when the erase queue is empty (R21, R22). -/
def formatEnd (s : State) : State :=
  if s.store.state = .formatting ∧ s.store.eraseQueue = [] then
    setFlag .formatDone { s with store.state := .service }
  else s

/-- What an accepted STORE.FORMAT does (R21). -/
def formatStore (s : State) : State :=
  let s := allClips.foldl (fun s c => eraseClip c s) s
  let s := (List.finRange 2048).foldl (fun s b => formatBlock b s) s
  formatEnd { s with store.state := .formatting }

/-- STORE.FORMAT at its block (R21). -/
def serveStoreFormat (s : State) : Served :=
  if s.store.state = .starting then answerOnly s .starting
  else if s.store.state = .formatting then answerOnly s .busy
  else if allIdle s = false then answerOnly s .busy
  else if (loadingClip s).isSome then answerOnly s .busy
  else answerOnly (arbitrate (formatStore s)) .ok

/-- STORE.FORMAT (R21). -/
def execStoreFormat (tag : Byte) (s : State) : Result := request 19 tag serveStoreFormat s

/-! ### A page program completes (R18, R19, R41, R42) -/

/-- The block's pages programmed rises by one; a failure also sets its retire mark (R18, R19). -/
def countProgram (verified : Bool) (b : BlockNo) (s : State) : State :=
  let x := s.block b
  s.setBlock b { x with programmed := x.programmed + 1, retireMark := x.retireMark || !verified }

/-- The report of a page programmed with success (R18, R41): the page leaves the load buffer, its bytes are added, and after the
final page the clip is READY. -/
def programReport (j : ProgramJob) (x : Clip) (s : State) : State :=
  let s := { s with store.buffer := s.store.buffer.drop 1 }
  let x := { x with programmed := x.programmed + j.carried }
  if j.final then setFlag .clipReady (s.setClip j.clip (some { x with state := .ready }))
  else s.setClip j.clip (some x)

/-- The report of a page program that failed (R18, R42): the load buffer is emptied and the clip is FAILED. Its sample count goes with
CLOSING (R27; log entry 11). -/
def failureReport (j : ProgramJob) (x : Clip) (s : State) : State :=
  let s := setFlag .storeFault { s with store.buffer := [] }
  setFlag .clipFailed (s.setClip j.clip (some { x with state := .failed, samples := none }))

/-- What a completed page program leaves of the clip and the erase queue: reported while the clip is OPEN or CLOSING (R18), else its
block is queued (R19). -/
def programOutcome (verified : Bool) (j : ProgramJob) (s : State) : State :=
  match s.clip j.clip with
  | none => s
  | some x =>
    match x.state with
    | .opened | .closing => if verified then programReport j x s else failureReport j x s
    | .erasing | .failed | .ready => queueErase j.block (if verified then s else setFlag .storeFault s)

/-- The flash after a page program (R1, R18; log entry 1). -/
def programFlash (verified : Bool) (j : ProgramJob) (s : State) : State :=
  if verified then { s with flash := flashProgrammed j s.flash }
  else
    { s with
      flash := flashProgramResidue (failedProgramResidue (Config.residue s.freeCount j.page.val)) s.freeCount j s.flash
      freeCount := s.freeCount + 1 }

/-- A page program completes (R18, R19). -/
def programDone (verified : Bool) (s : State) : State :=
  match s.store.port with
  | .program j =>
    let s := programFlash verified j (s.setPort .idle)
    arbitrate (programOutcome verified j (countProgram verified j.block s))
  | _ => s

/-- PAGE_PROGRAM_COMPLETE (R18); `verified` is the device's report. -/
def execPageProgramComplete (verified : Bool) (s : State) : Result := event (programDone verified) s

/-! ### A block erase completes (R20, R46) -/

/-- The flash after a block erase (R1, R20; log entry 1). -/
def eraseFlash (verified : Bool) (b : BlockNo) (s : State) : State :=
  if verified then { s with flash := flashErased b s.flash }
  else { s with flash := flashEraseResidue s.freeCount b s.flash, freeCount := s.freeCount + 1 }

/-- The block table entry after an erase: FREE, or RETIRED after a failure or with its retire mark set (R20). -/
def erasedBlock (verified : Bool) (x : Block) : Block :=
  { state := if verified ∧ x.retireMark = false then .free else .retired,
    programmed := 0, retireMark := false, eraseQueued := false }

/-- A block leaves its clip: its place is vacated, and a clip that holds no block any more is ABSENT (R46). -/
def leaveClip (b : BlockNo) (c : ClipId) (s : State) : State :=
  match s.clip c with
  | none => s
  | some x =>
    let x := vacate b x
    if x.heldBlocks = [] then setFlag .eraseDone (s.setClip c none) else s.setClip c (some x)

/-- A block erase completes (R20). -/
def eraseDone (verified : Bool) (s : State) : State :=
  match s.store.port with
  | .erase b =>
    let x := s.block b
    let s := eraseFlash verified b (s.setPort .idle)
    let s := { s with store.eraseQueue := s.store.eraseQueue.filter (· ≠ b) }
    let s := s.setBlock b (erasedBlock verified x)
    let s := if verified then s else setFlag .storeFault s
    let s := match x.state with
      | .owned c _ => leaveClip b c s
      | _ => s
    arbitrate (formatEnd s)
  | _ => s

/-- BLOCK_ERASE_COMPLETE (R20); `verified` is the device's report. -/
def execBlockEraseComplete (verified : Bool) (s : State) : Result := event (eraseDone verified) s

end Sys2Proof.Machine
end

