-- ==== Sys2Proof/Machine/ClipRequests.lean ====
section
/-! DEFINITION. The clip requests (R34 to R50) and the completion of a CLIP.READ readback (R48). -/

namespace Sys2Proof.Machine

/-- The two checks that come before all others of a clip request (R34). -/
def clipRequest (clip : Byte) (s : State) (serve : ClipId → Served) : Served :=
  if s.store.state = .starting then answerOnly s .starting
  else match readClip clip with
    | none => answerOnly s .badField
    | some c => serve c

/-! ### CLIP.OPEN -/

/-- The attributes a CLIP.OPEN carries, none when one is out of range (check 1 of R35). -/
def readAttributes (format rate protect : Byte) (name : Vector Byte 16) : Option Header := do
  let format ← readFormat format
  let rate ← readRate rate
  let protect ← readYesNo protect
  let name ← readText name.toList
  some { format, rate, protect, name }

/-- The load counter after a number is taken; after 4 294 967 295 it is exhausted (R9). -/
def counterAfter (n : Nat) : Option Nat := if n < Config.greatestNumber then some (n + 1) else none

/-- The record of a clip just opened (R35). -/
def openedClip (h : Header) (load : Nat) : Clip :=
  { state := .opened, format := h.format, rate := h.rate, protect := h.protect, name := h.name, load := load,
    places := [], accepted := 0, programmed := 0, samples := none }

/-- CLIP.OPEN at its block (R35). -/
def serveClipOpen (clip format rate protect : Byte) (name : Vector Byte 16) (s : State) : Served :=
  clipRequest clip s fun c =>
    match readAttributes format rate protect name with
    | none => answerOnly s .badField
    | some h =>
      if s.clip c ≠ none then answerOnly s .wrongState
      else if (loadingClip s).isSome then answerOnly s .busy
      else if s.store.state = .formatting then answerOnly s .busy
      else match s.store.loadCounter with
        | none => answerOnly s .noSpace
        | some n =>
          answerOnly { s.setClip c (some (openedClip h n)) with store.loadCounter := counterAfter n } .ok

/-- CLIP.OPEN (R35). -/
def execClipOpen (tag clip format rate protect : Byte) (name : Vector Byte 16) (s : State) : Result :=
  request 32 tag (serveClipOpen clip format rate protect name) s

/-! ### CLIP.DATA -/

/-- The clip page a load buffer page is: 16 × sequence + page (R10). -/
def LoadPage.number (p : LoadPage) : Nat := Config.pagesPerBlock * p.sequence + p.page.val

/-- A new page of the load buffer (R10). -/
def newLoadPage (c : ClipId) (n : Nat) (bytes : List Byte) : LoadPage :=
  { clip := c, sequence := n / Config.pagesPerBlock, page := Fin.ofNat 16 n, bytes := bytes, final := none }

/-- Bytes of clip page n join that page if it is the buffer's last, else they make a new page at the tail (R38). -/
def joinPage (c : ClipId) (n : Nat) (bytes : List Byte) : List LoadPage → List LoadPage
  | [] => [newLoadPage c n bytes]
  | [p] => if p.number = n then [{ p with bytes := p.bytes ++ bytes }] else [p, newLoadPage c n bytes]
  | p :: q :: rest => p :: joinPage c n bytes (q :: rest)

/-- A chunk that starts at the cursor joins the load buffer in clip byte order: it lies in at most two pages (R38). -/
def joinChunk (c : ClipId) (cursor : Nat) (chunk : List Byte) (buffer : List LoadPage) : List LoadPage :=
  let n := cursor / Config.pageBytes
  let k := Config.pageBytes - cursor % Config.pageBytes
  let buffer := joinPage c n (chunk.take k) buffer
  if chunk.drop k = [] then buffer else joinPage c (n + 1) (chunk.drop k) buffer

/-- A chunk is accepted (R38): its bytes join the load buffer and the write cursor advances. -/
def acceptChunk (c : ClipId) (chunk : List Byte) (s : State) : State :=
  match s.clip c with
  | none => s
  | some x =>
    let s := { s with store.buffer := joinChunk c x.accepted chunk s.store.buffer }
    arbitrate (s.setClip c (some { x with accepted := x.accepted + chunk.length }))

/-- Whether a chunk needs a block not yet reserved (R37). -/
def needsBlock (x : Clip) (length : Nat) : Bool :=
  x.places.length ≤ (x.accepted + length - 1) / Config.blockBytes

/-- The checks of a chunk and its taking (R36, R37). -/
def takeChunk (c : ClipId) (offset : Nat) (chunk : List Byte) (s : State) : State × Status :=
  match s.clip c with
  | none => (s, .wrongState)
  | some x =>
    if x.state = .failed then (s, .failed)
    else if x.state ≠ .opened then (s, .wrongState)
    else if offset + chunk.length ≤ x.accepted then (s, .already)
    else if offset ≠ x.accepted then (s, .offset)
    else if Config.loadBufferBytes < bufferedBytes s + chunk.length then (s, .full)
    else if needsBlock x chunk.length then
      if Config.blocksPerClip ≤ x.places.length then (s, .noSpace)
      else match findFree s with
        | none => (s, .noSpace)
        | some b => (acceptChunk c chunk (reserveBlock c b s), .ok)
    else (acceptChunk c chunk s, .ok)

/-- The write cursor and the room, taken after the request has been handled (R39). -/
def cursorAndRoom (c : ClipId) (s : State) : List Byte :=
  le32 ((s.clip c).elim 0 (·.accepted)) ++ le16 (bufferRoom s)

/-- CLIP.DATA at its block (R36, R39); a chunk length that no frame of this kind allows is answered BAD_LENGTH (R181). -/
def serveClipData (clip : Byte) (offset : BitVec 32) (chunk : List Byte) (s : State) : Served :=
  if chunk = [] ∨ Config.largestChunk < chunk.length then answerOnly s .badLength
  else if s.store.state = .starting then answer s .starting (le32 0 ++ le16 0)
  else match readClip clip with
    | none => answer s .badField (le32 0 ++ le16 0)
    | some c =>
      let r := takeChunk c offset.toNat chunk s
      answer r.1 r.2 (cursorAndRoom c r.1)

/-- CLIP.DATA (R36 to R39). -/
def execClipData (tag clip : Byte) (offset : BitVec 32) (chunk : List Byte) (s : State) : Result :=
  request 33 tag (serveClipData clip offset chunk) s

/-! ### CLIP.CLOSE -/

/-- The assembly page, the last of the load buffer, is marked final and given the sample count (R40). -/
def markFinal (samples : Nat) : List LoadPage → List LoadPage
  | [] => []
  | [p] => [{ p with final := some samples }]
  | p :: q :: rest => p :: markFinal samples (q :: rest)

/-- CLIP.CLOSE at its block (R40). -/
def serveClipClose (clip : Byte) (s : State) : Served :=
  clipRequest clip s fun c =>
    match s.clip c with
    | none => answerOnly s .wrongState
    | some x =>
      if x.state ≠ .opened then answerOnly s .wrongState
      else if x.accepted = 0 ∨ x.accepted % x.format.size ≠ 0 then answerOnly s .badField
      else
        let n := x.accepted / x.format.size
        let s := { s with store.buffer := markFinal n s.store.buffer }
        answerOnly (arbitrate (s.setClip c (some { x with state := .closing, samples := some n }))) .ok

/-- CLIP.CLOSE (R40). -/
def execClipClose (tag clip : Byte) (s : State) : Result := request 34 tag (serveClipClose clip) s

/-! ### CLIP.ABORT -/

/-- After the blocks are released or queued the clip is ABSENT or ERASING (R43). -/
def abortEnd (c : ClipId) (s : State) : State :=
  match s.clip c with
  | none => s
  | some x =>
    if x.heldBlocks = [] then setFlag .eraseDone (s.setClip c none)
    else s.setClip c (some { x with state := .erasing })

/-- CLIP.ABORT at its block (R43). -/
def serveClipAbort (clip : Byte) (s : State) : Served :=
  clipRequest clip s fun c =>
    match s.clip c with
    | none => answerOnly s .wrongState
    | some x =>
      if x.loading = false then answerOnly s .wrongState
      else
        let s := { s with store.buffer := [] }
        let s := x.heldBlocks.foldl (fun s b => releaseBlock c b s) s
        answerOnly (arbitrate (abortEnd c s)) .ok

/-- CLIP.ABORT (R43). -/
def execClipAbort (tag clip : Byte) (s : State) : Result := request 35 tag (serveClipAbort clip) s

/-! ### CLIP.ERASE -/

/-- The clip a voice latches: that of its latched step while it is not IDLE (R45). -/
def Voice.latchedClip (x : Voice) : Option ClipId := if x.state = .idle then none else x.step.bind Step.clip?

/-- Whether a voice that is not IDLE latches a clip (R45). -/
def isLatched (c : ClipId) (s : State) : Bool := allVoices.any fun v => (s.voice v).latchedClip = some c

/-- CLIP.ERASE at its block (R44). -/
def serveClipErase (clip : Byte) (s : State) : Served :=
  clipRequest clip s fun c =>
    match s.clip c with
    | none => answerOnly s .wrongState
    | some x =>
      if x.state ≠ .ready then answerOnly s .wrongState
      else if x.protect then answerOnly s .protected_
      else if isLatched c s then answerOnly s .inUse
      else
        let s := eraseClip c s
        answerOnly (arbitrate (x.heldBlocks.foldl (fun s b => queueErase b s) s)) .ok

/-- CLIP.ERASE (R44). -/
def execClipErase (tag clip : Byte) (s : State) : Result := request 36 tag (serveClipErase clip) s

/-! ### CLIP.READ -/

/-- The block and page that hold a clip byte (R1). -/
def Clip.placeOf (x : Clip) (offset : Nat) : Option (BlockNo × PageNo) :=
  match x.places.getD (offset / Config.blockBytes) none with
  | some b => some (b, Fin.ofNat 16 (offset / Config.pageBytes))
  | none => none

/-- CLIP.READ at its block (R47): the readback of the span's first page becomes pending and the reply is held. A READY clip has no
vacated place (R28), so the last arm is not met. -/
def serveClipRead (tag clip : Byte) (offset : BitVec 32) (length : BitVec 16) (s : State) : Served :=
  clipRequest clip s fun c =>
    match s.clip c with
    | none => answerOnly s .notReady
    | some x =>
      if x.state ≠ .ready then answerOnly s .notReady
      else if length = 0 ∨ Config.largestChunk < length.toNat ∨ x.accepted < offset.toNat + length.toNat then
        answerOnly s .badField
      else match x.placeOf offset.toNat with
        | some place =>
          { state := arbitrate { s with store.readback := some place },
            reply := .held (.clipRead tag c offset.toNat length.toNat []) }
        | none => answerOnly s .notReady

/-- CLIP.READ (R47). -/
def execClipRead (tag clip : Byte) (offset : BitVec 32) (length : BitVec 16) (s : State) : Result :=
  request 37 tag (serveClipRead tag clip offset length) s

/-- A page of the span was read (R48): its bytes are taken, and the second page's readback becomes pending or the reply is sent. -/
def readPage (tag : Byte) (c : ClipId) (offset length : Nat) (taken payload : List Byte) (s : State) : State :=
  let at_ := offset + taken.length
  let inPage := at_ % Config.pageBytes
  let taken := taken ++ field payload inPage (min (length - taken.length) (Config.pageBytes - inPage))
  if length ≤ taken.length then sendReply 37 tag (Status.ok.code :: taken) s
  else match (s.clip c).bind (·.placeOf (offset + taken.length)) with
    | some place =>
      { s with store.readback := some place, link.owed := .held (.clipRead tag c offset length taken) }
    | none => sendReply 37 tag [Status.failed.code] s

/-- A CLIP.READ readback completes (R48); a read error answers FAILED at once, and sets STORE_FAULT (R17). -/
def readbackDone (good : Bool) (s : State) : State :=
  match s.store.port, s.link.owed with
  | .readback b p, .held (.clipRead tag c offset length taken) =>
    let payload := (s.flash.read (pageAddress b p)).payload
    let s := s.setPort .idle
    arbitrate (if good then readPage tag c offset length taken payload s
      else sendReply 37 tag [Status.failed.code] (setFlag .storeFault s))
  | _, _ => s

/-- CLIP_READ_READBACK_COMPLETE (R48); `payloadGood` is the device's report of the read. -/
def execClipReadReadbackComplete (payloadGood : Bool) (s : State) : Result := event (readbackDone payloadGood) s

/-! ### CLIP.INFO, CLIP.LIST -/

/-- The fields of CLIP.INFO after the status (R49, R201). -/
def clipInfoFields (x : Clip) : List Byte :=
  [x.state.code, x.format.code, x.rate.code, yesNo x.protect] ++ textField x.name ++ le32 x.load
    ++ le16 x.heldBlocks.length ++ le16 x.places.length ++ le32 x.accepted ++ le32 x.programmed ++ le32 (x.samples.getD 0)

/-- CLIP.INFO at its block (R49). -/
def serveClipInfo (clip : Byte) (s : State) : Served :=
  clipRequest clip s fun c =>
    match s.clip c with
    | none => answerOnly s .notFound
    | some x => answer s .ok (clipInfoFields x)

/-- CLIP.INFO (R49). -/
def execClipInfo (tag clip : Byte) (s : State) : Result := request 38 tag (serveClipInfo clip) s

/-- The clips at or above an id that are not ABSENT, in ascending order (R50). -/
def clipsFrom (first : ClipId) (s : State) : List (ClipId × Clip) :=
  (allClips.filter (first ≤ ·)).filterMap fun c => (s.clip c).map (c, ·)

/-- The fields of CLIP.LIST after the status (R50, R201). An entry carries no block count, of which R28 speaks for CLIP.LIST too (log
entry 26). -/
def clipListFields (first : ClipId) (s : State) : List Byte :=
  let found := clipsFrom first s
  let listed := found.take Config.clipListEntries
  let next := match found.drop Config.clipListEntries, listed.getLast? with
    | _ :: _, some (c, _) => byteOf (c.val + 2)
    | _, _ => 0
  next :: byteOf listed.length ::
    (listed.map fun p => numberByte p.1 :: p.2.state.code :: le32 (p.2.samples.getD 0)).flatten

/-- CLIP.LIST at its block (R50). -/
def serveClipList (first : Byte) (s : State) : Served :=
  clipRequest first s fun c => answer s .ok (clipListFields c s)

/-- CLIP.LIST (R50). -/
def execClipList (tag first : Byte) (s : State) : Result := request 39 tag (serveClipList first) s

end Sys2Proof.Machine
end

