-- ==== Sys2Proof/Machine/ScheduleRequests.lean ====
section
/-! DEFINITION. The day clock, the firing of cues, the minute mark, and the clock and cue requests (chapter 6). -/

namespace Sys2Proof.Machine

/-! ### Times of the week (R122 to R124) -/

/-- Whether a time stands at the last second of its day. -/
def ClockTime.atDayEnd (t : ClockTime) : Bool := t.hour = 23 && t.minute = 59 && t.second = 59

/-- The start of the second after a time; 6 is followed by 0 (R123, R124). -/
def ClockTime.nextSecond (t : ClockTime) : ClockTime :=
  if t.second < 59 then { t with second := t.second + 1, tenth := 0 }
  else if t.minute < 59 then { t with minute := t.minute + 1, second := 0, tenth := 0 }
  else if t.hour < 23 then { t with hour := t.hour + 1, minute := 0, second := 0, tenth := 0 }
  else { weekday := if t.weekday < 6 then t.weekday + 1 else 0, hour := 0, minute := 0, second := 0, tenth := 0 }

/-- The cue numbers in ascending order. -/
def allCues : List CueId := List.finRange 96

/-- The state with the clock as given. -/
def setClock (c : Clock) (s : State) : State := { s with schedule.clock := c }

/-- The time with the clock's state kept. -/
def setTime (t : ClockTime) (s : State) : State := setClock { s.schedule.clock with time := t } s

/-- The done mark of every cue is cleared, in whatever state the cue stands (R124, R131). -/
def clearDoneMarks (s : State) : State :=
  { s with schedule.cues := s.schedule.cues.map fun p => (p.1, { p.2 with done := false }) }

/-! ### Firing (R128 to R130) -/

/-- The day test (R128). -/
def CueEntry.dayTest (x : CueEntry) (weekday : Nat) : Bool := x.days.getLsbD weekday

/-- The time test (R128): the cue's time is at or before a given second. -/
def CueEntry.timeTest (x : CueEntry) (t : ClockTime) : Bool :=
  x.hour < t.hour || (x.hour = t.hour && (x.minute < t.minute || (x.minute = t.minute && x.second ≤ t.second)))

/-- Whether the cue's time is a given second. -/
def CueEntry.isAt (x : CueEntry) (t : ClockTime) : Bool :=
  x.hour = t.hour && x.minute = t.minute && x.second = t.second

/-- Whether a cue is due at the second entered (R129). -/
def Cue.due (c : Cue) (t : ClockTime) : Bool :=
  match c.entry with
  | some x => x.state = .armed && x.isAt t && x.dayTest t.weekday && !c.done
  | none => false

/-- The state a firing leaves a cue in: a ONCE cue is SPENT (R130). -/
def firedState (x : CueEntry) : CueEntry :=
  match x.rept with
  | .once => { x with state := .spent }
  | .weekly => x

/-- What a firing records (R130). -/
def firedOutcome (r : StartResult) (t : ClockTime) : CueOutcome :=
  match r with
  | .started v n _ => .started v n t
  | .refused st => .missed st t

/-- The flag a firing sets (R130). -/
def firedFlag (r : StartResult) : EventFlag :=
  match r with
  | .started _ _ _ => .cueFired
  | .refused _ => .cueMissed

/-- A cue fires (R130): its start order goes to the Voice Engine, and the outcome is recorded with the time of the clock. -/
def fireCue (c : CueId) (x : CueEntry) (s : State) : State :=
  let t := s.schedule.clock.time
  let r := startVoice (.cue c) (some x.order) s
  let s := r.1.setCue c { entry := some (firedState x), done := true, outcome := firedOutcome r.2 t }
  setFlag (firedFlag r.2) s

/-- A second is entered: the cues due fire one after another, in ascending number (R129). -/
def enterSecond (s : State) : State :=
  let due := allCues.filter fun c => (s.cue c).due s.schedule.clock.time
  due.foldl (fun s c => match (s.cue c).entry with
    | some x => fireCue c x s
    | none => s) s

/-- The clock moves to the second after its own and enters it, through the midnight rollover where it is one (R123, R124). -/
def advanceSecond (s : State) : State :=
  let t := s.schedule.clock.time
  let s := setTime t.nextSecond s
  enterSecond (if t.atDayEnd then clearDoneMarks s else s)

/-- A tenth event of a RUNNING clock (R123). -/
def tenth (s : State) : State :=
  let t := s.schedule.clock.time
  if t.tenth < 9 then setTime { t with tenth := t.tenth + 1 } s else arbitrate (advanceSecond s)

/-- TENTH_EVENT (R123): a clock that is HELD or UNSET does not change. -/
def execTenthEvent (s : State) : Result := eventWhen (fun s => s.schedule.clock.state = .running) tenth s

/-! ### The minute mark (R134 to R136) -/

/-- Forward rounding (R136): every second up to second 0 of the next minute is entered. -/
def roundForward (s : State) : State := Nat.repeat advanceSecond (60 - s.schedule.clock.time.second) s

/-- Backward rounding (R135). -/
def roundBackward (s : State) : State := setTime { s.schedule.clock.time with second := 0, tenth := 0 } s

/-- The clock runs from the time it holds (R132, R134). -/
def runClock (s : State) : State := setClock { s.schedule.clock with state := .running } s

/-- A minute mark and the Day Clock's answer (R134). -/
def minuteMark (s : State) : State × Status :=
  match s.schedule.clock.state with
  | .unset => (s, .wrongState)
  | .held => (runClock s, .ok)
  | .running => (if s.schedule.clock.time.second < 30 then roundBackward s else roundForward s, .ok)

/-! ### Clock requests -/

/-- A time of the week, none when a field is out of the range of R122. -/
def readTime (weekday hour minute second tenth : Byte) : Option ClockTime :=
  if weekday.toNat ≤ 6 ∧ hour.toNat ≤ 23 ∧ minute.toNat ≤ 59 ∧ second.toNat ≤ 59 ∧ tenth.toNat ≤ 9 then
    some { weekday := weekday.toNat, hour := hour.toNat, minute := minute.toNat, second := second.toNat, tenth := tenth.toNat }
  else none

/-- The state of the clock that a start mode asks for: 1 NOW, 2 HOLD (R131, R194). -/
def readStartMode (b : Byte) : Option ClockState :=
  if b = 1 then some .running else if b = 2 then some .held else none

/-- Whether a cue is passed by a CLOCK.SET (step 3 of R131). -/
def Cue.passes (c : Cue) (t : ClockTime) : Bool :=
  match c.entry with
  | some x => x.state = .armed && x.dayTest t.weekday && x.timeTest t && !c.done
  | none => false

/-- A cue after step 3 of R131. -/
def Cue.afterSet (t : ClockTime) (c : Cue) : Cue :=
  if c.passes t then { c with done := true, outcome := .passed t } else c

/-- An accepted CLOCK.SET, in the order of its steps (R131). -/
def loadClock (t : ClockTime) (st : ClockState) (s : State) : State :=
  let c := s.schedule.clock
  let s := if c.state = .unset ∨ t.weekday ≠ c.time.weekday then clearDoneMarks s else s
  let s := setClock { state := st, time := t } s
  { s with schedule.cues := s.schedule.cues.map fun p => (p.1, p.2.afterSet t) }

/-- CLOCK.SET at its block (R131). -/
def serveClockSet (weekday hour minute second tenth start : Byte) (s : State) : Served :=
  match readTime weekday hour minute second tenth, readStartMode start with
  | some t, some st => answerOnly (loadClock t st s) .ok
  | _, _ => answerOnly s .badField

/-- CLOCK.SET (R131). -/
def execClockSet (tag weekday hour minute second tenth start : Byte) (s : State) : Result :=
  request 96 tag (serveClockSet weekday hour minute second tenth start) s

/-- CLOCK.START at its block (R132). -/
def serveClockStart (s : State) : Served :=
  if s.schedule.clock.state = .held then answerOnly (runClock s) .ok else answerOnly s .wrongState

/-- CLOCK.START (R132). -/
def execClockStart (tag : Byte) (s : State) : Result := request 97 tag serveClockStart s

/-- The fields of CLOCK.READ after the status (R133, R201): the time reads as 0 while the clock is UNSET. -/
def clockFields (c : Clock) : List Byte :=
  c.state.code :: (match c.state with
    | .unset => List.replicate 5 0
    | .held => c.time.bytes
    | .running => c.time.bytes)

/-- CLOCK.READ at its block (R133). -/
def serveClockRead (s : State) : Served := answer s .ok (clockFields s.schedule.clock)

/-- CLOCK.READ (R133). -/
def execClockRead (tag : Byte) (s : State) : Result := request 98 tag serveClockRead s

/-! ### Cue requests -/

/-- The first check of every cue request (R137). -/
def cueRequest (cue : Byte) (s : State) (serve : CueId → Served) : Served :=
  match readCue cue with
  | none => answerOnly s .badField
  | some c => serve c

/-- The check of a cue request that names a cue that is not EMPTY (R140 to R143). -/
def heldCue (cue : Byte) (s : State) (serve : CueId → CueEntry → Served) : Served :=
  cueRequest cue s fun c =>
    match (s.cue c).entry with
    | none => answerOnly s .notFound
    | some x => serve c x

/-- The present-day test (R128). -/
def presentDay (x : CueEntry) (c : Clock) : Bool :=
  c.state ≠ .unset && x.dayTest c.time.weekday && x.timeTest c.time

/-- CUE.WRITE at its block (R138, R139). -/
def serveCueWrite (cue : Byte) (record : RawCue) (s : State) : Served :=
  cueRequest cue s fun c =>
    match readCueEntry record with
    | none => answerOnly s .badField
    | some x =>
      answerOnly (s.setCue c { entry := some x, done := presentDay x s.schedule.clock, outcome := .none }) .ok

/-- CUE.WRITE (R138, R139). -/
def execCueWrite (tag cue : Byte) (record : RawCue) (s : State) : Result := request 112 tag (serveCueWrite cue record) s

/-- A cue record as twelve bytes, its state as the cue stands (R196). -/
def CueEntry.bytes (x : CueEntry) : List Byte :=
  [byteOf x.hour, byteOf x.minute, byteOf x.second, x.days, x.rept.code, x.state.code] ++ x.order.bytes

/-- The outcome, its voice number, start number, status and time (R143, R196). -/
def CueOutcome.bytes : CueOutcome → List Byte
  | .none => [0, 255] ++ le32 0 ++ [0] ++ List.replicate 5 0
  | .started v n t => [1, byteOf v.val] ++ le32 n ++ [0] ++ t.bytes
  | .missed st t => [2, 255] ++ le32 0 ++ [st.code] ++ t.bytes
  | .passed t => [3, 255] ++ le32 0 ++ [0] ++ t.bytes

/-- CUE.READ at its block (R143). -/
def serveCueRead (cue : Byte) (s : State) : Served :=
  heldCue cue s fun c x => answer s .ok (x.bytes ++ yesNo (s.cue c).done :: (s.cue c).outcome.bytes)

/-- CUE.READ (R143). -/
def execCueRead (tag cue : Byte) (s : State) : Result := request 113 tag (serveCueRead cue) s

/-- CUE.ENABLE at its block (R140). -/
def serveCueEnable (cue : Byte) (s : State) : Served :=
  heldCue cue s fun c x =>
    match x.state with
    | .armed => answerOnly s .ok
    | .disabled | .spent =>
      answerOnly (s.setCue c { s.cue c with
        entry := some { x with state := .armed }, done := presentDay x s.schedule.clock }) .ok

/-- CUE.ENABLE (R140). -/
def execCueEnable (tag cue : Byte) (s : State) : Result := request 114 tag (serveCueEnable cue) s

/-- CUE.DISABLE at its block (R141). -/
def serveCueDisable (cue : Byte) (s : State) : Served :=
  heldCue cue s fun c x =>
    match x.state with
    | .spent => answerOnly s .wrongState
    | .disabled => answerOnly s .ok
    | .armed => answerOnly (s.setCue c { s.cue c with entry := some { x with state := .disabled } }) .ok

/-- CUE.DISABLE (R141). -/
def execCueDisable (tag cue : Byte) (s : State) : Result := request 115 tag (serveCueDisable cue) s

/-- CUE.DELETE at its block (R142). -/
def serveCueDelete (cue : Byte) (s : State) : Served :=
  heldCue cue s fun c _ => answerOnly (s.setCue c Cue.empty) .ok

/-- CUE.DELETE (R142). -/
def execCueDelete (tag cue : Byte) (s : State) : Result := request 116 tag (serveCueDelete cue) s

end Sys2Proof.Machine
end

