-- ==== Sys2Proof/Machine/VoiceRequests.lean ====
section
/-! DEFINITION. The voice requests (R68, R71 to R73, R85, R91, R92, R96, R97) and the completion of a fetch (R78, R79). -/

namespace Sys2Proof.Machine

/-! ### VOICE.START, VOICE.PREPARE -/

/-- The outcome fields of a start: voice number, start number and voice state; 255, 0 and IDLE where refused (R197). -/
def startFields : StartResult → List Byte
  | .refused _ => 255 :: le32 0 ++ [VoiceState.idle.code]
  | .started v n st => byteOf v.val :: le32 n ++ [st.code]

/-- VOICE.START at its block (R71): the reply is sent after the claim has been decided. -/
def serveVoiceStart (order : RawOrder) (s : State) : Served :=
  match startVoice .link (readOrder order) s with
  | (t, .refused .noZone) => answer (arbitrate t) .noZone (startFields (.refused .noZone))
  | (t, .refused st) => answer t st (startFields (.refused st))
  | (t, .started v n st) => answer (arbitrate t) .ok (startFields (.started v n st))

/-- VOICE.START (R71). -/
def execVoiceStart (tag : Byte) (order : RawOrder) (s : State) : Result := request 64 tag (serveVoiceStart order) s

/-- The seconds a discard timer starts at (R72, R97). -/
def DiscardMode.seconds : DiscardMode → Nat
  | .normal => 30
  | .short => 2

/-- VOICE.PREPARE at its block (R72): allocated, the voice stands PREPARED with its discard timer running. -/
def serveVoicePrepare (order : RawOrder) (s : State) : Served :=
  match startChecks (readOrder order) false s with
  | .error st => answer s st (startFields (.refused st))
  | .ok (o, v) =>
    let s := allocate v .link o s
    let s := s.setVoice v { s.voice v with discardTimer := s.engine.discardMode.seconds }
    answer (arbitrate s) .ok (startFields (.started v (s.voice v).start .prepared))

/-- VOICE.PREPARE (R72). -/
def execVoicePrepare (tag : Byte) (order : RawOrder) (s : State) : Result := request 65 tag (serveVoicePrepare order) s

/-! ### Requests that name a voice by its start number -/

/-- The checks of R68 after the fields: STALE, then LOCKED for V6. -/
def namedVoice (start : BitVec 32) (s : State) : Except Status VoiceId :=
  match liveVoice s start.toNat with
  | none => .error .stale
  | some v => if v = overrideVoice then .error .locked else .ok v

/-- The state of the voice a start number names, IDLE where it names none (R197; log entry 17 for V6). -/
def namedState (start : BitVec 32) (s : State) : Byte :=
  match liveVoice s start.toNat with
  | some v => (s.voice v).state.code
  | none => VoiceState.idle.code

/-- VOICE.GO of a general voice: the checks of R73, then the claim. -/
def goVoice (v : VoiceId) (s : State) : State × Status :=
  if s.inputs.latch then (s, .locked)
  else if (s.voice v).state ≠ .prepared then (s, .wrongState)
  else if s.arbiter.bus = .halted then (s, .wrongState)
  else match (s.voice v).order with
    | none => (s, .wrongState)
    | some o =>
      match claimZones offers v o s with
      | (t, .granted) => (arbitrate t, .ok)
      | (t, .queued) => (arbitrate t, .ok)
      | (t, .refused) => (t, .noZone)

/-- VOICE.GO at its block (R73): the reply carries the voice state after the request (R197). -/
def serveVoiceGo (start : BitVec 32) (s : State) : Served :=
  match namedVoice start s with
  | .error st => answer s st [namedState start s]
  | .ok v =>
    let r := goVoice v s
    answer r.1 r.2 [(r.1.voice v).state.code]

/-- VOICE.GO (R73). -/
def execVoiceGo (tag : Byte) (start : BitVec 32) (s : State) : Result := request 66 tag (serveVoiceGo start) s

/-- The modes of VOICE.STOP (R91, R194). -/
inductive StopMode where
  | now | afterPass
  deriving DecidableEq, Repr

/-- R194. -/
def readStopMode (b : Byte) : Option StopMode :=
  if b = 1 then some .now else if b = 2 then some .afterPass else none

/-- VOICE.STOP of a general voice (R91). -/
def stopVoice (mode : StopMode) (v : VoiceId) (s : State) : State :=
  let x := s.voice v
  if mode = .afterPass ∧ x.state = .active ∧ (x.step.bind Step.clip?).isSome then
    s.setVoice v { x with stopAfterPass := true }
  else arbitrate (endVoice offers v .stopped s)

/-- VOICE.STOP at its block (R91). -/
def serveVoiceStop (start : BitVec 32) (mode : Byte) (s : State) : Served :=
  match readStopMode mode with
  | none => answerOnly s .badField
  | some m =>
    match namedVoice start s with
    | .error st => answerOnly s st
    | .ok v => answerOnly (stopVoice m v s) .ok

/-- VOICE.STOP (R91). -/
def execVoiceStop (tag : Byte) (start : BitVec 32) (mode : Byte) (s : State) : Result :=
  request 67 tag (serveVoiceStop start mode) s

/-- VOICE.PAUSE and VOICE.RESUME at their block: the paused flag as asked for (R92). -/
def servePaused (paused : Bool) (start : BitVec 32) (s : State) : Served :=
  match namedVoice start s with
  | .error st => answerOnly s st
  | .ok v =>
    let x := s.voice v
    if x.state = .prepared ∨ x.state = .waiting then answerOnly s .wrongState
    else answerOnly (s.setVoice v { x with paused := paused }) .ok

/-- VOICE.PAUSE (R92). -/
def execVoicePause (tag : Byte) (start : BitVec 32) (s : State) : Result := request 68 tag (servePaused true start) s

/-- VOICE.RESUME (R92). -/
def execVoiceResume (tag : Byte) (start : BitVec 32) (s : State) : Result := request 69 tag (servePaused false start) s

/-- Whether the latched step is a HOLD step. -/
def Voice.inHold (x : Voice) : Bool :=
  match x.step with
  | some (.hold _ _) => true
  | _ => false

/-- VOICE.RELEASE at its block (R85). -/
def serveVoiceRelease (start : BitVec 32) (s : State) : Served :=
  match namedVoice start s with
  | .error st => answerOnly s st
  | .ok v =>
    let x := s.voice v
    if x.state = .prepared ∨ x.state = .waiting then answerOnly s .wrongState
    else if x.inHold = false then answerOnly s .notHolding
    else if x.releaseMark ∨ x.holdEndMark then answerOnly s .tooLate
    else answerOnly (s.setVoice v { x with releaseMark := true }) .ok

/-- VOICE.RELEASE (R85). -/
def execVoiceRelease (tag : Byte) (start : BitVec 32) (s : State) : Result := request 70 tag (serveVoiceRelease start) s

/-! ### VOICE.STATUS, VOICE.CONFIG -/

/-- The origin and its number (R198). -/
def originBytes : Origin → List Byte
  | .none => [0, 0]
  | .link => [1, 0]
  | .cue c => [2, numberByte c]
  | .input i => [3, byteOf i.val]
  | .override => [4, 0]

/-- A walk zone, 255 where absent (R192). -/
def walkZoneByte : Option ZoneId → Byte
  | some z => byteOf z.val
  | none => 255

/-- The position by R1 from the sample number: block sequence, page and sample offset within the page (R96, R198). -/
def positionBytes (x : Voice) : List Byte :=
  match x.answer with
  | none => [0, 0, 0, 0, 0]
  | some a =>
    let o := x.position * a.format.size
    le16 (o / Config.blockBytes) ++ [byteOf (o % Config.blockBytes / Config.pageBytes)]
      ++ le16 (o % Config.pageBytes / a.format.size)

/-- The timer kind and its remaining seconds or frames (R96, R198). -/
def timerBytes (x : Voice) : List Byte :=
  match x.state, x.step, x.holdTimer with
  | .prepared, _, _ => 1 :: le32 x.discardTimer
  | .waiting, _, _ => 2 :: le32 x.waitTimer
  | .idle, _, _ => 0 :: le32 0
  | _, some (.gap _), _ => 3 :: le32 x.gapTimer
  | _, some (.hold _ _), some n => 4 :: le32 n
  | _, _, _ => 0 :: le32 0

/-- One bit of a byte of flags. -/
def flagBit (b : Bool) (n : Nat) : Byte := if b then BitVec.twoPow 8 n else 0

/-- The end record, all 0 where absent (R95, R198). -/
def endRecordBytes : Option EndRecord → List Byte
  | none => List.replicate 16 0
  | some r =>
    [1, r.cause.code, r.fault.code, r.program.elim 0 numberByte, byteOf r.step] ++ originBytes r.origin ++ le32 r.start
      ++ timeBytes r.time

/-- The fields of VOICE.STATUS after the status (R96, R198). -/
def voiceStatusFields (v : VoiceId) (s : State) : List Byte :=
  let x := s.voice v
  [x.state.code, yesNo x.paused] ++ le32 x.start ++ originBytes x.origin ++ orderBytes x.order
    ++ [s.heldSet v, x.wanted, byteOf x.stepIndex] ++ stepBytes x.step ++ le16 x.passCount
    ++ [walkZoneByte x.walkZone, x.walked] ++ positionBytes x
    ++ [byteOf x.buffer.length] ++ le16 x.bufferBytes
    ++ [yesNo x.fetch.isSome, yesNo x.leadIn,
        flagBit x.releaseMark 0 ||| flagBit x.holdEndMark 1 ||| flagBit x.stopAfterPass 2]
    ++ timerBytes x ++ le32 x.underTotal ++ le16 x.underRun
    ++ [flagBit x.faults.underrun 0 ||| flagBit x.faults.readError 1 ||| flagBit x.faults.clipMissing 2
          ||| flagBit x.faults.starved 3,
        x.faults.code.code]
    ++ endRecordBytes x.endRecord

/-- VOICE.STATUS at its block (R96). -/
def serveVoiceStatus (voice : Byte) (s : State) : Served :=
  match below 7 voice.toNat with
  | none => answerOnly s .badField
  | some v => answer s .ok (voiceStatusFields v s)

/-- VOICE.STATUS (R96). -/
def execVoiceStatus (tag voice : Byte) (s : State) : Result := request 71 tag (serveVoiceStatus voice) s

/-- R194. -/
def readDiscardMode (b : Byte) : Option DiscardMode :=
  if b = 1 then some .normal else if b = 2 then some .short else none

/-- VOICE.CONFIG at its block (R97). -/
def serveVoiceConfig (mode : Byte) (s : State) : Served :=
  match readDiscardMode mode with
  | none => answerOnly s .badField
  | some m => answerOnly { s with engine.discardMode := m } .ok

/-- VOICE.CONFIG (R97). -/
def execVoiceConfig (tag mode : Byte) (s : State) : Result := request 72 tag (serveVoiceConfig mode) s

/-! ### A fetch completes (R78, R79) -/

/-- Whether a fetch that completes is kept (R79). -/
def fetchKept (x : Voice) (f : Fetch) : Bool := x.state ≠ .idle && f.start = x.start && f.keep

/-- The voice with a fetched page kept: appended, or replaced by silence on a read error; the first page of the current pass
clears lead-in (R78). -/
def Voice.withPage (x : Voice) (f : Fetch) (good : Bool) (payload : List Byte) : Voice :=
  { x with
    buffer := x.buffer ++ [{ page := f.page, pass := f.pass, data := if good then some payload else none }]
    fetch := none
    leadIn := x.leadIn && !(f.page = 0 && f.pass = 0)
    faults := { x.faults with readError := x.faults.readError || !good } }

/-- A fetch completes for its voice (R78, R79): kept or discarded, and the voice tests for a further fetch. -/
def fetchOutcome (v : VoiceId) (good : Bool) (payload : List Byte) (s : State) : State :=
  let x := s.voice v
  match x.fetch with
  | none => s
  | some f =>
    if fetchKept x f then fetchTest v (s.setVoice v (x.withPage f good payload))
    else fetchTest v (s.setVoice v { x with fetch := none })

/-- The fetch in flight completes; a read error sets STORE_FAULT whether the page is kept or not (R17). -/
def fetchDone (good : Bool) (s : State) : State :=
  match s.store.port with
  | .fetch v b p =>
    let payload := (s.flash.read (pageAddress b p)).payload
    let s := s.setPort .idle
    let s := if good then s else setFlag .storeFault s
    arbitrate (fetchOutcome v good payload s)
  | _ => s

/-- FETCH_COMPLETE (R78); `payloadGood` is the device's report of the read. -/
def execFetchComplete (payloadGood : Bool) (s : State) : Result := event (fetchDone payloadGood) s

end Sys2Proof.Machine
end

