-- ==== Sys2Proof/Machine/Playing.lean ====
section
/-! DEFINITION. The frame event: what each voice yields, its timers, its pass ends, and the slots of the zone-bus frame (R30 to R32, R80
to R89, R116 to R118); the expiries that come about in a frame event, and those that come about in time (R72, R106). -/

namespace Sys2Proof.Machine

/-! ### Linear values (R30 to R32) -/

/-- The two's complement value of n bytes, least significant first. -/
def signedLe (bytes : List Byte) : Int :=
  let n := fromLe bytes
  if 2 * n < 256 ^ bytes.length then (n : Int) else (n : Int) - 256 ^ bytes.length

/-- The expansion of an L8 code (R32). -/
def expandL8 (c : Byte) : Int :=
  let k := c.toNat % 128
  let s := k / 16
  let m := k % 16
  let magnitude := if s = 0 then 16 * m + 8 else (264 + 16 * m) * 2 ^ (s - 1)
  if c.toNat < 128 then (magnitude : Int) else -(magnitude : Int)

/-- The linear value of a stored sample (R30 to R32); the fourth byte of an S24 sample is disregarded. -/
def linearValue (f : Format) (bytes : List Byte) : Int :=
  match f with
  | .s16 => signedLe (bytes.take 2)
  | .s24 => signedLe (bytes.take 3)
  | .l8 => expandL8 (bytes.headD 0)

/-- A sample widened to the 24-bit slot (R117). -/
def widen (f : Format) (x : Int) : Int :=
  match f with
  | .s16 => x * 256
  | .s24 => x
  | .l8 => x * 256

/-! ### One voice's part in a frame event (R80) -/

/-- What a voice yields at a frame event: the widened sample, and the one zone it is for in a WALK step. -/
structure Yield where
  value : Int
  only  : Option ZoneId
  deriving DecidableEq, Repr

/-- The linear value at the voice's position when its buffer holds it (R80); a page of silence has value 0 (R78). -/
def Voice.sampleAtPosition (x : Voice) : Option Int :=
  match x.answer, x.buffer with
  | some a, p :: _ =>
    if p.pass = 0 ∧ p.page = x.position / a.format.pageSamples then
      match p.data with
      | none => some 0
      | some bytes => some (linearValue a.format (field bytes (x.position % a.format.pageSamples * a.format.size) a.format.size))
    else none
  | _, _ => none

/-- What a frame event leaves to do for a voice once it has yielded. -/
inductive AfterYield where
  | nothing | passEnd | starve
  deriving DecidableEq, Repr

/-- The position advances past a sample: each sample of an 8 kHz clip is yielded twice (R80). -/
def Voice.advance (x : Voice) (a : ClipAnswer) : Voice :=
  if a.rate = .khz8 ∧ x.secondPhase = false then { x with secondPhase := true }
  else { x with position := x.position + 1, secondPhase := false }

/-- Whether the position has just passed the last sample that the oldest buffer page holds (R80). -/
def Voice.pageConsumed (x : Voice) (a : ClipAnswer) : Bool :=
  x.secondPhase = false && (x.position % a.format.pageSamples = 0 || a.samples ≤ x.position)

/-- An underrun frame (R81): the last output sample again, the flags and counts, the event flag at the first of a run. -/
def underrunFrame (v : VoiceId) (s : State) : State × AfterYield :=
  let x := s.voice v
  let n := x.underRun + 1
  let s := s.setVoice v
    { x with underRun := n, underTotal := riseTo Config.greatestNumber x.underTotal,
             faults := { x.faults with underrun := true } }
  let s := if n = 1 then setFlag .underrun s else s
  (s, if Config.starvedFrames ≤ n then .starve else .nothing)

/-- A yield from the buffer (R80): a consumed page leaves it and the voice tests for a fetch; past the last sample the pass
ends. -/
def bufferFrame (v : VoiceId) (a : ClipAnswer) (value : Int) (s : State) : State × AfterYield :=
  let x := ({ s.voice v with lastSample := value, underRun := 0 } : Voice).advance a
  if x.pageConsumed a then
    (fetchTest v (s.setVoice v { x with buffer := x.buffer.drop 1 }),
      if a.samples ≤ x.position then .passEnd else .nothing)
  else (s.setVoice v x, .nothing)

/-- The sample of a clip step (R80): silence in lead-in, the sample at the position, or an underrun. -/
def clipFrame (v : VoiceId) (a : ClipAnswer) (s : State) : State × AfterYield :=
  let x := s.voice v
  if x.leadIn then (s.setVoice v { x with lastSample := 0 }, .nothing)
  else match x.sampleAtPosition with
    | some value => bufferFrame v a value s
    | none => underrunFrame v s

/-- The hold timer counts down one frame; at 0 it sets the hold-end mark unless a mark is set, and stops (R84). -/
def holdCount (v : VoiceId) (s : State) : State :=
  let x := s.voice v
  match x.holdTimer with
  | some (n + 1) =>
    s.setVoice v { x with
      holdTimer := some n,
      holdEndMark := x.holdEndMark || (n = 0 && !x.releaseMark) }
  | some 0 => s
  | none => s

/-- The next pass of a PLAY or HOLD step begins: the marks of pages, fetch and fetch point are counted from it (R82). -/
def nextPass (v : VoiceId) (s : State) : State :=
  let x := s.voice v
  fetchTest v (s.setVoice v { x with
    position := 0, secondPhase := false, fetchPass := x.fetchPass - 1,
    buffer := x.buffer.map fun p => { p with pass := p.pass - 1 },
    fetch := x.fetch.map fun f => { f with pass := f.pass - 1 } })

/-- A pass end (R82, R83, R87). -/
def passEnd (o : Offers) (v : VoiceId) (s : State) : State :=
  let x := s.voice v
  let n := riseTo Config.greatestCount x.passCount
  let s := s.setVoice v { x with passCount := n }
  if x.stopAfterPass then endVoice o v .stopped s
  else match x.step with
    | some (.play _ count) => if n < count then nextPass v s else stepEnd o v s
    | some (.hold _ _) => if x.releaseMark ∨ x.holdEndMark then stepEnd o v s else nextPass v s
    | some (.walk _) =>
      match x.walkZone with
      | none => stepEnd o v s
      | some at_ =>
        match nextWalkZone v at_ s with
        | some z =>
          let y := s.voice v
          fetchTest v (s.setVoice v { y with
            walkZone := some z, walked := addZone y.walked z, position := 0, secondPhase := false, fetchPage := 0,
            fetchPass := 0, leadIn := true })
        | none => stepEnd o v s
    | some (.gap _) => s
    | none => s

/-- A voice that has starved ends with a fault (R81). -/
def starveVoice (o : Offers) (v : VoiceId) (s : State) : State :=
  let x := s.voice v
  endVoice o v .fault (s.setVoice v { x with faults := { x.faults with starved := true } })

/-- A GAP step's frame: silence, and the gap timer counts down; at 0 the step ends (R80, R89). -/
def gapFrame (o : Offers) (v : VoiceId) (s : State) : State :=
  let x := s.voice v
  let s := s.setVoice v { x with lastSample := 0, gapTimer := x.gapTimer - 1 }
  if x.gapTimer ≤ 1 then stepEnd o v s else s

/-- What is left once a voice has yielded and its hold timer has counted. -/
def afterYield (o : Offers) (v : VoiceId) (s : State) : AfterYield → State
  | .nothing => s
  | .passEnd => passEnd o v s
  | .starve => starveVoice o v s

/-- Whether a voice takes its part: ACTIVE and not paused at its turn (R80). -/
def takesPart (v : VoiceId) (s : State) : Bool := (s.voice v).state = .active && !(s.voice v).paused

/-- A voice's part in a frame event: it yields, its timers count, and any pass end, step end or end follows (R80; log entry 10 for
the order of the last two). -/
def voicePart (v : VoiceId) (s : State) : State × Option Yield :=
  if takesPart v s then
    let x := s.voice v
    match x.step, x.answer with
    | some (.gap _), _ => (gapFrame offers v s, some { value := 0, only := none })
    | _, none => (s, some { value := 0, only := none })
    | _, some a =>
      let r := clipFrame v a s
      let y : Yield := { value := widen a.format (r.1.voice v).lastSample, only := if x.inWalk then x.walkZone else none }
      (afterYield offers v (holdCount v r.1) r.2, some y)
  else (s, none)

/-! ### The slots (R116 to R118) -/

/-- The multiplier of an effective level (R118). -/
def multiplier (level : Nat) : Int :=
  ([65536, 52057, 41350, 32846, 26090, 20724, 16462, 13076,
    10387, 8250, 6554, 5206, 4135, 3285, 2609, 2072,
    1646, 1308, 1039, 825, 655, 521, 414, 328,
    261, 207, 165, 131, 104, 83, 66, 0] : List Int).getD level 0

/-- A widened sample scaled by a level: divided by 65 536 and rounded toward zero (R118). -/
def scale (value : Int) (level : Nat) : Int := (value * multiplier level).tdiv 65536

/-- The effective level of a zone: the override level while the latch is set and V6 holds it (R118). -/
def effectiveLevel (s : State) (z : ZoneId) : Nat :=
  if s.inputs.latch ∧ s.holds overrideVoice z then s.inputs.overrideLevel else (s.zone z).level

/-- The value a zone's slot carries, from the yields of the voices that took part (R116). -/
def slotValue (s : State) (yields : VoiceId → Option Yield) (z : ZoneId) : Int :=
  match (s.zone z).holder with
  | none => 0
  | some (v, _) =>
    match yields v with
    | none => 0
    | some y =>
      if y.only = none ∨ y.only = some z then scale y.value (effectiveLevel s z) else 0

/-- The parts of voices one after another, with what each yielded (R80). -/
def takeParts : List VoiceId → State → State × List (VoiceId × Yield)
  | [], s => (s, [])
  | v :: vs, s =>
    let r := voicePart v s
    let rest := takeParts vs r.1
    (rest.1, match r.2 with
      | some y => (v, y) :: rest.2
      | none => rest.2)

/-- What a voice yielded at a frame event. -/
def yieldOf (yields : List (VoiceId × Yield)) (v : VoiceId) : Option Yield :=
  (yields.find? fun p => p.1 = v).map (·.2)

/-- The eight slots of a frame (R116). -/
def formSlots (s : State) (yields : List (VoiceId × Yield)) : Vector (BitVec 24) 8 :=
  Vector.ofFn fun z => BitVec.ofInt 24 (slotValue s (yieldOf yields) z)

/-- A frame event: the parts of V0 to V6 in ascending order, then the slots (R80, R116). -/
def frame (s : State) : State :=
  let r := takeParts allVoices s
  arbitrate { r.1 with arbiter.output := some (formSlots r.1 r.2) }

/-- Whether frames are sent (R120). -/
def busRuns (s : State) : Bool := s.arbiter.bus = .running

/-- The state at a voice's turn in a frame event: the parts before its own are complete (R80). -/
def atTurn (v : VoiceId) (s : State) : State := (takeParts (allVoices.takeWhile (· ≠ v)) s).1

/-- Whether the coming frame event is the one at which a test of a voice holds at its turn. -/
def atTurnHolds (p : Voice → Bool) (v : VoiceId) (s : State) : Bool :=
  busRuns s && takesPart v (atTurn v s) && p ((atTurn v s).voice v)

/-- A GAP step whose timer reaches 0 at the next frame the voice takes part in (R89). -/
def Voice.gapExpires (x : Voice) : Bool :=
  match x.step with
  | some (.gap _) => x.gapTimer ≤ 1
  | _ => false

/-- A HOLD step whose timer reaches 0 at the next frame the voice takes part in (R84). -/
def Voice.holdExpires (x : Voice) : Bool :=
  match x.step with
  | some (.hold _ _) => x.holdTimer = some 1
  | _ => false

/-- A voice whose consecutive underrun count reaches 1600 at the next frame it takes part in (R81). -/
def Voice.starves (x : Voice) : Bool :=
  x.answer.isSome && !x.leadIn && x.sampleAtPosition.isNone && Config.starvedFrames ≤ x.underRun + 1

/-! ### The rows -/

/-- FRAME_EVENT (R80). No frame is sent while the bus is HALTED (R120). -/
def execFrameEvent (s : State) : Result := eventWhen busRuns frame s

/-- STARVED (R81): the frame event at which the voice's consecutive underrun count reaches 1600 (log entry 16). -/
def execStarved (v : VoiceId) (s : State) : Result := eventWhen (atTurnHolds Voice.starves v) frame s

/-- GAP_TIMER_EXPIRY (R89): the frame event at which the voice's gap timer reaches 0 (log entry 16). -/
def execGapTimerExpiry (v : VoiceId) (s : State) : Result := eventWhen (atTurnHolds Voice.gapExpires v) frame s

/-- HOLD_TIMER_EXPIRY (R84): the frame event at which the voice's hold timer reaches 0 (log entry 16). -/
def execHoldTimerExpiry (v : VoiceId) (s : State) : Result := eventWhen (atTurnHolds Voice.holdExpires v) frame s

/-- DISCARD_TIMER_EXPIRY (R72): a PREPARED voice ends DISCARDED. -/
def execDiscardTimerExpiry (v : VoiceId) (s : State) : Result :=
  eventWhen (fun s => (s.voice v).state = .prepared) (fun s => arbitrate (endVoice offers v .discarded s)) s

/-- WAIT_TIMER_EXPIRY (R106): a WAITING voice ends WAIT_EXPIRED. -/
def execWaitTimerExpiry (v : VoiceId) (s : State) : Result :=
  eventWhen (fun s => (s.voice v).state = .waiting) (fun s => arbitrate (endVoice offers v .waitExpired s)) s

end Sys2Proof.Machine
end

