-- ==== Sys2Proof/Machine/ZoneRequests.lean ====
section
/-! DEFINITION. The zone requests (R112 to R115) and the halting and running of the bus (R119, R120). -/

namespace Sys2Proof.Machine

/-! ### ZONE.SET -/

/-- A zone is disabled (R113): its holder, if it has one, acts as the loser of a preemption. -/
def disableZone (z : ZoneId) (s : State) : State :=
  let x := s.zone z
  let s := s.setZone z { x with enabled := false, holder := none }
  match x.holder with
  | none => s
  | some (v, _) => loseSome offers v (loseLast offers v (wantAlso v (oneZone z) s))

/-- A zone is enabled and offered at once (R114). -/
def enableZone (z : ZoneId) (s : State) : State :=
  offers (oneZone z) (s.setZone z { s.zone z with enabled := true })

/-- An accepted ZONE.SET (R112): the level, then the enabled field compared with the present one. -/
def setLevel (z : ZoneId) (level : Nat) (enabled : Bool) (s : State) : State :=
  let before := (s.zone z).enabled
  let s := s.setZone z { s.zone z with level := level }
  arbitrate (match before, enabled with
    | true, false => disableZone z s
    | false, true => enableZone z s
    | true, true => s
    | false, false => s)

/-- ZONE.SET at its block (R112). -/
def serveZoneSet (zone level enabled : Byte) (s : State) : Served :=
  match below 8 zone.toNat, below 32 level.toNat, readYesNo enabled with
  | some z, some l, some e =>
    if s.inputs.latch then answerOnly s .locked else answerOnly (setLevel z l.val e s) .ok
  | _, _, _ => answerOnly s .badField

/-- ZONE.SET (R112). -/
def execZoneSet (tag zone level enabled : Byte) (s : State) : Result :=
  request 80 tag (serveZoneSet zone level enabled) s

/-! ### ZONE.STATUS -/

/-- The holder of a zone, its start number and priority; 255, 0 and 0 without one (R115, R201). -/
def holderBytes (s : State) (z : ZoneId) : List Byte :=
  match (s.zone z).holder with
  | some (v, p) => byteOf v.val :: le32 (s.voice v).start ++ [byteOf p]
  | none => 255 :: le32 0 ++ [0]

/-- A zone's entry of ZONE.STATUS (R115, R201). -/
def zoneEntry (s : State) (z : ZoneId) : List Byte :=
  holderBytes s z ++ [byteOf (s.zone z).level, yesNo (s.zone z).enabled, byteOf (effectiveLevel s z)]

/-- A waiting voice's entry of ZONE.STATUS (R115, R201). -/
def waitingEntry (s : State) (v : VoiceId) : List Byte :=
  let x := s.voice v
  byteOf v.val :: le32 x.start
    ++ (match x.order with
        | some o => [byteOf o.priority, o.zones, yesNo o.partialOpt]
        | none => [0, 0, 0])
    ++ [byteOf x.waitTimer]

/-- The fields of ZONE.STATUS after the status (R115, R201). -/
def zoneStatusFields (s : State) : List Byte :=
  s.arbiter.bus.code :: (allZones.map (zoneEntry s)).flatten
    ++ byteOf s.arbiter.waiting.length :: (s.arbiter.waiting.map (waitingEntry s)).flatten

/-- ZONE.STATUS at its block (R115). -/
def serveZoneStatus (s : State) : Served := answer s .ok (zoneStatusFields s)

/-- ZONE.STATUS (R115). -/
def execZoneStatus (tag : Byte) (s : State) : Result := request 81 tag serveZoneStatus s

/-! ### OUTPUT.HALT, OUTPUT.RUN -/

/-- Every general voice that is not IDLE ends FORCED; the zones these ends free are not offered (R119). -/
def forceVoices (s : State) : State := generalVoices.foldl (fun s v => endVoice noOffers v .forced s) s

/-- The bus is HALTED: no frame is sent (R119, R120; log entry 4). -/
def haltBus (s : State) : State := { s with arbiter.bus := .halted, arbiter.output := none }

/-- Whether every general voice is IDLE. -/
def generalIdle (s : State) : Bool := generalVoices.all fun v => (s.voice v).state = .idle

/-- OUTPUT.HALT at its block (R119; log entry 18 for a bus that is HALTED already). -/
def serveOutputHalt (force : Byte) (s : State) : Served :=
  match readYesNo force with
  | none => answerOnly s .badField
  | some f =>
    if s.inputs.latch then answerOnly s .locked
    else if generalIdle s = false ∧ f = false then answerOnly s .busy
    else answerOnly (arbitrate (haltBus (forceVoices s))) .ok

/-- OUTPUT.HALT (R119). -/
def execOutputHalt (tag force : Byte) (s : State) : Result := request 82 tag (serveOutputHalt force) s

/-- The bus runs: frames begin at the next frame event (R120). -/
def runBus (s : State) : State := { s with arbiter.bus := .running }

/-- OUTPUT.RUN at its block (R120). -/
def serveOutputRun (s : State) : Served := answerOnly (runBus s) .ok

/-- OUTPUT.RUN (R120). -/
def execOutputRun (tag : Byte) (s : State) : Result := request 83 tag serveOutputRun s

end Sys2Proof.Machine
end

