-- ==== Sys2Proof/Machine/InputUnit.lean ====
section
/-! DEFINITION. The contact inputs, the taking of their edges, the trigger FIFO, the override, and the trigger and override requests
(chapter 7). -/

namespace Sys2Proof.Machine

/-! ### Pins (R145) -/

/-- A pin takes a level: a departure from the debounced level starts the settle timer, a return cancels it (R145). Held in reset
only the pin itself moves (R146, R166). -/
def Input.atPin (x : Input) (held : Bool) (level : Level) : Input :=
  { x with pin := level, settling := if held then x.settling else decide (level ≠ x.level) }

/-- PIN_CHANGE (R145): the pins belong to the outside world, so they move while the part is held in reset; a pin that stands at the
level already does not change (log entry 12). -/
def execPinChange (i : InputId) (level : Level) (s : State) : Result :=
  .next (if (s.input i).pin = level then s else s.setInput i ((s.input i).atPin s.inReset level))

/-- The edge that a change to a level is (R145). -/
def edgeTo : Level → Edge
  | .closed => .close
  | .opened => .opening

/-! ### The actions of a trigger entry (R149 to R154) -/

/-- The action an entry takes at an edge (R149). -/
def actionAt (a : TriggerAction) (e : Edge) : ActionTaken :=
  match a with
  | .none => .none
  | .start on _ => if on = e then .start else .none
  | .follow _ => if e = .close then .followStart else .followStop
  | .stop on _ => if on = e then .stop else .none
  | .release on _ => if on = e then .release else .none
  | .mark on => if on = e then .mark else .none

/-- What carrying out an action gives: the state, the result status and the start number (R149). -/
structure Taken where
  state  : State
  result : Status
  start  : Nat

/-- The last start number of a trigger entry is replaced; 0 is none (R147). -/
def setLastStart (i : TriggerId) (n : Nat) (s : State) : State := s.setTrigger i { s.trigger i with lastStart := n }

/-- A START action, and the close edge of a FOLLOW action (R150, R151). -/
def triggerStart (i : TriggerId) (o : StartOrder) (s : State) : Taken :=
  let r := startVoice (.input i) (some o) s
  { state := setLastStart i r.2.start r.1, result := r.2.status, start := r.2.start }

/-- The voice that an input's last start number names (R151), whatever its origin (log entry 24: a number that has been reissued). -/
def followedVoice (i : TriggerId) (s : State) : Option VoiceId :=
  let n := (s.trigger i).lastStart
  if n = 0 then none else liveVoice s n

/-- The open edge of a FOLLOW action (R151). -/
def followStop (i : TriggerId) (s : State) : Taken :=
  let n := (s.trigger i).lastStart
  match followedVoice i s with
  | some v => { state := setLastStart i 0 (endVoice offers v .stopped s), result := .ok, start := n }
  | none => { state := setLastStart i 0 s, result := .stale, start := n }

/-- Whether a voice is not IDLE with a priority at or below the stop priority (R152). -/
def stopReaches (priority : Nat) (s : State) (v : VoiceId) : Bool :=
  (s.voice v).state ≠ .idle && (s.voice v).order.any (·.priority ≤ priority)

/-- A STOP action (R152): the set is fixed at the edge, and each end is complete before the next. -/
def triggerStop (priority : Nat) (s : State) : State :=
  (generalVoices.filter (stopReaches priority s)).foldl (fun s v => endVoice offers v .stopped s) s

/-- Whether a RELEASE action reaches a voice (R153). -/
def releaseReaches (p : ProgramId) (s : State) (v : VoiceId) : Bool :=
  let x := s.voice v
  (x.state = .active || x.state = .suspended) && x.order.any (·.program = p) && x.inHold
    && !x.releaseMark && !x.holdEndMark

/-- A RELEASE action (R153). -/
def triggerRelease (p : ProgramId) (s : State) : State :=
  (generalVoices.filter (releaseReaches p s)).foldl
    (fun s v => s.setVoice v { s.voice v with releaseMark := true }) s

/-- An entry's action at an edge is carried out (R149 to R154). -/
def carryOut (i : TriggerId) (e : Edge) (s : State) : Taken :=
  match (s.trigger i).action, actionAt (s.trigger i).action e with
  | .start _ o, .start => triggerStart i o s
  | .follow o, .followStart => triggerStart i o s
  | .follow _, .followStop => followStop i s
  | .stop _ p, .stop => { state := triggerStop p s, result := .ok, start := 0 }
  | .release _ p, .release => { state := triggerRelease p s, result := .ok, start := 0 }
  | .mark _, .mark => let r := minuteMark s; { state := r.1, result := r.2, start := 0 }
  | _, _ => { state := s, result := .ok, start := 0 }

/-! ### The trigger FIFO (R155) -/

/-- An edge is logged (R155). -/
def appendEntry (x : FifoEntry) (s : State) : State :=
  if s.inputs.fifo.length < Config.triggerFifoEntries then
    let t : State := { s with inputs.fifo := s.inputs.fifo ++ [x] }
    if s.inputs.fifo = [] then setFlag .trigger t else t
  else setFlag .triggerOverflow { s with inputs.overflow := true }

/-- A trigger input's edge is taken (R149): the entry as it stands decides the action; the log flag decides the record. -/
def takeEdge (i : TriggerId) (e : Edge) (s : State) : State :=
  let entry := s.trigger i
  let r := carryOut i e s
  if entry.log then
    appendEntry { input := i, edge := e, time := r.state.clockTime, action := actionAt entry.action e, result := r.result,
                  start := r.start } r.state
  else r.state

/-! ### The override (R158 to R162) -/

/-- The start of V6 at a close edge of OVR (R160). -/
def askOverride (s : State) : State :=
  if (s.voice overrideVoice).state ≠ .idle then s
  else if s.store.state = .starting then { s with inputs.overrideResult := .pending }
  else startOverride s

/-- A close edge of OVR (R159). -/
def overrideClose (s : State) : State :=
  askOverride (runBus (setFlag .overrideOn { s with inputs.latch := true }))

/-- An edge of OVR is taken (R159, R161). -/
def overrideEdge (e : Edge) (s : State) : State :=
  match e with
  | .close => overrideClose s
  | .opening => setFlag .overrideOff s

/-- An edge of an input is taken by the trigger logic or the override logic (R146). -/
def inputEdge (i : InputId) (e : Edge) (s : State) : State :=
  match below 8 i.val with
  | some t => takeEdge t e s
  | none => overrideEdge e s

/-- A settle timer expires (R145): the debounced level becomes the new level, and the edge is taken. -/
def settle (i : InputId) (s : State) : State :=
  let x := s.input i
  arbitrate (inputEdge i (edgeTo x.pin) (s.setInput i { x with level := x.pin, settling := false }))

/-- Whether the settle timer of an input runs, with its pin still away from the debounced level. -/
def isSettling (i : InputId) (s : State) : Bool := (s.input i).settling && (s.input i).pin ≠ (s.input i).level

/-- SETTLE_TIMER_EXPIRY (R145). -/
def execSettleTimerExpiry (i : InputId) (s : State) : Result := eventWhen (isSettling i) (settle i) s

/-! ### Trigger requests -/

/-- TRIG.SET at its block (R148): the last start number is kept. -/
def serveTrigSet (input : Byte) (entry : RawTrigger) (s : State) : Served :=
  match below 8 input.toNat, readAction entry, readYesNo entry.log with
  | some i, some a, some log => answerOnly (s.setTrigger i { s.trigger i with action := a, log := log }) .ok
  | _, _, _ => answerOnly s .badField

/-- TRIG.SET (R148). -/
def execTrigSet (tag input : Byte) (entry : RawTrigger) (s : State) : Result :=
  request 128 tag (serveTrigSet input entry) s

/-- A trigger FIFO entry as thirteen bytes (R199). -/
def FifoEntry.bytes (x : FifoEntry) : List Byte :=
  [byteOf x.input.val, x.edge.code] ++ timeBytes x.time ++ [x.action.code, x.result.code] ++ le32 x.start

/-- The fields of TRIG.READ after the status (R156, R199). -/
def trigReadFields (s : State) : List Byte :=
  yesNo s.inputs.overflow :: byteOf s.inputs.fifo.length :: (s.inputs.fifo.map FifoEntry.bytes).flatten

/-- TRIG.READ at its block (R156): the read and the removal are one act. -/
def serveTrigRead (s : State) : Served :=
  answer { s with inputs.fifo := [], inputs.overflow := false } .ok (trigReadFields s)

/-- TRIG.READ (R156). -/
def execTrigRead (tag : Byte) (s : State) : Result := request 129 tag serveTrigRead s

/-- TI0 to TI7 in ascending order. -/
def allTriggers : List TriggerId := [0, 1, 2, 3, 4, 5, 6, 7]

/-- A trigger input's entry of TRIG.STATUS (R157, R201). -/
def trigEntry (s : State) (i : TriggerId) : List Byte :=
  levelCode (s.input (i.castLE (by decide))).level :: (s.trigger i).action.bytes
    ++ yesNo (s.trigger i).log :: le32 (s.trigger i).lastStart

/-- The fields of TRIG.STATUS after the status (R157, R201). -/
def trigStatusFields (s : State) : List Byte :=
  (allTriggers.map (trigEntry s)).flatten
    ++ [levelCode (s.input overrideInput).level, byteOf s.inputs.fifo.length, yesNo s.inputs.overflow]

/-- TRIG.STATUS at its block (R157). -/
def serveTrigStatus (s : State) : Served := answer s .ok (trigStatusFields s)

/-- TRIG.STATUS (R157). -/
def execTrigStatus (tag : Byte) (s : State) : Result := request 130 tag serveTrigStatus s

/-! ### Override requests -/

/-- An override program, 0 for none; none when above 32 (R158). -/
def readOverrideProgram (b : Byte) : Option (Option ProgramId) :=
  if b = 0 then some none else (readProgram b).map some

/-- OVERRIDE.SET at its block (R158). -/
def serveOverrideSet (program level : Byte) (s : State) : Served :=
  match readOverrideProgram program, below 32 level.toNat with
  | some p, some l => answerOnly { s with inputs.overrideProgram := p, inputs.overrideLevel := l.val } .ok
  | _, _ => answerOnly s .badField

/-- OVERRIDE.SET (R158). -/
def execOverrideSet (tag program level : Byte) (s : State) : Result :=
  request 144 tag (serveOverrideSet program level) s

/-- Every enabled zone without a holder is offered (R111). -/
def offerFree (s : State) : State :=
  offers (zonesWhere fun z => (s.zone z).enabled && (s.zone z).holder.isNone) s

/-- An accepted OVERRIDE.CLEAR, in the order of its parts (R163). -/
def clearOverride (s : State) : State :=
  let s := endVoice offers overrideVoice .stopped s
  offerFree { s with inputs.latch := false, inputs.overrideResult := .none }

/-- OVERRIDE.CLEAR at its block (R163). -/
def serveOverrideClear (s : State) : Served :=
  if (s.input overrideInput).level = .closed then answerOnly s .lineActive
  else if s.inputs.latch = false then answerOnly s .wrongState
  else answerOnly (arbitrate (clearOverride s)) .ok

/-- OVERRIDE.CLEAR (R163). -/
def execOverrideClear (tag : Byte) (s : State) : Result := request 145 tag serveOverrideClear s

/-- The fields of OVERRIDE.STATUS after the status (R164, R201). -/
def overrideStatusFields (s : State) : List Byte :=
  let x := s.voice overrideVoice
  [yesNo s.inputs.latch, levelCode (s.input overrideInput).level, x.state.code] ++ le32 x.start
    ++ [s.inputs.overrideResult.code, s.inputs.overrideProgram.elim 0 numberByte, byteOf s.inputs.overrideLevel]

/-- OVERRIDE.STATUS at its block (R164). -/
def serveOverrideStatus (s : State) : Served := answer s .ok (overrideStatusFields s)

/-- OVERRIDE.STATUS (R164). -/
def execOverrideStatus (tag : Byte) (s : State) : Result := request 146 tag serveOverrideStatus s

end Sys2Proof.Machine
end

