-- ==== Sys2Proof/Machine/ProgramRequests.lean ====
section
/-! DEFINITION. The program requests (R56 to R63). -/

namespace Sys2Proof.Machine

/-! ### PROG.WRITE -/

/-- The number of the first faulty step record (R57). -/
def firstFaulty : List RawStep → Option Nat
  | [] => none
  | r :: rs => if (readStep r).isNone then some 0 else (firstFaulty rs).map (· + 1)

/-- A PROG.WRITE refused BAD_FIELD carries the position of the fault, 255 for none (R57, R197). -/
def badProgram (s : State) (position : Option Nat) : Served := answer s .badField [byteOf (position.getD 255)]

/-- PROG.WRITE at its block (R57, R58); more step records than a frame of this kind allows are answered BAD_LENGTH (R194). -/
def serveProgWrite (program cycle count : Byte) (steps : List RawStep) (s : State) : Served :=
  if Config.stepsPerProgram < steps.length then answerOnly s .badLength
  else match readProgram program with
    | none => badProgram s none
    | some p =>
      match readYesNo cycle with
      | none => badProgram s none
      | some c =>
        if count = 0 ∨ Config.stepsPerProgram < count.toNat then badProgram s none
        else if steps.length ≠ count.toNat then answerOnly s .badLength
        else match firstFaulty steps with
          | some n => badProgram s (some n)
          | none => answerOnly (s.setProgram p (some { cycle := c, steps := steps.filterMap readStep })) .ok

/-- PROG.WRITE (R57, R58): no voice is changed. -/
def execProgWrite (tag program cycle count : Byte) (steps : List RawStep) (s : State) : Result :=
  request 48 tag (serveProgWrite program cycle count steps) s

/-! ### Programs in use, PROG.READ, PROG.DELETE -/

/-- Whether a program is in use by a voice (R61). -/
def usesProgram (p : ProgramId) (s : State) (v : VoiceId) : Bool :=
  let x := s.voice v
  x.state ≠ .idle &&
    if v = overrideVoice then x.stepProgram = some p || s.inputs.overrideProgram = some p
    else x.order.any (·.program = p)

/-- The check of R56, then those of the request. -/
def programRequest (program : Byte) (s : State) (serve : ProgramId → Program → Served) : Served :=
  match readProgram program with
  | none => answerOnly s .badField
  | some p =>
    match s.program p with
    | none => answerOnly s .notFound
    | some prog => serve p prog

/-- The fields of PROG.READ after the status (R63, R201). -/
def progReadFields (p : ProgramId) (prog : Program) (s : State) : List Byte :=
  let using_ := allVoices.filter (usesProgram p s)
  yesNo prog.cycle :: byteOf prog.steps.length :: (prog.steps.map Step.bytes).flatten
    ++ byteOf using_.length ::
      (using_.map fun v => [byteOf v.val, (s.voice v).state.code, byteOf (s.voice v).stepIndex]).flatten

/-- PROG.READ at its block (R63). -/
def serveProgRead (program : Byte) (s : State) : Served :=
  programRequest program s fun p prog => answer s .ok (progReadFields p prog s)

/-- PROG.READ (R63). -/
def execProgRead (tag program : Byte) (s : State) : Result := request 49 tag (serveProgRead program) s

/-- PROG.DELETE at its block (R62). -/
def serveProgDelete (program : Byte) (s : State) : Served :=
  programRequest program s fun p _ =>
    if allVoices.any (usesProgram p s) then answerOnly s .inUse else answerOnly (s.setProgram p none) .ok

/-- PROG.DELETE (R62). -/
def execProgDelete (tag program : Byte) (s : State) : Result := request 50 tag (serveProgDelete program) s

end Sys2Proof.Machine
end

