-- ==== Sys2Proof/Machine/RequestFrames.lean ====
section
/-! DEFINITION. A complete frame as the request it carries: its kind, its body length (R181, R194) and the fields of its body at their
places (R194 to R199); and the taking of such a frame. -/

namespace Sys2Proof.Machine

/-! ### The fields of a body -/

/-- A byte of a body. -/
def byteAt (body : List Byte) (i : Nat) : Byte := body.getD i 0
/-- A number of two bytes (R190). -/
def wordAt (body : List Byte) (i : Nat) : BitVec 16 := BitVec.ofNat 16 (fromLe (field body i 2))
/-- A number of four bytes (R190). -/
def longAt (body : List Byte) (i : Nat) : BitVec 32 := BitVec.ofNat 32 (fromLe (field body i 4))
/-- A start order at an offset (R196). -/
def orderAt (body : List Byte) (i : Nat) : RawOrder :=
  { program := byteAt body i, zones := byteAt body (i + 1), priority := byteAt body (i + 2), wait := byteAt body (i + 3),
    partialOpt := byteAt body (i + 4), suspendable := byteAt body (i + 5) }
/-- A step record at an offset (R196). -/
def stepAt (body : List Byte) (i : Nat) : RawStep :=
  { kind := byteAt body i, clip := byteAt body (i + 1), count := byteAt body (i + 2), limit := wordAt body (i + 3),
    gap := wordAt body (i + 5) }
/-- A cue record at an offset (R196). -/
def cueAt (body : List Byte) (i : Nat) : RawCue :=
  { hour := byteAt body i, minute := byteAt body (i + 1), second := byteAt body (i + 2), days := byteAt body (i + 3),
    rept := byteAt body (i + 4), state := byteAt body (i + 5), order := orderAt body (i + 6) }
/-- The entry of TRIG.SET at an offset (R199). -/
def triggerAt (body : List Byte) (i : Nat) : RawTrigger :=
  { action := byteAt body i, edge := byteAt body (i + 1), order := orderAt body (i + 2),
    stopPriority := byteAt body (i + 8), releaseProgram := byteAt body (i + 9), log := byteAt body (i + 10) }

/-! ### Kinds and lengths (R181, R194) -/

/-- What a frame's kind and body length make of it (R181). -/
inductive Parsed where
  | unknownKind
  | badLength
  | request (command : Instr)
  deriving DecidableEq, Repr

/-- A request whose kind allows a body length by a test (R194). -/
def allow (ok : Bool) (i : Instr) : Parsed := if ok then .request i else .badLength

/-- The step records of a PROG.WRITE body (R196). -/
def stepsOf (body : List Byte) : List RawStep :=
  (List.range ((body.length - 3) / 7)).map fun k => stepAt body (3 + 7 * k)

/-- Whether PROG.WRITE allows a body length: 3 + 7k, k from 0 to 12 (R194). -/
def progWriteLength (n : Nat) : Bool := 3 ≤ n && (n - 3) % 7 = 0 && n ≤ 3 + 7 * Config.stepsPerProgram

/-- The request that a kind, a tag and a body are (R181, R194). -/
def parseRequest (kind tag : Byte) (body : List Byte) : Parsed :=
  let n := body.length
  let b := byteAt body
  match kind.toNat with
  | 1 => allow (n = 0) (.ident tag)
  | 2 => allow (n = 0) (.report tag)
  | 3 => allow (n = 3) (.eventsMask tag (BitVec.ofNat 24 (fromLe body)))
  | 4 => allow (n = 0) (.restart tag)
  | 16 => allow (n = 0) (.storeStatus tag)
  | 17 => allow (n = 1) (.storeConfig tag (b 0))
  | 18 => allow (n = 3) (.storeInspect tag (wordAt body 0) (b 2))
  | 19 => allow (n = 0) (.storeFormat tag)
  | 32 => allow (n = 20) (.clipOpen tag (b 0) (b 1) (b 2) (b 3) (Vector.ofFn fun i => b (4 + i.val)))
  | 33 => allow (6 ≤ n && n ≤ 517) (.clipData tag (b 0) (longAt body 1) (body.drop 5))
  | 34 => allow (n = 1) (.clipClose tag (b 0))
  | 35 => allow (n = 1) (.clipAbort tag (b 0))
  | 36 => allow (n = 1) (.clipErase tag (b 0))
  | 37 => allow (n = 7) (.clipRead tag (b 0) (longAt body 1) (wordAt body 5))
  | 38 => allow (n = 1) (.clipInfo tag (b 0))
  | 39 => allow (n = 1) (.clipList tag (b 0))
  | 48 => allow (progWriteLength n) (.progWrite tag (b 0) (b 1) (b 2) (stepsOf body))
  | 49 => allow (n = 1) (.progRead tag (b 0))
  | 50 => allow (n = 1) (.progDelete tag (b 0))
  | 64 => allow (n = 6) (.voiceStart tag (orderAt body 0))
  | 65 => allow (n = 6) (.voicePrepare tag (orderAt body 0))
  | 66 => allow (n = 4) (.voiceGo tag (longAt body 0))
  | 67 => allow (n = 5) (.voiceStop tag (longAt body 0) (b 4))
  | 68 => allow (n = 4) (.voicePause tag (longAt body 0))
  | 69 => allow (n = 4) (.voiceResume tag (longAt body 0))
  | 70 => allow (n = 4) (.voiceRelease tag (longAt body 0))
  | 71 => allow (n = 1) (.voiceStatus tag (b 0))
  | 72 => allow (n = 1) (.voiceConfig tag (b 0))
  | 80 => allow (n = 3) (.zoneSet tag (b 0) (b 1) (b 2))
  | 81 => allow (n = 0) (.zoneStatus tag)
  | 82 => allow (n = 1) (.outputHalt tag (b 0))
  | 83 => allow (n = 0) (.outputRun tag)
  | 96 => allow (n = 6) (.clockSet tag (b 0) (b 1) (b 2) (b 3) (b 4) (b 5))
  | 97 => allow (n = 0) (.clockStart tag)
  | 98 => allow (n = 0) (.clockRead tag)
  | 112 => allow (n = 13) (.cueWrite tag (b 0) (cueAt body 1))
  | 113 => allow (n = 1) (.cueRead tag (b 0))
  | 114 => allow (n = 1) (.cueEnable tag (b 0))
  | 115 => allow (n = 1) (.cueDisable tag (b 0))
  | 116 => allow (n = 1) (.cueDelete tag (b 0))
  | 128 => allow (n = 12) (.trigSet tag (b 0) (triggerAt body 1))
  | 129 => allow (n = 0) (.trigRead tag)
  | 130 => allow (n = 0) (.trigStatus tag)
  | 144 => allow (n = 2) (.overrideSet tag (b 0) (b 1))
  | 145 => allow (n = 0) (.overrideClear tag)
  | 146 => allow (n = 0) (.overrideStatus tag)
  | _ => .unknownKind

/-! ### The taking of a frame -/

/-- A request handed to the block that owns it (R181). Other commands are no requests, and parseRequest gives none of them. -/
def execRequest (i : Instr) (s : State) : Result :=
  match i with
  | .ident tag => execIdent tag s
  | .report tag => execReport tag s
  | .eventsMask tag mask => execEventsMask tag mask s
  | .restart tag => execRestart tag s
  | .storeStatus tag => execStoreStatus tag s
  | .storeConfig tag defer => execStoreConfig tag defer s
  | .storeInspect tag block page => execStoreInspect tag block page s
  | .storeFormat tag => execStoreFormat tag s
  | .clipOpen tag clip format rate protect name => execClipOpen tag clip format rate protect name s
  | .clipData tag clip offset chunk => execClipData tag clip offset chunk s
  | .clipClose tag clip => execClipClose tag clip s
  | .clipAbort tag clip => execClipAbort tag clip s
  | .clipErase tag clip => execClipErase tag clip s
  | .clipRead tag clip offset length => execClipRead tag clip offset length s
  | .clipInfo tag clip => execClipInfo tag clip s
  | .clipList tag first => execClipList tag first s
  | .progWrite tag program cycle count steps => execProgWrite tag program cycle count steps s
  | .progRead tag program => execProgRead tag program s
  | .progDelete tag program => execProgDelete tag program s
  | .voiceStart tag order => execVoiceStart tag order s
  | .voicePrepare tag order => execVoicePrepare tag order s
  | .voiceGo tag start => execVoiceGo tag start s
  | .voiceStop tag start mode => execVoiceStop tag start mode s
  | .voicePause tag start => execVoicePause tag start s
  | .voiceResume tag start => execVoiceResume tag start s
  | .voiceRelease tag start => execVoiceRelease tag start s
  | .voiceStatus tag voice => execVoiceStatus tag voice s
  | .voiceConfig tag mode => execVoiceConfig tag mode s
  | .zoneSet tag zone level enabled => execZoneSet tag zone level enabled s
  | .zoneStatus tag => execZoneStatus tag s
  | .outputHalt tag force => execOutputHalt tag force s
  | .outputRun tag => execOutputRun tag s
  | .clockSet tag weekday hour minute second tenth start => execClockSet tag weekday hour minute second tenth start s
  | .clockStart tag => execClockStart tag s
  | .clockRead tag => execClockRead tag s
  | .cueWrite tag cue record => execCueWrite tag cue record s
  | .cueRead tag cue => execCueRead tag cue s
  | .cueEnable tag cue => execCueEnable tag cue s
  | .cueDisable tag cue => execCueDisable tag cue s
  | .cueDelete tag cue => execCueDelete tag cue s
  | .trigSet tag input entry => execTrigSet tag input entry s
  | .trigRead tag => execTrigRead tag s
  | .trigStatus tag => execTrigStatus tag s
  | .overrideSet tag program level => execOverrideSet tag program level s
  | .overrideClear tag => execOverrideClear tag s
  | .overrideStatus tag => execOverrideStatus tag s
  | _ => .next s

/-- What a good frame is (R181): an unknown kind and a wrong length reach no block. -/
def takeFrame (f : Frame) (s : State) : Result :=
  match parseRequest f.kind f.tag f.body with
  | .unknownKind => request f.kind f.tag (fun s => answerOnly s .unknownKind) s
  | .badLength => request f.kind f.tag (fun s => answerOnly s .badLength) s
  | .request i => execRequest i s

/-- FRAME_COMPLETE (R176, R179 to R181): a frame with a good CRC ends. A frame whose CRC differs, or that is too long, is not complete:
its rows are FRAME_CRC_ERROR and FRAME_LENGTH_DROP (log entry 12). -/
def execFrameComplete (f : Frame) (s : State) : Result :=
  if f.wellFormed && frameGood f then takeFrame f s else .next s

end Sys2Proof.Machine
end

