-- ==== Sys2Proof/Machine/ScanRequests.lean ====
section
/-! DEFINITION. The store scan (chapter 8): how it reads a page, classifies a block, chooses a load for each clip, and completes. -/

namespace Sys2Proof.Machine

/-! ### Reading a page (R170) -/

/-- The condition of a page read by the scan: a tag that reads erased counts only with a payload that is good and all 255. -/
def scanCondition (tagGood payloadGood : Bool) (x : FlashPage) : PageCondition :=
  match tagCondition tagGood x.spare with
  | .erased => if payloadGood && x.payload.all (· = 255) then .erased else .unreadable
  | .valid t => .valid t
  | .unreadable => .unreadable

/-- The greatest load number of each clip, with a page taken into account (R172). -/
def noteLoad (c : PageCondition) (greatest : Table Nat) : Table Nat :=
  match c with
  | .valid t => greatest.write t.clip.val (max t.load (greatest.read 0 t.clip.val))
  | .erased => greatest
  | .unreadable => greatest

/-! ### Classifying a block (R171) -/

/-- What the scan makes of a block: FREE, STALE with its pages programmed, or a candidate. -/
inductive Classified where
  | free
  | stale (programmed : Nat)
  | candidate (c : Candidate)
  deriving DecidableEq, Repr

/-- The valid tags from page 0 upward when nothing but erased pages follows them. -/
def validPrefix : List PageCondition → Option (List Tag)
  | [] => some []
  | .valid t :: rest => (validPrefix rest).map (t :: ·)
  | .erased :: rest => if rest.all (· = .erased) then some [] else none
  | .unreadable :: _ => none

/-- Whether a tag stands rightly at page i of a block of n valid pages whose page 0 carries `first`. -/
def tagFits (first : Tag) (n i : Nat) (t : Tag) : Bool :=
  t.clip = first.clip && t.load = first.load && t.sequence = first.sequence && t.page.val = i
    && (t.final.isNone || i + 1 = n)
    && (t.header.isNone || (i = 0 && t.sequence = 0))

/-- Whether the tags of a block, numbered from page i on, all stand rightly. -/
def tagsFit (first : Tag) (n : Nat) : Nat → List Tag → Bool
  | _, [] => true
  | i, t :: ts => tagFits first n i t && tagsFit first n (i + 1) ts

/-- The candidate that a block with these valid tags is. -/
def candidateOf (b : BlockNo) (first : Tag) (tags : List Tag) : Candidate :=
  { block := b, clip := first.clip, load := first.load, sequence := first.sequence, pages := tags.length,
    final := tags.getLast?.bind (·.final), header := first.header }

/-- One more than the highest page that is not erased (R171). -/
def pagesWritten : List PageCondition → Nat
  | [] => 0
  | c :: rest => if pagesWritten rest = 0 ∧ c = .erased then 0 else pagesWritten rest + 1

/-- A block by the conditions of its 16 pages (R171). -/
def classify (b : BlockNo) (pages : List PageCondition) : Classified :=
  match validPrefix pages with
  | none => .stale (pagesWritten pages)
  | some [] => .free
  | some (first :: rest) =>
    if tagsFit first (rest.length + 1) 0 (first :: rest) then .candidate (candidateOf b first (first :: rest))
    else .stale (pagesWritten pages)

/-- A STALE block table entry that is not yet queued (R171, R173). -/
def Block.staleWith (programmed : Nat) : Block := { state := .stale, programmed, retireMark := false, eraseQueued := false }

/-- The classification of a block in the block table, or among the candidates (R167). -/
def recordBlock (b : BlockNo) (c : Classified) (s : State) : State :=
  match c with
  | .free => s.setBlock b Block.free
  | .stale n => s.setBlock b (Block.staleWith n)
  | .candidate x => { s with store.scan.candidates := s.store.scan.candidates ++ [x] }

/-! ### Choosing a load for each clip (R172, R173) -/

/-- The candidates of the latest load of a clip (R172). -/
def latestLoad (s : State) (c : ClipId) : List Candidate :=
  let g := s.store.scan.greatest.read 0 c.val
  s.store.scan.candidates.filter fun x => x.clip = c ∧ x.load = g

/-- The candidates of a load in the order of their sequences 0, 1, and so on, as far as each is carried. -/
def inSequence (cs : List Candidate) : List Candidate :=
  (List.range cs.length).filterMap fun k => cs.find? fun x => x.sequence = k

/-- The record that a complete load gives its clip (R173, R52); none when the load is incomplete. -/
def completeLoad (cs : List Candidate) : Option (List Candidate × Clip) := do
  let ordered := inSequence cs
  let first ← ordered.head?
  let last ← ordered.getLast?
  let header ← first.header
  let samples ← last.final
  let bytes := samples * header.format.size
  if cs.length ≤ Config.blocksPerClip ∧ ordered.length = cs.length
      ∧ ordered.dropLast.all (fun x => x.pages = Config.pagesPerBlock && x.final.isNone)
      ∧ pagesOf bytes = Config.pagesPerBlock * (cs.length - 1) + last.pages then
    some (ordered,
      { state := .ready, format := header.format, rate := header.rate, protect := header.protect, name := header.name,
        load := first.load, places := ordered.map fun x => some x.block, accepted := bytes, programmed := bytes,
        samples := some samples })
  else none

/-- The block of a candidate becomes OWNED (R173). -/
def ownCandidate (x : Candidate) (s : State) : State :=
  s.setBlock x.block { state := .owned x.clip x.sequence, programmed := x.pages, retireMark := false, eraseQueued := false }

/-- The latest load of a clip, when complete, gives it its blocks and its record (R173). -/
def rebuildClip (c : ClipId) (s : State) : State :=
  match completeLoad (latestLoad s c) with
  | some (ordered, x) => (ordered.foldl (fun s y => ownCandidate y s) s).setClip c (some x)
  | none => s

/-- A candidate that no complete load has taken becomes STALE (R172, R173). -/
def leaveCandidate (x : Candidate) (s : State) : State :=
  if (s.block x.block).state = .unclassified then s.setBlock x.block (Block.staleWith x.pages) else s

/-! ### Completion (R174) -/

/-- The flash blocks in ascending order. -/
def allBlocks : List BlockNo := List.finRange 2048

/-- The greatest load number in any valid tag, 0 for none. -/
def greatestLoad (greatest : Table Nat) : Nat := greatest.foldl (fun n p => max n p.2) 0

/-- The load counter after a scan (R174). -/
def scannedCounter (greatest : Nat) : Option Nat := if greatest = 0 then some 1 else counterAfter greatest

/-- The store as the completion of the scan leaves it (R172 to R174). -/
def rebuildStore (s : State) : State :=
  let s := allClips.foldl (fun s c => rebuildClip c s) s
  let s := s.store.scan.candidates.foldl (fun s x => leaveCandidate x s) s
  let s := (allBlocks.filter fun b => (s.block b).state = .stale).foldl (fun s b => queueErase b s) s
  setFlag .startDone
    { s with
      store.loadCounter := scannedCounter (greatestLoad s.store.scan.greatest)
      store.state := .service
      store.scan := { pages := [], candidates := [], greatest := [] } }

/-- The start of V6 that waits for the scan (R174, R160). -/
def pendingOverride (s : State) : State :=
  if s.inputs.overrideResult = .pending then startOverride s else s

/-- The completion of the scan (R174). The last read holds the port until the pending start of V6 has been made, so that the one grant
decision comes after it, with the fetch of V6 only if V6 has started (log entry 8). -/
def completeScan (s : State) : State := arbitrate ((pendingOverride (rebuildStore s)).setPort .idle)

/-- What follows the classification of a block: the next block's first read, or the completion (R167). -/
def nextBlock (b : BlockNo) (s : State) : State :=
  if h : b.val + 1 < 2048 then s.setPort (.scanRead ⟨b.val + 1, h⟩ 0) else completeScan s

/-- A read of the scan completes (R167). -/
def scanDone (tagGood payloadGood : Bool) (s : State) : State :=
  match s.store.port with
  | .scanRead b p =>
    let c := scanCondition tagGood payloadGood (s.flash.read (pageAddress b p))
    let pages := s.store.scan.pages ++ [c]
    let s : State := { s with store.scan.greatest := noteLoad c s.store.scan.greatest }
    if h : p.val + 1 < 16 then
      ({ s with store.scan.pages := pages } : State).setPort (.scanRead b ⟨p.val + 1, h⟩)
    else
      nextBlock b (recordBlock b (classify b pages) { s with store.scan.pages := [] })
  | _ => s

/-- SCAN_READ_COMPLETE (R167, R170 to R174); the two Bools are the device's report of the tag and of the payload. -/
def execScanReadComplete (tagGood payloadGood : Bool) (s : State) : Result := event (scanDone tagGood payloadGood) s

end Sys2Proof.Machine
end

