-- ==== Sys2Proof/Machine/Dispatch.lean ====
section
/-! DEFINITION. The meaning of each command: one arm, one call. -/

namespace Sys2Proof.Machine

def exec (i : Instr) (s : State) : Host.Outcome State Fault Refusal :=
  match i with
  | .reset => Sys2Proof.Machine.execReset s
  | .resetAsserted => Sys2Proof.Machine.execResetAsserted s
  | .frameComplete f => Sys2Proof.Machine.execFrameComplete f s
  | .frameCrcError f => Sys2Proof.Machine.execFrameCrcError f s
  | .overrun f => Sys2Proof.Machine.execOverrun f s
  | .frameLengthDrop length => Sys2Proof.Machine.execFrameLengthDrop length s
  | .linkTimeout => Sys2Proof.Machine.execLinkTimeout s
  | .byteError => Sys2Proof.Machine.execByteError s
  | .replySent => Sys2Proof.Machine.execReplySent s
  | .ident tag => Sys2Proof.Machine.execIdent tag s
  | .report tag => Sys2Proof.Machine.execReport tag s
  | .eventsMask tag mask => Sys2Proof.Machine.execEventsMask tag mask s
  | .restart tag => Sys2Proof.Machine.execRestart tag s
  | .storeStatus tag => Sys2Proof.Machine.execStoreStatus tag s
  | .storeConfig tag deferErase => Sys2Proof.Machine.execStoreConfig tag deferErase s
  | .storeInspect tag block page => Sys2Proof.Machine.execStoreInspect tag block page s
  | .storeFormat tag => Sys2Proof.Machine.execStoreFormat tag s
  | .clipOpen tag clip format rate protect name => Sys2Proof.Machine.execClipOpen tag clip format rate protect name s
  | .clipData tag clip offset chunk => Sys2Proof.Machine.execClipData tag clip offset chunk s
  | .clipClose tag clip => Sys2Proof.Machine.execClipClose tag clip s
  | .clipAbort tag clip => Sys2Proof.Machine.execClipAbort tag clip s
  | .clipErase tag clip => Sys2Proof.Machine.execClipErase tag clip s
  | .clipRead tag clip offset length => Sys2Proof.Machine.execClipRead tag clip offset length s
  | .clipInfo tag clip => Sys2Proof.Machine.execClipInfo tag clip s
  | .clipList tag first => Sys2Proof.Machine.execClipList tag first s
  | .progWrite tag program cycle count steps => Sys2Proof.Machine.execProgWrite tag program cycle count steps s
  | .progRead tag program => Sys2Proof.Machine.execProgRead tag program s
  | .progDelete tag program => Sys2Proof.Machine.execProgDelete tag program s
  | .voiceStart tag order => Sys2Proof.Machine.execVoiceStart tag order s
  | .voicePrepare tag order => Sys2Proof.Machine.execVoicePrepare tag order s
  | .voiceGo tag start => Sys2Proof.Machine.execVoiceGo tag start s
  | .voiceStop tag start mode => Sys2Proof.Machine.execVoiceStop tag start mode s
  | .voicePause tag start => Sys2Proof.Machine.execVoicePause tag start s
  | .voiceResume tag start => Sys2Proof.Machine.execVoiceResume tag start s
  | .voiceRelease tag start => Sys2Proof.Machine.execVoiceRelease tag start s
  | .voiceStatus tag voice => Sys2Proof.Machine.execVoiceStatus tag voice s
  | .voiceConfig tag mode => Sys2Proof.Machine.execVoiceConfig tag mode s
  | .zoneSet tag zone level enabled => Sys2Proof.Machine.execZoneSet tag zone level enabled s
  | .zoneStatus tag => Sys2Proof.Machine.execZoneStatus tag s
  | .outputHalt tag force => Sys2Proof.Machine.execOutputHalt tag force s
  | .outputRun tag => Sys2Proof.Machine.execOutputRun tag s
  | .clockSet tag weekday hour minute second tenth start => Sys2Proof.Machine.execClockSet tag weekday hour minute second tenth start s
  | .clockStart tag => Sys2Proof.Machine.execClockStart tag s
  | .clockRead tag => Sys2Proof.Machine.execClockRead tag s
  | .cueWrite tag cue record => Sys2Proof.Machine.execCueWrite tag cue record s
  | .cueRead tag cue => Sys2Proof.Machine.execCueRead tag cue s
  | .cueEnable tag cue => Sys2Proof.Machine.execCueEnable tag cue s
  | .cueDisable tag cue => Sys2Proof.Machine.execCueDisable tag cue s
  | .cueDelete tag cue => Sys2Proof.Machine.execCueDelete tag cue s
  | .trigSet tag input entry => Sys2Proof.Machine.execTrigSet tag input entry s
  | .trigRead tag => Sys2Proof.Machine.execTrigRead tag s
  | .trigStatus tag => Sys2Proof.Machine.execTrigStatus tag s
  | .overrideSet tag program level => Sys2Proof.Machine.execOverrideSet tag program level s
  | .overrideClear tag => Sys2Proof.Machine.execOverrideClear tag s
  | .overrideStatus tag => Sys2Proof.Machine.execOverrideStatus tag s
  | .fetchComplete payloadGood => Sys2Proof.Machine.execFetchComplete payloadGood s
  | .clipReadReadbackComplete payloadGood => Sys2Proof.Machine.execClipReadReadbackComplete payloadGood s
  | .inspectReadbackComplete tagGood => Sys2Proof.Machine.execInspectReadbackComplete tagGood s
  | .pageProgramComplete verified => Sys2Proof.Machine.execPageProgramComplete verified s
  | .blockEraseComplete verified => Sys2Proof.Machine.execBlockEraseComplete verified s
  | .scanReadComplete tagGood payloadGood => Sys2Proof.Machine.execScanReadComplete tagGood payloadGood s
  | .frameEvent => Sys2Proof.Machine.execFrameEvent s
  | .starved voice => Sys2Proof.Machine.execStarved voice s
  | .gapTimerExpiry voice => Sys2Proof.Machine.execGapTimerExpiry voice s
  | .holdTimerExpiry voice => Sys2Proof.Machine.execHoldTimerExpiry voice s
  | .discardTimerExpiry voice => Sys2Proof.Machine.execDiscardTimerExpiry voice s
  | .waitTimerExpiry voice => Sys2Proof.Machine.execWaitTimerExpiry voice s
  | .tenthEvent => Sys2Proof.Machine.execTenthEvent s
  | .pinChange input level => Sys2Proof.Machine.execPinChange input level s
  | .settleTimerExpiry input => Sys2Proof.Machine.execSettleTimerExpiry input s
  | .startByte => Sys2Proof.Machine.execStartByte s

end Sys2Proof.Machine
end

