-- ==== Sys2Proof/Machine/Step.lean ====
section
/-! DEFINITION. One step: the command at the front of the queue, or, when none waits, a second of the discard and wait timers. -/

namespace Sys2Proof.Machine

/-- A voice when a second passes: a discard or wait timer shows one second less, down to 1; the expiry itself is a command of its own
(R72, R106, R96; log entry 13). -/
def Voice.afterSecond (x : Voice) : Voice :=
  match x.state with
  | .prepared => { x with discardTimer := if 1 < x.discardTimer then x.discardTimer - 1 else x.discardTimer }
  | .waiting => { x with waitTimer := if 1 < x.waitTimer then x.waitTimer - 1 else x.waitTimer }
  | .idle => x
  | .active => x
  | .suspended => x

/-- What an empty queue leaves to do: held in reset nothing, else a second passes (log entry 13). -/
def idleStep (s : State) : State :=
  if s.inReset then s else allVoices.foldl (fun s v => s.setVoice v (s.voice v).afterSecond) s

/-- One step: the command at the front of the queue runs on the state with the queue's rest. -/
def step (s : State) : Host.Outcome State Fault Refusal :=
  match s.pending with
  | [] => .next (idleStep s)
  | c :: rest => exec c { s with pending := rest }

/-- The state with the command that a word of the table spells at the front of its queue; no word spells one. -/
def State.withFetchWord (s : State) (nbits w : Nat) : State :=
  match decodeTableWord nbits w with
  | some c => { s with pending := c :: s.pending }
  | none => s

end Sys2Proof.Machine
end

