-- ==== Sys2Proof/Safety.lean ====
section
/-! DEFINITION. The words of the statements: when a request is taken, what a reply leaves, what the engine may change, and the invariants. -/

namespace Sys2Proof.Machine

/-! ### Requests -/

/-- A request whose frame ends now is taken: the part is not held in reset, and the frame was not begun while a reply was owed
(R166, R179, R180). -/
abbrev Takes (s : State) : Prop := s.inReset = false ∧ s.frameIsLate = false

/-- A state with the reply of a status and fields being sent (R179, R182, R193). -/
def reply (kind tag : Byte) (st : Status) (fields : List Byte) (t : State) : State :=
  { t with link.owed := .sending (frameBytes kind tag (st.code :: fields)) false }

/-- A frame is good: at most 520 body bytes, and its CRC is the one computed over it (R176, R177). -/
abbrev GoodFrame (f : Frame) : Prop := f.body.length ≤ 520 ∧ frameCrc f.kind f.tag f.body = f.crc

/-- A link count after one more (R183). -/
def counted (n : Nat) : Nat := if n < 65535 then n + 1 else n

/-! ### What the engine may change -/

/-- The start number counter never stands at 0 (R67). -/
def CounterBounded (s : State) : Prop := 1 ≤ s.engine.nextStart ∧ s.engine.nextStart ≤ 4294967295

/-- A disabled zone has no holder (R99). -/
def DisabledFree (s : State) : Prop := ∀ z, (s.zone z).enabled = false → (s.zone z).holder = none

/-- From s to t nothing changes but voice contexts, the start number counter, zone holders, the waiting list, an idle flash port with
the pending readback, and event flags, which are only set, with ATTN after them; an operation in flight is not disturbed (R13). -/
structure EngineStep (s t : State) : Prop where
  flash : t.flash = s.flash
  clips : t.clips = s.clips
  programs : t.programs = s.programs
  schedule : t.schedule = s.schedule
  inputs : t.inputs = s.inputs
  inReset : t.inReset = s.inReset
  freeCount : t.freeCount = s.freeCount
  pending : t.pending = s.pending
  store : { t.store with port := s.store.port, readback := s.store.readback } = s.store
  busy : s.store.port ≠ .idle → t.store = s.store
  receiver : t.link.receiver = s.link.receiver
  owed : t.link.owed = s.link.owed
  mask : t.link.mask = s.link.mask
  linkErrors : t.link.linkErrors = s.link.linkErrors
  overruns : t.link.overruns = s.link.overruns
  flags : s.link.flags &&& t.link.flags = s.link.flags
  attn : (t.link.flags = s.link.flags ∧ t.link.attn = s.link.attn) ∨ t.link.attn = attnOf t.link.flags t.link.mask
  discardMode : t.engine.discardMode = s.engine.discardMode
  bus : t.arbiter.bus = s.arbiter.bus
  output : t.arbiter.output = s.arbiter.output
  level : ∀ z, (t.zone z).level = (s.zone z).level
  enabled : ∀ z, (t.zone z).enabled = (s.zone z).enabled
  counter : CounterBounded s → CounterBounded t
  disabledFree : DisabledFree s → DisabledFree t

/-! ### Voices -/

/-- From s to t the context of a voice may have changed in its fetch alone, which the arbiter may have granted. -/
def SameButFetch (s t : State) (w : VoiceId) : Prop := t.voice w = { s.voice w with fetch := (t.voice w).fetch }

/-- A voice in a WALK step without a walk zone has in t the lowest zone it then holds as its walk zone, added to the walked set; any other
voice has the walk zone and walked set of s (R86). -/
def WalkZoneChosen (v : VoiceId) (s t : State) : Prop :=
  ((∃ c, (s.voice v).step = some (.walk c)) → (s.voice v).walkZone = none →
    ∀ z, t.holds v z = true → (∀ y, y < z → t.holds v y = false) →
      (t.voice v).walkZone = some z ∧ (t.voice v).walked = (s.voice v).walked ||| oneZone z) ∧
  ((∀ c, (s.voice v).step ≠ some (.walk c)) ∨ (s.voice v).walkZone ≠ none →
    (t.voice v).walkZone = (s.voice v).walkZone ∧ (t.voice v).walked = (s.voice v).walked)

/-- The outstanding fetch of a voice after a flush or an end: a granted one is left to complete and will be discarded, a pending one is
withdrawn (R79, R94). -/
def flushed : Option Fetch → Option Fetch
  | some f => if f.granted = true then some { f with keep := false } else none
  | none => none

/-- The context that latching a step sets, the answer of the Clip Map about its clip given (R75); the walk zone and the first fetch
come after. That lead-in is clear in a GAP step is log entry 25. -/
def Voice.latching (x : Voice) (index : Nat) (p : Step) (answer : Option ClipAnswer) : Voice :=
  { x with
    stepIndex := index, step := some p, answer := answer, passCount := 0, walkZone := none, walked := 0
    releaseMark := false, holdEndMark := false, position := 0, secondPhase := false, fetchPage := 0, fetchPass := 0
    buffer := [], fetch := flushed x.fetch, leadIn := answer.isSome
    gapTimer := match p with
      | .gap tenths => tenths * 1600
      | .play _ _ => 0
      | .hold _ _ => 0
      | .walk _ => 0
    holdTimer := match p with
      | .hold _ limit => if limit = 0 then none else some (limit * 16000)
      | .play _ _ => none
      | .gap _ => none
      | .walk _ => none }

/-- From s to t a voice has been allocated to a start order whose program begins with the step `first`: it has the next start number and
that step latched, its first fetch may be requested, and its end record is that of its previous life (R67, R70, R75). -/
structure Allocated (v : VoiceId) (origin : Origin) (o : StartOrder) (first : Step) (s t : State) : Prop where
  engine : EngineStep s t
  link : t.link = s.link
  arbiter : t.arbiter = s.arbiter
  counter : t.engine.nextStart = numberAfter (issuedNumber s)
  others : ∀ w, w ≠ v → SameButFetch s t w
  voice : t.voice v =
    { ({ Voice.reset with
          state := .prepared, start := issuedNumber s, origin := origin, order := some o, stepProgram := some o.program
          endRecord := (s.voice v).endRecord } : Voice).latching 0 first (first.clip?.bind s.clipAnswer) with
      fetch := (t.voice v).fetch, fetchPage := (t.voice v).fetchPage, fetchPass := (t.voice v).fetchPass }

/-- A voice of priority p and start number n joins the waiting list of s, which becomes l: it stands after the voices of higher
priority, and among those of its priority after the lower start numbers; the order of the rest is unchanged (R105). -/
def JoinsWaiting (v : VoiceId) (p n : Nat) (s : State) (l : List VoiceId) : Prop :=
  ∃ before after, s.arbiter.waiting = before ++ after ∧ l = before ++ v :: after ∧
    (∀ w ∈ before, w ≠ v → ∀ q, (s.voice w).order = some q →
      p < q.priority ∨ (p = q.priority ∧ (s.voice w).start ≤ n)) ∧
    (∀ w ∈ after.head?, w ≠ v → ∀ q, (s.voice w).order = some q →
      q.priority < p ∨ (q.priority = p ∧ n < (s.voice w).start))

/-- A voice's part in the frame event that comes in s leaves the state t, from which the voices of higher number take theirs before the
frame is formed (R80). -/
def PartLeaves (v : VoiceId) (s t : State) : Prop :=
  (voicePart v (atTurn v s)).1 = t ∧
  ∃ slots, frame s = arbitrate { (takeParts (allVoices.filter (v < ·)) t).1 with arbiter.output := some slots }

/-- The hold timer of a voice after one more frame event of the voice: it counts down, and at 0 sets the hold-end mark unless a mark is
set (R84). -/
def Voice.holdCounted (x : Voice) : Voice :=
  { x with
    holdTimer := x.holdTimer.map (· - 1)
    holdEndMark := x.holdEndMark || (decide (x.holdTimer = some 1) && !x.releaseMark) }

/-! ### The scan -/

/-- The candidates `cs`, the latest load of a clip, are complete, and stand in the order `l` of their sequences (R173): sequences 0, 1,
and so on, each once, at most 512; every block but the last full and without the final flag; the last with the final flag and a sample
count; a header on the first; as many valid pages as that count of samples needs. -/
def LoadComplete (cs l : List Candidate) (h : Header) (samples : Nat) : Prop :=
  l.Perm cs ∧ l.length ≤ 512 ∧ (∀ (i : Nat) x, l[i]? = some x → x.sequence = i) ∧
  (∀ x ∈ l.dropLast, x.pages = 16 ∧ x.final = none) ∧
  (∃ x, l.head? = some x ∧ x.header = some h) ∧
  ∃ x, l.getLast? = some x ∧ x.final = some samples ∧
    (samples * h.format.size + 2047) / 2048 = 16 * (l.length - 1) + x.pages

/-- What the tables hold while the scan reads page p of block b: nothing is queued, buffered or read back, no clip has a record, the
blocks below b are FREE, STALE or candidates and those from b on are unclassified, p conditions of pages are noted, and the greatest
load numbers are noted by clip (R26, R52, R167). -/
def ScanConsistent (s : State) : Prop :=
  s.store.state = .starting → ∃ b p, s.store.port = .scanRead b p ∧
    s.store.eraseQueue = [] ∧ s.store.buffer = [] ∧ s.store.readback = none ∧ (∀ c, s.clip c = none) ∧
    (∀ d, (s.block d).eraseQueued = false) ∧
    (∀ d, (s.block d).state = .unclassified ∨ (s.block d).state = .free ∨ (s.block d).state = .stale) ∧
    (∀ d, (s.block d).state = .unclassified ↔ b ≤ d ∨ ∃ x ∈ s.store.scan.candidates, x.block = d) ∧
    (s.store.scan.candidates.map (·.block)).Pairwise (· < ·) ∧ (∀ x ∈ s.store.scan.candidates, x.block < b) ∧
    s.store.scan.pages.length = p.val ∧
    (s.store.scan.greatest.map (·.1)).Pairwise (· < ·) ∧
    (∀ q ∈ s.store.scan.greatest, q.1 < 255 ∧ q.2 ≤ 4294967295)

/-! ### Invariants -/

/-- The flash has its canonical form (R1). -/
def FlashCanonical (s : State) : Prop := s.flash.wf = true

/-- ATTN is asserted exactly while a flag is set whose mask setting is on, and never while the part is held in reset (R185). -/
def AttnFollows (s : State) : Prop := s.link.attn = (attnOf s.link.flags s.link.mask && !s.inReset)

/-- The trigger FIFO holds at most 16 entries (R155). -/
def FifoBounded (s : State) : Prop := s.inputs.fifo.length ≤ 16

/-- The link counts stay in 0 to 65 535 (R183). -/
def LinkCountsBounded (s : State) : Prop := s.link.linkErrors ≤ 65535 ∧ s.link.overruns ≤ 65535

/-- The levels of the zones and the override level stay in 0 to 31 (R99, R158). -/
def LevelsBounded (s : State) : Prop := (∀ z, (s.zone z).level ≤ 31) ∧ s.inputs.overrideLevel ≤ 31

/-- A time of the week lies in the ranges of R122. -/
def ClockTime.inRange (t : ClockTime) : Prop :=
  t.weekday ≤ 6 ∧ t.hour ≤ 23 ∧ t.minute ≤ 59 ∧ t.second ≤ 59 ∧ t.tenth ≤ 9

/-- The clock record stays in the ranges of R122. -/
def ClockBounded (s : State) : Prop := s.schedule.clock.time.inRange

end Sys2Proof.Machine
end

