-- ==== Sys2Proof/Certificates/Slice0/Obligations.lean ====
section
/-! DEFINITION. The statements for the provers. A request that is taken answers a next state in which its reply is being sent
(`reply`), over a state that the rules give; `hunt s` is s with the receiver HUNTING again, as every ended frame leaves it, and
`arbitrate` is the flash port's grant decision, which has a statement of its own (ArbiterGrantsInOrder). -/

section SliceStatements

open Sys2Proof Sys2Proof.Machine

/-! ### The queue -/

/-- A step runs the command at the front of the queue on the state with the queue's rest (the block row's own rule, log entry 20). -/
def Obligations.StepRunsFrontCommand : Prop :=
  ∀ (c : Instr) (rest : List Instr) (s : State), s.pending = c :: rest → step s = exec c { s with pending := rest }

/-- On an empty queue one second passes for the discard and wait timers, which show one second less down to 1, and nothing else
changes; held in reset nothing changes at all (the model's choice, log entries 13 and 20). -/
def Obligations.EmptyQueueLetsASecondPass : Prop :=
  ∀ s : State, s.pending = [] →
    (s.inReset = true → step s = .next s) ∧
    (s.inReset = false →
      ∃ t, step s = .next t ∧ t = { s with engine.voices := t.engine.voices } ∧
        ∀ v,
          ((s.voice v).state = .prepared →
            t.voice v = { s.voice v with
              discardTimer := if 1 < (s.voice v).discardTimer then (s.voice v).discardTimer - 1 else (s.voice v).discardTimer }) ∧
          ((s.voice v).state = .waiting →
            t.voice v = { s.voice v with
              waitTimer := if 1 < (s.voice v).waitTimer then (s.voice v).waitTimer - 1 else (s.voice v).waitTimer }) ∧
          ((s.voice v).state ≠ .prepared → (s.voice v).state ≠ .waiting → t.voice v = s.voice v))

/-- Every command answers a next state, in every state: the manual gives the part no trap (the model's reading, NOTES.md, Stops). -/
def Obligations.EveryCommandAnswersNext : Prop :=
  ∀ (c : Instr) (s : State), ∃ t, exec c s = .next t

/-! ### Reset (chapter 8) -/

/-- RESET leaves the Link Controller as R189 lists it. -/
def Obligations.ResetLeavesTheLink : Prop :=
  ∀ s : State, ∃ t, exec .reset s = .next t ∧
    t.link = { receiver := .hunting, owed := .none, flags := 0, mask := BitVec.allOnes 20, attn := false,
               linkErrors := 0, overruns := 0 }

/-- RESET leaves every volatile table at its value after reset, with the scan's first read in flight, samples the inputs, and leaves
the flash as the operation in flight left it: all of it as it was where that is no program and no erase; every page but the one a
program was writing, which is programmed, as it was, erased in its tag or unreadable in its tag; every page outside the block an erase
was erasing (R13, R26, R52, R64, R98, R121, R144, R146, R165, R166). What an abandoned operation leaves in its own pages is a free value
(log entry 1). The model's own: that the queue is kept (log entry 20), and the 0, the empty set and none in the fields that an IDLE
voice does not have (log entry 23). -/
def Obligations.ResetLeavesTheTables : Prop :=
  ∀ s : State, ∃ t, exec .reset s = .next t ∧
    t.inReset = false ∧ t.pending = s.pending ∧
    t.store.state = .starting ∧ t.store.port = .scanRead 0 0 ∧ t.store.eraseQueue = [] ∧ t.store.buffer = [] ∧
    t.store.cursor = 0 ∧ t.store.loadCounter = some 1 ∧ t.store.deferErase = true ∧ t.store.readback = none ∧
    (∀ b, (t.block b).state = .unclassified ∧ (t.block b).retireMark = false) ∧
    (∀ c, t.clip c = none) ∧ (∀ p, t.program p = none) ∧
    (∀ v, t.voice v = Voice.reset ∧ t.voice v =
      { state := .idle, paused := false, start := 0, origin := .none, order := none, wanted := 0
        stepIndex := 0, stepProgram := none, step := none, answer := none, passCount := 0, walkZone := none, walked := 0
        position := 0, secondPhase := false, fetchPage := 0, fetchPass := 0, buffer := [], fetch := none, leadIn := false
        releaseMark := false, holdEndMark := false, stopAfterPass := false
        discardTimer := 0, waitTimer := 0, gapTimer := 0, holdTimer := none
        underTotal := 0, underRun := 0, lastSample := 0
        faults := { starved := false, clipMissing := false, readError := false, underrun := false }, endRecord := none }) ∧
    t.engine.nextStart = 1 ∧ t.engine.discardMode = .normal ∧
    (∀ z, t.zone z = { holder := none, level := 0, enabled := true }) ∧ t.arbiter.waiting = [] ∧ t.arbiter.bus = .running ∧
    t.schedule.clock = { state := .unset, time := { weekday := 0, hour := 0, minute := 0, second := 0, tenth := 0 } } ∧
    (∀ c, t.cue c = { entry := none, done := false, outcome := .none }) ∧
    (∀ i, t.trigger i = { action := .none, log := false, lastStart := 0 }) ∧
    t.inputs.fifo = [] ∧ t.inputs.overflow = false ∧ t.inputs.latch = false ∧ t.inputs.overrideResult = .none ∧
    t.inputs.overrideProgram = none ∧ t.inputs.overrideLevel = 0 ∧
    (∀ i, t.input i = { pin := (s.input i).pin, level := (s.input i).pin, settling := false }) ∧
    ((∀ j, s.store.port ≠ .program j) → (∀ b, s.store.port ≠ .erase b) → t.flash = s.flash) ∧
    (s.flash.wf = true →
      (∀ j, s.store.port = .program j →
        (∀ a, a ≠ pageAddress j.block j.page → t.flash.read a = s.flash.read a) ∧
        (let x := t.flash.read (pageAddress j.block j.page)
         x = { payload := padPayload j.payload, spare := .written j.tag true } ∨
           x = s.flash.read (pageAddress j.block j.page) ∨ x.spare = .erased ∨ tagCondition true x.spare = .unreadable)) ∧
      (∀ b, s.store.port = .erase b →
        ∀ a, (∀ p : PageNo, a ≠ pageAddress b p) → t.flash.read a = s.flash.read a))

/-- RESET_ASSERTED holds the part in reset, with ATTN high (R166, R185). The model's own: that no frame stands on the zone bus then (log
entry 4), and that in a part that is held no command but RESET and the moving of a pin changes anything (log entry 19). -/
def Obligations.ResetAssertedHoldsThePart : Prop :=
  ∀ s : State,
    exec .resetAsserted s = .next { s with inReset := true, link.attn := false, arbiter.output := none } ∧
    (s.inReset = true → ∀ c : Instr, c ≠ .reset → c ≠ .resetAsserted → (∀ i l, c ≠ .pinChange i l) → exec c s = .next s)

/-! ### The receiver and the transmitter (chapter 9) -/

/-- The start byte puts a HUNTING receiver in RECEIVING, which notes whether a reply is owed; in RECEIVING the byte is data (R176,
R180). A frame dropped for its CRC, its length, a gap or a byte error adds one to the link error count, a good frame begun while a
reply was owed one to the overrun count, and nothing else changes; in HUNTING a gap or a byte error counts nowhere (R176, R178,
R180, R183). The model's own: a row that ends a frame, taken in HUNTING, stands for the whole frame (log entry 14), and LINK_TIMEOUT in
HUNTING, an event that does not come about there, changes nothing (log entry 12). -/
def Obligations.FramesAreBegunAndDropped : Prop :=
  ∀ s : State, s.inReset = false →
    (s.link.receiver = .hunting →
      exec .startByte s = .next { s with link.receiver := .receiving (decide (s.link.owed ≠ .none)) } ∧
      exec .linkTimeout s = .next s ∧ exec .byteError s = .next s) ∧
    (s.link.receiver ≠ .hunting → exec .startByte s = .next s) ∧
    (∀ t : State, t = { s with link.receiver := .hunting, link.linkErrors := counted s.link.linkErrors } →
      (∀ f : Frame, f.body.length ≤ 520 → frameCrc f.kind f.tag f.body ≠ f.crc → exec (.frameCrcError f) s = .next t) ∧
      (∀ n : BitVec 16, 520 < n.toNat → exec (.frameLengthDrop n) s = .next t) ∧
      (s.link.receiver ≠ .hunting → exec .linkTimeout s = .next t ∧ exec .byteError s = .next t)) ∧
    (∀ (f : Frame) (t : State), GoodFrame f → s.frameIsLate = true →
      t = { s with link.receiver := .hunting, link.overruns := counted s.link.overruns } →
      exec (.overrun f) s = .next t ∧ exec (.frameComplete f) s = .next t)

/-- When the last byte of a reply leaves TXD no reply is owed; RESTART is answered OK, and when the last byte of that reply has left
TXD the reset takes effect; a held reply is not being sent (R179, R188). The model's own: REPLY_SENT where no reply is being sent, an
event that does not come about there, changes nothing (log entry 12). -/
def Obligations.ReplySentEndsTheReply : Prop :=
  ∀ s : State, s.inReset = false →
    (∀ f, s.link.owed = .sending f false → exec .replySent s = .next { s with link.owed := .none }) ∧
    (∀ f, s.link.owed = .sending f true → exec .replySent s = exec .reset s) ∧
    (∀ h, s.link.owed = .held h → exec .replySent s = .next s) ∧
    (s.link.owed = .none → exec .replySent s = .next s) ∧
    (∀ tag : Byte, s.frameIsLate = false →
      exec (.restart tag) s = .next { hunt s with link.owed := .sending (frameBytes 4 tag [0]) true } ∧
      exec .replySent { hunt s with link.owed := .sending (frameBytes 4 tag [0]) true } =
        exec .reset { hunt s with link.owed := .sending (frameBytes 4 tag [0]) true })

/-- A good frame whose kind and body length are allowed is the request it carries; an unknown kind and a wrong body length are answered
with the status alone and reach no block (R181, R182). The model's own: that the row of a request stands for such a frame, so that
FRAME_COMPLETE and the row are one event in every state (log entry 15), in HUNTING too, where either stands for the whole frame, its
start byte included (log entry 14). Which kind and which body are which request is KindsAndLengths. -/
def Obligations.FrameCompleteIsItsRequest : Prop :=
  ∀ (f : Frame) (s : State), GoodFrame f →
    (∀ c, parseRequest f.kind f.tag f.body = .request c → exec (.frameComplete f) s = exec c s) ∧
    (Takes s → parseRequest f.kind f.tag f.body = .unknownKind →
      exec (.frameComplete f) s = .next (reply f.kind f.tag .unknownKind [] (hunt s))) ∧
    (Takes s → parseRequest f.kind f.tag f.body = .badLength →
      exec (.frameComplete f) s = .next (reply f.kind f.tag .badLength [] (hunt s)))

/-- The body lengths that a kind allows (the table of R194); none for a number that is no kind. -/
def allowedLengths (kind : Nat) : Option (Nat → Prop) :=
  if kind ∈ [1, 2, 4, 16, 19, 81, 83, 97, 98, 129, 130, 145, 146] then some (· = 0)
  else if kind ∈ [17, 34, 35, 36, 38, 39, 49, 50, 71, 72, 82, 113, 114, 115, 116] then some (· = 1)
  else if kind = 144 then some (· = 2)
  else if kind ∈ [3, 18, 80] then some (· = 3)
  else if kind ∈ [66, 68, 69, 70] then some (· = 4)
  else if kind = 67 then some (· = 5)
  else if kind ∈ [64, 65, 96] then some (· = 6)
  else if kind = 37 then some (· = 7)
  else if kind = 128 then some (· = 12)
  else if kind = 112 then some (· = 13)
  else if kind = 32 then some (· = 20)
  else if kind = 33 then some (fun n => 6 ≤ n ∧ n ≤ 517)
  else if kind = 48 then some (fun n => ∃ k, k ≤ 12 ∧ n = 3 + 7 * k)
  else none

/-- A kind is unknown exactly when the table of R194 has no such kind, and a length is bad exactly when its kind does not allow it
(R181, R194). Every body of an allowed length is the request of its kind, with its fields in the order of the layouts: numbers of
several bytes least significant byte first, start orders of six bytes, step records of seven, the cue record of twelve, the clip data
of R197 and the trigger entry of R199 (R190, R194, R196, R197, R199). -/
def Obligations.KindsAndLengths : Prop :=
  ∀ (kind tag : Byte) (body : List Byte),
    (allowedLengths kind.toNat = none ↔ parseRequest kind tag body = .unknownKind) ∧
    (∀ ok, allowedLengths kind.toNat = some ok → (¬ ok body.length ↔ parseRequest kind tag body = .badLength)) ∧
    (let is (k : Byte) (fields : List Byte) (c : Instr) : Prop := parseRequest k tag fields = .request c
     let order (o : RawOrder) : List Byte := [o.program, o.zones, o.priority, o.wait, o.partialOpt, o.suspendable]
     is 1 [] (.ident tag) ∧ is 2 [] (.report tag) ∧ is 4 [] (.restart tag) ∧
     (∀ mask : BitVec 24,
       is 3 [byteOf mask.toNat, byteOf (mask.toNat / 256), byteOf (mask.toNat / 65536)] (.eventsMask tag mask)) ∧
     is 16 [] (.storeStatus tag) ∧ is 19 [] (.storeFormat tag) ∧
     (∀ (block : BitVec 16) (page : Byte), is 18 (le16 block.toNat ++ [page]) (.storeInspect tag block page)) ∧
     (∀ (id format rate protect : Byte) (name : Vector Byte 16),
       is 32 ([id, format, rate, protect] ++ name.toList) (.clipOpen tag id format rate protect name)) ∧
     (∀ (id : Byte) (offset : BitVec 32) (chunk : List Byte), 1 ≤ chunk.length → chunk.length ≤ 512 →
       is 33 (id :: le32 offset.toNat ++ chunk) (.clipData tag id offset chunk)) ∧
     (∀ (id : Byte) (offset : BitVec 32) (length : BitVec 16),
       is 37 (id :: le32 offset.toNat ++ le16 length.toNat) (.clipRead tag id offset length)) ∧
     (∀ (id cycle count : Byte) (steps : List RawStep), steps.length ≤ 12 →
       is 48 ([id, cycle, count]
           ++ (steps.map fun r => [r.kind, r.clip, r.count] ++ le16 r.limit.toNat ++ le16 r.gap.toNat).flatten)
         (.progWrite tag id cycle count steps)) ∧
     (∀ o : RawOrder, is 64 (order o) (.voiceStart tag o) ∧ is 65 (order o) (.voicePrepare tag o)) ∧
     (∀ start : BitVec 32,
       is 66 (le32 start.toNat) (.voiceGo tag start) ∧
       (∀ mode, is 67 (le32 start.toNat ++ [mode]) (.voiceStop tag start mode)) ∧
       is 68 (le32 start.toNat) (.voicePause tag start) ∧ is 69 (le32 start.toNat) (.voiceResume tag start) ∧
       is 70 (le32 start.toNat) (.voiceRelease tag start)) ∧
     (∀ zone level enabled, is 80 [zone, level, enabled] (.zoneSet tag zone level enabled)) ∧
     is 81 [] (.zoneStatus tag) ∧ is 83 [] (.outputRun tag) ∧
     (∀ weekday hour minute second tenth start,
       is 96 [weekday, hour, minute, second, tenth, start] (.clockSet tag weekday hour minute second tenth start)) ∧
     is 97 [] (.clockStart tag) ∧ is 98 [] (.clockRead tag) ∧
     (∀ (cue : Byte) (r : RawCue),
       is 112 ([cue, r.hour, r.minute, r.second, r.days, r.rept, r.state] ++ order r.order) (.cueWrite tag cue r)) ∧
     (∀ (input : Byte) (e : RawTrigger),
       is 128 ([input, e.action, e.edge] ++ order e.order ++ [e.stopPriority, e.releaseProgram, e.log])
         (.trigSet tag input e)) ∧
     is 129 [] (.trigRead tag) ∧ is 130 [] (.trigStatus tag) ∧
     (∀ program level, is 144 [program, level] (.overrideSet tag program level)) ∧
     is 145 [] (.overrideClear tag) ∧ is 146 [] (.overrideStatus tag) ∧
     (∀ b : Byte,
       is 17 [b] (.storeConfig tag b) ∧ is 34 [b] (.clipClose tag b) ∧ is 35 [b] (.clipAbort tag b) ∧
       is 36 [b] (.clipErase tag b) ∧ is 38 [b] (.clipInfo tag b) ∧ is 39 [b] (.clipList tag b) ∧
       is 49 [b] (.progRead tag b) ∧ is 50 [b] (.progDelete tag b) ∧ is 71 [b] (.voiceStatus tag b) ∧
       is 72 [b] (.voiceConfig tag b) ∧ is 82 [b] (.outputHalt tag b) ∧ is 113 [b] (.cueRead tag b) ∧
       is 114 [b] (.cueEnable tag b) ∧ is 115 [b] (.cueDisable tag b) ∧ is 116 [b] (.cueDelete tag b)))

/-! ### Requests of the Link Controller -/

/-- IDENT is answered OK in every state with the part name, revision 1 and the capacities (R187). -/
def Obligations.IdentAnswers : Prop :=
  ∀ (tag : Byte) (s : State), Takes s →
    exec (.ident tag) s = .next (reply 1 tag .ok
      ([85, 76, 67, 65, 83, 84, 32, 52, 54, 49, 48, 0, 0, 0, 0, 0] ++ [1, 7, 6, 8, 8, 255] ++ le16 512 ++ [32, 12, 96]
        ++ le16 2048 ++ [16] ++ le16 2048 ++ le16 8192 ++ le16 520 ++ le16 512 ++ [16, 20]) (hunt s))

/-- REPORT answers the flags, the store state, the latch, the voice states and the counts, and clears every flag, so that ATTN is
deasserted; the counts and the mask stand (R186). -/
def Obligations.ReportReadsAndClears : Prop :=
  ∀ (tag : Byte) (s : State), Takes s →
    exec (.report tag) s = .next (reply 2 tag .ok
      ([byteOf s.link.flags.toNat, byteOf (s.link.flags.toNat / 256), byteOf (s.link.flags.toNat / 65536)]
        ++ [s.store.state.code, yesNo s.inputs.latch]
        ++ [0, 1, 2, 3, 4, 5, 6].map (fun v => (s.voice v).state.code)
        ++ le16 (countBlocks BlockState.isFree s) ++ le16 s.link.linkErrors ++ le16 s.link.overruns)
      { hunt s with link.flags := 0, link.attn := false })

/-- EVENTS.MASK replaces the mask whole and sets ATTN from the flags and the new mask in the same event; a spare position that is not 0
is refused BAD_FIELD (R185). -/
def Obligations.EventsMaskReplacesTheMask : Prop :=
  ∀ (tag : Byte) (mask : BitVec 24) (s : State), Takes s →
    (mask.toNat < 2 ^ 20 →
      exec (.eventsMask tag mask) s = .next (reply 3 tag .ok []
        { hunt s with link.mask := mask.truncate 20, link.attn := decide (s.link.flags &&& mask.truncate 20 ≠ 0) })) ∧
    (2 ^ 20 ≤ mask.toNat → exec (.eventsMask tag mask) s = .next (reply 3 tag .badField [] (hunt s)))

/-! ### Requests that read -/

/-- A start order as six bytes, zeros where it is absent (R190, R196). -/
def startOrderLayout : Option StartOrder → List Byte
  | some o =>
    [byteOf (o.program.val + 1), o.zones, byteOf o.priority, byteOf o.wait, yesNo o.partialOpt, yesNo o.suspendable]
  | none => [0, 0, 0, 0, 0, 0]

/-- A step record as seven bytes, zeros where it is absent (R190, R196). -/
def stepLayout : Option Machine.Step → List Byte
  | some (.play c n) => [1, byteOf (c.val + 1), byteOf n, 0, 0, 0, 0]
  | some (.hold c limit) => [2, byteOf (c.val + 1), 0] ++ le16 limit ++ [0, 0]
  | some (.gap tenths) => [3, 0, 0, 0, 0] ++ le16 tenths
  | some (.walk c) => [4, byteOf (c.val + 1), 0, 0, 0, 0, 0]
  | none => [0, 0, 0, 0, 0, 0, 0]

/-- A time of day as five bytes, 255 for "clock unset" (R192). -/
def timeLayout : Option ClockTime → List Byte
  | some t => [byteOf t.weekday, byteOf t.hour, byteOf t.minute, byteOf t.second, byteOf t.tenth]
  | none => [255, 255, 255, 255, 255]

/-- An origin and its number as two bytes (R198). -/
def originLayout : Origin → List Byte
  | .none => [0, 0]
  | .link => [1, 0]
  | .cue c => [2, byteOf (c.val + 1)]
  | .input i => [3, byteOf i.val]
  | .override => [4, 0]

/-- The reply of STORE.STATUS after the status (R23, R201). -/
def storeStatusLayout (s : State) : List Byte :=
  let count (p : BlockState → Bool) : Nat := ((List.finRange 2048).filter fun b => p (s.block b).state).length
  [s.store.state.code] ++ le16 (count fun x => x = .free)
    ++ le16 (count fun x => match x with
      | .owned _ _ => true
      | _ => false)
    ++ le16 (count fun x => x = .stale) ++ le16 (count fun x => x = .retired) ++ le16 s.store.eraseQueue.length
    ++ [yesNo s.store.deferErase]
    ++ le32 (match s.store.loadCounter with
      | some n => n
      | none => 0)

/-- The reply of CLIP.INFO after the status (R49, R201): a place is of the block count while it is not vacated. -/
def clipInfoLayout (x : Clip) : List Byte :=
  [x.state.code, x.format.code, x.rate.code, yesNo x.protect] ++ (x.name ++ List.replicate 16 0).take 16 ++ le32 x.load
    ++ le16 (x.places.filter fun p => p.isSome).length ++ le16 x.places.length ++ le32 x.accepted ++ le32 x.programmed
    ++ le32 (match x.samples with
      | some n => n
      | none => 0)

/-- The reply of CLIP.LIST after the status, over the clips at or above the first id in ascending order (R50, R201): at most 64
entries, and the next id just above the last of them where more lie beyond. That an entry carries no block count is log entry 26. -/
def clipListLayout (found : List (ClipId × Clip)) : List Byte :=
  [if 64 < found.length then
      match (found.take 64).getLast? with
      | some (c, _) => byteOf (c.val + 2)
      | none => 0
    else 0,
    byteOf (found.take 64).length]
    ++ ((found.take 64).map fun p => [byteOf (p.1.val + 1), p.2.state.code] ++ le32 (match p.2.samples with
      | some n => n
      | none => 0)).flatten

/-- The reply of PROG.READ after the status (R63, R201): the program, and the voices using it (R61). -/
def progReadLayout (p : ProgramId) (x : Program) (s : State) : List Byte :=
  let users := ([0, 1, 2, 3, 4, 5, 6] : List VoiceId).filter fun v =>
    decide ((s.voice v).state ≠ .idle) &&
      if v = 6 then decide ((s.voice 6).stepProgram = some p) || decide (s.inputs.overrideProgram = some p)
      else match (s.voice v).order with
        | some o => decide (o.program = p)
        | none => false
  [yesNo x.cycle, byteOf x.steps.length] ++ (x.steps.map fun q => stepLayout (some q)).flatten ++ [byteOf users.length]
    ++ (users.map fun v => [byteOf v.val, (s.voice v).state.code, byteOf (s.voice v).stepIndex]).flatten

/-- The reply of VOICE.STATUS after the status, `held` the zones whose holder is the voice (R96, R198). -/
def voiceStatusLayout (x : Voice) (held : SetByte) : List Byte :=
  [x.state.code, yesNo x.paused] ++ le32 x.start ++ originLayout x.origin ++ startOrderLayout x.order
    ++ [held, x.wanted, byteOf x.stepIndex] ++ stepLayout x.step ++ le16 x.passCount
    ++ [match x.walkZone with
        | some z => byteOf z.val
        | none => 255,
        x.walked]
    ++ (match x.answer with
      | some a =>
        let n := x.position * a.format.size
        le16 (n / 32768) ++ [byteOf (n % 32768 / 2048)] ++ le16 (n % 2048 / a.format.size)
      | none => [0, 0, 0, 0, 0])
    ++ [byteOf x.buffer.length] ++ le16 x.bufferBytes
    ++ [yesNo x.fetch.isSome, yesNo x.leadIn,
        (if x.releaseMark then 1 else 0) + (if x.holdEndMark then 2 else 0) + (if x.stopAfterPass then 4 else 0)]
    ++ (match x.state with
      | .idle => [0, 0, 0, 0, 0]
      | .prepared => [1] ++ le32 x.discardTimer
      | .waiting => [2] ++ le32 x.waitTimer
      | .active | .suspended => match x.step with
        | some (.gap _) => [3] ++ le32 x.gapTimer
        | some (.hold _ _) => match x.holdTimer with
          | some n => [4] ++ le32 n
          | none => [0, 0, 0, 0, 0]
        | _ => [0, 0, 0, 0, 0])
    ++ le32 x.underTotal ++ le16 x.underRun
    ++ [(if x.faults.underrun then 1 else 0) + (if x.faults.readError then 2 else 0)
          + (if x.faults.clipMissing then 4 else 0) + (if x.faults.starved then 8 else 0),
        if x.faults.starved then 4 else if x.faults.clipMissing then 3 else if x.faults.readError then 2
          else if x.faults.underrun then 1 else 0]
    ++ match x.endRecord with
      | some r =>
        [1, r.cause.code, r.fault.code,
          match r.program with
          | some p => byteOf (p.val + 1)
          | none => 0,
          byteOf r.step] ++ originLayout r.origin ++ le32 r.start ++ timeLayout r.time
      | none => [0, 0, 0, 0, 0, 0, 0, 0, 0, 0, 0, 0, 0, 0, 0, 0]

/-- The reply of ZONE.STATUS after the status (R115, R118, R201). -/
def zoneStatusLayout (s : State) : List Byte :=
  [s.arbiter.bus.code]
    ++ (([0, 1, 2, 3, 4, 5, 6, 7] : List ZoneId).map fun z =>
      (match (s.zone z).holder with
        | some (v, p) => [byteOf v.val] ++ le32 (s.voice v).start ++ [byteOf p]
        | none => [255, 0, 0, 0, 0, 0])
      ++ [byteOf (s.zone z).level, yesNo (s.zone z).enabled,
          match (s.zone z).holder with
          | some (v, _) => if s.inputs.latch = true ∧ v = 6 then byteOf s.inputs.overrideLevel else byteOf (s.zone z).level
          | none => byteOf (s.zone z).level]).flatten
    ++ [byteOf s.arbiter.waiting.length]
    ++ (s.arbiter.waiting.map fun v =>
      [byteOf v.val] ++ le32 (s.voice v).start
        ++ (match (s.voice v).order with
          | some o => [byteOf o.priority, o.zones, yesNo o.partialOpt]
          | none => [0, 0, 0])
        ++ [byteOf (s.voice v).waitTimer]).flatten

/-- The reply of CUE.READ after the status (R143, R196). -/
def cueReadLayout (x : CueEntry) (c : Cue) : List Byte :=
  [byteOf x.hour, byteOf x.minute, byteOf x.second, x.days, x.rept.code, x.state.code] ++ startOrderLayout (some x.order)
    ++ [yesNo c.done]
    ++ match c.outcome with
      | .none => [0, 255, 0, 0, 0, 0, 0, 0, 0, 0, 0, 0]
      | .started v n t => [1, byteOf v.val] ++ le32 n ++ [0] ++ timeLayout (some t)
      | .missed st t => [2, 255, 0, 0, 0, 0, st.code] ++ timeLayout (some t)
      | .passed t => [3, 255, 0, 0, 0, 0, 0] ++ timeLayout (some t)

/-- The reply of TRIG.STATUS after the status (R157, R199, R201). -/
def trigStatusLayout (s : State) : List Byte :=
  (([0, 1, 2, 3, 4, 5, 6, 7] : List TriggerId).map fun i =>
      [levelCode (s.input (i.castLE (by decide))).level]
        ++ (match (s.trigger i).action with
          | .none => [0, 0] ++ startOrderLayout none ++ [0, 0]
          | .start e o => [1, e.code] ++ startOrderLayout (some o) ++ [0, 0]
          | .follow o => [2, 0] ++ startOrderLayout (some o) ++ [0, 0]
          | .stop e p => [3, e.code] ++ startOrderLayout none ++ [byteOf p, 0]
          | .release e p => [4, e.code] ++ startOrderLayout none ++ [0, byteOf (p.val + 1)]
          | .mark e => [5, e.code] ++ startOrderLayout none ++ [0, 0])
        ++ [yesNo (s.trigger i).log] ++ le32 (s.trigger i).lastStart).flatten
    ++ [levelCode (s.input 8).level, byteOf s.inputs.fifo.length, yesNo s.inputs.overflow]

/-- The reply of STORE.INSPECT after the status: the block table entry, and the tag condition with the tag's fields, 0 where there is no
valid tag (R25, R200). A block that the scan has not classified reads as FREE; no reply is formed of one. -/
def inspectLayout (x : Block) (c : PageCondition) : List Byte :=
  (match x.state with
    | .unclassified => [0, 0, 0, 0]
    | .free => [0, 0, 0, 0]
    | .owned k q => [1, byteOf (k.val + 1)] ++ le16 q
    | .stale => [2, 0, 0, 0]
    | .retired => [3, 0, 0, 0])
    ++ [byteOf x.programmed, yesNo x.retireMark, yesNo x.eraseQueued]
    ++ match c with
      | .erased => 0 :: List.replicate 33 0
      | .unreadable => 2 :: List.replicate 33 0
      | .valid t =>
        [1, byteOf (t.clip.val + 1)] ++ le32 t.load ++ le16 t.sequence ++ [byteOf t.page.val]
          ++ (match t.final with
            | some n => 1 :: le32 n
            | none => [0, 0, 0, 0, 0])
          ++ match t.header with
            | some h =>
              [1,
                match h.format with
                | .s16 => 1
                | .s24 => 2
                | .l8 => 3,
                match h.rate with
                | .khz8 => 1
                | .khz16 => 2,
                yesNo h.protect] ++ (h.name ++ List.replicate 16 0).take 16
            | none => List.replicate 20 0

/-- An entry of the trigger FIFO as thirteen bytes (R155, R199). -/
def fifoLayout (x : FifoEntry) : List Byte :=
  [byteOf x.input.val,
    match x.edge with
    | .close => 1
    | .opening => 2] ++ timeLayout x.time
    ++ [match x.action with
        | .none => 0
        | .start => 1
        | .followStart => 2
        | .followStop => 3
        | .stop => 4
        | .release => 5
        | .mark => 6, x.result.code] ++ le32 x.start

/-- Each reading request is answered OK with the fields its rule gives in the layouts of chapter 10, and changes nothing but the
receiver and the owed reply; one that names a clip, a program, a voice or a cue is refused STARTING, BAD_FIELD or NOT_FOUND as its
rule says (R23, R34, R49, R50, R56, R63, R96, R115, R137, R143, R157, R196, R198, R201). When a sample leaves the buffer bytes of
VOICE.STATUS is log entry 9, the zeros of an IDLE voice are log entry 23, and that CLIP.LIST carries no block count is log entry 26. -/
def Obligations.ReadingRequestsAnswer : Prop :=
  ∀ (tag : Byte) (s : State), Takes s →
    exec (.storeStatus tag) s = .next (reply 16 tag .ok (storeStatusLayout s) (hunt s)) ∧
    (∀ b : Byte,
      (s.store.state = .starting →
        exec (.clipInfo tag b) s = .next (reply 38 tag .starting [] (hunt s)) ∧
        exec (.clipList tag b) s = .next (reply 39 tag .starting [] (hunt s))) ∧
      (s.store.state ≠ .starting → b = 0 →
        exec (.clipInfo tag b) s = .next (reply 38 tag .badField [] (hunt s)) ∧
        exec (.clipList tag b) s = .next (reply 39 tag .badField [] (hunt s))) ∧
      (∀ c : ClipId, s.store.state ≠ .starting → b.toNat = c.val + 1 →
        (s.clip c = none → exec (.clipInfo tag b) s = .next (reply 38 tag .notFound [] (hunt s))) ∧
        (∀ x, s.clip c = some x → exec (.clipInfo tag b) s = .next (reply 38 tag .ok (clipInfoLayout x) (hunt s))) ∧
        (∀ found : List (ClipId × Clip), (found.map (·.1)).Pairwise (· < ·) →
          (∀ d x, (d, x) ∈ found ↔ c ≤ d ∧ s.clip d = some x) →
          exec (.clipList tag b) s = .next (reply 39 tag .ok (clipListLayout found) (hunt s)))) ∧
      (b.toNat = 0 ∨ 32 < b.toNat → exec (.progRead tag b) s = .next (reply 49 tag .badField [] (hunt s))) ∧
      (∀ p : ProgramId, b.toNat = p.val + 1 →
        (s.program p = none → exec (.progRead tag b) s = .next (reply 49 tag .notFound [] (hunt s))) ∧
        (∀ x, s.program p = some x →
          exec (.progRead tag b) s = .next (reply 49 tag .ok (progReadLayout p x s) (hunt s)))) ∧
      (6 < b.toNat → exec (.voiceStatus tag b) s = .next (reply 71 tag .badField [] (hunt s))) ∧
      (∀ (v : VoiceId) (held : SetByte), b.toNat = v.val → (∀ z, hasZone held z = s.holds v z) →
        exec (.voiceStatus tag b) s = .next (reply 71 tag .ok (voiceStatusLayout (s.voice v) held) (hunt s))) ∧
      (b.toNat = 0 ∨ 96 < b.toNat → exec (.cueRead tag b) s = .next (reply 113 tag .badField [] (hunt s))) ∧
      (∀ c : CueId, b.toNat = c.val + 1 →
        ((s.cue c).entry = none → exec (.cueRead tag b) s = .next (reply 113 tag .notFound [] (hunt s))) ∧
        (∀ x, (s.cue c).entry = some x →
          exec (.cueRead tag b) s = .next (reply 113 tag .ok (cueReadLayout x (s.cue c)) (hunt s))))) ∧
    exec (.zoneStatus tag) s = .next (reply 81 tag .ok (zoneStatusLayout s) (hunt s)) ∧
    exec (.trigStatus tag) s = .next (reply 130 tag .ok (trigStatusLayout s) (hunt s))

/-- CLOCK.READ answers the clock record as one snapshot, its time fields 0 while the clock is UNSET; OVERRIDE.STATUS answers the latch,
the debounced level of OVR, V6, the start result and the settings (R133, R164). -/
def Obligations.ClockAndOverrideAreRead : Prop :=
  ∀ (tag : Byte) (s : State), Takes s →
    exec (.clockRead tag) s = .next (reply 98 tag .ok
      (match s.schedule.clock.state with
        | .unset => [0, 0, 0, 0, 0, 0]
        | .held =>
          let t := s.schedule.clock.time
          [1, byteOf t.weekday, byteOf t.hour, byteOf t.minute, byteOf t.second, byteOf t.tenth]
        | .running =>
          let t := s.schedule.clock.time
          [2, byteOf t.weekday, byteOf t.hour, byteOf t.minute, byteOf t.second, byteOf t.tenth]) (hunt s)) ∧
    exec (.overrideStatus tag) s = .next (reply 146 tag .ok
      ([yesNo s.inputs.latch, levelCode (s.input 8).level, (s.voice 6).state.code] ++ le32 (s.voice 6).start
        ++ [s.inputs.overrideResult.code,
            match s.inputs.overrideProgram with
            | some p => byteOf (p.val + 1)
            | none => 0,
            byteOf s.inputs.overrideLevel]) (hunt s))

/-! ### The store (chapters 1 and 8) -/

/-- STORE.CONFIG replaces the defer-erase setting, and the arbiter then decides (R24, R15); in STARTING it is refused STARTING, with any
other value BAD_FIELD. VOICE.CONFIG replaces the discard mode, 1 NORMAL or 2 SHORT, in every store state; any other value is refused
BAD_FIELD (R97). -/
def Obligations.SettingsAreReplaced : Prop :=
  ∀ (tag b : Byte) (s : State), Takes s →
    (s.store.state = .starting → exec (.storeConfig tag b) s = .next (reply 17 tag .starting [] (hunt s))) ∧
    (s.store.state ≠ .starting → 1 < b.toNat → exec (.storeConfig tag b) s = .next (reply 17 tag .badField [] (hunt s))) ∧
    (s.store.state ≠ .starting → ∀ d, b = yesNo d →
      exec (.storeConfig tag b) s = .next (reply 17 tag .ok [] (arbitrate { hunt s with store.deferErase := d }))) ∧
    (b = 1 → exec (.voiceConfig tag b) s = .next (reply 72 tag .ok [] { hunt s with engine.discardMode := .normal })) ∧
    (b = 2 → exec (.voiceConfig tag b) s = .next (reply 72 tag .ok [] { hunt s with engine.discardMode := .short })) ∧
    (b ≠ 1 → b ≠ 2 → exec (.voiceConfig tag b) s = .next (reply 72 tag .badField [] (hunt s)))

/-- A grant decision on an idle port takes the first request in the order of R14: V6's fetch, a general voice's fetch by fewest buffer
bytes then lowest number, the eligible head page of the load buffer, the readback, the head erase when erases are not deferred; with
nothing to grant, and while an operation is in flight, nothing changes (R13 to R15, R18). -/
def Obligations.ArbiterGrantsInOrder : Prop :=
  ∀ s : State,
    (s.store.port ≠ .idle → arbitrate s = s) ∧
    (s.store.port = .idle →
      (∀ (v : VoiceId) f, (s.voice v).fetch = some f → f.granted = false →
        (v ≠ 6 → (s.voice 6).fetchPending = false ∧ ∀ w : VoiceId, w ≠ v → (s.voice w).fetchPending = true →
          (s.voice v).bufferBytes < (s.voice w).bufferBytes ∨
            ((s.voice v).bufferBytes = (s.voice w).bufferBytes ∧ v < w)) →
        arbitrate s =
          (s.setVoice v { s.voice v with fetch := some { f with granted := true } }).setPort (.fetch v f.block f.blockPage)) ∧
      ((∀ v, (s.voice v).fetchPending = false) →
        (∀ p x b, eligibleHead s.store.buffer = some p → s.clip p.clip = some x → x.places[p.sequence]? = some (some b) →
          arbitrate s = s.setPort (.program
            { clip := p.clip, block := b, page := p.page, payload := padPayload p.bytes, tag := (composeTag x p).bytes,
              carried := p.bytes.length, final := p.final.isSome })) ∧
        (eligibleHead s.store.buffer = none → ∀ b p, s.store.readback = some (b, p) →
          arbitrate s = { s with store.port := .readback b p, store.readback := none }) ∧
        (eligibleHead s.store.buffer = none → s.store.readback = none →
          (∀ b rest, s.store.eraseQueue = b :: rest →
            (s.store.state = .service ∧ s.store.deferErase = true ∧ (∃ v, (s.voice v).state = .active) → arbitrate s = s) ∧
            (¬ (s.store.state = .service ∧ s.store.deferErase = true ∧ ∃ v, (s.voice v).state = .active) →
              arbitrate s = s.setPort (.erase b))) ∧
          (s.store.eraseQueue = [] → arbitrate s = s))))

/-- STORE.INSPECT makes the readback of the tag pending and holds its reply; the readback's completion sends the block table entry as
it then stands with the condition of the tag, in the layout of R200, and an unreadable tag sets STORE_FAULT (R17, R25, R200). -/
def Obligations.InspectionIsHeldThenAnswered : Prop :=
  (∀ (tag page : Byte) (block : BitVec 16) (s : State), Takes s →
    (s.store.state = .starting → exec (.storeInspect tag block page) s = .next (reply 18 tag .starting [] (hunt s))) ∧
    (s.store.state ≠ .starting → 2047 < block.toNat ∨ 15 < page.toNat →
      exec (.storeInspect tag block page) s = .next (reply 18 tag .badField [] (hunt s))) ∧
    (s.store.state ≠ .starting → ∀ (b : BlockNo) (p : PageNo), block.toNat = b.val → page.toNat = p.val →
      exec (.storeInspect tag block page) s =
        .next { arbitrate { hunt s with store.readback := some (b, p) } with link.owed := .held (.inspect tag b p) })) ∧
  (∀ (good : Bool) (tag : Byte) (b b' : BlockNo) (p p' : PageNo) (s : State), s.inReset = false →
    s.store.port = .readback b p → s.link.owed = .held (.inspect tag b' p') →
    (let c := tagCondition good (s.flash.read (pageAddress b p)).spare
     let u := if c = .unreadable then setFlag .storeFault (s.setPort .idle) else s.setPort .idle
     exec (.inspectReadbackComplete good) s = .next (arbitrate
       { u with link.owed :=
          .sending (frameBytes 18 tag (0 :: inspectLayout (s.block b) c)) false })))

/-- An accepted STORE.FORMAT makes every READY clip ERASING, frees each OWNED block without a programmed page or a program in flight
and vacates its place in its clip's block list, appends every other OWNED or STALE block that is not queued to the erase queue in
ascending order, and leaves the state FORMATTING, or SERVICE with FORMAT_DONE when nothing is queued. It is refused STARTING in
STARTING, and BUSY in FORMATTING, while a voice is not IDLE, and while a clip is OPEN, FAILED or CLOSING (R21, R8). -/
def Obligations.FormatErasesEveryClip : Prop :=
  ∀ (tag : Byte) (s : State), Takes s →
    (s.store.state = .starting → exec (.storeFormat tag) s = .next (reply 19 tag .starting [] (hunt s))) ∧
    (s.store.state = .formatting → exec (.storeFormat tag) s = .next (reply 19 tag .busy [] (hunt s))) ∧
    (s.store.state = .service → (∃ v, (s.voice v).state ≠ .idle) →
      exec (.storeFormat tag) s = .next (reply 19 tag .busy [] (hunt s))) ∧
    (s.store.state = .service → (∃ c x, s.clip c = some x ∧ (x.state = .opened ∨ x.state = .failed ∨ x.state = .closing)) →
      exec (.storeFormat tag) s = .next (reply 19 tag .busy [] (hunt s))) ∧
    (s.store.state = .service → (∀ v, (s.voice v).state = .idle) →
      (∀ c x, s.clip c = some x → x.state = .ready ∨ x.state = .erasing) →
      ∃ u, exec (.storeFormat tag) s = .next (reply 19 tag .ok [] (arbitrate u)) ∧
        u = { hunt s with
          clips := u.clips, store.blocks := u.store.blocks, store.eraseQueue := u.store.eraseQueue
          store.state := if u.store.eraseQueue = [] then .service else .formatting
          link := if u.store.eraseQueue = [] then (setFlag .formatDone (hunt s)).link else (hunt s).link } ∧
        (∀ c x, s.clip c = some x → u.clip c = some { x with
          state := .erasing
          places := x.places.map fun p => match p with
            | some b => match (s.block b).state with
              | .owned d _ =>
                if d = c ∧ (s.block b).programmed = 0 ∧ programInFlight b s = false then none else some b
              | _ => some b
            | none => none }) ∧
        (∀ c, s.clip c = none → u.clip c = none) ∧
        (∀ b c q, (s.block b).state = .owned c q →
          ((s.block b).programmed = 0 → programInFlight b s = false → u.block b = Block.free) ∧
          ((s.block b).programmed ≠ 0 ∨ programInFlight b s = true →
            u.block b = { s.block b with eraseQueued := true })) ∧
        (∀ b, (s.block b).state = .stale → u.block b = { s.block b with eraseQueued := true }) ∧
        (∀ b, (s.block b).state = .free ∨ (s.block b).state = .retired → u.block b = s.block b) ∧
        u.store.eraseQueue = s.store.eraseQueue ++ (List.finRange 2048).filter fun b =>
          !(s.block b).eraseQueued &&
            match (s.block b).state with
            | .owned _ _ => decide ((s.block b).programmed ≠ 0) || programInFlight b s
            | .stale => true
            | .unclassified => false
            | .free => false
            | .retired => false)

/-- A page program that verifies, of a clip that is OPEN or CLOSING, writes payload and tag together into its page and no other, counts
the page, takes it from the load buffer, adds the bytes it carried, and after the final page makes the clip READY with CLIP_READY;
nothing else changes (R1, R18, R41). -/
def Obligations.PageProgramSucceeds : Prop :=
  ∀ (s : State) (j : ProgramJob) (x : Clip), s.inReset = false → s.flash.wf = true → s.store.port = .program j →
    s.clip j.clip = some x → x.state = .opened ∨ x.state = .closing →
    ∃ u, exec (.pageProgramComplete true) s = .next (arbitrate u) ∧
      u = { s with
        flash := u.flash, clips := u.clips, store.blocks := u.store.blocks, store.port := .idle
        store.buffer := s.store.buffer.drop 1
        link := if j.final = true then (setFlag .clipReady s).link else s.link } ∧
      u.flash.read (pageAddress j.block j.page) = { payload := padPayload j.payload, spare := .written j.tag true } ∧
      (∀ a, a ≠ pageAddress j.block j.page → u.flash.read a = s.flash.read a) ∧
      u.block j.block = { s.block j.block with programmed := (s.block j.block).programmed + 1 } ∧
      (∀ b, b ≠ j.block → u.block b = s.block b) ∧
      u.clip j.clip = some { x with
        programmed := x.programmed + j.carried, state := if j.final = true then .ready else x.state } ∧
      (∀ c, c ≠ j.clip → u.clip c = s.clip c)

/-- A page program that fails, of a clip that is OPEN or CLOSING, counts the page, sets the block's retire mark, empties the load buffer,
sets STORE_FAULT and CLIP_FAILED and makes the clip FAILED; no other page and nothing else changes (R18, R42). What the page itself
holds is a free value (log entry 1), and that a CLOSING clip's sample count goes is the model's choice (log entry 11). -/
def Obligations.PageProgramFails : Prop :=
  ∀ (s : State) (j : ProgramJob) (x : Clip), s.inReset = false → s.flash.wf = true → s.store.port = .program j →
    s.clip j.clip = some x → x.state = .opened ∨ x.state = .closing →
    ∃ u, exec (.pageProgramComplete false) s = .next (arbitrate u) ∧
      u = { s with
        flash := u.flash, freeCount := u.freeCount, clips := u.clips, store.blocks := u.store.blocks, store.port := .idle
        store.buffer := []
        link := (setFlag .clipFailed (setFlag .storeFault s)).link } ∧
      (∀ a, a ≠ pageAddress j.block j.page → u.flash.read a = s.flash.read a) ∧
      u.block j.block =
        { s.block j.block with programmed := (s.block j.block).programmed + 1, retireMark := true } ∧
      (∀ b, b ≠ j.block → u.block b = s.block b) ∧
      u.clip j.clip = some { x with state := .failed, samples := none } ∧
      (∀ c, c ≠ j.clip → u.clip c = s.clip c)

/-- A page program that completes while its clip is ERASING is not reported: no clip and nothing of the load buffer changes, pages
programmed rises by one, a failure sets the retire mark and STORE_FAULT, and the block is queued unless it is already (R19). Where it
verifies, payload and tag are written into its page together, and no other page changes either way (R1). -/
def Obligations.PageProgramOfErasingClip : Prop :=
  ∀ (verified : Bool) (s : State) (j : ProgramJob) (x : Clip), s.inReset = false → s.store.port = .program j →
    s.clip j.clip = some x → x.state = .erasing →
    ∃ u, exec (.pageProgramComplete verified) s = .next (arbitrate u) ∧
      u = { s with
        flash := u.flash, freeCount := u.freeCount, store.blocks := u.store.blocks, store.port := .idle
        store.eraseQueue :=
          if (s.block j.block).eraseQueued = true then s.store.eraseQueue else s.store.eraseQueue ++ [j.block]
        link := if verified = true then s.link else (setFlag .storeFault s).link } ∧
      u.block j.block =
        { s.block j.block with
          programmed := (s.block j.block).programmed + 1
          retireMark := (s.block j.block).retireMark || !verified
          eraseQueued := true } ∧
      (∀ b, b ≠ j.block → u.block b = s.block b) ∧
      (s.flash.wf = true →
        (verified = true →
          u.flash.read (pageAddress j.block j.page) = { payload := padPayload j.payload, spare := .written j.tag true }) ∧
        ∀ a, a ≠ pageAddress j.block j.page → u.flash.read a = s.flash.read a)

/-- A block erase completes: the block leaves the queue and is FREE, or RETIRED after a failure or with its retire mark set; its marks
and counts are cleared; a failure sets STORE_FAULT; its clip loses the block, and with its last block becomes ABSENT with ERASE_DONE;
a format whose queue is then empty ends with FORMAT_DONE; verified, it leaves all 16 pages erased; no other block, clip or page and
nothing else changes (R1, R20, R22, R46). -/
def Obligations.BlockEraseCompletes : Prop :=
  ∀ (verified : Bool) (s : State) (b : BlockNo), s.inReset = false → s.store.port = .erase b →
    ∃ u, exec (.blockEraseComplete verified) s = .next (arbitrate u) ∧
      u = { s with
        flash := u.flash, freeCount := u.freeCount, clips := u.clips, store.blocks := u.store.blocks
        store.port := .idle
        store.eraseQueue := s.store.eraseQueue.filter (· ≠ b)
        store.state :=
          if s.store.state = .formatting ∧ s.store.eraseQueue.filter (· ≠ b) = [] then .service else s.store.state
        link.flags := u.link.flags, link.attn := u.link.attn } ∧
      u.block b =
        { state := if verified = true ∧ (s.block b).retireMark = false then .free else .retired,
          programmed := 0, retireMark := false, eraseQueued := false } ∧
      (∀ d, d ≠ b → u.block d = s.block d) ∧
      (∀ c q x, (s.block b).state = .owned c q → s.clip c = some x →
        u.clip c = if (vacate b x).heldBlocks = [] then none else some (vacate b x)) ∧
      (∀ c, (∀ q, (s.block b).state ≠ .owned c q) → u.clip c = s.clip c) ∧
      (∀ f : EventFlag, u.flagSet f = true ↔
        s.flagSet f = true ∨ (f = .storeFault ∧ verified = false) ∨
        (f = .eraseDone ∧ ∃ c q x, (s.block b).state = .owned c q ∧ s.clip c = some x ∧ (vacate b x).heldBlocks = []) ∨
        (f = .formatDone ∧ s.store.state = .formatting ∧ s.store.eraseQueue.filter (· ≠ b) = [])) ∧
      (s.flash.wf = true →
        (verified = true → ∀ p : PageNo,
          u.flash.read (pageAddress b p) = { payload := List.replicate 2048 255, spare := .erased }) ∧
        (∀ a, (∀ p : PageNo, a ≠ pageAddress b p) → u.flash.read a = s.flash.read a))

/-- No command but a completion of a page program or a block erase, a reset, and the end of RESTART's reply changes the flash (R1,
R13, R17). -/
def Obligations.OnlyProgramsErasesAndResetsChangeTheFlash : Prop :=
  ∀ (c : Instr) (s t : State), exec c s = .next t → c ≠ .reset → c ≠ .replySent →
    (∀ v, c ≠ .pageProgramComplete v) → (∀ v, c ≠ .blockEraseComplete v) → t.flash = s.flash

/-- A fetch that completes for a voice is kept, and its page appended to the buffer or replaced by silence after a read error, or it
is discarded and changes nothing of the buffer, lead-in and fault flags; a read error sets STORE_FAULT either way; the voice then tests
for a further fetch, and nothing else changes (R16, R17, R78, R79). The test requests the page at the fetch point when the voice is
not IDLE, has no fetch outstanding, holds fewer than two pages, and that page is certain, and advances the fetch point past it; else it
changes nothing (R77). A request that arrives is granted by the order of R14, the erase queue left aside, if the port is idle (R13; that
it is granted at its arrival is log entry 8). -/
def Obligations.FetchIsKeptOrDiscarded : Prop :=
  (∀ (good : Bool) (s : State) (v : VoiceId) (b : BlockNo) (p : PageNo) (f : Fetch), s.inReset = false →
    s.store.port = .fetch v b p → (s.voice v).fetch = some f →
    (let u := if good = true then s.setPort .idle else setFlag .storeFault (s.setPort .idle)
     ((s.voice v).state ≠ .idle ∧ f.start = (s.voice v).start ∧ f.keep = true →
       exec (.fetchComplete good) s = .next (arbitrate (fetchTest v (u.setVoice v
         { s.voice v with
           fetch := none
           buffer := (s.voice v).buffer ++
             [{ page := f.page, pass := f.pass,
                data := if good = true then some (s.flash.read (pageAddress b p)).payload else none }]
           leadIn := (s.voice v).leadIn && !decide (f.page = 0 ∧ f.pass = 0)
           faults := { (s.voice v).faults with readError := (s.voice v).faults.readError || !good } })))) ∧
     (¬ ((s.voice v).state ≠ .idle ∧ f.start = (s.voice v).start ∧ f.keep = true) →
       exec (.fetchComplete good) s =
         .next (arbitrate (fetchTest v (u.setVoice v { s.voice v with fetch := none })))))) ∧
  (∀ (v : VoiceId) (s : State) (certain : Prop),
    (certain ↔ match (s.voice v).step with
      | some (.play _ n) => (s.voice v).fetchPass = 0 ∨
          ((s.voice v).fetchPass = 1 ∧ (s.voice v).fetchPage = 0 ∧ (s.voice v).passCount + 1 < n)
      | some (.hold _ _) => (s.voice v).fetchPass = 0 ∨
          ((s.voice v).fetchPass = 1 ∧ (s.voice v).fetchPage = 0 ∧ (s.voice v).releaseMark = false ∧
            (s.voice v).holdEndMark = false)
      | some (.walk _) => (s.voice v).fetchPass = 0
      | some (.gap _) => False
      | none => False) →
    ((s.voice v).state = .idle ∨ (s.voice v).fetch ≠ none ∨ 2 ≤ (s.voice v).buffer.length ∨ ¬ certain →
      fetchTest v s = s) ∧
    (∀ a b, (s.voice v).state ≠ .idle → (s.voice v).fetch = none → (s.voice v).buffer.length < 2 → certain →
      (s.voice v).answer = some a → a.blocks[(s.voice v).fetchPage / 16]? = some b →
      fetchTest v s = arbitrateArrival (s.setVoice v
        { s.voice v with
          fetch := some
            { block := b, blockPage := Fin.ofNat 16 (s.voice v).fetchPage, page := (s.voice v).fetchPage
              pass := (s.voice v).fetchPass, start := (s.voice v).start, keep := true, granted := false }
          fetchPage :=
            if (s.voice v).fetchPage + 1 < (a.samples * a.format.size + 2047) / 2048 then (s.voice v).fetchPage + 1 else 0
          fetchPass :=
            if (s.voice v).fetchPage + 1 < (a.samples * a.format.size + 2047) / 2048 then (s.voice v).fetchPass
            else (s.voice v).fetchPass + 1 }))) ∧
  (∀ s : State,
    (s.store.port ≠ .idle → arbitrateArrival s = s) ∧
    arbitrateArrival s =
      { arbitrate { s with store.eraseQueue := [] } with store.eraseQueue := s.store.eraseQueue })

/-- A read of the scan notes the page's condition: the tag's, but a tag that reads erased counts as erased only with a payload that is
good and all 255, else as unreadable; a valid tag raises the greatest load number of its clip (R167, R170, R172). A read that is not
the last of its block asks for the next page; the 16th read classifies the block, enters it in the block table as FREE or STALE or
among the candidates, and asks for page 0 of the next block (R167). A block is FREE when all its pages are erased; STALE, with pages
programmed one more than the highest page that is not erased, when a page is unreadable, a valid page stands above an erased one, two
tags differ in clip, load or sequence, a tag stands on another page than its own, a final page has a valid page above it, or a header
stands elsewhere than on page 0 of sequence 0; any other block, of one valid page or more, is a candidate (R171). What the tables hold
during the scan (ScanConsistent) holds after a reset, and every command keeps it. -/
def Obligations.ScanReadsOnAndClassifies : Prop :=
  (∀ (tagGood payloadGood : Bool) (x : FlashPage),
    (tagCondition tagGood x.spare = .erased →
      scanCondition tagGood payloadGood x =
        if payloadGood = true ∧ (∀ b ∈ x.payload, b = 255) then .erased else .unreadable) ∧
    (tagCondition tagGood x.spare ≠ .erased →
      scanCondition tagGood payloadGood x = tagCondition tagGood x.spare)) ∧
  (∀ (c : PageCondition) (g : Table Nat) (k : ClipId),
    (noteLoad c g).read 0 k.val = match c with
      | .valid t => if t.clip = k then max t.load (g.read 0 k.val) else g.read 0 k.val
      | _ => g.read 0 k.val) ∧
  (∀ (tagGood payloadGood : Bool) (s : State) (b : BlockNo) (p : PageNo), s.inReset = false →
    s.store.port = .scanRead b p →
    (let c := scanCondition tagGood payloadGood (s.flash.read (pageAddress b p))
     let u : State := { s with store.scan.greatest := noteLoad c s.store.scan.greatest }
     (∀ q : PageNo, q.val = p.val + 1 →
       exec (.scanReadComplete tagGood payloadGood) s = .next
         { u with store.port := .scanRead b q, store.scan.pages := s.store.scan.pages ++ [c] }) ∧
     (∀ d : BlockNo, p = 15 → d.val = b.val + 1 →
       (let w : State := { u with store.port := .scanRead d 0, store.scan.pages := [] }
        (classify b (s.store.scan.pages ++ [c]) = .free →
          exec (.scanReadComplete tagGood payloadGood) s = .next (w.setBlock b
            { state := .free, programmed := 0, retireMark := false, eraseQueued := false })) ∧
        (∀ n, classify b (s.store.scan.pages ++ [c]) = .stale n →
          exec (.scanReadComplete tagGood payloadGood) s = .next (w.setBlock b
            { state := .stale, programmed := n, retireMark := false, eraseQueued := false })) ∧
        (∀ x, classify b (s.store.scan.pages ++ [c]) = .candidate x →
          exec (.scanReadComplete tagGood payloadGood) s =
            .next { w with store.scan.candidates := s.store.scan.candidates ++ [x] }))))) ∧
  (∀ (b : BlockNo) (pages : List PageCondition),
    ((∀ c ∈ pages, c = .erased) → classify b pages = .free) ∧
    (PageCondition.unreadable ∈ pages ∨
      (∃ (i j : Nat) (t : Tag), i < j ∧ pages[i]? = some PageCondition.erased ∧ pages[j]? = some (PageCondition.valid t)) ∨
      (∃ t t', PageCondition.valid t ∈ pages ∧ PageCondition.valid t' ∈ pages ∧
        (t.clip ≠ t'.clip ∨ t.load ≠ t'.load ∨ t.sequence ≠ t'.sequence)) ∨
      (∃ (i : Nat) (t : Tag), pages[i]? = some (PageCondition.valid t) ∧ t.page.val ≠ i) ∨
      (∃ (i j : Nat) (t t' : Tag), i < j ∧ pages[i]? = some (PageCondition.valid t) ∧ pages[j]? = some (PageCondition.valid t') ∧
        t.final ≠ none) ∨
      (∃ (i : Nat) (t : Tag), pages[i]? = some (PageCondition.valid t) ∧ t.header ≠ none ∧ ¬ (i = 0 ∧ t.sequence = 0)) →
      ∃ n, classify b pages = .stale n ∧ (∀ (i : Nat) c, pages[i]? = some c → n ≤ i → c = .erased) ∧
        ∀ m : Nat, n = m + 1 → ∃ c, pages[m]? = some c ∧ c ≠ .erased) ∧
    (∀ (first : Tag) (tags : List Tag) (k : Nat),
      (∀ (i : Nat) (t : Tag), (first :: tags)[i]? = some t →
        t.clip = first.clip ∧ t.load = first.load ∧ t.sequence = first.sequence ∧ t.page.val = i ∧
        (t.final ≠ none → i = tags.length) ∧ (t.header ≠ none → i = 0 ∧ t.sequence = 0)) →
      pages = (first :: tags).map PageCondition.valid ++ List.replicate k .erased →
      classify b pages = .candidate
        { block := b, clip := first.clip, load := first.load, sequence := first.sequence, pages := tags.length + 1
          final := match (first :: tags).getLast? with
            | some t => t.final
            | none => none
          header := first.header })) ∧
  (∀ s t : State, exec .reset s = .next t → ScanConsistent t) ∧
  (∀ (c : Instr) (s t : State), ScanConsistent s → exec c s = .next t → ScanConsistent t)

/-- The last read of the scan completes it. The state is SERVICE and START_DONE is set (R174). The latest load of each clip, by the
greatest load number of any valid tag of it, is rebuilt READY when it is complete, and its blocks are OWNED; every other candidate is
STALE; every other block stays as it was classified, and none is RETIRED (R171 to R174, R52). The STALE blocks, in ascending order, are
the erase queue; the load counter is one more than the greatest load number, 1 where there was no valid tag, and exhausted at
4 294 967 295 (R9, R12, R174). Then a pending start of V6 is made, while the last read still holds the port, and the grant decision
comes last (R160, R174). What the tables hold before is ScanConsistent, which every command keeps (ScanReadsOnAndClassifies). -/
def Obligations.ScanCompletes : Prop :=
  ∀ (tagGood payloadGood : Bool) (s : State), s.inReset = false → s.store.state = .starting →
    s.store.port = .scanRead 2047 15 → ScanConsistent s →
    (let c := scanCondition tagGood payloadGood (s.flash.read (pageAddress 2047 15))
     let last := classify 2047 (s.store.scan.pages ++ [c])
     let candidates := s.store.scan.candidates ++ match last with
       | .candidate x => [x]
       | _ => []
     let greatest (k : ClipId) : Nat := (noteLoad c s.store.scan.greatest).read 0 k.val
     let latest (k : ClipId) : List Candidate := candidates.filter fun x => decide (x.clip = k) && decide (x.load = greatest k)
     ∃ u, exec (.scanReadComplete tagGood payloadGood) s =
         .next (arbitrate ((if s.inputs.overrideResult = .pending then startOverride u else u).setPort .idle)) ∧
       u = { s with
         clips := u.clips, store.blocks := u.store.blocks, store.eraseQueue := u.store.eraseQueue
         store.loadCounter := u.store.loadCounter, store.state := .service
         store.scan := { pages := [], candidates := [], greatest := [] }
         link := (setFlag .startDone s).link } ∧
       (∀ k : ClipId,
         (∀ l h n, LoadComplete (latest k) l h n → u.clip k = some
           { state := .ready, format := h.format, rate := h.rate, protect := h.protect, name := h.name
             load := greatest k, places := l.map fun x => some x.block, accepted := n * h.format.size
             programmed := n * h.format.size, samples := some n }) ∧
         ((∀ l h n, ¬ LoadComplete (latest k) l h n) → u.clip k = none)) ∧
       (∀ x ∈ candidates,
         (∀ l h n, LoadComplete (latest x.clip) l h n → x ∈ l → u.block x.block =
           { state := .owned x.clip x.sequence, programmed := x.pages, retireMark := false, eraseQueued := false }) ∧
         ((∀ l h n, LoadComplete (latest x.clip) l h n → x ∉ l) → u.block x.block =
           { state := .stale, programmed := x.pages, retireMark := false, eraseQueued := true })) ∧
       (∀ b, b ≠ 2047 → (∀ x ∈ candidates, x.block ≠ b) →
         ((s.block b).state = .free ∧ u.block b = s.block b) ∨
         ((s.block b).state = .stale ∧ u.block b = { s.block b with eraseQueued := true })) ∧
       (last = .free → u.block 2047 = { state := .free, programmed := 0, retireMark := false, eraseQueued := false }) ∧
       (∀ n, last = .stale n →
         u.block 2047 = { state := .stale, programmed := n, retireMark := false, eraseQueued := true }) ∧
       (∀ b, (u.block b).state ≠ .retired ∧ (u.block b).state ≠ .unclassified) ∧
       u.store.eraseQueue = (List.finRange 2048).filter (fun b => decide ((u.block b).state = .stale)) ∧
       ((∀ k, greatest k = 0) → u.store.loadCounter = some 1) ∧
       (∀ k, greatest k ≠ 0 → (∀ d, greatest d ≤ greatest k) →
         u.store.loadCounter = if greatest k < 4294967295 then some (greatest k + 1) else none))

/-! ### Clips (chapter 2) -/

/-- CLIP.OPEN of an ABSENT clip opens it with the attributes given and the load counter's value, and the counter advances or is
exhausted (R35, R9). CLIP.CLOSE at a whole number of samples makes the clip CLOSING with its sample count, and marks the last page of
the load buffer final with that count; a cursor at 0 or between samples is refused BAD_FIELD, a clip that is not OPEN WRONG_STATE
(R40, R33). Both are refused STARTING in STARTING before any field is examined, and BAD_FIELD for clip id 0 (R34); CLIP.OPEN then
BAD_FIELD for an attribute out of range: a format that is none of the three, a rate neither 8 nor 16 kHz, a protect field neither yes nor
no, a name that is no text field (R191, R194); WRONG_STATE for a clip that is not ABSENT, BUSY while another clip is OPEN, FAILED or CLOSING
and in FORMATTING, and NO_SPACE with the load counter exhausted, in this order (R35). -/
def Obligations.ClipOpenAndClose : Prop :=
  (∀ (format rate protect : Byte) (name : Vector Byte 16) (h : Header),
    readAttributes format rate protect name = some h ↔
      format = (match h.format with | .s16 => 1 | .s24 => 2 | .l8 => 3) ∧
      rate = (match h.rate with | .khz8 => 1 | .khz16 => 2) ∧ protect = yesNo h.protect ∧ h.name.length ≤ 16 ∧
      (∀ b ∈ h.name, 32 ≤ b.toNat ∧ b.toNat ≤ 126) ∧
      name.toList = h.name ++ List.replicate (16 - h.name.length) 0) ∧
  (∀ (tag id format rate protect : Byte) (name : Vector Byte 16) (s : State), Takes s →
    (let refused (st : Status) : Prop :=
       exec (.clipOpen tag id format rate protect name) s = .next (reply 32 tag st [] (hunt s))
     (s.store.state = .starting → refused .starting) ∧
     (s.store.state ≠ .starting → id = 0 → refused .badField) ∧
     (s.store.state ≠ .starting → id ≠ 0 → readAttributes format rate protect name = none → refused .badField) ∧
     (∀ (h : Header) (c : ClipId), s.store.state ≠ .starting → id.toNat = c.val + 1 →
       readAttributes format rate protect name = some h →
       (s.clip c ≠ none → refused .wrongState) ∧
       (s.clip c = none →
         ((∃ d x, s.clip d = some x ∧ (x.state = .opened ∨ x.state = .failed ∨ x.state = .closing)) → refused .busy) ∧
         ((∀ d x, s.clip d = some x → x.state = .ready ∨ x.state = .erasing) →
           (s.store.state = .formatting → refused .busy) ∧
           (s.store.state = .service → s.store.loadCounter = none → refused .noSpace) ∧
           (∀ n, s.store.state = .service → s.store.loadCounter = some n →
             exec (.clipOpen tag id format rate protect name) s = .next (reply 32 tag .ok []
               { (hunt s).setClip c (some
                   { state := .opened, format := h.format, rate := h.rate, protect := h.protect, name := h.name, load := n,
                     places := [], accepted := 0, programmed := 0, samples := none }) with
                 store.loadCounter := if n < 4294967295 then some (n + 1) else none }))))))) ∧
  (∀ (tag id : Byte) (s : State), Takes s →
    (s.store.state = .starting → exec (.clipClose tag id) s = .next (reply 34 tag .starting [] (hunt s))) ∧
    (s.store.state ≠ .starting → id = 0 → exec (.clipClose tag id) s = .next (reply 34 tag .badField [] (hunt s))) ∧
    (∀ c : ClipId, s.store.state ≠ .starting → id.toNat = c.val + 1 →
      (s.clip c = none → exec (.clipClose tag id) s = .next (reply 34 tag .wrongState [] (hunt s))) ∧
      (∀ x, s.clip c = some x →
        (x.state = .opened → x.accepted ≠ 0 → x.accepted % x.format.size = 0 →
          exec (.clipClose tag id) s = .next (reply 34 tag .ok [] (arbitrate
            (({ hunt s with store.buffer := markFinal (x.accepted / x.format.size) s.store.buffer } : State).setClip c
              (some { x with state := .closing, samples := some (x.accepted / x.format.size) }))))) ∧
        (x.state = .opened → x.accepted = 0 ∨ x.accepted % x.format.size ≠ 0 →
          exec (.clipClose tag id) s = .next (reply 34 tag .badField [] (hunt s))) ∧
        (x.state ≠ .opened → exec (.clipClose tag id) s = .next (reply 34 tag .wrongState [] (hunt s))))))

/-- CLIP.DATA at the write cursor, with room and a block, takes the chunk whole: a block still needed is reserved, the cursor advances,
the bytes join the load buffer, and the reply carries the new cursor and the room left; without a block it is NO_SPACE, wholly before
the cursor ALREADY, elsewhere OFFSET, without room FULL, and none of these changes anything (R36 to R39). In STARTING it is refused
STARTING and for clip id 0 BAD_FIELD, both with cursor and room 0; for a FAILED clip FAILED, for any other that is not OPEN
WRONG_STATE, with the clip's cursor, 0 where it is ABSENT (R34, R36, R39). The block reserved is the first FREE one from the allocation
cursor on: it becomes OWNED at the next sequence, joins the block list as its last place, and the cursor moves past it (R7). -/
def Obligations.ClipDataAndReservation : Prop :=
  (∀ (tag id : Byte) (offset : BitVec 32) (chunk : List Byte) (s : State), Takes s → 1 ≤ chunk.length → chunk.length ≤ 512 →
    (let refused (st : Status) (cursor room : Nat) : Prop :=
       exec (.clipData tag id offset chunk) s = .next (reply 33 tag st (le32 cursor ++ le16 room) (hunt s))
     (s.store.state = .starting → refused .starting 0 0) ∧
     (s.store.state ≠ .starting → id = 0 → refused .badField 0 0) ∧
     (∀ c : ClipId, s.store.state ≠ .starting → id.toNat = c.val + 1 →
       (s.clip c = none → refused .wrongState 0 (8192 - bufferedBytes s)) ∧
       (∀ x, s.clip c = some x →
         (x.state = .failed → refused .failed x.accepted (8192 - bufferedBytes s)) ∧
         (x.state ≠ .failed → x.state ≠ .opened → refused .wrongState x.accepted (8192 - bufferedBytes s)) ∧
         (x.state = .opened →
           (offset.toNat = x.accepted → bufferedBytes s + chunk.length ≤ 8192 → needsBlock x chunk.length = false →
             exec (.clipData tag id offset chunk) s = .next (reply 33 tag .ok
               (le32 (x.accepted + chunk.length) ++ le16 (8192 - (bufferedBytes s + chunk.length)))
               (arbitrate (({ hunt s with store.buffer := joinChunk c x.accepted chunk s.store.buffer } : State).setClip c
                 (some { x with accepted := x.accepted + chunk.length }))))) ∧
           (offset.toNat = x.accepted → bufferedBytes s + chunk.length ≤ 8192 → needsBlock x chunk.length = true →
             (∀ b, x.places.length < 512 → findFree s = some b →
               exec (.clipData tag id offset chunk) s = .next (reply 33 tag .ok
                 (le32 (x.accepted + chunk.length) ++ le16 (8192 - (bufferedBytes s + chunk.length)))
                 (arbitrate (({ reserveBlock c b (hunt s) with
                     store.buffer := joinChunk c x.accepted chunk s.store.buffer } : State).setClip c
                   (some { x with accepted := x.accepted + chunk.length, places := x.places ++ [some b] }))))) ∧
             (512 ≤ x.places.length ∨ findFree s = none →
               refused .noSpace x.accepted (8192 - bufferedBytes s))) ∧
           (offset.toNat + chunk.length ≤ x.accepted → refused .already x.accepted (8192 - bufferedBytes s)) ∧
           (x.accepted < offset.toNat + chunk.length → offset.toNat ≠ x.accepted →
             refused .offset x.accepted (8192 - bufferedBytes s)) ∧
           (offset.toNat = x.accepted → 8192 < bufferedBytes s + chunk.length →
             refused .full x.accepted (8192 - bufferedBytes s))))))) ∧
  (∀ (s : State) (c : ClipId) (x : Clip) (b : BlockNo), s.clip c = some x → findFree s = some b →
    (s.block b).state = .free ∧
    (∀ k : Nat, (b - s.store.cursor).val > k → (s.block (s.store.cursor + Fin.ofNat 2048 k)).state ≠ .free) ∧
    (reserveBlock c b s).block b =
      { state := .owned c x.places.length, programmed := 0, retireMark := false, eraseQueued := false } ∧
    (∀ d, d ≠ b → (reserveBlock c b s).block d = s.block d) ∧
    (reserveBlock c b s).clip c = some { x with places := x.places ++ [some b] } ∧
    (reserveBlock c b s).store.cursor = b + 1)

/-- CLIP.ABORT of a clip that is OPEN, FAILED or CLOSING empties the load buffer, frees and vacates each of its blocks without a
programmed page or a program in flight, appends every other that is not queued to the erase queue, in sequence order and each once,
and makes the clip ABSENT with ERASE_DONE when no block is left, else ERASING; in any other state, ABSENT among them, it is refused
WRONG_STATE (R43, R8, R12). In STARTING it is refused STARTING, for clip id 0 BAD_FIELD (R34). -/
def Obligations.ClipAbortReleasesOrQueues : Prop :=
  ∀ (tag id : Byte) (s : State), Takes s →
    (s.store.state = .starting → exec (.clipAbort tag id) s = .next (reply 35 tag .starting [] (hunt s))) ∧
    (s.store.state ≠ .starting → id = 0 → exec (.clipAbort tag id) s = .next (reply 35 tag .badField [] (hunt s))) ∧
    (∀ c : ClipId, s.store.state ≠ .starting → id.toNat = c.val + 1 →
      (s.clip c = none → exec (.clipAbort tag id) s = .next (reply 35 tag .wrongState [] (hunt s))) ∧
      (∀ x, s.clip c = some x →
        (x.state = .ready ∨ x.state = .erasing →
          exec (.clipAbort tag id) s = .next (reply 35 tag .wrongState [] (hunt s))) ∧
        (x.state = .opened ∨ x.state = .failed ∨ x.state = .closing →
          (let stays (b : BlockNo) : Bool := decide ((s.block b).programmed ≠ 0) || programInFlight b s
           let kept := x.heldBlocks.filter stays
           ∃ u, exec (.clipAbort tag id) s = .next (reply 35 tag .ok [] (arbitrate u)) ∧
            u = { hunt s with
              clips := u.clips, store.blocks := u.store.blocks, store.buffer := []
              store.eraseQueue :=
                s.store.eraseQueue ++ (kept.filter fun b => !(s.block b).eraseQueued).eraseDups
              link := if kept = [] then (setFlag .eraseDone (hunt s)).link else (hunt s).link } ∧
            (u.clip c = if kept = [] then none else
              some { x with
                state := .erasing
                places := x.places.map fun q => match q with
                  | some b => if stays b = true then some b else none
                  | none => none }) ∧
            (∀ d, d ≠ c → u.clip d = s.clip d) ∧
            (∀ b, u.block b = if b ∈ x.heldBlocks then
                (if stays b = true then { s.block b with eraseQueued := true } else Block.free) else s.block b)))))

/-- CLIP.ERASE of a READY clip that is neither protected nor latched makes it ERASING and hands every block of its list to the erase
queue, whose tail they join in sequence order and each once, unless they are queued already; a clip that is not READY, ABSENT among
them, is refused WRONG_STATE, a protected one PROTECTED, a latched one IN_USE (R12, R44, R45). In STARTING it is refused STARTING, for
clip id 0 BAD_FIELD (R34). -/
def Obligations.ClipEraseQueuesTheBlocks : Prop :=
  ∀ (tag id : Byte) (s : State), Takes s →
    (s.store.state = .starting → exec (.clipErase tag id) s = .next (reply 36 tag .starting [] (hunt s))) ∧
    (s.store.state ≠ .starting → id = 0 → exec (.clipErase tag id) s = .next (reply 36 tag .badField [] (hunt s))) ∧
    (∀ c : ClipId, s.store.state ≠ .starting → id.toNat = c.val + 1 →
      (s.clip c = none → exec (.clipErase tag id) s = .next (reply 36 tag .wrongState [] (hunt s))) ∧
      (∀ x, s.clip c = some x →
        (x.state = .ready → x.protect = false → isLatched c s = false →
          ∃ u, exec (.clipErase tag id) s = .next (reply 36 tag .ok [] (arbitrate u)) ∧
            u = { (hunt s).setClip c (some { x with state := .erasing }) with
              store.blocks := u.store.blocks
              store.eraseQueue :=
                s.store.eraseQueue ++ (x.heldBlocks.filter fun b => !(s.block b).eraseQueued).eraseDups } ∧
            (∀ b, u.block b = if b ∈ x.heldBlocks then { s.block b with eraseQueued := true } else s.block b)) ∧
        (x.state ≠ .ready → exec (.clipErase tag id) s = .next (reply 36 tag .wrongState [] (hunt s))) ∧
        (x.state = .ready → x.protect = true →
          exec (.clipErase tag id) s = .next (reply 36 tag .protected_ [] (hunt s))) ∧
        (x.state = .ready → x.protect = false → isLatched c s = true →
          exec (.clipErase tag id) s = .next (reply 36 tag .inUse [] (hunt s)))))

/-- CLIP.READ makes the readback of the span's first page pending and holds its reply; a page that holds the rest of the span ends it
with OK and the bytes, another leaves the readback of the span's next page pending; a read error answers FAILED alone and sets
STORE_FAULT (R47, R48, R17). A clip that is not READY, ABSENT among them, is refused NOT_READY, a span of 0 or above 512 bytes or beyond
the clip's end BAD_FIELD (R47); in STARTING it is refused STARTING, for clip id 0 BAD_FIELD (R34). -/
def Obligations.ClipReadIsHeldThenAnswered : Prop :=
  (∀ (tag id : Byte) (offset : BitVec 32) (length : BitVec 16) (s : State), Takes s →
    (s.store.state = .starting → exec (.clipRead tag id offset length) s = .next (reply 37 tag .starting [] (hunt s))) ∧
    (s.store.state ≠ .starting → id = 0 →
      exec (.clipRead tag id offset length) s = .next (reply 37 tag .badField [] (hunt s))) ∧
    (∀ c : ClipId, s.store.state ≠ .starting → id.toNat = c.val + 1 →
      (s.clip c = none → exec (.clipRead tag id offset length) s = .next (reply 37 tag .notReady [] (hunt s))) ∧
      (∀ x, s.clip c = some x →
        (x.state = .ready → 1 ≤ length.toNat → length.toNat ≤ 512 → offset.toNat + length.toNat ≤ x.accepted →
          ∀ place, x.placeOf offset.toNat = some place →
          exec (.clipRead tag id offset length) s =
            .next { arbitrate { hunt s with store.readback := some place } with
              link.owed := .held (.clipRead tag c offset.toNat length.toNat []) }) ∧
        (x.state = .ready → length.toNat = 0 ∨ 512 < length.toNat ∨ x.accepted < offset.toNat + length.toNat →
          exec (.clipRead tag id offset length) s = .next (reply 37 tag .badField [] (hunt s))) ∧
        (x.state ≠ .ready → exec (.clipRead tag id offset length) s = .next (reply 37 tag .notReady [] (hunt s)))))) ∧
  (∀ (tag : Byte) (c : ClipId) (offset length : Nat) (taken : List Byte) (b : BlockNo) (p : PageNo) (s : State),
    s.inReset = false → s.flash.wf = true → s.store.port = .readback b p →
    s.link.owed = .held (.clipRead tag c offset length taken) → taken.length < length →
    (let payload := (s.flash.read (pageAddress b p)).payload
     let start := (offset + taken.length) % 2048
     let rest := length - taken.length
     (start + rest ≤ 2048 →
       exec (.clipReadReadbackComplete true) s = .next (arbitrate { s with
         store.port := .idle
         link.owed := .sending (frameBytes 37 tag (0 :: (taken ++ (payload.drop start).take rest))) false })) ∧
     (2048 < start + rest → ∀ x place, s.clip c = some x →
       x.placeOf (offset + taken.length + (2048 - start)) = some place →
       exec (.clipReadReadbackComplete true) s = .next (arbitrate { s with
         store.port := .idle
         store.readback := some place
         link.owed := .held (.clipRead tag c offset length (taken ++ payload.drop start)) })) ∧
     exec (.clipReadReadbackComplete false) s = .next (arbitrate
       { setFlag .storeFault (s.setPort .idle) with link.owed := .sending (frameBytes 37 tag [17]) false })))

/-! ### Programs (chapter 3) -/

/-- A PROG.WRITE whose fields are all in range replaces the record whole. An id outside 1 to 32, then a cycle attribute neither yes
nor no, then a step count of 0 or above 12 is refused BAD_FIELD with the position 255, "none"; then a count that is not the number
of step records in the body BAD_LENGTH, with the status alone; then a faulty step BAD_FIELD with that step's position. A step record
is faulty when its kind is none of the four, when a field its kind uses is out of range, or when a field its kind does not use is
not 0. PROG.DELETE of a program that no voice uses empties it, of one in use is refused IN_USE, of an EMPTY one NOT_FOUND, and of a
number that is none BAD_FIELD (R54, R56, R57, R58, R61, R62, R182, R197). -/
def Obligations.ProgramWriteAndDelete : Prop :=
  ∀ (tag id cycle count : Byte) (raw : List RawStep) (s : State), Takes s →
    (id.toNat = 0 ∨ 32 < id.toNat →
      exec (.progDelete tag id) s = .next (reply 50 tag .badField [] (hunt s)) ∧
      (raw.length ≤ 12 → exec (.progWrite tag id cycle count raw) s = .next (reply 48 tag .badField [255] (hunt s)))) ∧
    (12 < raw.length → exec (.progWrite tag id cycle count raw) s = .next (reply 48 tag .badLength [] (hunt s))) ∧
    (∀ r : RawStep,
      readStep r = none ↔
        ¬ ((r.kind = 1 ∧ r.clip ≠ 0 ∧ 1 ≤ r.count.toNat ∧ r.count.toNat ≤ 15 ∧ r.limit = 0 ∧ r.gap = 0) ∨
           (r.kind = 2 ∧ r.clip ≠ 0 ∧ r.count = 0 ∧ r.limit.toNat ≤ 3600 ∧ r.gap = 0) ∨
           (r.kind = 3 ∧ r.clip = 0 ∧ r.count = 0 ∧ r.limit = 0 ∧ 1 ≤ r.gap.toNat ∧ r.gap.toNat ≤ 600) ∨
           (r.kind = 4 ∧ r.clip ≠ 0 ∧ r.count = 0 ∧ r.limit = 0 ∧ r.gap = 0))) ∧
    (∀ p : ProgramId, id.toNat = p.val + 1 →
      (raw.length ≤ 12 → 1 < cycle.toNat →
        exec (.progWrite tag id cycle count raw) s = .next (reply 48 tag .badField [255] (hunt s))) ∧
      (raw.length ≤ 12 → cycle.toNat ≤ 1 → count.toNat = 0 ∨ 12 < count.toNat →
        exec (.progWrite tag id cycle count raw) s = .next (reply 48 tag .badField [255] (hunt s))) ∧
      (raw.length ≤ 12 → cycle.toNat ≤ 1 → 1 ≤ count.toNat → count.toNat ≤ 12 → count.toNat ≠ raw.length →
        exec (.progWrite tag id cycle count raw) s = .next (reply 48 tag .badLength [] (hunt s))) ∧
      (∀ c : Bool, cycle = yesNo c → 1 ≤ raw.length → raw.length ≤ 12 → count.toNat = raw.length →
        (∀ steps, raw.map readStep = steps.map some →
          exec (.progWrite tag id cycle count raw) s =
            .next (reply 48 tag .ok [] ((hunt s).setProgram p (some { cycle := c, steps := steps })))) ∧
        (∀ (good later : List RawStep) (bad : RawStep), raw = good ++ bad :: later → (∀ r ∈ good, readStep r ≠ none) →
          readStep bad = none →
          exec (.progWrite tag id cycle count raw) s =
            .next (reply 48 tag .badField [byteOf good.length] (hunt s)))) ∧
      (s.program p = none → exec (.progDelete tag id) s = .next (reply 50 tag .notFound [] (hunt s))) ∧
      (s.program p ≠ none → (∃ v, usesProgram p s v = true) →
        exec (.progDelete tag id) s = .next (reply 50 tag .inUse [] (hunt s))) ∧
      (s.program p ≠ none → (∀ v, usesProgram p s v = false) →
        exec (.progDelete tag id) s = .next (reply 50 tag .ok [] ((hunt s).setProgram p none))))

/-! ### Voices (chapter 4) -/

/-- VOICE.START that passes its checks takes the lowest IDLE general voice, gives it the next start number and origin LINK, latches its
step 0, and claims its zones at once (Allocated). On free enabled zones it becomes ACTIVE holder of exactly the zones asked for, at its
priority, in a WALK step with the lowest zone it then holds as walk zone; no other zone, and no other voice but for a granted fetch,
changes. Any
claim that is granted, on zones of holders of lower priority too, is the grant that VoiceGoClaims spells, and the answer is ACTIVE. A
claim that is queued makes the voice WAITING, its wait timer at the wait limit and its place on the waiting list by priority and start
number. A claim refused NO_ZONE returns it to IDLE without an end, its fetch withdrawn and its start number spent; the answer is voice
255, start number 0 and IDLE. A start order from a cue, a trigger input or any other source goes the same way with its own origin, and
has the same three outcomes (R67, R69 to R71, R75, R86, R100 to R106). Which fields stand in the voice returned is log entry 23. -/
def Obligations.VoiceStartTakesFreeZones : Prop :=
  (∀ (tag : Byte) (raw : RawOrder) (o : StartOrder) (prog : Program) (first : Machine.Step) (rest : List Machine.Step)
    (v : VoiceId) (s : State), Takes s →
    s.store.state = .service → s.inputs.latch = false → s.arbiter.bus = .running → readOrder raw = some o →
    s.program o.program = some prog → prog.steps = first :: rest → (∀ c, first.clip? = some c → s.clipReady c = true) →
    idleVoice s = some v →
    ((∀ z, hasZone o.zones z = true → (s.zone z).enabled = true ∧ (s.zone z).holder = none) →
      ∃ u, exec (.voiceStart tag raw) s = .next (reply 64 tag .ok (byteOf v.val :: le32 (issuedNumber s) ++ [3]) u) ∧
        EngineStep (hunt s) u ∧ u.link = (hunt s).link ∧
        (u.voice v).state = .active ∧ (u.voice v).start = issuedNumber s ∧ (u.voice v).origin = .link ∧
        (u.voice v).order = some o ∧ (u.voice v).wanted = 0 ∧ (u.voice v).stepIndex = 0 ∧ (u.voice v).step = some first ∧
        (u.voice v).endRecord = (s.voice v).endRecord ∧
        ((∀ c, first ≠ .walk c) → (u.voice v).walkZone = none ∧ (u.voice v).walked = 0) ∧
        (∀ c z, first = .walk c → u.holds v z = true → (∀ y, y < z → u.holds v y = false) →
          (u.voice v).walkZone = some z ∧ (u.voice v).walked = oneZone z) ∧
        u.engine.nextStart = numberAfter (issuedNumber s) ∧
        u.arbiter.waiting = s.arbiter.waiting.filter (· ≠ v) ∧
        (∀ z, u.zone z = if hasZone o.zones z = true then { s.zone z with holder := some (v, o.priority) } else s.zone z) ∧
        (∀ w, w ≠ v → u.voice w = { s.voice w with fetch := (u.voice w).fetch })) ∧
    (∀ zs, evaluateClaim o s = some zs →
      ∃ a, Allocated v .link o first (hunt s) a ∧
        exec (.voiceStart tag raw) s = .next (reply 64 tag .ok (byteOf v.val :: le32 (issuedNumber s) ++ [3])
          (arbitrate (grantClaim offers v o zs a)))) ∧
    (evaluateClaim o s = none → 0 < o.wait →
      ∃ a u, Allocated v .link o first (hunt s) a ∧
        exec (.voiceStart tag raw) s = .next (reply 64 tag .ok (byteOf v.val :: le32 (issuedNumber s) ++ [2]) u) ∧
        EngineStep (hunt s) u ∧ u.link = (hunt s).link ∧
        u.voice v = { a.voice v with state := .waiting, waitTimer := o.wait, fetch := (u.voice v).fetch } ∧
        u.engine.nextStart = numberAfter (issuedNumber s) ∧
        JoinsWaiting v o.priority (issuedNumber s) s u.arbiter.waiting ∧
        (∀ z, u.zone z = s.zone z) ∧
        (∀ w, w ≠ v → u.voice w = { s.voice w with fetch := (u.voice w).fetch })) ∧
    (evaluateClaim o s = none → o.wait = 0 →
      ∃ u, exec (.voiceStart tag raw) s = .next (reply 64 tag .noZone [255, 0, 0, 0, 0, 0] u) ∧
        EngineStep (hunt s) u ∧ u.link = (hunt s).link ∧ u.arbiter = s.arbiter ∧
        u.voice v = { Voice.reset with fetch := (u.voice v).fetch, endRecord := (s.voice v).endRecord } ∧
        (∀ f, (u.voice v).fetch = some f → f.granted = true ∧ f.keep = false) ∧
        u.engine.nextStart = numberAfter (issuedNumber s) ∧
        (∀ w, w ≠ v → u.voice w = { s.voice w with fetch := (u.voice w).fetch }))) ∧
  (∀ (origin : Origin) (o : StartOrder) (prog : Program) (first : Machine.Step) (rest : List Machine.Step) (v : VoiceId)
    (s : State),
    s.store.state = .service → s.inputs.latch = false → s.arbiter.bus = .running → s.program o.program = some prog →
    prog.steps = first :: rest → (∀ c, first.clip? = some c → s.clipReady c = true) → idleVoice s = some v →
    ∃ a, Allocated v origin o first s a ∧
      (∀ zs, evaluateClaim o s = some zs →
        startVoice origin (some o) s = (grantClaim offers v o zs a, .started v (issuedNumber s) .active)) ∧
      (evaluateClaim o s = none → 0 < o.wait →
        ∃ u, startVoice origin (some o) s = (u, .started v (issuedNumber s) .waiting) ∧
          u = { a with engine.voices := u.engine.voices, arbiter.waiting := u.arbiter.waiting } ∧
          u.voice v = { a.voice v with state := .waiting, waitTimer := o.wait } ∧
          JoinsWaiting v o.priority (issuedNumber s) s u.arbiter.waiting ∧
          (∀ w, w ≠ v → u.voice w = a.voice w)) ∧
      (evaluateClaim o s = none → o.wait = 0 →
        startVoice origin (some o) s =
          (a.setVoice v
            { Voice.reset with fetch := flushed (a.voice v).fetch, endRecord := (s.voice v).endRecord }, .refused .noZone)))

/-- VOICE.PREPARE makes the lowest IDLE general voice PREPARED with its discard timer at 30 or 2 seconds, on a running or a halted bus:
of the rest of its context allocation fixes every field, but for a fetch granted at the arrival of its request (Allocated); no zone, and
no other voice but for a granted fetch, changes (R69, R70, R72, R75; that grant is log entry 8). -/
def Obligations.VoicePrepareClaimsNothing : Prop :=
  ∀ (tag : Byte) (raw : RawOrder) (o : StartOrder) (prog : Program) (first : Machine.Step) (rest : List Machine.Step)
    (v : VoiceId) (s : State), Takes s →
    s.store.state = .service → s.inputs.latch = false → readOrder raw = some o → s.program o.program = some prog →
    prog.steps = first :: rest → (∀ c, first.clip? = some c → s.clipReady c = true) → idleVoice s = some v →
    ∃ u, exec (.voicePrepare tag raw) s = .next (reply 65 tag .ok (byteOf v.val :: le32 (issuedNumber s) ++ [1]) u) ∧
      EngineStep (hunt s) u ∧ u.link = (hunt s).link ∧ u.arbiter = s.arbiter ∧
      (u.voice v).state = .prepared ∧ (u.voice v).start = issuedNumber s ∧ (u.voice v).origin = .link ∧
      (u.voice v).order = some o ∧ (u.voice v).stepIndex = 0 ∧ (u.voice v).step = some first ∧
      (u.voice v).discardTimer = (match s.engine.discardMode with | .normal => 30 | .short => 2) ∧
      (u.voice v).endRecord = (s.voice v).endRecord ∧
      u.engine.nextStart = numberAfter (issuedNumber s) ∧
      (∀ w, w ≠ v → u.voice w = { s.voice w with fetch := (u.voice w).fetch }) ∧
      ∃ a, Allocated v .link o first (hunt s) a ∧
        u.voice v = { a.voice v with
          discardTimer := (match s.engine.discardMode with | .normal => 30 | .short => 2), fetch := (u.voice v).fetch }

/-- A start order is refused by the first of its checks that fails, with voice 255, start number 0 and state IDLE, and changes nothing
(R69, R197); one from a cue or a trigger input is refused by the same checks in the same order, and changes nothing (R69, R71). A start
order is out of range with a program outside 1 to 32, an empty zone set, a priority above 14, or an option neither yes nor no (R69). The
five requests that name a voice by its start number are refused STALE where no live voice has it and LOCKED for V6; VOICE.STOP examines
its mode first (R68). The voice state in VOICE.GO's refusals is log entry 17. -/
def Obligations.RefusedVoiceRequestsChangeNothing : Prop :=
  (∀ raw : RawOrder,
    (readOrder raw = none ↔ raw.program.toNat = 0 ∨ 32 < raw.program.toNat ∨ raw.zones = 0 ∨ 14 < raw.priority.toNat ∨
      1 < raw.partialOpt.toNat ∨ 1 < raw.suspendable.toNat) ∧
    (∀ (p : ProgramId) (partialOpt suspendable : Bool), raw.program.toNat = p.val + 1 → raw.zones ≠ 0 →
      raw.priority.toNat ≤ 14 → raw.partialOpt = yesNo partialOpt → raw.suspendable = yesNo suspendable →
      readOrder raw = some
        { program := p, zones := raw.zones, priority := raw.priority.toNat, wait := raw.wait.toNat
          partialOpt := partialOpt, suspendable := suspendable })) ∧
  (∀ (origin : Origin) (order : Option StartOrder) (s : State),
    (let no (st : Status) : Prop := startVoice origin order s = (s, .refused st)
     (s.store.state = .starting → no .starting) ∧ (s.store.state = .formatting → no .busy) ∧
     (s.store.state = .service → s.inputs.latch = true → no .locked) ∧
     (s.store.state = .service → s.inputs.latch = false →
       (order = none → no .badField) ∧
       (∀ o, order = some o →
         (s.program o.program = none → no .notFound) ∧
         (∀ prog first rest, s.program o.program = some prog → prog.steps = first :: rest →
           (∀ c, first.clip? = some c → s.clipReady c = false → no .notReady) ∧
           ((∀ c, first.clip? = some c → s.clipReady c = true) →
             ((∀ v, v ≠ 6 → (s.voice v).state ≠ .idle) → no .noVoice) ∧
             ((∃ v, v ≠ 6 ∧ (s.voice v).state = .idle) → s.arbiter.bus = .halted → no .wrongState))))))) ∧
  (∀ (tag : Byte) (s : State), Takes s →
    (∀ raw : RawOrder,
      (let no (st : Status) : Prop :=
         exec (.voiceStart tag raw) s = .next (reply 64 tag st [255, 0, 0, 0, 0, 0] (hunt s)) ∧
         exec (.voicePrepare tag raw) s = .next (reply 65 tag st [255, 0, 0, 0, 0, 0] (hunt s))
       (s.store.state = .starting → no .starting) ∧ (s.store.state = .formatting → no .busy) ∧
       (s.store.state = .service → s.inputs.latch = true → no .locked) ∧
       (s.store.state = .service → s.inputs.latch = false →
         (readOrder raw = none → no .badField) ∧
         (∀ o, readOrder raw = some o →
           (s.program o.program = none → no .notFound) ∧
           (∀ prog first rest, s.program o.program = some prog → prog.steps = first :: rest →
             (∀ c, first.clip? = some c → s.clipReady c = false → no .notReady) ∧
             ((∀ c, first.clip? = some c → s.clipReady c = true) →
               ((∀ v, v ≠ 6 → (s.voice v).state ≠ .idle) → no .noVoice) ∧
               ((∃ v, v ≠ 6 ∧ (s.voice v).state = .idle) → s.arbiter.bus = .halted →
                 exec (.voiceStart tag raw) s =
                   .next (reply 64 tag .wrongState [255, 0, 0, 0, 0, 0] (hunt s))))))))) ∧
    (∀ (n : BitVec 32) (mode : Byte),
      (liveVoice s n.toNat = none →
        exec (.voiceGo tag n) s = .next (reply 66 tag .stale [0] (hunt s)) ∧
        (mode = 1 ∨ mode = 2 → exec (.voiceStop tag n mode) s = .next (reply 67 tag .stale [] (hunt s))) ∧
        exec (.voicePause tag n) s = .next (reply 68 tag .stale [] (hunt s)) ∧
        exec (.voiceResume tag n) s = .next (reply 69 tag .stale [] (hunt s)) ∧
        exec (.voiceRelease tag n) s = .next (reply 70 tag .stale [] (hunt s))) ∧
      (liveVoice s n.toNat = some 6 →
        exec (.voiceGo tag n) s = .next (reply 66 tag .locked [(s.voice 6).state.code] (hunt s)) ∧
        (mode = 1 ∨ mode = 2 → exec (.voiceStop tag n mode) s = .next (reply 67 tag .locked [] (hunt s))) ∧
        exec (.voicePause tag n) s = .next (reply 68 tag .locked [] (hunt s)) ∧
        exec (.voiceResume tag n) s = .next (reply 69 tag .locked [] (hunt s)) ∧
        exec (.voiceRelease tag n) s = .next (reply 70 tag .locked [] (hunt s))) ∧
      (mode ≠ 1 → mode ≠ 2 → exec (.voiceStop tag n mode) s = .next (reply 67 tag .badField [] (hunt s)))))

/-- VOICE.GO of a PREPARED general voice. Refused LOCKED while the latch is set; WRONG_STATE for a voice that is not PREPARED, and
on a HALTED bus; each with the voice's state, and nothing changed. A claim that is granted zones without a holder makes it ACTIVE on
them, in a WALK step with the lowest zone it then holds as walk zone; a claim that is queued makes it WAITING with its wait timer at
the wait limit, placed on the waiting list by priority and start number; a claim that is refused leaves everything as it was with
NO_ZONE. A grant that takes zones from holders: each zone taken passes to the claimant at its priority and joins the wanted set of
the holder that loses it, the claimant becomes ACTIVE, wants what it asked for and did not take, and leaves the waiting list; then
the losers act, each once and on its held set as the claim leaves it, with no offer made between their acts; the zones that have
lost their holder by then are offered (R73, R86, R90, R100 to R107, R109). The order of the losers, first those left without a zone,
then those whose walk zone is lost, each in ascending number, and the moment of those offers are log entry 7. -/
def Obligations.VoiceGoClaims : Prop :=
  (∀ (tag : Byte) (n : BitVec 32) (v : VoiceId) (s : State), Takes s → liveVoice s n.toNat = some v → v ≠ 6 →
    (s.inputs.latch = true →
      exec (.voiceGo tag n) s = .next (reply 66 tag .locked [(s.voice v).state.code] (hunt s))) ∧
    (s.inputs.latch = false → (s.voice v).state ≠ .prepared ∨ s.arbiter.bus = .halted →
      exec (.voiceGo tag n) s = .next (reply 66 tag .wrongState [(s.voice v).state.code] (hunt s)))) ∧
  (∀ (tag : Byte) (n : BitVec 32) (v : VoiceId) (o : StartOrder) (s : State), Takes s →
    liveVoice s n.toNat = some v → v ≠ 6 → s.inputs.latch = false → (s.voice v).state = .prepared →
    s.arbiter.bus = .running → (s.voice v).order = some o →
    (∀ zs, evaluateClaim o s = some zs →
      (let t := arbitrate (grantClaim offers v o zs (hunt s))
       exec (.voiceGo tag n) s = .next (reply 66 tag .ok [(t.voice v).state.code] t)) ∧
      ((∀ z, hasZone zs z = true → (s.zone z).holder = none) →
        ∃ u, exec (.voiceGo tag n) s = .next (reply 66 tag .ok [3] u) ∧ EngineStep (hunt s) u ∧ u.link = (hunt s).link ∧
          u.voice v = { s.voice v with
            state := .active, wanted := o.zones &&& ~~~ zs, discardTimer := 0, waitTimer := 0
            walkZone := (u.voice v).walkZone, walked := (u.voice v).walked, fetch := (u.voice v).fetch } ∧
          WalkZoneChosen v s u ∧
          u.engine.nextStart = s.engine.nextStart ∧ u.arbiter.waiting = s.arbiter.waiting.filter (· ≠ v) ∧
          (∀ z, u.zone z = if hasZone zs z = true then { s.zone z with holder := some (v, o.priority) } else s.zone z) ∧
          (∀ w, w ≠ v → u.voice w = { s.voice w with fetch := (u.voice w).fetch }))) ∧
    (evaluateClaim o s = none → 0 < o.wait →
      ∃ u, exec (.voiceGo tag n) s = .next (reply 66 tag .ok [2] u) ∧ EngineStep (hunt s) u ∧ u.link = (hunt s).link ∧
        u.voice v = { s.voice v with
          state := .waiting, discardTimer := 0, waitTimer := o.wait, fetch := (u.voice v).fetch } ∧
        u.engine.nextStart = s.engine.nextStart ∧
        JoinsWaiting v o.priority (s.voice v).start s u.arbiter.waiting ∧
        (∀ z, u.zone z = s.zone z) ∧
        (∀ w, w ≠ v → u.voice w = { s.voice w with fetch := (u.voice w).fetch })) ∧
    (evaluateClaim o s = none → o.wait = 0 →
      exec (.voiceGo tag n) s = .next (reply 66 tag .noZone [1] (hunt s)))) ∧
  (∀ (f : Offers) (v : VoiceId) (o : StartOrder) (zs : SetByte) (s : State),
    ∃ (u told : State) (losers : List VoiceId) (freed : SetByte),
      grantClaim f v o zs s = f freed told ∧
      told = losers.foldl (fun t w => loseSome noOffers w t) (losers.foldl (fun t w => loseLast noOffers w t) u) ∧
      (∀ ys t, noOffers ys t = t) ∧
      (∀ z, hasZone freed z = true ↔ (u.zone z).holder ≠ none ∧ (told.zone z).holder = none) ∧
      losers.Pairwise (· < ·) ∧ (∀ w, w ∈ losers ↔ w ≠ v ∧ ∃ z, hasZone zs z = true ∧ s.holds w z = true) ∧
      u = { s with
        engine.voices := u.engine.voices, arbiter.zones := u.arbiter.zones
        arbiter.waiting := s.arbiter.waiting.filter (· ≠ v) } ∧
      (∀ z, u.zone z = if hasZone zs z = true then { s.zone z with holder := some (v, o.priority) } else s.zone z) ∧
      u.voice v = { s.voice v with
        state := .active, wanted := o.zones &&& ~~~ zs, discardTimer := 0, waitTimer := 0
        walkZone := (u.voice v).walkZone, walked := (u.voice v).walked } ∧
      WalkZoneChosen v s u ∧
      (∀ w, w ≠ v → u.voice w = { s.voice w with wanted := (u.voice w).wanted } ∧
        ∀ z, hasZone (u.voice w).wanted z = (hasZone (s.voice w).wanted z || (hasZone zs z && s.holds w z))))

/-- VOICE.STOP of a general voice: AFTER_PASS sets stop-after-pass on an ACTIVE voice in a clip step; NOW, and AFTER_PASS in any other
case, ends the voice STOPPED at once (R91). The discard timer of a PREPARED voice and the wait timer of a WAITING voice expire: the
voice ends with cause DISCARDED or WAIT_EXPIRED (R72, R106); that in any other state nothing comes about is log entry 12. -/
def Obligations.StopsAndExpiriesEndVoices : Prop :=
  (∀ (tag : Byte) (n : BitVec 32) (v : VoiceId) (s : State), Takes s → liveVoice s n.toNat = some v → v ≠ 6 →
    exec (.voiceStop tag n 1) s = .next (reply 67 tag .ok [] (arbitrate (endVoice offers v .stopped (hunt s)))) ∧
    ((s.voice v).state = .active → (∃ p c, (s.voice v).step = some p ∧ p.clip? = some c) →
      exec (.voiceStop tag n 2) s =
        .next (reply 67 tag .ok [] ((hunt s).setVoice v { s.voice v with stopAfterPass := true }))) ∧
    ((s.voice v).state ≠ .active ∨ (∀ p c, (s.voice v).step = some p → p.clip? ≠ some c) →
      exec (.voiceStop tag n 2) s = .next (reply 67 tag .ok [] (arbitrate (endVoice offers v .stopped (hunt s)))))) ∧
  (∀ (v : VoiceId) (s : State), s.inReset = false →
    ((s.voice v).state = .prepared →
      exec (.discardTimerExpiry v) s = .next (arbitrate (endVoice offers v .discarded s))) ∧
    ((s.voice v).state = .waiting →
      exec (.waitTimerExpiry v) s = .next (arbitrate (endVoice offers v .waitExpired s))) ∧
    ((s.voice v).state ≠ .prepared → exec (.discardTimerExpiry v) s = .next s) ∧
    ((s.voice v).state ≠ .waiting → exec (.waitTimerExpiry v) s = .next s))

/-- An end of an IDLE voice changes nothing (R94, R152, R163). What an end of any other voice does before its freed zones are
offered: the end record, IDLE, the withdrawn fetch, the waiting list, the VOICE_END flag and the freed zones; fault flags, underrun
counts and last output sample stay, no other voice and nothing else changes (R93, R94, R95, R108). The record's program is that of
the last step start, or of the start order if no step start has read one (R95). The model's own: the 0, the empty set and none that
the ended voice holds in the fields that an IDLE voice does not have (log entry 23). -/
def Obligations.EndOfAVoice : Prop :=
  ∀ (o : Offers) (v : VoiceId) (cause : EndCause) (s : State),
    ((s.voice v).state = .idle → endVoice o v cause s = s) ∧
    ((s.voice v).state ≠ .idle → ∃ u r, endVoice o v cause s = o (s.heldSet v) u ∧
      u = { s with
        engine.voices := u.engine.voices, arbiter.zones := u.arbiter.zones
        arbiter.waiting := s.arbiter.waiting.filter (· ≠ v)
        link := (setFlag (.voiceEnd v) s).link } ∧
      u.voice v = { Voice.reset with
        fetch := (u.voice v).fetch, faults := (s.voice v).faults, underTotal := (s.voice v).underTotal
        underRun := (s.voice v).underRun, lastSample := (s.voice v).lastSample, endRecord := some r } ∧
      r.cause = cause ∧ r.fault = (s.voice v).faults.code ∧ r.step = (s.voice v).stepIndex ∧
      r.origin = (s.voice v).origin ∧ r.start = (s.voice v).start ∧ r.time = s.clockTime ∧
      (∀ p, (s.voice v).stepProgram = some p → r.program = some p) ∧
      ((s.voice v).stepProgram = none → r.program = (s.voice v).order.map (·.program)) ∧
      ((s.voice v).fetch = none → (u.voice v).fetch = none) ∧
      (∀ f, (s.voice v).fetch = some f → f.granted = false → (u.voice v).fetch = none) ∧
      (∀ f, (s.voice v).fetch = some f → f.granted = true → (u.voice v).fetch = some { f with keep := false }) ∧
      (∀ z, u.zone z = if s.holds v z = true then { s.zone z with holder := none } else s.zone z) ∧
      (∀ w, w ≠ v → u.voice w = s.voice w))

/-- VOICE.PAUSE and VOICE.RESUME set the paused flag of an ACTIVE or SUSPENDED voice and change nothing else; VOICE.RELEASE sets the
release mark of one in a HOLD step with no mark set; PREPARED and WAITING voices are refused WRONG_STATE, other steps NOT_HOLDING, a
mark already set TOO_LATE (R92, R85). -/
def Obligations.PauseResumeRelease : Prop :=
  ∀ (tag : Byte) (n : BitVec 32) (v : VoiceId) (s : State), Takes s → liveVoice s n.toNat = some v → v ≠ 6 →
    ((s.voice v).state = .active ∨ (s.voice v).state = .suspended →
      exec (.voicePause tag n) s =
        .next (reply 68 tag .ok [] ((hunt s).setVoice v { s.voice v with paused := true })) ∧
      exec (.voiceResume tag n) s =
        .next (reply 69 tag .ok [] ((hunt s).setVoice v { s.voice v with paused := false })) ∧
      (∀ c limit, (s.voice v).step = some (.hold c limit) → (s.voice v).releaseMark = false →
        (s.voice v).holdEndMark = false →
        exec (.voiceRelease tag n) s =
          .next (reply 70 tag .ok [] ((hunt s).setVoice v { s.voice v with releaseMark := true }))) ∧
      (∀ c limit, (s.voice v).step = some (.hold c limit) →
        (s.voice v).releaseMark = true ∨ (s.voice v).holdEndMark = true →
        exec (.voiceRelease tag n) s = .next (reply 70 tag .tooLate [] (hunt s))) ∧
      ((∀ c limit, (s.voice v).step ≠ some (.hold c limit)) →
        exec (.voiceRelease tag n) s = .next (reply 70 tag .notHolding [] (hunt s)))) ∧
    ((s.voice v).state = .prepared ∨ (s.voice v).state = .waiting →
      exec (.voicePause tag n) s = .next (reply 68 tag .wrongState [] (hunt s)) ∧
      exec (.voiceResume tag n) s = .next (reply 69 tag .wrongState [] (hunt s)) ∧
      exec (.voiceRelease tag n) s = .next (reply 70 tag .wrongState [] (hunt s)))

/-! ### Zones (chapter 5) -/

/-- The evaluation of a claim: the zones asked for that are enabled form the claim set; one of them is grantable without a holder or
with a holder of lower priority; a claim that is not partial takes the whole of a claim set that is not empty and grantable
throughout, a partial claim every grantable zone, if there is one (R100 to R102). -/
def Obligations.ClaimsAreEvaluated : Prop :=
  ∀ (o : StartOrder) (s : State) (claimed free : ZoneId → Prop),
    (∀ z, claimed z ↔ hasZone o.zones z = true ∧ (s.zone z).enabled = true) →
    (∀ z, free z ↔ (s.zone z).holder = none ∨ ∃ w p, (s.zone z).holder = some (w, p) ∧ p < o.priority) →
    (∀ zs, evaluateClaim o s = some zs → ∀ z, hasZone zs z = true ↔ claimed z ∧ free z) ∧
    (o.partialOpt = false →
      (evaluateClaim o s ≠ none ↔ (∃ z, claimed z) ∧ ∀ z, claimed z → free z)) ∧
    (o.partialOpt = true → (evaluateClaim o s ≠ none ↔ ∃ z, claimed z ∧ free z))

/-- A voice that loses its last zone becomes SUSPENDED with its context kept when suspendable, and ends PREEMPTED otherwise; one that
still holds a zone is not touched by that notice (R90, R107). An ACTIVE voice in a WALK step that does not hold its walk zone moves to
the lowest zone it holds above it: that zone joins the walked set, the buffer is flushed, sample 0 and page 0 come next, lead-in is set
and the voice tests for a fetch; where it holds none above, its step ends; any other voice is not touched (R79, R88). No offer is made
while the latch is set, of a zone that has a holder, or of a disabled zone. Else the claimants of the zone, the WAITING voices that ask
for it and the ACTIVE and SUSPENDED voices that want it, are tried by priority, highest first, then by start number, lowest first. A
WAITING voice whose claim is granted takes what it is granted, one whose claim is not is passed by; an ACTIVE voice takes the zone at
its own priority; a SUSPENDED voice takes it and becomes ACTIVE, and then moves as above if it does not hold its walk zone; with no
claimant left the zone stays free (R90, R109, R110). The zones that an event makes offerable, a set of them, are offered one at a time
in ascending number, each on the state that the offer before it has left; an end within an offer offers its zones within it, eight deep,
which no event reaches (R109; that the offers nest so, and the depth, is log entry 7). -/
def Obligations.LossesAndOffersOfZones : Prop :=
  ∀ (o : Offers) (s : State),
    (∀ (v : VoiceId) (order : StartOrder), (s.voice v).state = .active → (s.voice v).order = some order →
      (s.heldSet v = 0 → order.suspendable = true →
        loseLast o v s = s.setVoice v { s.voice v with state := .suspended }) ∧
      (s.heldSet v = 0 → order.suspendable = false → loseLast o v s = endVoice o v .preempted s) ∧
      (s.heldSet v ≠ 0 → loseLast o v s = s)) ∧
    (∀ v : VoiceId,
      ((s.voice v).state ≠ .active ∨ (∀ c, (s.voice v).step ≠ some (.walk c)) ∨ (s.voice v).walkZone = none ∨
        (∃ z, (s.voice v).walkZone = some z ∧ s.holds v z = true) → loseSome o v s = s) ∧
      (∀ c z, (s.voice v).state = .active → (s.voice v).step = some (.walk c) → (s.voice v).walkZone = some z →
        s.holds v z = false →
        (∀ y, z < y → s.holds v y = true → (∀ x, z < x → x < y → s.holds v x = false) →
          loseSome o v s = fetchTest v (s.setVoice v { s.voice v with
            walkZone := some y, walked := (s.voice v).walked ||| oneZone y, buffer := [], fetch := flushed (s.voice v).fetch
            position := 0, secondPhase := false, fetchPage := 0, fetchPass := 0, leadIn := true })) ∧
        ((∀ y, z < y → s.holds v y = false) → loseSome o v s = stepEnd o v s))) ∧
    (∀ z : ZoneId,
      (s.inputs.latch = true ∨ (s.zone z).holder ≠ none ∨ (s.zone z).enabled = false → offerZone o z s = s) ∧
      ((∀ v, isClaimant s z v = false) → offerZone o z s = s) ∧
      (s.inputs.latch = false → (s.zone z).holder = none → (s.zone z).enabled = true →
        offerZone o z s = tryClaimants o z (claimants s z) s) ∧
      (∀ v, v ∈ claimants s z ↔
        ((s.voice v).state = .waiting ∧ ∃ q, (s.voice v).order = some q ∧ hasZone q.zones z = true) ∨
        (((s.voice v).state = .active ∨ (s.voice v).state = .suspended) ∧ hasZone (s.voice v).wanted z = true)) ∧
      (claimants s z).Nodup ∧
      (claimants s z).Pairwise (fun v w => ∀ p q, (s.voice v).order = some p → (s.voice w).order = some q →
        q.priority < p.priority ∨ (q.priority = p.priority ∧ (s.voice v).start ≤ (s.voice w).start)) ∧
      tryClaimants o z [] s = s ∧
      (∀ v vs order, (s.voice v).order = some order →
        ((s.voice v).state = .waiting →
          (∀ zs, evaluateClaim order s = some zs → tryClaimants o z (v :: vs) s = grantClaim o v order zs s) ∧
          (evaluateClaim order s = none → tryClaimants o z (v :: vs) s = tryClaimants o z vs s)) ∧
        (let t := (s.setZone z { s.zone z with holder := some (v, order.priority) }).setVoice v
           { s.voice v with state := .active, wanted := dropZone (s.voice v).wanted z }
         ((s.voice v).state = .active → tryClaimants o z (v :: vs) s = t) ∧
         ((s.voice v).state = .suspended → tryClaimants o z (v :: vs) s = loseSome o v t)))) ∧
    (∀ zs : SetByte,
      offers zs s = offersWithin 8 zs s ∧ offersWithin 0 zs s = s ∧
      ∀ n, offersWithin (n + 1) zs s = ([0, 1, 2, 3, 4, 5, 6, 7] : List ZoneId).foldl
        (fun t z => if hasZone zs z = true then offerZone (offersWithin n) z t else t) s)

/-- ZONE.SET: the level is replaced; an enabled field that does not differ changes nothing more; a disabled zone loses its holder, which
acts as the loser of a preemption, and is not offered; an enabled one is offered at once; the latch refuses it LOCKED, a field out of
range BAD_FIELD (R112 to R114). -/
def Obligations.ZoneSetSetsLevelAndEnabled : Prop :=
  ∀ (tag zb lb eb : Byte) (z : ZoneId) (e : Bool) (s : State), Takes s →
    (zb.toNat = z.val → lb.toNat ≤ 31 → eb = yesNo e → s.inputs.latch = false →
      (e = (s.zone z).enabled →
        exec (.zoneSet tag zb lb eb) s =
          .next (reply 80 tag .ok [] (arbitrate ((hunt s).setZone z { s.zone z with level := lb.toNat })))) ∧
      (e = false → (s.zone z).enabled = true →
        (let u := (hunt s).setZone z { holder := none, level := lb.toNat, enabled := false }
         ((s.zone z).holder = none →
           exec (.zoneSet tag zb lb eb) s = .next (reply 80 tag .ok [] (arbitrate u))) ∧
         (∀ v p, (s.zone z).holder = some (v, p) →
           exec (.zoneSet tag zb lb eb) s = .next (reply 80 tag .ok [] (arbitrate
             (loseSome offers v (loseLast offers v
               (u.setVoice v { s.voice v with wanted := (s.voice v).wanted ||| oneZone z })))))))) ∧
      (e = true → (s.zone z).enabled = false →
        exec (.zoneSet tag zb lb eb) s =
          .next (reply 80 tag .ok [] (arbitrate (offers (oneZone z)
            ((hunt s).setZone z { holder := (s.zone z).holder, level := lb.toNat, enabled := true })))))) ∧
    (zb.toNat ≤ 7 → lb.toNat ≤ 31 → eb.toNat ≤ 1 → s.inputs.latch = true →
      exec (.zoneSet tag zb lb eb) s = .next (reply 80 tag .locked [] (hunt s))) ∧
    (7 < zb.toNat ∨ 31 < lb.toNat ∨ 1 < eb.toNat →
      exec (.zoneSet tag zb lb eb) s = .next (reply 80 tag .badField [] (hunt s)))

/-- OUTPUT.HALT with every general voice IDLE halts the bus; with force it first ends every general voice, whose zones are then free and
not offered, and each leaves the waiting list, which is empty afterwards where it listed general voices that are not IDLE alone (R105);
a general voice that is not IDLE without force is BUSY, the latch LOCKED, another field BAD_FIELD; OUTPUT.RUN runs the bus in every
state (R119, R120). That no frame stands on a halted bus is log entry 4, and that force ends the voices of a HALTED bus log entry
18. -/
def Obligations.BusHaltsAndRuns : Prop :=
  ∀ (tag : Byte) (s : State),
    (Takes s →
      (s.inputs.latch = false → (∀ v, v ≠ 6 → (s.voice v).state = .idle) →
        exec (.outputHalt tag 0) s =
          .next (reply 82 tag .ok [] (arbitrate { hunt s with arbiter.bus := .halted, arbiter.output := none }))) ∧
      (s.inputs.latch = false →
        exec (.outputHalt tag 1) s =
          .next (reply 82 tag .ok [] (arbitrate
            { forceVoices (hunt s) with arbiter.bus := .halted, arbiter.output := none }))) ∧
      (s.inputs.latch = false → (∃ v, v ≠ 6 ∧ (s.voice v).state ≠ .idle) →
        exec (.outputHalt tag 0) s = .next (reply 82 tag .busy [] (hunt s))) ∧
      (s.inputs.latch = true → ∀ f : Byte, f.toNat ≤ 1 →
        exec (.outputHalt tag f) s = .next (reply 82 tag .locked [] (hunt s))) ∧
      (∀ f : Byte, 1 < f.toNat → exec (.outputHalt tag f) s = .next (reply 82 tag .badField [] (hunt s))) ∧
      exec (.outputRun tag) s = .next (reply 83 tag .ok [] { hunt s with arbiter.bus := .running })) ∧
    EngineStep s (forceVoices s) ∧ (forceVoices s).voice 6 = s.voice 6 ∧
    (∀ v, v ≠ 6 → ((forceVoices s).voice v).state = .idle ∧ ((s.voice v).state = .idle → (forceVoices s).voice v = s.voice v) ∧
      ((s.voice v).state ≠ .idle →
        (forceVoices s).flagSet (.voiceEnd v) = true ∧ ∃ r, ((forceVoices s).voice v).endRecord = some r ∧ r.cause = .forced)) ∧
    (∀ z v p, (s.zone z).holder = some (v, p) → v ≠ 6 → (s.voice v).state ≠ .idle →
      ((forceVoices s).zone z).holder = none) ∧
    (∀ z, (s.zone z).holder = none → ((forceVoices s).zone z).holder = none) ∧
    (forceVoices s).arbiter.waiting =
      s.arbiter.waiting.filter (fun v => decide (v = 6) || decide ((s.voice v).state = .idle)) ∧
    ((∀ v ∈ s.arbiter.waiting, v ≠ 6 ∧ (s.voice v).state ≠ .idle) → (forceVoices s).arbiter.waiting = [])

/-! ### Clock and schedule (chapter 6) -/

/-- CLOCK.SET in range clears every done mark when the clock was UNSET or the weekday differs, loads the time, and passes every ARMED
cue of the new day at or before the new second whose mark is clear; out of range it is refused BAD_FIELD (R131). CLOCK.START makes a
HELD clock RUNNING from the time it holds, with no cue fired or passed; an UNSET or RUNNING clock refuses it WRONG_STATE and nothing
changes (R132). -/
def Obligations.ClockSetAndStart : Prop :=
  (∀ (tag wd h m sec tenth start : Byte) (s : State), Takes s →
    (wd.toNat ≤ 6 → h.toNat ≤ 23 → m.toNat ≤ 59 → sec.toNat ≤ 59 → tenth.toNat ≤ 9 → start = 1 ∨ start = 2 →
      ∃ t, exec (.clockSet tag wd h m sec tenth start) s = .next t ∧
        t.link = (reply 96 tag .ok [] (hunt s)).link ∧ { t with link := s.link, schedule := s.schedule } = s ∧
        t.schedule.clock =
          { state := if start = 1 then .running else .held,
            time := { weekday := wd.toNat, hour := h.toNat, minute := m.toNat, second := sec.toNat, tenth := tenth.toNat } } ∧
        ∀ c, t.cue c =
          (let x := if s.schedule.clock.state = .unset ∨ wd.toNat ≠ s.schedule.clock.time.weekday
              then { s.cue c with done := false } else s.cue c
           match x.entry with
           | some e =>
             if e.state = .armed ∧ e.days.getLsbD wd.toNat = true ∧ x.done = false ∧
                 (e.hour < h.toNat ∨ (e.hour = h.toNat ∧
                   (e.minute < m.toNat ∨ (e.minute = m.toNat ∧ e.second ≤ sec.toNat)))) then
               { x with done := true, outcome := .passed t.schedule.clock.time }
             else x
           | none => x)) ∧
    (6 < wd.toNat ∨ 23 < h.toNat ∨ 59 < m.toNat ∨ 59 < sec.toNat ∨ 9 < tenth.toNat ∨ (start ≠ 1 ∧ start ≠ 2) →
      exec (.clockSet tag wd h m sec tenth start) s = .next (reply 96 tag .badField [] (hunt s)))) ∧
  (∀ (tag : Byte) (s : State), Takes s →
    (s.schedule.clock.state = .held →
      exec (.clockStart tag) s = .next (reply 97 tag .ok [] { hunt s with schedule.clock.state := .running })) ∧
    (s.schedule.clock.state ≠ .held →
      exec (.clockStart tag) s = .next (reply 97 tag .wrongState [] (hunt s))))

/-- A cue number outside 1 to 96 is refused BAD_FIELD (R137). CUE.WRITE in range replaces the record whole: outcome NONE, and the done
mark set exactly when the present-day test holds; out of range, in a field of R126, the initial state or the start order, it is refused
BAD_FIELD (R138, R139). CUE.ENABLE, CUE.DISABLE and CUE.DELETE by the state of the cue: what each changes and what each refuses (R128,
R140 to R142). -/
def Obligations.CueRequestsChangeOneRecord : Prop :=
  (∀ (tag id : Byte) (s : State), Takes s → id.toNat = 0 ∨ 96 < id.toNat →
    (∀ raw, exec (.cueWrite tag id raw) s = .next (reply 112 tag .badField [] (hunt s))) ∧
    exec (.cueEnable tag id) s = .next (reply 114 tag .badField [] (hunt s)) ∧
    exec (.cueDisable tag id) s = .next (reply 115 tag .badField [] (hunt s)) ∧
    exec (.cueDelete tag id) s = .next (reply 116 tag .badField [] (hunt s))) ∧
  (∀ raw : RawCue,
    (readCueEntry raw = none ↔ 23 < raw.hour.toNat ∨ 59 < raw.minute.toNat ∨ 59 < raw.second.toNat ∨ raw.days = 0 ∨
      127 < raw.days.toNat ∨ (raw.rept ≠ 1 ∧ raw.rept ≠ 2) ∨ (raw.state ≠ 1 ∧ raw.state ≠ 2) ∨
      readOrder raw.order = none) ∧
    (∀ (o : StartOrder) (rept : Repeat) (state : CueState), raw.hour.toNat ≤ 23 → raw.minute.toNat ≤ 59 →
      raw.second.toNat ≤ 59 → raw.days ≠ 0 → raw.days.toNat ≤ 127 → readOrder raw.order = some o →
      raw.rept = (match rept with | .once => 1 | .weekly => 2) →
      (raw.state = 1 ∧ state = .armed ∨ raw.state = 2 ∧ state = .disabled) →
      readCueEntry raw = some
        { state := state, hour := raw.hour.toNat, minute := raw.minute.toNat, second := raw.second.toNat
          days := raw.days, rept := rept, order := o })) ∧
  (∀ (tag id : Byte) (c : CueId) (s : State), Takes s → id.toNat = c.val + 1 →
    (let presentDay (x : CueEntry) : Bool :=
       decide (s.schedule.clock.state ≠ .unset) && x.days.getLsbD s.schedule.clock.time.weekday
         && decide (x.hour < s.schedule.clock.time.hour ∨ (x.hour = s.schedule.clock.time.hour ∧
            (x.minute < s.schedule.clock.time.minute ∨ (x.minute = s.schedule.clock.time.minute ∧
              x.second ≤ s.schedule.clock.time.second))))
     (∀ raw x, readCueEntry raw = some x →
       exec (.cueWrite tag id raw) s = .next (reply 112 tag .ok []
         ((hunt s).setCue c { entry := some x, done := presentDay x, outcome := .none }))) ∧
     (∀ raw, readCueEntry raw = none →
       exec (.cueWrite tag id raw) s = .next (reply 112 tag .badField [] (hunt s))) ∧
     ((s.cue c).entry = none →
       exec (.cueEnable tag id) s = .next (reply 114 tag .notFound [] (hunt s)) ∧
       exec (.cueDisable tag id) s = .next (reply 115 tag .notFound [] (hunt s)) ∧
       exec (.cueDelete tag id) s = .next (reply 116 tag .notFound [] (hunt s))) ∧
     (∀ x, (s.cue c).entry = some x →
       (x.state = .armed →
         exec (.cueEnable tag id) s = .next (reply 114 tag .ok [] (hunt s)) ∧
         exec (.cueDisable tag id) s = .next (reply 115 tag .ok []
           ((hunt s).setCue c { s.cue c with entry := some { x with state := .disabled } }))) ∧
       (x.state = .disabled ∨ x.state = .spent →
         exec (.cueEnable tag id) s = .next (reply 114 tag .ok []
           ((hunt s).setCue c { s.cue c with entry := some { x with state := .armed }, done := presentDay x }))) ∧
       (x.state = .spent → exec (.cueDisable tag id) s = .next (reply 115 tag .wrongState [] (hunt s))) ∧
       (x.state = .disabled → exec (.cueDisable tag id) s = .next (reply 115 tag .ok [] (hunt s))) ∧
       exec (.cueDelete tag id) s = .next (reply 116 tag .ok []
         ((hunt s).setCue c { entry := none, done := false, outcome := .none })))))

/-- A tenth event changes nothing while the clock is UNSET or HELD; below 9 the tenth of a RUNNING clock rises by one and nothing else
changes; at 9 the clock enters the next second, and at 23:59:59.9 the done marks are cleared first and the weekday advances (R123,
R124). -/
def Obligations.TenthEventAdvancesTheClock : Prop :=
  ∀ s : State, s.inReset = false →
    (s.schedule.clock.state ≠ .running → exec .tenthEvent s = .next s) ∧
    (s.schedule.clock.state = .running → s.schedule.clock.time.tenth < 9 →
      exec .tenthEvent s =
        .next { s with schedule.clock.time.tenth := s.schedule.clock.time.tenth + 1 }) ∧
    (∀ w h m sec, s.schedule.clock = { state := .running, time := { weekday := w, hour := h, minute := m, second := sec, tenth := 9 } } →
      (sec < 59 → exec .tenthEvent s = .next (arbitrate (enterSecond
        (setTime { weekday := w, hour := h, minute := m, second := sec + 1, tenth := 0 } s)))) ∧
      (sec = 59 → m < 59 → exec .tenthEvent s = .next (arbitrate (enterSecond
        (setTime { weekday := w, hour := h, minute := m + 1, second := 0, tenth := 0 } s)))) ∧
      (sec = 59 → m = 59 → h < 23 → exec .tenthEvent s = .next (arbitrate (enterSecond
        (setTime { weekday := w, hour := h + 1, minute := 0, second := 0, tenth := 0 } s)))) ∧
      (sec = 59 → m = 59 → h = 23 → w ≤ 6 → exec .tenthEvent s = .next (arbitrate (enterSecond (clearDoneMarks
        (setTime { weekday := (w + 1) % 7, hour := 0, minute := 0, second := 0, tenth := 0 } s))))))

/-- A cue that fires records STARTED with voice and start number and sets CUE_FIRED, or MISSED with the refusal status and sets
CUE_MISSED; either way its done mark is set, the time is the clock's, a ONCE cue is SPENT and a WEEKLY cue stays ARMED; no other cue
changes, and all else is as the start order with origin CUE leaves it, whose outcomes are VoiceStartTakesFreeZones and
RefusedVoiceRequestsChangeNothing (R71, R130). A second that is entered fires the cues that are due at it, one after another in
ascending number, and nothing else (R128, R129). -/
def Obligations.FiringRecordsTheOutcome : Prop :=
  ∀ s : State,
    (∀ (c : CueId) (x : CueEntry),
      (∀ d, d ≠ c → (fireCue c x s).cue d = s.cue d) ∧
      ((fireCue c x s).cue c).done = true ∧
      ((fireCue c x s).cue c).entry = some { x with state := if x.rept = .once then .spent else x.state } ∧
      (∀ v n st, (startVoice (.cue c) (some x.order) s).2 = .started v n st →
        ((fireCue c x s).cue c).outcome = .started v n s.schedule.clock.time ∧ (fireCue c x s).flagSet .cueFired = true) ∧
      (∀ st, (startVoice (.cue c) (some x.order) s).2 = .refused st →
        ((fireCue c x s).cue c).outcome = .missed st s.schedule.clock.time ∧ (fireCue c x s).flagSet .cueMissed = true) ∧
      (let u := (startVoice (.cue c) (some x.order) s).1
       (∀ v n st, (startVoice (.cue c) (some x.order) s).2 = .started v n st →
         fireCue c x s = { setFlag .cueFired u with schedule := (fireCue c x s).schedule }) ∧
       (∀ st, (startVoice (.cue c) (some x.order) s).2 = .refused st →
         fireCue c x s = { setFlag .cueMissed u with schedule := (fireCue c x s).schedule })) ∧
      (fireCue c x s).schedule.clock = s.schedule.clock ∧
      EngineStep s { (fireCue c x s) with schedule := s.schedule }) ∧
    (let isDue (d : CueId) : Prop := ∃ x, (s.cue d).entry = some x ∧ x.state = .armed ∧ (s.cue d).done = false ∧
       x.hour = s.schedule.clock.time.hour ∧ x.minute = s.schedule.clock.time.minute ∧
       x.second = s.schedule.clock.time.second ∧ x.days.getLsbD s.schedule.clock.time.weekday = true
     ((∀ d, ¬ isDue d) → enterSecond s = s) ∧
     (∀ c x, (s.cue c).entry = some x → isDue c → (∀ d, isDue d → d = c) → enterSecond s = fireCue c x s) ∧
     (∀ l : List (CueId × CueEntry), (l.map (·.1)).Pairwise (· < ·) →
       (∀ c x, (c, x) ∈ l ↔ (s.cue c).entry = some x ∧ isDue c) →
       enterSecond s = l.foldl (fun t p => fireCue p.1 p.2 t) s))

/-! ### Inputs and override (chapter 7) -/

/-- TRIG.SET in range replaces the action, its fields and the log flag of an entry and keeps its last start number; out of range it is
refused BAD_FIELD: an action above 5, an edge of START, STOP, RELEASE or MARK that is neither CLOSE nor OPEN, a start order of START or
FOLLOW out of range, a stop priority above 14, a release program outside 1 to 32, or a log flag neither yes nor no; fields that the
action does not use are disregarded. TRIG.READ answers the entries in order, oldest first, in the layout of R199, with the overflow
flag, empties the FIFO and clears that flag (R148, R156, R199). -/
def Obligations.TriggerRequests : Prop :=
  ∀ (tag : Byte) (s : State), Takes s →
    (∀ (ib : Byte) (raw : RawTrigger) (i : TriggerId) (a : TriggerAction) (log : Bool),
      ib.toNat = i.val → readAction raw = some a → raw.log = yesNo log →
      exec (.trigSet tag ib raw) s = .next (reply 128 tag .ok []
        ((hunt s).setTrigger i { action := a, log := log, lastStart := (s.trigger i).lastStart }))) ∧
    (∀ (ib : Byte) (raw : RawTrigger), 7 < ib.toNat ∨ readAction raw = none ∨ 1 < raw.log.toNat →
      exec (.trigSet tag ib raw) s = .next (reply 128 tag .badField [] (hunt s))) ∧
    exec (.trigRead tag) s = .next (reply 129 tag .ok
      (yesNo s.inputs.overflow :: byteOf s.inputs.fifo.length :: (s.inputs.fifo.map fifoLayout).flatten)
      { hunt s with inputs.fifo := [], inputs.overflow := false }) ∧
    (∀ (raw : RawTrigger),
      (let badEdge : Prop := raw.edge ≠ 1 ∧ raw.edge ≠ 2
       readAction raw = none ↔
         5 < raw.action.toNat ∨ (raw.action ∈ [1, 3, 4, 5] ∧ badEdge) ∨
         (raw.action ∈ [1, 2] ∧ readOrder raw.order = none) ∨ (raw.action = 3 ∧ 14 < raw.stopPriority.toNat) ∨
         (raw.action = 4 ∧ (raw.releaseProgram.toNat = 0 ∨ 32 < raw.releaseProgram.toNat))) ∧
      (raw.action = 0 → readAction raw = some .none) ∧
      (∀ e : Edge, raw.edge = (match e with | .close => 1 | .opening => 2) →
        (∀ o, raw.action = 1 → readOrder raw.order = some o → readAction raw = some (.start e o)) ∧
        (raw.action = 3 → raw.stopPriority.toNat ≤ 14 → readAction raw = some (.stop e raw.stopPriority.toNat)) ∧
        (∀ p : ProgramId, raw.action = 4 → raw.releaseProgram.toNat = p.val + 1 → readAction raw = some (.release e p)) ∧
        (raw.action = 5 → readAction raw = some (.mark e))) ∧
      (∀ o, raw.action = 2 → readOrder raw.order = some o → readAction raw = some (.follow o)))

/-- OVERRIDE.SET in range replaces both settings. OVERRIDE.CLEAR with OVR CLOSED is refused LINE_ACTIVE, with the latch clear
WRONG_STATE; otherwise V6 ends STOPPED, the latch is cleared with result NONE, and every free enabled zone is offered (R158, R163). -/
def Obligations.OverrideRequests : Prop :=
  ∀ (tag : Byte) (s : State), Takes s →
    (∀ pb lb : Byte, lb.toNat ≤ 31 →
      (pb = 0 → exec (.overrideSet tag pb lb) s = .next (reply 144 tag .ok []
        { hunt s with inputs.overrideProgram := none, inputs.overrideLevel := lb.toNat })) ∧
      (∀ p : ProgramId, pb.toNat = p.val + 1 → exec (.overrideSet tag pb lb) s = .next (reply 144 tag .ok []
        { hunt s with inputs.overrideProgram := some p, inputs.overrideLevel := lb.toNat }))) ∧
    (∀ pb lb : Byte, 32 < pb.toNat ∨ 31 < lb.toNat →
      exec (.overrideSet tag pb lb) s = .next (reply 144 tag .badField [] (hunt s))) ∧
    ((s.input 8).level = .closed → exec (.overrideClear tag) s = .next (reply 145 tag .lineActive [] (hunt s))) ∧
    ((s.input 8).level = .opened → s.inputs.latch = false →
      exec (.overrideClear tag) s = .next (reply 145 tag .wrongState [] (hunt s))) ∧
    ((s.input 8).level = .opened → s.inputs.latch = true →
      exec (.overrideClear tag) s = .next (reply 145 tag .ok [] (arbitrate
        (let u : State := { endVoice offers 6 .stopped (hunt s) with inputs.latch := false, inputs.overrideResult := .none }
         offers (zonesWhere fun z => (u.zone z).enabled && (u.zone z).holder.isNone) u))))

/-- A pin that leaves the debounced level starts its settle timer, a return cancels it; held in reset only the pin moves (R145, R146; a
pin that does not change is log entry 12, one that moves in reset log entry 19). A settle timer that expires makes the pin's level the
debounced level, and the edge is taken by the override logic for OVR, by the trigger logic for TI0 to TI7; that nothing comes about
where the timer does not run is log entry 12. A close edge of OVR sets the latch and OVERRIDE_ON, runs the bus and starts V6, where V6
is IDLE and the scan is over; an open edge sets OVERRIDE_OFF (R159 to R161). The start of V6: with an override program that is 0, EMPTY
or begins with a clip that is not READY the result is NO_PROGRAM and nothing else changes; else V6 is allocated with origin OVERRIDE and
a start order of the enabled zones at priority 15; with no zone enabled it returns to IDLE without an end, its start number spent, and
the result is NO_ZONE (the fields that stand are log entry 23); otherwise it is granted every enabled zone and the result is STARTED:
V6 is ACTIVE and holds each of them at priority 15, and every ACTIVE voice that held one is SUSPENDED when suspendable, else ended
PREEMPTED (R74, R90, R103, R107, R160). -/
def Obligations.PinsSettleIntoEdges : Prop :=
  (∀ (i : InputId) (l : Level) (s : State),
    ((s.input i).pin = l → exec (.pinChange i l) s = .next s) ∧
    ((s.input i).pin ≠ l → s.inReset = false →
      exec (.pinChange i l) s =
        .next (s.setInput i { pin := l, level := (s.input i).level, settling := decide (l ≠ (s.input i).level) })) ∧
    ((s.input i).pin ≠ l → s.inReset = true →
      exec (.pinChange i l) s = .next (s.setInput i { s.input i with pin := l }))) ∧
  (∀ (i : InputId) (s : State), s.inReset = false →
    ((s.input i).settling = true → (s.input i).pin ≠ (s.input i).level →
      (let u := s.setInput i { pin := (s.input i).pin, level := (s.input i).pin, settling := false }
       let e := match (s.input i).pin with
         | .closed => Edge.close
         | .opened => Edge.opening
       (i = 8 → exec (.settleTimerExpiry i) s = .next (arbitrate (overrideEdge e u))) ∧
       (∀ n : TriggerId, n.val = i.val → exec (.settleTimerExpiry i) s = .next (arbitrate (takeEdge n e u))))) ∧
    ((s.input i).settling = false → exec (.settleTimerExpiry i) s = .next s)) ∧
  (∀ s : State,
    overrideEdge .opening s = setFlag .overrideOff s ∧
    (let u := setFlag .overrideOn { s with inputs.latch := true, arbiter.bus := .running }
     ((s.voice 6).state ≠ .idle → overrideEdge .close s = u) ∧
     ((s.voice 6).state = .idle → s.store.state = .starting →
       overrideEdge .close s = { u with inputs.overrideResult := .pending }) ∧
     ((s.voice 6).state = .idle → s.store.state ≠ .starting → overrideEdge .close s = startOverride u)) ∧
    (s.inputs.overrideProgram = none ∨ (∃ p, s.inputs.overrideProgram = some p ∧ s.program p = none) →
      startOverride s = { s with inputs.overrideResult := .noProgram }) ∧
    (∀ (p : ProgramId) (prog : Program) (first : Machine.Step) (rest : List Machine.Step) (enabled : SetByte),
      s.inputs.overrideProgram = some p → s.program p = some prog → prog.steps = first :: rest →
      (∀ z, hasZone enabled z = (s.zone z).enabled) →
      (∀ c, first.clip? = some c → s.clipReady c = false →
        startOverride s = { s with inputs.overrideResult := .noProgram }) ∧
      ((∀ c, first.clip? = some c → s.clipReady c = true) →
        (let o : StartOrder :=
           { program := p, zones := enabled, priority := 15, wait := 0, partialOpt := false, suspendable := false }
         ∃ a, Allocated 6 .override o first s a ∧
          (enabled = 0 →
            startOverride s =
              { a.setVoice 6
                  { Voice.reset with fetch := flushed (a.voice 6).fetch, endRecord := (s.voice 6).endRecord } with
                inputs.overrideResult := .noZone }) ∧
          (enabled ≠ 0 → (∀ z w q, (s.zone z).holder = some (w, q) → q < 15) →
            startOverride s = { grantClaim offers 6 o enabled a with inputs.overrideResult := .started }) ∧
          (enabled ≠ 0 → (∀ z w q, (s.zone z).holder = some (w, q) → q < 15) → s.inputs.latch = true → DisabledFree s →
            ∃ u, startOverride s = { u with inputs.overrideResult := .started } ∧ EngineStep s u ∧
              u.voice 6 = { a.voice 6 with
                state := .active, wanted := 0, discardTimer := 0, waitTimer := 0
                walkZone := (u.voice 6).walkZone, walked := (u.voice 6).walked, fetch := (u.voice 6).fetch } ∧
              WalkZoneChosen 6 a u ∧
              (∀ z, u.zone z = if (s.zone z).enabled = true then { s.zone z with holder := some (6, 15) } else s.zone z) ∧
              (∀ w q, w ≠ 6 → (s.voice w).state = .active → (s.voice w).order = some q → (∃ z, s.holds w z = true) →
                (q.suspendable = true →
                  u.voice w = { s.voice w with
                    state := .suspended, wanted := (u.voice w).wanted, fetch := (u.voice w).fetch } ∧
                  ∀ z, hasZone (u.voice w).wanted z = (hasZone (s.voice w).wanted z || s.holds w z)) ∧
                (q.suspendable = false →
                  (u.voice w).state = .idle ∧ u.flagSet (.voiceEnd w) = true ∧
                  ∃ r, (u.voice w).endRecord = some r ∧ r.cause = .preempted ∧ r.start = (s.voice w).start)) ∧
              (∀ w, w ≠ 6 → (∀ z, s.holds w z = false) →
                u.voice w = { s.voice w with fetch := (u.voice w).fetch }))))))

/-- What a trigger input's edge does: an action on the other edge, and NONE, do nothing with result OK; START, and the close edge of
FOLLOW, start the start order with origin INPUT, whose outcomes are VoiceStartTakesFreeZones and RefusedVoiceRequestsChangeNothing
(R71); FOLLOW stops at its open edge the voice it started, or answers STALE; STOP, RELEASE and MARK act as
their rules give, with result OK or the clock's (R149 to R154; that FOLLOW finds its voice by the start number alone, reissued or not,
is log entry 24). A minute mark is ignored by an UNSET clock, runs a HELD one, and sets a RUNNING one back to second 0 below second 30;
from second 30 on it enters one second after another, as tenth events do, with its cues and at midnight with its rollover, up to second
0 of the next minute, with which the hour and the weekday advance where it is the first of theirs (R123, R124, R129, R134 to R136). -/
def Obligations.EdgesCarryOutTheirAction : Prop :=
  ∀ s : State,
    (∀ (i : TriggerId) (e : Edge),
      (∀ a, (s.trigger i).action = a → actionAt a e = .none →
        (carryOut i e s).state = s ∧ (carryOut i e s).result = .ok ∧ (carryOut i e s).start = 0) ∧
      (∀ o, (s.trigger i).action = .start e o ∨ ((s.trigger i).action = .follow o ∧ e = .close) →
        (let r := startVoice (.input i) (some o) s
         (carryOut i e s).state = r.1.setTrigger i { r.1.trigger i with lastStart := r.2.start } ∧
         (carryOut i e s).result = r.2.status ∧ (carryOut i e s).start = r.2.start)) ∧
      (∀ o, (s.trigger i).action = .follow o → e = .opening →
        (carryOut i e s).start = (s.trigger i).lastStart ∧
        ((s.trigger i).lastStart = 0 ∨ liveVoice s (s.trigger i).lastStart = none →
          (carryOut i e s).state = s.setTrigger i { s.trigger i with lastStart := 0 } ∧ (carryOut i e s).result = .stale) ∧
        (∀ v, (s.trigger i).lastStart ≠ 0 → liveVoice s (s.trigger i).lastStart = some v →
          (carryOut i e s).result = .ok ∧
          (let u := endVoice offers v .stopped s
           (carryOut i e s).state = u.setTrigger i { u.trigger i with lastStart := 0 }))) ∧
      (∀ p, (s.trigger i).action = .stop e p → (carryOut i e s).result = .ok ∧ (carryOut i e s).start = 0 ∧
        (carryOut i e s).state =
          ([0, 1, 2, 3, 4, 5] : List VoiceId).foldl
            (fun u v => if stopReaches p s v = true then endVoice offers v .stopped u else u) s) ∧
      (∀ p, (s.trigger i).action = .release e p → (carryOut i e s).result = .ok ∧ (carryOut i e s).start = 0 ∧
        (carryOut i e s).state = { s with engine.voices := (carryOut i e s).state.engine.voices } ∧
        ∀ v, (carryOut i e s).state.voice v =
          if v ≠ 6 ∧ releaseReaches p s v = true then { s.voice v with releaseMark := true } else s.voice v) ∧
      ((s.trigger i).action = .mark e →
        (carryOut i e s).state = (minuteMark s).1 ∧ (carryOut i e s).result = (minuteMark s).2 ∧
        (carryOut i e s).start = 0)) ∧
    (s.schedule.clock.state = .unset → minuteMark s = (s, .wrongState)) ∧
    (s.schedule.clock.state = .held → minuteMark s = ({ s with schedule.clock.state := .running }, .ok)) ∧
    (s.schedule.clock.state = .running → s.schedule.clock.time.second < 30 →
      minuteMark s = ({ s with schedule.clock.time.second := 0, schedule.clock.time.tenth := 0 }, .ok)) ∧
    (let midnight (t : ClockTime) : Prop := t.hour = 23 ∧ t.minute = 59 ∧ t.second = 59
     let following (t : ClockTime) : ClockTime :=
       if t.second < 59 then { t with second := t.second + 1, tenth := 0 }
       else if t.minute < 59 then { t with minute := t.minute + 1, second := 0, tenth := 0 }
       else if t.hour < 23 then { t with hour := t.hour + 1, minute := 0, second := 0, tenth := 0 }
       else { weekday := if t.weekday < 6 then t.weekday + 1 else 0, hour := 0, minute := 0, second := 0, tenth := 0 }
     let second (u : State) : State :=
       let w := setTime (following u.schedule.clock.time) u
       enterSecond (if midnight u.schedule.clock.time then clearDoneMarks w else w)
     s.schedule.clock.state = .running → 30 ≤ s.schedule.clock.time.second → s.schedule.clock.time.second ≤ 59 →
       minuteMark s = (Nat.repeat second (60 - s.schedule.clock.time.second) s, .ok) ∧
       (minuteMark s).1.schedule.clock.state = .running ∧
       (∀ w h m sec tenth,
         s.schedule.clock.time = { weekday := w, hour := h, minute := m, second := sec, tenth := tenth } →
         w ≤ 6 → h ≤ 23 → m ≤ 59 →
         (minuteMark s).1.schedule.clock.time =
           if m < 59 then { weekday := w, hour := h, minute := m + 1, second := 0, tenth := 0 }
           else if h < 23 then { weekday := w, hour := h + 1, minute := 0, second := 0, tenth := 0 }
           else { weekday := (w + 1) % 7, hour := 0, minute := 0, second := 0, tenth := 0 }))

/-- A logged edge appends one entry at the tail of the FIFO at the end of its taking, and sets TRIGGER when the FIFO was empty; with 16
entries held the entry is dropped, the overflow flag is set, and TRIGGER_OVERFLOW with it; an edge that is not logged leaves no entry
(R149, R155). -/
def Obligations.LoggedEdgesJoinTheFifo : Prop :=
  (∀ (x : FifoEntry) (s : State),
    (s.inputs.fifo = [] → appendEntry x s = setFlag .trigger { s with inputs.fifo := [x] }) ∧
    (s.inputs.fifo ≠ [] → s.inputs.fifo.length < 16 → appendEntry x s = { s with inputs.fifo := s.inputs.fifo ++ [x] }) ∧
    (16 ≤ s.inputs.fifo.length → appendEntry x s = setFlag .triggerOverflow { s with inputs.overflow := true })) ∧
  (∀ (i : TriggerId) (e : Edge) (s : State),
    ((s.trigger i).log = false → takeEdge i e s = (carryOut i e s).state) ∧
    ((s.trigger i).log = true →
      takeEdge i e s = appendEntry
        { input := i, edge := e, action := actionAt (s.trigger i).action e, result := (carryOut i e s).result
          start := (carryOut i e s).start
          time := if (carryOut i e s).state.schedule.clock.state = .unset then none
            else some (carryOut i e s).state.schedule.clock.time }
        (carryOut i e s).state))

/-! ### Playing (chapters 4 and 5) -/

/-- A frame event on a RUNNING bus sends a frame of eight slots formed after the voices have taken their parts: 0 for a zone without a
holder, for one whose holder took no part, and for one at effective level 31; else the widened sample, scaled and rounded toward zero.
On a HALTED bus nothing comes about (R80, R116, R118, R120). A voice that is paused, or not ACTIVE, takes no part. In a GAP step a voice
yields 0 and its gap timer counts down; at 0 the step ends (R89). In a clip step it yields 0 in lead-in; else the sample at its
position, an 8 kHz sample twice, and the position moves on after its last yield; past the last sample of a page that page leaves the
buffer and the voice tests for a fetch, and past the last sample of the clip the pass ends; where the buffer does not hold the sample,
it yields its last output sample again and counts an underrun, the first of a run with its event flag (R80, R81). In every case the
hold timer then counts down one frame, and at 0 sets the hold-end mark unless the release mark is set (R84; that it counts before a
pass end of the same frame acts is log entry 10). The sample of a WALK step is for its walk zone alone (R86). The voices take their parts
in ascending number, V0 to V6, each on the state that the part before it has left, and what each yields is kept under its number (R80). -/
def Obligations.FrameEventSendsAFrame : Prop :=
  (∀ s : State, s.inReset = false →
    (s.arbiter.bus = .halted → exec .frameEvent s = .next s) ∧
    (s.arbiter.bus = .running →
      (let u := (takeParts allVoices s).1
       let yields := (takeParts allVoices s).2
       ∃ slots, exec .frameEvent s = .next (arbitrate { u with arbiter.output := some slots }) ∧ EngineStep s u ∧
        ∀ z : ZoneId,
          ((u.zone z).holder = none → slots[z] = 0) ∧
          (∀ v p, (u.zone z).holder = some (v, p) →
            (yieldOf yields v = none → slots[z] = 0) ∧
            (effectiveLevel u z = 31 → slots[z] = 0) ∧
            (∀ y, yieldOf yields v = some y → y.only = none ∨ y.only = some z →
              slots[z] = BitVec.ofInt 24 ((y.value * multiplier (effectiveLevel u z)).tdiv 65536)) ∧
            (∀ y w, yieldOf yields v = some y → y.only = some w → w ≠ z → slots[z] = 0))))) ∧
  (∀ (v : VoiceId) (s : State),
    ((s.voice v).state ≠ .active ∨ (s.voice v).paused = true → voicePart v s = (s, none)) ∧
    (∀ g, (s.voice v).state = .active → (s.voice v).paused = false → (s.voice v).step = some (.gap g) →
      (let t := s.setVoice v { s.voice v with lastSample := 0, gapTimer := (s.voice v).gapTimer - 1 }
       (1 < (s.voice v).gapTimer → voicePart v s = (t, some { value := 0, only := none })) ∧
       ((s.voice v).gapTimer ≤ 1 → voicePart v s = (stepEnd offers v t, some { value := 0, only := none })))) ∧
    (∀ (a : ClipAnswer) (p : Machine.Step) (c : ClipId) (only : Option ZoneId),
      (s.voice v).state = .active → (s.voice v).paused = false → (s.voice v).step = some p → p.clip? = some c →
      (s.voice v).answer = some a →
      only = (match p with
        | .walk _ => (s.voice v).walkZone
        | .play _ _ => none
        | .hold _ _ => none
        | .gap _ => none) →
      (let counted (t : State) : State := t.setVoice v (t.voice v).holdCounted
       ((s.voice v).leadIn = true →
         voicePart v s =
           (counted (s.setVoice v { s.voice v with lastSample := 0 }), some { value := 0, only := only })) ∧
       (∀ value, (s.voice v).leadIn = false → (s.voice v).sampleAtPosition = some value →
         (let y : Option Yield := some { value := widen a.format value, only := only }
          (a.rate = .khz8 → (s.voice v).secondPhase = false →
            voicePart v s =
              (counted (s.setVoice v { s.voice v with secondPhase := true, lastSample := value, underRun := 0 }), y)) ∧
          (a.rate = .khz16 ∨ (s.voice v).secondPhase = true →
            (let n := (s.voice v).position + 1
             let x : Voice := { s.voice v with position := n, secondPhase := false, lastSample := value, underRun := 0 }
             let consumed := fetchTest v (s.setVoice v { x with buffer := x.buffer.drop 1 })
             (n % (2048 / a.format.size) ≠ 0 → n < a.samples → voicePart v s = (counted (s.setVoice v x), y)) ∧
             (n % (2048 / a.format.size) = 0 → n < a.samples → voicePart v s = (counted consumed, y)) ∧
             (a.samples ≤ n → voicePart v s = (passEnd offers v (counted consumed), y)))))) ∧
       ((s.voice v).leadIn = false → (s.voice v).sampleAtPosition = none →
         (let t := s.setVoice v { s.voice v with
            underRun := (s.voice v).underRun + 1
            underTotal := if (s.voice v).underTotal < 4294967295 then (s.voice v).underTotal + 1 else (s.voice v).underTotal
            faults := { (s.voice v).faults with underrun := true } }
          let u := if (s.voice v).underRun = 0 then setFlag .underrun t else t
          let y : Option Yield := some { value := widen a.format (s.voice v).lastSample, only := only }
          (s.voice v).underRun + 1 < 1600 → voicePart v s = (counted u, y)))))) ∧
  allVoices = [0, 1, 2, 3, 4, 5, 6] ∧
  (∀ s : State, takeParts [] s = (s, []) ∧
    ∀ (v : VoiceId) (vs : List VoiceId) (u : State),
      (voicePart v s = (u, none) → takeParts (v :: vs) s = takeParts vs u) ∧
      (∀ y, voicePart v s = (u, some y) → takeParts (v :: vs) s = ((takeParts vs u).1, (v, y) :: (takeParts vs u).2))) ∧
  (∀ v : VoiceId, yieldOf [] v = none ∧
    ∀ (w : VoiceId) (y : Yield) (l : List (VoiceId × Yield)),
      yieldOf ((w, y) :: l) v = if w = v then some y else yieldOf l v)

/-- STARVED, GAP_TIMER_EXPIRY and HOLD_TIMER_EXPIRY are the frame event at which they come about, and the voice's part in it, taken when
the voices of lower number have taken theirs, leaves this: at the 1600th frame of an underrun the voice ends FAULT with STARVED set; at
the last frame of a gap timer the GAP step ends; at the last frame of a hold timer the hold-end mark is set unless the release mark is,
before anything that the end of a pass brings (R80, R81, R84, R89). That the rows stand for that frame event is the model's choice (log
entry 16), and the order within it log entry 10. A pass end raises the pass count and ends the voice STOPPED when stop-after-pass is
set; else the next pass of a PLAY step below its count, or of a HOLD step without a mark, begins, a WALK step moves to the lowest zone
held above its walk zone, and any other step ends (R82, R83, R87). A step end ends the voice STOPPED when stop-after-pass is set; else
the next step starts (R76). A step start reads the program asked for, a general voice that of its start order, V6 the override program
or, where that is 0 or EMPTY, the one it read last; a step index beyond its end starts step 0 of a program that cycles, and of any for
V6, and completes any other; a step whose clip is READY, or that has none, is latched, an ACTIVE voice in a WALK step chooses its walk
zone, and the first fetch is requested; with a clip that is not READY the voice ends FAULT with CLIP_MISSING set (R51, R59, R75, R76,
R86). That the latching of a GAP step clears lead-in is log entry 25. -/
def Obligations.FrameTimedRows : Prop :=
  (∀ (v : VoiceId) (s : State), s.inReset = false → s.arbiter.bus = .running →
    (let u := atTurn v s
     let x := u.voice v
     ((∀ w, w < v → takesPart w s = false) → u = s) ∧
     (x.state = .active → x.paused = false →
       (∀ a, x.answer = some a → (∀ g, x.step ≠ some (.gap g)) → x.leadIn = false → x.sampleAtPosition = none →
         1599 ≤ x.underRun →
         exec (.starved v) s = .next (frame s) ∧
         (let w := u.setVoice v ({ x with
            underRun := x.underRun + 1
            underTotal := if x.underTotal < 4294967295 then x.underTotal + 1 else x.underTotal
            faults := { x.faults with underrun := true, starved := true } } : Voice).holdCounted
          PartLeaves v s (endVoice offers v .fault w))) ∧
       (∀ g, x.step = some (.gap g) → x.gapTimer ≤ 1 →
         exec (.gapTimerExpiry v) s = .next (frame s) ∧
         PartLeaves v s (stepEnd offers v (u.setVoice v { x with lastSample := 0, gapTimer := x.gapTimer - 1 }))) ∧
       (∀ c limit, x.step = some (.hold c limit) → x.holdTimer = some 1 →
         exec (.holdTimerExpiry v) s = .next (frame s) ∧
         (∀ a, x.answer = some a →
           (let r := clipFrame v a u
            let w := r.1.setVoice v { r.1.voice v with holdTimer := some 0, holdEndMark := x.holdEndMark || !x.releaseMark }
            (r.2 = .nothing → PartLeaves v s w) ∧
            (r.2 = .passEnd → PartLeaves v s (passEnd offers v w)) ∧
            (r.2 = .starve → PartLeaves v s (starveVoice offers v w)) ∧
            (x.leadIn = true → PartLeaves v s (u.setVoice v { x with
              lastSample := 0, holdTimer := some 0, holdEndMark := x.holdEndMark || !x.releaseMark })))))))) ∧
  (∀ (o : Offers) (v : VoiceId) (s : State),
    (let x := { s.voice v with
       passCount := if (s.voice v).passCount < 65535 then (s.voice v).passCount + 1 else (s.voice v).passCount }
     let t := s.setVoice v x
     let next := fetchTest v (s.setVoice v { x with
       position := 0, secondPhase := false, fetchPass := x.fetchPass - 1
       buffer := x.buffer.map fun p => { p with pass := p.pass - 1 }
       fetch := x.fetch.map fun f => { f with pass := f.pass - 1 } })
     (x.stopAfterPass = true → passEnd o v s = endVoice o v .stopped t) ∧
     (x.stopAfterPass = false →
       (∀ c n, x.step = some (.play c n) →
         (x.passCount < n → passEnd o v s = next) ∧ (n ≤ x.passCount → passEnd o v s = stepEnd o v t)) ∧
       (∀ c limit, x.step = some (.hold c limit) →
         (x.releaseMark = true ∨ x.holdEndMark = true → passEnd o v s = stepEnd o v t) ∧
         (x.releaseMark = false → x.holdEndMark = false → passEnd o v s = next)) ∧
       (∀ c z, x.step = some (.walk c) → x.walkZone = some z →
         (∀ y, z < y → s.holds v y = true → (∀ w, z < w → w < y → s.holds v w = false) →
           passEnd o v s = fetchTest v (s.setVoice v { x with
             walkZone := some y, walked := x.walked ||| oneZone y, position := 0, secondPhase := false, fetchPage := 0
             fetchPass := 0, leadIn := true })) ∧
         ((∀ y, z < y → s.holds v y = false) → passEnd o v s = stepEnd o v t)))) ∧
    ((s.voice v).stopAfterPass = true → stepEnd o v s = endVoice o v .stopped s) ∧
    ((s.voice v).stopAfterPass = false →
      stepEnd o v s = stepStart o v (s.setVoice v { s.voice v with stepIndex := (s.voice v).stepIndex + 1 })) ∧
    (∀ (p : ProgramId) (prog : Program) (first : Machine.Step) (rest : List Machine.Step),
      s.program p = some prog → prog.steps = first :: rest →
      (v ≠ 6 → ∃ q, (s.voice v).order = some q ∧ q.program = p) →
      (v = 6 → s.inputs.overrideProgram = some p ∨
        ((s.inputs.overrideProgram = none ∨ ∃ q, s.inputs.overrideProgram = some q ∧ s.program q = none) ∧
          (s.voice 6).stepProgram = some p)) →
      (let n := (s.voice v).stepIndex
       let t := s.setVoice v { s.voice v with stepProgram := some p }
       (∀ q, prog.steps[n]? = some q → stepStart o v s = latchStep o v n q t) ∧
       (prog.steps.length ≤ n → prog.cycle = true ∨ v = 6 → stepStart o v s = latchStep o v 0 first t) ∧
       (prog.steps.length ≤ n → prog.cycle = false → v ≠ 6 → stepStart o v s = endVoice o v .completed t))) ∧
    (∀ (n : Nat) (p : Machine.Step),
      (p.clip? = none → latchStep o v n p s = s.setVoice v ((s.voice v).latching n p none)) ∧
      (∀ c x, p.clip? = some c → s.clip c = some x → x.state = .ready →
        (let y := (s.voice v).latching n p (some
           { format := x.format, rate := x.rate
             samples := match x.samples with
               | some k => k
               | none => 0
             blocks := x.places.filterMap id })
         (∀ z, p = .walk c → (s.voice v).state = .active → s.holds v z = true → (∀ w, w < z → s.holds v w = false) →
           latchStep o v n p s = fetchTest v (s.setVoice v { y with walkZone := some z, walked := oneZone z })) ∧
         (p ≠ .walk c ∨ (s.voice v).state ≠ .active ∨ (∀ z, s.holds v z = false) →
           latchStep o v n p s = fetchTest v (s.setVoice v y)))) ∧
      (∀ c, p.clip? = some c → (∀ x, s.clip c = some x → x.state ≠ .ready) →
        latchStep o v n p s = endVoice o v .fault (s.setVoice v { s.voice v with
          stepIndex := n, faults := { (s.voice v).faults with clipMissing := true } }))))

/-! ### Encodings -/

/-- A page tag written and read back is the same tag, for every tag whose fields lie in the ranges of R2 (R2, R170, R200); a start order
and a step likewise, at every value their fields admit (R54, R196). Every status has its value, every event flag its position, and
every value of an enumerated field its number (R194, R195, R196, R198, R199, R201). -/
def Obligations.EncodingsReadBack : Prop :=
  (∀ t : Tag, t.inRange = true → readTag t.bytes = some t) ∧
  (∀ o : StartOrder, o.zones ≠ 0 → o.priority ≤ 14 → o.wait ≤ 255 → readOrder (orderAt o.bytes 0) = some o) ∧
  (∀ p : Machine.Step,
    (match p with
      | .play _ n => 1 ≤ n ∧ n ≤ 15
      | .hold _ limit => limit ≤ 3600
      | .gap tenths => 1 ≤ tenths ∧ tenths ≤ 600
      | .walk _ => True) → readStep (stepAt p.bytes 0) = some p) ∧
  ([.ok, .unknownKind, .badLength, .badField, .starting, .busy, .notFound, .already, .inUse, .protected_, .locked, .noVoice,
    .noZone, .noSpace, .full, .offset, .notReady, .failed, .tooLate, .stale, .notHolding, .lineActive, .wrongState].map
      Status.code = (List.range 23).map byteOf) ∧
  (∀ v : VoiceId, (EventFlag.voiceEnd v).position = v.val) ∧
  ([.cueFired, .cueMissed, .trigger, .triggerOverflow, .underrun, .clipReady, .clipFailed, .eraseDone, .formatDone,
    .storeFault, .overrideOn, .overrideOff, .startDone].map EventFlag.position = (List.range 13).map (· + 7)) ∧
  ([.s16, .s24, .l8].map Format.code = [1, 2, 3]) ∧ ([.khz8, .khz16].map Rate.code = [1, 2]) ∧
  ([.close, .opening].map Edge.code = [1, 2]) ∧ ([.once, .weekly].map Repeat.code = [1, 2]) ∧
  ([.armed, .disabled, .spent].map CueState.code = [1, 2, 3]) ∧
  ([.idle, .prepared, .waiting, .active, .suspended].map VoiceState.code = [0, 1, 2, 3, 4]) ∧
  ([.starting, .service, .formatting].map StoreState.code = [0, 1, 2]) ∧
  ([.completed, .stopped, .preempted, .waitExpired, .discarded, .fault, .forced].map EndCause.code = [1, 2, 3, 4, 5, 6, 7]) ∧
  ([.none, .underrun, .readError, .clipMissing, .starved].map FaultCode.code = [0, 1, 2, 3, 4]) ∧
  ([.opened, .failed, .closing, .ready, .erasing].map ClipState.code = [1, 2, 3, 4, 5]) ∧
  ([.unset, .held, .running].map ClockState.code = [0, 1, 2]) ∧ ([.halted, .running].map BusState.code = [0, 1]) ∧
  ([.opened, .closed].map levelCode = [0, 1]) ∧
  ([.none, .pending, .started, .noProgram, .noZone].map OverrideResult.code = [0, 1, 2, 3, 4])

/-! ### Invariants -/

/-- Every step keeps ATTN asserted exactly while a flag is set whose mask setting is on, and deasserted in reset (R185). -/
def Obligations.StepsKeepAttn : Prop :=
  ∀ s t : State, AttnFollows s → step s = .next t → AttnFollows t

/-- Every step keeps the canonical form of the flash. -/
def Obligations.StepsKeepTheFlashCanonical : Prop :=
  ∀ s t : State, FlashCanonical s → step s = .next t → FlashCanonical t

/-- Every step keeps the FIFO at 16 entries at most, the link counts at 65 535 at most, the levels at 31 at most, the clock in range, the
start number counter in range, and every disabled zone without a holder (R155, R183, R99, R158, R122, R67). -/
def Obligations.StepsKeepTheBounds : Prop :=
  ∀ s t : State,
    (FifoBounded s ∧ LinkCountsBounded s ∧ LevelsBounded s ∧ ClockBounded s ∧ CounterBounded s ∧ DisabledFree s) →
    step s = .next t →
    FifoBounded t ∧ LinkCountsBounded t ∧ LevelsBounded t ∧ ClockBounded t ∧ CounterBounded t ∧ DisabledFree t

/-- The invariants hold right after reset. -/
def Obligations.InvariantsHoldAtReset : Prop :=
  AttnFollows State.reset ∧ FlashCanonical State.reset ∧ FifoBounded State.reset ∧ LinkCountsBounded State.reset ∧
  LevelsBounded State.reset ∧ ClockBounded State.reset ∧ CounterBounded State.reset ∧ DisabledFree State.reset

end SliceStatements
end

