-- ==== Sys2Proof/Laws/State.lean ====
section
/-! SUPPORT. One lemma for each field of State and each update of it: what an update leaves as it was, and what the fields it writes
read as. Tables and vectors are read after a write. -/

namespace Sys2Proof.Machine

/-! ### setFlag -/

@[simp] theorem setFlag_store (f : EventFlag) (s : State) : (setFlag f s).store = s.store := rfl
@[simp] theorem setFlag_flash (f : EventFlag) (s : State) : (setFlag f s).flash = s.flash := rfl
@[simp] theorem setFlag_clips (f : EventFlag) (s : State) : (setFlag f s).clips = s.clips := rfl
@[simp] theorem setFlag_programs (f : EventFlag) (s : State) : (setFlag f s).programs = s.programs := rfl
@[simp] theorem setFlag_engine (f : EventFlag) (s : State) : (setFlag f s).engine = s.engine := rfl
@[simp] theorem setFlag_arbiter (f : EventFlag) (s : State) : (setFlag f s).arbiter = s.arbiter := rfl
@[simp] theorem setFlag_schedule (f : EventFlag) (s : State) : (setFlag f s).schedule = s.schedule := rfl
@[simp] theorem setFlag_inputs (f : EventFlag) (s : State) : (setFlag f s).inputs = s.inputs := rfl
@[simp] theorem setFlag_inReset (f : EventFlag) (s : State) : (setFlag f s).inReset = s.inReset := rfl
@[simp] theorem setFlag_freeCount (f : EventFlag) (s : State) : (setFlag f s).freeCount = s.freeCount := rfl
@[simp] theorem setFlag_pending (f : EventFlag) (s : State) : (setFlag f s).pending = s.pending := rfl

/-! ### clearFlags -/

@[simp] theorem clearFlags_store (s : State) : (clearFlags s).store = s.store := rfl
@[simp] theorem clearFlags_flash (s : State) : (clearFlags s).flash = s.flash := rfl
@[simp] theorem clearFlags_clips (s : State) : (clearFlags s).clips = s.clips := rfl
@[simp] theorem clearFlags_programs (s : State) : (clearFlags s).programs = s.programs := rfl
@[simp] theorem clearFlags_engine (s : State) : (clearFlags s).engine = s.engine := rfl
@[simp] theorem clearFlags_arbiter (s : State) : (clearFlags s).arbiter = s.arbiter := rfl
@[simp] theorem clearFlags_schedule (s : State) : (clearFlags s).schedule = s.schedule := rfl
@[simp] theorem clearFlags_inputs (s : State) : (clearFlags s).inputs = s.inputs := rfl
@[simp] theorem clearFlags_inReset (s : State) : (clearFlags s).inReset = s.inReset := rfl
@[simp] theorem clearFlags_freeCount (s : State) : (clearFlags s).freeCount = s.freeCount := rfl
@[simp] theorem clearFlags_pending (s : State) : (clearFlags s).pending = s.pending := rfl

/-! ### setMask -/

@[simp] theorem setMask_store (m : BitVec 20) (s : State) : (setMask m s).store = s.store := rfl
@[simp] theorem setMask_flash (m : BitVec 20) (s : State) : (setMask m s).flash = s.flash := rfl
@[simp] theorem setMask_clips (m : BitVec 20) (s : State) : (setMask m s).clips = s.clips := rfl
@[simp] theorem setMask_programs (m : BitVec 20) (s : State) : (setMask m s).programs = s.programs := rfl
@[simp] theorem setMask_engine (m : BitVec 20) (s : State) : (setMask m s).engine = s.engine := rfl
@[simp] theorem setMask_arbiter (m : BitVec 20) (s : State) : (setMask m s).arbiter = s.arbiter := rfl
@[simp] theorem setMask_schedule (m : BitVec 20) (s : State) : (setMask m s).schedule = s.schedule := rfl
@[simp] theorem setMask_inputs (m : BitVec 20) (s : State) : (setMask m s).inputs = s.inputs := rfl
@[simp] theorem setMask_inReset (m : BitVec 20) (s : State) : (setMask m s).inReset = s.inReset := rfl
@[simp] theorem setMask_freeCount (m : BitVec 20) (s : State) : (setMask m s).freeCount = s.freeCount := rfl
@[simp] theorem setMask_pending (m : BitVec 20) (s : State) : (setMask m s).pending = s.pending := rfl

/-! ### hunt -/

@[simp] theorem hunt_store (s : State) : (hunt s).store = s.store := rfl
@[simp] theorem hunt_flash (s : State) : (hunt s).flash = s.flash := rfl
@[simp] theorem hunt_clips (s : State) : (hunt s).clips = s.clips := rfl
@[simp] theorem hunt_programs (s : State) : (hunt s).programs = s.programs := rfl
@[simp] theorem hunt_engine (s : State) : (hunt s).engine = s.engine := rfl
@[simp] theorem hunt_arbiter (s : State) : (hunt s).arbiter = s.arbiter := rfl
@[simp] theorem hunt_schedule (s : State) : (hunt s).schedule = s.schedule := rfl
@[simp] theorem hunt_inputs (s : State) : (hunt s).inputs = s.inputs := rfl
@[simp] theorem hunt_inReset (s : State) : (hunt s).inReset = s.inReset := rfl
@[simp] theorem hunt_freeCount (s : State) : (hunt s).freeCount = s.freeCount := rfl
@[simp] theorem hunt_pending (s : State) : (hunt s).pending = s.pending := rfl

/-! ### setBlock -/

@[simp] theorem setBlock_link (s : State) (b : BlockNo) (x : Block) : (s.setBlock b x).link = s.link := rfl
@[simp] theorem setBlock_flash (s : State) (b : BlockNo) (x : Block) : (s.setBlock b x).flash = s.flash := rfl
@[simp] theorem setBlock_clips (s : State) (b : BlockNo) (x : Block) : (s.setBlock b x).clips = s.clips := rfl
@[simp] theorem setBlock_programs (s : State) (b : BlockNo) (x : Block) : (s.setBlock b x).programs = s.programs := rfl
@[simp] theorem setBlock_engine (s : State) (b : BlockNo) (x : Block) : (s.setBlock b x).engine = s.engine := rfl
@[simp] theorem setBlock_arbiter (s : State) (b : BlockNo) (x : Block) : (s.setBlock b x).arbiter = s.arbiter := rfl
@[simp] theorem setBlock_schedule (s : State) (b : BlockNo) (x : Block) : (s.setBlock b x).schedule = s.schedule := rfl
@[simp] theorem setBlock_inputs (s : State) (b : BlockNo) (x : Block) : (s.setBlock b x).inputs = s.inputs := rfl
@[simp] theorem setBlock_inReset (s : State) (b : BlockNo) (x : Block) : (s.setBlock b x).inReset = s.inReset := rfl
@[simp] theorem setBlock_freeCount (s : State) (b : BlockNo) (x : Block) : (s.setBlock b x).freeCount = s.freeCount := rfl
@[simp] theorem setBlock_pending (s : State) (b : BlockNo) (x : Block) : (s.setBlock b x).pending = s.pending := rfl

/-! ### setPort -/

@[simp] theorem setPort_link (s : State) (p : Port) : (s.setPort p).link = s.link := rfl
@[simp] theorem setPort_flash (s : State) (p : Port) : (s.setPort p).flash = s.flash := rfl
@[simp] theorem setPort_clips (s : State) (p : Port) : (s.setPort p).clips = s.clips := rfl
@[simp] theorem setPort_programs (s : State) (p : Port) : (s.setPort p).programs = s.programs := rfl
@[simp] theorem setPort_engine (s : State) (p : Port) : (s.setPort p).engine = s.engine := rfl
@[simp] theorem setPort_arbiter (s : State) (p : Port) : (s.setPort p).arbiter = s.arbiter := rfl
@[simp] theorem setPort_schedule (s : State) (p : Port) : (s.setPort p).schedule = s.schedule := rfl
@[simp] theorem setPort_inputs (s : State) (p : Port) : (s.setPort p).inputs = s.inputs := rfl
@[simp] theorem setPort_inReset (s : State) (p : Port) : (s.setPort p).inReset = s.inReset := rfl
@[simp] theorem setPort_freeCount (s : State) (p : Port) : (s.setPort p).freeCount = s.freeCount := rfl
@[simp] theorem setPort_pending (s : State) (p : Port) : (s.setPort p).pending = s.pending := rfl

/-! ### setClip -/

@[simp] theorem setClip_link (s : State) (c : ClipId) (x : Option Clip) : (s.setClip c x).link = s.link := rfl
@[simp] theorem setClip_store (s : State) (c : ClipId) (x : Option Clip) : (s.setClip c x).store = s.store := rfl
@[simp] theorem setClip_flash (s : State) (c : ClipId) (x : Option Clip) : (s.setClip c x).flash = s.flash := rfl
@[simp] theorem setClip_programs (s : State) (c : ClipId) (x : Option Clip) : (s.setClip c x).programs = s.programs := rfl
@[simp] theorem setClip_engine (s : State) (c : ClipId) (x : Option Clip) : (s.setClip c x).engine = s.engine := rfl
@[simp] theorem setClip_arbiter (s : State) (c : ClipId) (x : Option Clip) : (s.setClip c x).arbiter = s.arbiter := rfl
@[simp] theorem setClip_schedule (s : State) (c : ClipId) (x : Option Clip) : (s.setClip c x).schedule = s.schedule := rfl
@[simp] theorem setClip_inputs (s : State) (c : ClipId) (x : Option Clip) : (s.setClip c x).inputs = s.inputs := rfl
@[simp] theorem setClip_inReset (s : State) (c : ClipId) (x : Option Clip) : (s.setClip c x).inReset = s.inReset := rfl
@[simp] theorem setClip_freeCount (s : State) (c : ClipId) (x : Option Clip) : (s.setClip c x).freeCount = s.freeCount := rfl
@[simp] theorem setClip_pending (s : State) (c : ClipId) (x : Option Clip) : (s.setClip c x).pending = s.pending := rfl

/-! ### setProgram -/

@[simp] theorem setProgram_link (s : State) (p : ProgramId) (x : Option Program) : (s.setProgram p x).link = s.link := rfl
@[simp] theorem setProgram_store (s : State) (p : ProgramId) (x : Option Program) : (s.setProgram p x).store = s.store := rfl
@[simp] theorem setProgram_flash (s : State) (p : ProgramId) (x : Option Program) : (s.setProgram p x).flash = s.flash := rfl
@[simp] theorem setProgram_clips (s : State) (p : ProgramId) (x : Option Program) : (s.setProgram p x).clips = s.clips := rfl
@[simp] theorem setProgram_engine (s : State) (p : ProgramId) (x : Option Program) : (s.setProgram p x).engine = s.engine := rfl
@[simp] theorem setProgram_arbiter (s : State) (p : ProgramId) (x : Option Program) : (s.setProgram p x).arbiter = s.arbiter := rfl
@[simp] theorem setProgram_schedule (s : State) (p : ProgramId) (x : Option Program) : (s.setProgram p x).schedule = s.schedule := rfl
@[simp] theorem setProgram_inputs (s : State) (p : ProgramId) (x : Option Program) : (s.setProgram p x).inputs = s.inputs := rfl
@[simp] theorem setProgram_inReset (s : State) (p : ProgramId) (x : Option Program) : (s.setProgram p x).inReset = s.inReset := rfl
@[simp] theorem setProgram_freeCount (s : State) (p : ProgramId) (x : Option Program) : (s.setProgram p x).freeCount = s.freeCount := rfl
@[simp] theorem setProgram_pending (s : State) (p : ProgramId) (x : Option Program) : (s.setProgram p x).pending = s.pending := rfl

/-! ### setVoice -/

@[simp] theorem setVoice_link (s : State) (v : VoiceId) (x : Voice) : (s.setVoice v x).link = s.link := rfl
@[simp] theorem setVoice_store (s : State) (v : VoiceId) (x : Voice) : (s.setVoice v x).store = s.store := rfl
@[simp] theorem setVoice_flash (s : State) (v : VoiceId) (x : Voice) : (s.setVoice v x).flash = s.flash := rfl
@[simp] theorem setVoice_clips (s : State) (v : VoiceId) (x : Voice) : (s.setVoice v x).clips = s.clips := rfl
@[simp] theorem setVoice_programs (s : State) (v : VoiceId) (x : Voice) : (s.setVoice v x).programs = s.programs := rfl
@[simp] theorem setVoice_arbiter (s : State) (v : VoiceId) (x : Voice) : (s.setVoice v x).arbiter = s.arbiter := rfl
@[simp] theorem setVoice_schedule (s : State) (v : VoiceId) (x : Voice) : (s.setVoice v x).schedule = s.schedule := rfl
@[simp] theorem setVoice_inputs (s : State) (v : VoiceId) (x : Voice) : (s.setVoice v x).inputs = s.inputs := rfl
@[simp] theorem setVoice_inReset (s : State) (v : VoiceId) (x : Voice) : (s.setVoice v x).inReset = s.inReset := rfl
@[simp] theorem setVoice_freeCount (s : State) (v : VoiceId) (x : Voice) : (s.setVoice v x).freeCount = s.freeCount := rfl
@[simp] theorem setVoice_pending (s : State) (v : VoiceId) (x : Voice) : (s.setVoice v x).pending = s.pending := rfl

/-! ### setZone -/

@[simp] theorem setZone_link (s : State) (z : ZoneId) (x : Zone) : (s.setZone z x).link = s.link := rfl
@[simp] theorem setZone_store (s : State) (z : ZoneId) (x : Zone) : (s.setZone z x).store = s.store := rfl
@[simp] theorem setZone_flash (s : State) (z : ZoneId) (x : Zone) : (s.setZone z x).flash = s.flash := rfl
@[simp] theorem setZone_clips (s : State) (z : ZoneId) (x : Zone) : (s.setZone z x).clips = s.clips := rfl
@[simp] theorem setZone_programs (s : State) (z : ZoneId) (x : Zone) : (s.setZone z x).programs = s.programs := rfl
@[simp] theorem setZone_engine (s : State) (z : ZoneId) (x : Zone) : (s.setZone z x).engine = s.engine := rfl
@[simp] theorem setZone_schedule (s : State) (z : ZoneId) (x : Zone) : (s.setZone z x).schedule = s.schedule := rfl
@[simp] theorem setZone_inputs (s : State) (z : ZoneId) (x : Zone) : (s.setZone z x).inputs = s.inputs := rfl
@[simp] theorem setZone_inReset (s : State) (z : ZoneId) (x : Zone) : (s.setZone z x).inReset = s.inReset := rfl
@[simp] theorem setZone_freeCount (s : State) (z : ZoneId) (x : Zone) : (s.setZone z x).freeCount = s.freeCount := rfl
@[simp] theorem setZone_pending (s : State) (z : ZoneId) (x : Zone) : (s.setZone z x).pending = s.pending := rfl

/-! ### setCue -/

@[simp] theorem setCue_link (s : State) (c : CueId) (x : Cue) : (s.setCue c x).link = s.link := rfl
@[simp] theorem setCue_store (s : State) (c : CueId) (x : Cue) : (s.setCue c x).store = s.store := rfl
@[simp] theorem setCue_flash (s : State) (c : CueId) (x : Cue) : (s.setCue c x).flash = s.flash := rfl
@[simp] theorem setCue_clips (s : State) (c : CueId) (x : Cue) : (s.setCue c x).clips = s.clips := rfl
@[simp] theorem setCue_programs (s : State) (c : CueId) (x : Cue) : (s.setCue c x).programs = s.programs := rfl
@[simp] theorem setCue_engine (s : State) (c : CueId) (x : Cue) : (s.setCue c x).engine = s.engine := rfl
@[simp] theorem setCue_arbiter (s : State) (c : CueId) (x : Cue) : (s.setCue c x).arbiter = s.arbiter := rfl
@[simp] theorem setCue_inputs (s : State) (c : CueId) (x : Cue) : (s.setCue c x).inputs = s.inputs := rfl
@[simp] theorem setCue_inReset (s : State) (c : CueId) (x : Cue) : (s.setCue c x).inReset = s.inReset := rfl
@[simp] theorem setCue_freeCount (s : State) (c : CueId) (x : Cue) : (s.setCue c x).freeCount = s.freeCount := rfl
@[simp] theorem setCue_pending (s : State) (c : CueId) (x : Cue) : (s.setCue c x).pending = s.pending := rfl

/-! ### setInput -/

@[simp] theorem setInput_link (s : State) (i : InputId) (x : Input) : (s.setInput i x).link = s.link := rfl
@[simp] theorem setInput_store (s : State) (i : InputId) (x : Input) : (s.setInput i x).store = s.store := rfl
@[simp] theorem setInput_flash (s : State) (i : InputId) (x : Input) : (s.setInput i x).flash = s.flash := rfl
@[simp] theorem setInput_clips (s : State) (i : InputId) (x : Input) : (s.setInput i x).clips = s.clips := rfl
@[simp] theorem setInput_programs (s : State) (i : InputId) (x : Input) : (s.setInput i x).programs = s.programs := rfl
@[simp] theorem setInput_engine (s : State) (i : InputId) (x : Input) : (s.setInput i x).engine = s.engine := rfl
@[simp] theorem setInput_arbiter (s : State) (i : InputId) (x : Input) : (s.setInput i x).arbiter = s.arbiter := rfl
@[simp] theorem setInput_schedule (s : State) (i : InputId) (x : Input) : (s.setInput i x).schedule = s.schedule := rfl
@[simp] theorem setInput_inReset (s : State) (i : InputId) (x : Input) : (s.setInput i x).inReset = s.inReset := rfl
@[simp] theorem setInput_freeCount (s : State) (i : InputId) (x : Input) : (s.setInput i x).freeCount = s.freeCount := rfl
@[simp] theorem setInput_pending (s : State) (i : InputId) (x : Input) : (s.setInput i x).pending = s.pending := rfl

/-! ### setTrigger -/

@[simp] theorem setTrigger_link (s : State) (i : TriggerId) (x : TriggerEntry) : (s.setTrigger i x).link = s.link := rfl
@[simp] theorem setTrigger_store (s : State) (i : TriggerId) (x : TriggerEntry) : (s.setTrigger i x).store = s.store := rfl
@[simp] theorem setTrigger_flash (s : State) (i : TriggerId) (x : TriggerEntry) : (s.setTrigger i x).flash = s.flash := rfl
@[simp] theorem setTrigger_clips (s : State) (i : TriggerId) (x : TriggerEntry) : (s.setTrigger i x).clips = s.clips := rfl
@[simp] theorem setTrigger_programs (s : State) (i : TriggerId) (x : TriggerEntry) : (s.setTrigger i x).programs = s.programs := rfl
@[simp] theorem setTrigger_engine (s : State) (i : TriggerId) (x : TriggerEntry) : (s.setTrigger i x).engine = s.engine := rfl
@[simp] theorem setTrigger_arbiter (s : State) (i : TriggerId) (x : TriggerEntry) : (s.setTrigger i x).arbiter = s.arbiter := rfl
@[simp] theorem setTrigger_schedule (s : State) (i : TriggerId) (x : TriggerEntry) : (s.setTrigger i x).schedule = s.schedule := rfl
@[simp] theorem setTrigger_inReset (s : State) (i : TriggerId) (x : TriggerEntry) : (s.setTrigger i x).inReset = s.inReset := rfl
@[simp] theorem setTrigger_freeCount (s : State) (i : TriggerId) (x : TriggerEntry) : (s.setTrigger i x).freeCount = s.freeCount := rfl
@[simp] theorem setTrigger_pending (s : State) (i : TriggerId) (x : TriggerEntry) : (s.setTrigger i x).pending = s.pending := rfl

/-! ### setClock -/

@[simp] theorem setClock_link (c : Clock) (s : State) : (setClock c s).link = s.link := rfl
@[simp] theorem setClock_store (c : Clock) (s : State) : (setClock c s).store = s.store := rfl
@[simp] theorem setClock_flash (c : Clock) (s : State) : (setClock c s).flash = s.flash := rfl
@[simp] theorem setClock_clips (c : Clock) (s : State) : (setClock c s).clips = s.clips := rfl
@[simp] theorem setClock_programs (c : Clock) (s : State) : (setClock c s).programs = s.programs := rfl
@[simp] theorem setClock_engine (c : Clock) (s : State) : (setClock c s).engine = s.engine := rfl
@[simp] theorem setClock_arbiter (c : Clock) (s : State) : (setClock c s).arbiter = s.arbiter := rfl
@[simp] theorem setClock_inputs (c : Clock) (s : State) : (setClock c s).inputs = s.inputs := rfl
@[simp] theorem setClock_inReset (c : Clock) (s : State) : (setClock c s).inReset = s.inReset := rfl
@[simp] theorem setClock_freeCount (c : Clock) (s : State) : (setClock c s).freeCount = s.freeCount := rfl
@[simp] theorem setClock_pending (c : Clock) (s : State) : (setClock c s).pending = s.pending := rfl

/-! ### setTime -/

@[simp] theorem setTime_link (t : ClockTime) (s : State) : (setTime t s).link = s.link := rfl
@[simp] theorem setTime_store (t : ClockTime) (s : State) : (setTime t s).store = s.store := rfl
@[simp] theorem setTime_flash (t : ClockTime) (s : State) : (setTime t s).flash = s.flash := rfl
@[simp] theorem setTime_clips (t : ClockTime) (s : State) : (setTime t s).clips = s.clips := rfl
@[simp] theorem setTime_programs (t : ClockTime) (s : State) : (setTime t s).programs = s.programs := rfl
@[simp] theorem setTime_engine (t : ClockTime) (s : State) : (setTime t s).engine = s.engine := rfl
@[simp] theorem setTime_arbiter (t : ClockTime) (s : State) : (setTime t s).arbiter = s.arbiter := rfl
@[simp] theorem setTime_inputs (t : ClockTime) (s : State) : (setTime t s).inputs = s.inputs := rfl
@[simp] theorem setTime_inReset (t : ClockTime) (s : State) : (setTime t s).inReset = s.inReset := rfl
@[simp] theorem setTime_freeCount (t : ClockTime) (s : State) : (setTime t s).freeCount = s.freeCount := rfl
@[simp] theorem setTime_pending (t : ClockTime) (s : State) : (setTime t s).pending = s.pending := rfl

/-! ### The parts of a written field -/

@[simp] theorem setFlag_link_receiver (f : EventFlag) (s : State) :
    (setFlag f s).link.receiver = s.link.receiver := rfl
@[simp] theorem setFlag_link_owed (f : EventFlag) (s : State) :
    (setFlag f s).link.owed = s.link.owed := rfl
@[simp] theorem setFlag_link_mask (f : EventFlag) (s : State) :
    (setFlag f s).link.mask = s.link.mask := rfl
@[simp] theorem setFlag_link_linkErrors (f : EventFlag) (s : State) :
    (setFlag f s).link.linkErrors = s.link.linkErrors := rfl
@[simp] theorem setFlag_link_overruns (f : EventFlag) (s : State) :
    (setFlag f s).link.overruns = s.link.overruns := rfl
@[simp] theorem setFlag_link_flags (f : EventFlag) (s : State) :
    (setFlag f s).link.flags = s.link.flags ||| f.bit := rfl
@[simp] theorem setFlag_link_attn (f : EventFlag) (s : State) :
    (setFlag f s).link.attn = attnOf (s.link.flags ||| f.bit) s.link.mask := rfl
@[simp] theorem clearFlags_link_receiver (s : State) :
    (clearFlags s).link.receiver = s.link.receiver := rfl
@[simp] theorem clearFlags_link_owed (s : State) :
    (clearFlags s).link.owed = s.link.owed := rfl
@[simp] theorem clearFlags_link_mask (s : State) :
    (clearFlags s).link.mask = s.link.mask := rfl
@[simp] theorem clearFlags_link_linkErrors (s : State) :
    (clearFlags s).link.linkErrors = s.link.linkErrors := rfl
@[simp] theorem clearFlags_link_overruns (s : State) :
    (clearFlags s).link.overruns = s.link.overruns := rfl
@[simp] theorem clearFlags_link_flags (s : State) :
    (clearFlags s).link.flags = 0 := rfl
@[simp] theorem clearFlags_link_attn (s : State) :
    (clearFlags s).link.attn = attnOf 0 s.link.mask := rfl
@[simp] theorem setMask_link_receiver (m : BitVec 20) (s : State) :
    (setMask m s).link.receiver = s.link.receiver := rfl
@[simp] theorem setMask_link_owed (m : BitVec 20) (s : State) :
    (setMask m s).link.owed = s.link.owed := rfl
@[simp] theorem setMask_link_mask (m : BitVec 20) (s : State) :
    (setMask m s).link.mask = m := rfl
@[simp] theorem setMask_link_linkErrors (m : BitVec 20) (s : State) :
    (setMask m s).link.linkErrors = s.link.linkErrors := rfl
@[simp] theorem setMask_link_overruns (m : BitVec 20) (s : State) :
    (setMask m s).link.overruns = s.link.overruns := rfl
@[simp] theorem setMask_link_flags (m : BitVec 20) (s : State) :
    (setMask m s).link.flags = s.link.flags := rfl
@[simp] theorem setMask_link_attn (m : BitVec 20) (s : State) :
    (setMask m s).link.attn = attnOf s.link.flags m := rfl
@[simp] theorem hunt_link_receiver (s : State) :
    (hunt s).link.receiver = .hunting := rfl
@[simp] theorem hunt_link_owed (s : State) :
    (hunt s).link.owed = s.link.owed := rfl
@[simp] theorem hunt_link_mask (s : State) :
    (hunt s).link.mask = s.link.mask := rfl
@[simp] theorem hunt_link_linkErrors (s : State) :
    (hunt s).link.linkErrors = s.link.linkErrors := rfl
@[simp] theorem hunt_link_overruns (s : State) :
    (hunt s).link.overruns = s.link.overruns := rfl
@[simp] theorem hunt_link_flags (s : State) :
    (hunt s).link.flags = s.link.flags := rfl
@[simp] theorem hunt_link_attn (s : State) :
    (hunt s).link.attn = s.link.attn := rfl
@[simp] theorem setVoice_engine_nextStart (s : State) (v : VoiceId) (x : Voice) :
    (s.setVoice v x).engine.nextStart = s.engine.nextStart := rfl
@[simp] theorem setVoice_engine_discardMode (s : State) (v : VoiceId) (x : Voice) :
    (s.setVoice v x).engine.discardMode = s.engine.discardMode := rfl
@[simp] theorem setZone_arbiter_waiting (s : State) (z : ZoneId) (x : Zone) :
    (s.setZone z x).arbiter.waiting = s.arbiter.waiting := rfl
@[simp] theorem setZone_arbiter_bus (s : State) (z : ZoneId) (x : Zone) :
    (s.setZone z x).arbiter.bus = s.arbiter.bus := rfl
@[simp] theorem setZone_arbiter_output (s : State) (z : ZoneId) (x : Zone) :
    (s.setZone z x).arbiter.output = s.arbiter.output := rfl
@[simp] theorem setCue_schedule_clock (s : State) (c : CueId) (x : Cue) :
    (s.setCue c x).schedule.clock = s.schedule.clock := rfl
@[simp] theorem setClock_schedule_clock (c : Clock) (s : State) :
    (setClock c s).schedule.clock = c := rfl
@[simp] theorem setClock_schedule_cues (c : Clock) (s : State) :
    (setClock c s).schedule.cues = s.schedule.cues := rfl
@[simp] theorem setTime_schedule_cues (t : ClockTime) (s : State) :
    (setTime t s).schedule.cues = s.schedule.cues := rfl
@[simp] theorem setPort_store_port (s : State) (p : Port) :
    (s.setPort p).store.port = p := rfl
@[simp] theorem setPort_store_state (s : State) (p : Port) :
    (s.setPort p).store.state = s.store.state := rfl
@[simp] theorem setPort_store_blocks (s : State) (p : Port) :
    (s.setPort p).store.blocks = s.store.blocks := rfl
@[simp] theorem setPort_store_eraseQueue (s : State) (p : Port) :
    (s.setPort p).store.eraseQueue = s.store.eraseQueue := rfl
@[simp] theorem setPort_store_buffer (s : State) (p : Port) :
    (s.setPort p).store.buffer = s.store.buffer := rfl
@[simp] theorem setPort_store_cursor (s : State) (p : Port) :
    (s.setPort p).store.cursor = s.store.cursor := rfl
@[simp] theorem setPort_store_loadCounter (s : State) (p : Port) :
    (s.setPort p).store.loadCounter = s.store.loadCounter := rfl
@[simp] theorem setPort_store_deferErase (s : State) (p : Port) :
    (s.setPort p).store.deferErase = s.store.deferErase := rfl
@[simp] theorem setPort_store_readback (s : State) (p : Port) :
    (s.setPort p).store.readback = s.store.readback := rfl
@[simp] theorem setPort_store_scan (s : State) (p : Port) :
    (s.setPort p).store.scan = s.store.scan := rfl
@[simp] theorem setBlock_store_port (s : State) (b : BlockNo) (x : Block) :
    (s.setBlock b x).store.port = s.store.port := rfl
@[simp] theorem setBlock_store_state (s : State) (b : BlockNo) (x : Block) :
    (s.setBlock b x).store.state = s.store.state := rfl
@[simp] theorem setBlock_store_eraseQueue (s : State) (b : BlockNo) (x : Block) :
    (s.setBlock b x).store.eraseQueue = s.store.eraseQueue := rfl
@[simp] theorem setBlock_store_buffer (s : State) (b : BlockNo) (x : Block) :
    (s.setBlock b x).store.buffer = s.store.buffer := rfl
@[simp] theorem setBlock_store_cursor (s : State) (b : BlockNo) (x : Block) :
    (s.setBlock b x).store.cursor = s.store.cursor := rfl
@[simp] theorem setBlock_store_loadCounter (s : State) (b : BlockNo) (x : Block) :
    (s.setBlock b x).store.loadCounter = s.store.loadCounter := rfl
@[simp] theorem setBlock_store_deferErase (s : State) (b : BlockNo) (x : Block) :
    (s.setBlock b x).store.deferErase = s.store.deferErase := rfl
@[simp] theorem setBlock_store_readback (s : State) (b : BlockNo) (x : Block) :
    (s.setBlock b x).store.readback = s.store.readback := rfl
@[simp] theorem setBlock_store_scan (s : State) (b : BlockNo) (x : Block) :
    (s.setBlock b x).store.scan = s.store.scan := rfl
@[simp] theorem setInput_inputs_triggers (s : State) (i : InputId) (x : Input) :
    (s.setInput i x).inputs.triggers = s.inputs.triggers := rfl
@[simp] theorem setInput_inputs_fifo (s : State) (i : InputId) (x : Input) :
    (s.setInput i x).inputs.fifo = s.inputs.fifo := rfl
@[simp] theorem setInput_inputs_overflow (s : State) (i : InputId) (x : Input) :
    (s.setInput i x).inputs.overflow = s.inputs.overflow := rfl
@[simp] theorem setInput_inputs_latch (s : State) (i : InputId) (x : Input) :
    (s.setInput i x).inputs.latch = s.inputs.latch := rfl
@[simp] theorem setInput_inputs_overrideResult (s : State) (i : InputId) (x : Input) :
    (s.setInput i x).inputs.overrideResult = s.inputs.overrideResult := rfl
@[simp] theorem setInput_inputs_overrideProgram (s : State) (i : InputId) (x : Input) :
    (s.setInput i x).inputs.overrideProgram = s.inputs.overrideProgram := rfl
@[simp] theorem setInput_inputs_overrideLevel (s : State) (i : InputId) (x : Input) :
    (s.setInput i x).inputs.overrideLevel = s.inputs.overrideLevel := rfl
@[simp] theorem setTrigger_inputs_inputs (s : State) (i : TriggerId) (x : TriggerEntry) :
    (s.setTrigger i x).inputs.inputs = s.inputs.inputs := rfl
@[simp] theorem setTrigger_inputs_fifo (s : State) (i : TriggerId) (x : TriggerEntry) :
    (s.setTrigger i x).inputs.fifo = s.inputs.fifo := rfl
@[simp] theorem setTrigger_inputs_overflow (s : State) (i : TriggerId) (x : TriggerEntry) :
    (s.setTrigger i x).inputs.overflow = s.inputs.overflow := rfl
@[simp] theorem setTrigger_inputs_latch (s : State) (i : TriggerId) (x : TriggerEntry) :
    (s.setTrigger i x).inputs.latch = s.inputs.latch := rfl
@[simp] theorem setTrigger_inputs_overrideResult (s : State) (i : TriggerId) (x : TriggerEntry) :
    (s.setTrigger i x).inputs.overrideResult = s.inputs.overrideResult := rfl
@[simp] theorem setTrigger_inputs_overrideProgram (s : State) (i : TriggerId) (x : TriggerEntry) :
    (s.setTrigger i x).inputs.overrideProgram = s.inputs.overrideProgram := rfl
@[simp] theorem setTrigger_inputs_overrideLevel (s : State) (i : TriggerId) (x : TriggerEntry) :
    (s.setTrigger i x).inputs.overrideLevel = s.inputs.overrideLevel := rfl

/-! ### Reading after a write -/

theorem Table.read_write {α : Type} (d : α) (t : Table α) (k j : Nat) (x : α) :
    (t.write k x).read d j = if j = k then x else t.read d j := by
  induction t with
  | nil => simp [Table.write, Table.read]
  | cons p t ih =>
    obtain ⟨i, y⟩ := p
    unfold Table.write
    split
    · simp [Table.read]
    · split
      · simp only [Table.read]; split <;> simp_all
      · simp only [Table.read, ih]; split <;> split <;> simp_all

@[simp] theorem voice_setVoice (s : State) (v w : VoiceId) (x : Voice) :
    (s.setVoice v x).voice w = if w = v then x else s.voice w := by
  simp only [State.voice, State.setVoice, Fin.getElem_fin, Vector.getElem_set]
  by_cases h : w = v
  · simp [h]
  · have : ¬ v.val = w.val := fun e => h (Fin.ext e.symm)
    simp [h, this]

@[simp] theorem zone_setZone (s : State) (z w : ZoneId) (x : Zone) :
    (s.setZone z x).zone w = if w = z then x else s.zone w := by
  simp only [State.zone, State.setZone, Fin.getElem_fin, Vector.getElem_set]
  by_cases h : w = z
  · simp [h]
  · have : ¬ z.val = w.val := fun e => h (Fin.ext e.symm)
    simp [h, this]

@[simp] theorem input_setInput (s : State) (i j : InputId) (x : Input) :
    (s.setInput i x).input j = if j = i then x else s.input j := by
  simp only [State.input, State.setInput, Fin.getElem_fin, Vector.getElem_set]
  by_cases h : j = i
  · simp [h]
  · have : ¬ i.val = j.val := fun e => h (Fin.ext e.symm)
    simp [h, this]

@[simp] theorem trigger_setTrigger (s : State) (i j : TriggerId) (x : TriggerEntry) :
    (s.setTrigger i x).trigger j = if j = i then x else s.trigger j := by
  simp only [State.trigger, State.setTrigger, Fin.getElem_fin, Vector.getElem_set]
  by_cases h : j = i
  · simp [h]
  · have : ¬ i.val = j.val := fun e => h (Fin.ext e.symm)
    simp [h, this]

@[simp] theorem clip_setClip (s : State) (c d : ClipId) (x : Option Clip) :
    (s.setClip c x).clip d = if d = c then x else s.clip d := by
  simp [State.clip, State.setClip, Table.read_write, Fin.ext_iff]

@[simp] theorem program_setProgram (s : State) (p q : ProgramId) (x : Option Program) :
    (s.setProgram p x).program q = if q = p then x else s.program q := by
  simp [State.program, State.setProgram, Table.read_write, Fin.ext_iff]

@[simp] theorem cue_setCue (s : State) (c d : CueId) (x : Cue) :
    (s.setCue c x).cue d = if d = c then x else s.cue d := by
  simp [State.cue, State.setCue, Table.read_write, Fin.ext_iff]

@[simp] theorem block_setBlock (s : State) (b d : BlockNo) (x : Block) :
    (s.setBlock b x).block d = if d = b then x else s.block d := by
  simp [State.block, State.setBlock, Table.read_write, Fin.ext_iff]

/-! ### Reading across an update of another part -/

@[simp] theorem voice_setFlag (f : EventFlag) (s : State) (w : VoiceId) : (setFlag f s).voice w = s.voice w := rfl
@[simp] theorem zone_setFlag (f : EventFlag) (s : State) (y : ZoneId) : (setFlag f s).zone y = s.zone y := rfl
@[simp] theorem clip_setFlag (f : EventFlag) (s : State) (k : ClipId) : (setFlag f s).clip k = s.clip k := rfl
@[simp] theorem program_setFlag (f : EventFlag) (s : State) (q : ProgramId) : (setFlag f s).program q = s.program q := rfl
@[simp] theorem cue_setFlag (f : EventFlag) (s : State) (k : CueId) : (setFlag f s).cue k = s.cue k := rfl
@[simp] theorem block_setFlag (f : EventFlag) (s : State) (d : BlockNo) : (setFlag f s).block d = s.block d := rfl
@[simp] theorem input_setFlag (f : EventFlag) (s : State) (j : InputId) : (setFlag f s).input j = s.input j := rfl
@[simp] theorem trigger_setFlag (f : EventFlag) (s : State) (j : TriggerId) : (setFlag f s).trigger j = s.trigger j := rfl
@[simp] theorem voice_clearFlags (s : State) (w : VoiceId) : (clearFlags s).voice w = s.voice w := rfl
@[simp] theorem zone_clearFlags (s : State) (y : ZoneId) : (clearFlags s).zone y = s.zone y := rfl
@[simp] theorem clip_clearFlags (s : State) (k : ClipId) : (clearFlags s).clip k = s.clip k := rfl
@[simp] theorem program_clearFlags (s : State) (q : ProgramId) : (clearFlags s).program q = s.program q := rfl
@[simp] theorem cue_clearFlags (s : State) (k : CueId) : (clearFlags s).cue k = s.cue k := rfl
@[simp] theorem block_clearFlags (s : State) (d : BlockNo) : (clearFlags s).block d = s.block d := rfl
@[simp] theorem input_clearFlags (s : State) (j : InputId) : (clearFlags s).input j = s.input j := rfl
@[simp] theorem trigger_clearFlags (s : State) (j : TriggerId) : (clearFlags s).trigger j = s.trigger j := rfl
@[simp] theorem voice_setMask (m : BitVec 20) (s : State) (w : VoiceId) : (setMask m s).voice w = s.voice w := rfl
@[simp] theorem zone_setMask (m : BitVec 20) (s : State) (y : ZoneId) : (setMask m s).zone y = s.zone y := rfl
@[simp] theorem clip_setMask (m : BitVec 20) (s : State) (k : ClipId) : (setMask m s).clip k = s.clip k := rfl
@[simp] theorem program_setMask (m : BitVec 20) (s : State) (q : ProgramId) : (setMask m s).program q = s.program q := rfl
@[simp] theorem cue_setMask (m : BitVec 20) (s : State) (k : CueId) : (setMask m s).cue k = s.cue k := rfl
@[simp] theorem block_setMask (m : BitVec 20) (s : State) (d : BlockNo) : (setMask m s).block d = s.block d := rfl
@[simp] theorem input_setMask (m : BitVec 20) (s : State) (j : InputId) : (setMask m s).input j = s.input j := rfl
@[simp] theorem trigger_setMask (m : BitVec 20) (s : State) (j : TriggerId) : (setMask m s).trigger j = s.trigger j := rfl
@[simp] theorem voice_hunt (s : State) (w : VoiceId) : (hunt s).voice w = s.voice w := rfl
@[simp] theorem zone_hunt (s : State) (y : ZoneId) : (hunt s).zone y = s.zone y := rfl
@[simp] theorem clip_hunt (s : State) (k : ClipId) : (hunt s).clip k = s.clip k := rfl
@[simp] theorem program_hunt (s : State) (q : ProgramId) : (hunt s).program q = s.program q := rfl
@[simp] theorem cue_hunt (s : State) (k : CueId) : (hunt s).cue k = s.cue k := rfl
@[simp] theorem block_hunt (s : State) (d : BlockNo) : (hunt s).block d = s.block d := rfl
@[simp] theorem input_hunt (s : State) (j : InputId) : (hunt s).input j = s.input j := rfl
@[simp] theorem trigger_hunt (s : State) (j : TriggerId) : (hunt s).trigger j = s.trigger j := rfl
@[simp] theorem voice_setBlock (s : State) (b : BlockNo) (x : Block) (w : VoiceId) : (s.setBlock b x).voice w = s.voice w := rfl
@[simp] theorem zone_setBlock (s : State) (b : BlockNo) (x : Block) (y : ZoneId) : (s.setBlock b x).zone y = s.zone y := rfl
@[simp] theorem clip_setBlock (s : State) (b : BlockNo) (x : Block) (k : ClipId) : (s.setBlock b x).clip k = s.clip k := rfl
@[simp] theorem program_setBlock (s : State) (b : BlockNo) (x : Block) (q : ProgramId) : (s.setBlock b x).program q = s.program q := rfl
@[simp] theorem cue_setBlock (s : State) (b : BlockNo) (x : Block) (k : CueId) : (s.setBlock b x).cue k = s.cue k := rfl
@[simp] theorem input_setBlock (s : State) (b : BlockNo) (x : Block) (j : InputId) : (s.setBlock b x).input j = s.input j := rfl
@[simp] theorem trigger_setBlock (s : State) (b : BlockNo) (x : Block) (j : TriggerId) : (s.setBlock b x).trigger j = s.trigger j := rfl
@[simp] theorem voice_setPort (s : State) (p : Port) (w : VoiceId) : (s.setPort p).voice w = s.voice w := rfl
@[simp] theorem zone_setPort (s : State) (p : Port) (y : ZoneId) : (s.setPort p).zone y = s.zone y := rfl
@[simp] theorem clip_setPort (s : State) (p : Port) (k : ClipId) : (s.setPort p).clip k = s.clip k := rfl
@[simp] theorem program_setPort (s : State) (p : Port) (q : ProgramId) : (s.setPort p).program q = s.program q := rfl
@[simp] theorem cue_setPort (s : State) (p : Port) (k : CueId) : (s.setPort p).cue k = s.cue k := rfl
@[simp] theorem block_setPort (s : State) (p : Port) (d : BlockNo) : (s.setPort p).block d = s.block d := rfl
@[simp] theorem input_setPort (s : State) (p : Port) (j : InputId) : (s.setPort p).input j = s.input j := rfl
@[simp] theorem trigger_setPort (s : State) (p : Port) (j : TriggerId) : (s.setPort p).trigger j = s.trigger j := rfl
@[simp] theorem voice_setClip (s : State) (c : ClipId) (x : Option Clip) (w : VoiceId) : (s.setClip c x).voice w = s.voice w := rfl
@[simp] theorem zone_setClip (s : State) (c : ClipId) (x : Option Clip) (y : ZoneId) : (s.setClip c x).zone y = s.zone y := rfl
@[simp] theorem program_setClip (s : State) (c : ClipId) (x : Option Clip) (q : ProgramId) : (s.setClip c x).program q = s.program q := rfl
@[simp] theorem cue_setClip (s : State) (c : ClipId) (x : Option Clip) (k : CueId) : (s.setClip c x).cue k = s.cue k := rfl
@[simp] theorem block_setClip (s : State) (c : ClipId) (x : Option Clip) (d : BlockNo) : (s.setClip c x).block d = s.block d := rfl
@[simp] theorem input_setClip (s : State) (c : ClipId) (x : Option Clip) (j : InputId) : (s.setClip c x).input j = s.input j := rfl
@[simp] theorem trigger_setClip (s : State) (c : ClipId) (x : Option Clip) (j : TriggerId) : (s.setClip c x).trigger j = s.trigger j := rfl
@[simp] theorem voice_setProgram (s : State) (p : ProgramId) (x : Option Program) (w : VoiceId) : (s.setProgram p x).voice w = s.voice w := rfl
@[simp] theorem zone_setProgram (s : State) (p : ProgramId) (x : Option Program) (y : ZoneId) : (s.setProgram p x).zone y = s.zone y := rfl
@[simp] theorem clip_setProgram (s : State) (p : ProgramId) (x : Option Program) (k : ClipId) : (s.setProgram p x).clip k = s.clip k := rfl
@[simp] theorem cue_setProgram (s : State) (p : ProgramId) (x : Option Program) (k : CueId) : (s.setProgram p x).cue k = s.cue k := rfl
@[simp] theorem block_setProgram (s : State) (p : ProgramId) (x : Option Program) (d : BlockNo) : (s.setProgram p x).block d = s.block d := rfl
@[simp] theorem input_setProgram (s : State) (p : ProgramId) (x : Option Program) (j : InputId) : (s.setProgram p x).input j = s.input j := rfl
@[simp] theorem trigger_setProgram (s : State) (p : ProgramId) (x : Option Program) (j : TriggerId) : (s.setProgram p x).trigger j = s.trigger j := rfl
@[simp] theorem zone_setVoice (s : State) (v : VoiceId) (x : Voice) (y : ZoneId) : (s.setVoice v x).zone y = s.zone y := rfl
@[simp] theorem clip_setVoice (s : State) (v : VoiceId) (x : Voice) (k : ClipId) : (s.setVoice v x).clip k = s.clip k := rfl
@[simp] theorem program_setVoice (s : State) (v : VoiceId) (x : Voice) (q : ProgramId) : (s.setVoice v x).program q = s.program q := rfl
@[simp] theorem cue_setVoice (s : State) (v : VoiceId) (x : Voice) (k : CueId) : (s.setVoice v x).cue k = s.cue k := rfl
@[simp] theorem block_setVoice (s : State) (v : VoiceId) (x : Voice) (d : BlockNo) : (s.setVoice v x).block d = s.block d := rfl
@[simp] theorem input_setVoice (s : State) (v : VoiceId) (x : Voice) (j : InputId) : (s.setVoice v x).input j = s.input j := rfl
@[simp] theorem trigger_setVoice (s : State) (v : VoiceId) (x : Voice) (j : TriggerId) : (s.setVoice v x).trigger j = s.trigger j := rfl
@[simp] theorem voice_setZone (s : State) (z : ZoneId) (x : Zone) (w : VoiceId) : (s.setZone z x).voice w = s.voice w := rfl
@[simp] theorem clip_setZone (s : State) (z : ZoneId) (x : Zone) (k : ClipId) : (s.setZone z x).clip k = s.clip k := rfl
@[simp] theorem program_setZone (s : State) (z : ZoneId) (x : Zone) (q : ProgramId) : (s.setZone z x).program q = s.program q := rfl
@[simp] theorem cue_setZone (s : State) (z : ZoneId) (x : Zone) (k : CueId) : (s.setZone z x).cue k = s.cue k := rfl
@[simp] theorem block_setZone (s : State) (z : ZoneId) (x : Zone) (d : BlockNo) : (s.setZone z x).block d = s.block d := rfl
@[simp] theorem input_setZone (s : State) (z : ZoneId) (x : Zone) (j : InputId) : (s.setZone z x).input j = s.input j := rfl
@[simp] theorem trigger_setZone (s : State) (z : ZoneId) (x : Zone) (j : TriggerId) : (s.setZone z x).trigger j = s.trigger j := rfl
@[simp] theorem voice_setCue (s : State) (c : CueId) (x : Cue) (w : VoiceId) : (s.setCue c x).voice w = s.voice w := rfl
@[simp] theorem zone_setCue (s : State) (c : CueId) (x : Cue) (y : ZoneId) : (s.setCue c x).zone y = s.zone y := rfl
@[simp] theorem clip_setCue (s : State) (c : CueId) (x : Cue) (k : ClipId) : (s.setCue c x).clip k = s.clip k := rfl
@[simp] theorem program_setCue (s : State) (c : CueId) (x : Cue) (q : ProgramId) : (s.setCue c x).program q = s.program q := rfl
@[simp] theorem block_setCue (s : State) (c : CueId) (x : Cue) (d : BlockNo) : (s.setCue c x).block d = s.block d := rfl
@[simp] theorem input_setCue (s : State) (c : CueId) (x : Cue) (j : InputId) : (s.setCue c x).input j = s.input j := rfl
@[simp] theorem trigger_setCue (s : State) (c : CueId) (x : Cue) (j : TriggerId) : (s.setCue c x).trigger j = s.trigger j := rfl
@[simp] theorem voice_setInput (s : State) (i : InputId) (x : Input) (w : VoiceId) : (s.setInput i x).voice w = s.voice w := rfl
@[simp] theorem zone_setInput (s : State) (i : InputId) (x : Input) (y : ZoneId) : (s.setInput i x).zone y = s.zone y := rfl
@[simp] theorem clip_setInput (s : State) (i : InputId) (x : Input) (k : ClipId) : (s.setInput i x).clip k = s.clip k := rfl
@[simp] theorem program_setInput (s : State) (i : InputId) (x : Input) (q : ProgramId) : (s.setInput i x).program q = s.program q := rfl
@[simp] theorem cue_setInput (s : State) (i : InputId) (x : Input) (k : CueId) : (s.setInput i x).cue k = s.cue k := rfl
@[simp] theorem block_setInput (s : State) (i : InputId) (x : Input) (d : BlockNo) : (s.setInput i x).block d = s.block d := rfl
@[simp] theorem trigger_setInput (s : State) (i : InputId) (x : Input) (j : TriggerId) : (s.setInput i x).trigger j = s.trigger j := rfl
@[simp] theorem voice_setTrigger (s : State) (i : TriggerId) (x : TriggerEntry) (w : VoiceId) : (s.setTrigger i x).voice w = s.voice w := rfl
@[simp] theorem zone_setTrigger (s : State) (i : TriggerId) (x : TriggerEntry) (y : ZoneId) : (s.setTrigger i x).zone y = s.zone y := rfl
@[simp] theorem clip_setTrigger (s : State) (i : TriggerId) (x : TriggerEntry) (k : ClipId) : (s.setTrigger i x).clip k = s.clip k := rfl
@[simp] theorem program_setTrigger (s : State) (i : TriggerId) (x : TriggerEntry) (q : ProgramId) : (s.setTrigger i x).program q = s.program q := rfl
@[simp] theorem cue_setTrigger (s : State) (i : TriggerId) (x : TriggerEntry) (k : CueId) : (s.setTrigger i x).cue k = s.cue k := rfl
@[simp] theorem block_setTrigger (s : State) (i : TriggerId) (x : TriggerEntry) (d : BlockNo) : (s.setTrigger i x).block d = s.block d := rfl
@[simp] theorem input_setTrigger (s : State) (i : TriggerId) (x : TriggerEntry) (j : InputId) : (s.setTrigger i x).input j = s.input j := rfl
@[simp] theorem voice_setClock (c : Clock) (s : State) (w : VoiceId) : (setClock c s).voice w = s.voice w := rfl
@[simp] theorem zone_setClock (c : Clock) (s : State) (y : ZoneId) : (setClock c s).zone y = s.zone y := rfl
@[simp] theorem clip_setClock (c : Clock) (s : State) (k : ClipId) : (setClock c s).clip k = s.clip k := rfl
@[simp] theorem program_setClock (c : Clock) (s : State) (q : ProgramId) : (setClock c s).program q = s.program q := rfl
@[simp] theorem cue_setClock (c : Clock) (s : State) (k : CueId) : (setClock c s).cue k = s.cue k := rfl
@[simp] theorem block_setClock (c : Clock) (s : State) (d : BlockNo) : (setClock c s).block d = s.block d := rfl
@[simp] theorem input_setClock (c : Clock) (s : State) (j : InputId) : (setClock c s).input j = s.input j := rfl
@[simp] theorem trigger_setClock (c : Clock) (s : State) (j : TriggerId) : (setClock c s).trigger j = s.trigger j := rfl
@[simp] theorem voice_setTime (t : ClockTime) (s : State) (w : VoiceId) : (setTime t s).voice w = s.voice w := rfl
@[simp] theorem zone_setTime (t : ClockTime) (s : State) (y : ZoneId) : (setTime t s).zone y = s.zone y := rfl
@[simp] theorem clip_setTime (t : ClockTime) (s : State) (k : ClipId) : (setTime t s).clip k = s.clip k := rfl
@[simp] theorem program_setTime (t : ClockTime) (s : State) (q : ProgramId) : (setTime t s).program q = s.program q := rfl
@[simp] theorem cue_setTime (t : ClockTime) (s : State) (k : CueId) : (setTime t s).cue k = s.cue k := rfl
@[simp] theorem block_setTime (t : ClockTime) (s : State) (d : BlockNo) : (setTime t s).block d = s.block d := rfl
@[simp] theorem input_setTime (t : ClockTime) (s : State) (j : InputId) : (setTime t s).input j = s.input j := rfl
@[simp] theorem trigger_setTime (t : ClockTime) (s : State) (j : TriggerId) : (setTime t s).trigger j = s.trigger j := rfl

end Sys2Proof.Machine
end

