-- ==== Sys2Proof/Laws/Flash.lean ====
section
/-! SUPPORT. The flash: what a read gives after a write, and that every operation on the flash keeps its canonical form. -/

namespace Sys2Proof.Machine

theorem erased_payload_length : FlashPage.erased.payload.length = Config.pageBytes := by
  simp [FlashPage.erased]

theorem wfFrom_cons {lo a : Nat} {x : FlashPage} {m : Memory} :
    Memory.wfFrom lo ((a, x) :: m) = true ↔
      lo ≤ a ∧ a < Config.pagesPerBlock * Config.blockCount ∧ x ≠ FlashPage.erased
        ∧ x.payload.length = Config.pageBytes ∧ Memory.wfFrom (a + 1) m = true := by
  simp [Memory.wfFrom, and_assoc]

theorem wfFrom_mono {lo hi : Nat} {m : Memory} (h : lo ≤ hi) (w : Memory.wfFrom hi m = true) :
    Memory.wfFrom lo m = true := by
  cases m with
  | nil => rfl
  | cons p m => rw [wfFrom_cons] at *; exact ⟨by omega, w.2⟩

/-- Below the first address of a flash in canonical form every page is erased. -/
theorem read_below {lo a : Nat} {m : Memory} (w : Memory.wfFrom lo m = true) (h : a < lo) :
    m.read a = FlashPage.erased := by
  induction m generalizing lo with
  | nil => rfl
  | cons p m ih =>
    obtain ⟨j, y⟩ := p
    rw [wfFrom_cons] at w
    have : ¬ a = j := by omega
    simp only [Memory.read, this, if_false]
    exact ih w.2.2.2.2 (by omega)

theorem Memory.read_write_from {lo : Nat} {m : Memory} (w : Memory.wfFrom lo m = true) (a b : Nat) (x : FlashPage) :
    (m.write a x).read b = if b = a then x else m.read b := by
  induction m generalizing lo with
  | nil =>
    unfold Memory.write
    split
    · next h => simp only [Memory.read, h]; split <;> rfl
    · simp [Memory.read]
  | cons p m ih =>
    obtain ⟨j, y⟩ := p
    have w' := wfFrom_cons.mp w
    unfold Memory.write
    split
    · next h =>
      have hb : Memory.read ((j, y) :: m) a = FlashPage.erased :=
        read_below (lo := j) (wfFrom_cons.mpr ⟨Nat.le_refl j, w'.2⟩) h
      split
      · next e => subst e; split
                  · next hba => rw [hba, hb]
                  · rfl
      · simp only [Memory.read]
    · split
      · next h =>
        subst h
        have hb : Memory.read m a = FlashPage.erased := read_below w'.2.2.2.2 (by omega)
        split
        · next e => subst e; split
                    · next hba => rw [hba, hb]
                    · next hba => simp [Memory.read, hba]
        · simp only [Memory.read]; split <;> rfl
      · next h₁ h₂ =>
        simp only [Memory.read, ih w'.2.2.2.2]
        split
        · split
          · omega
          · rfl
        · rfl

/-- The page at an address after a write: the written one there, every other page as before. -/
theorem Memory.read_write {m : Memory} (w : m.wf = true) (a b : Nat) (x : FlashPage) :
    (m.write a x).read b = if b = a then x else m.read b := Memory.read_write_from w a b x

theorem Memory.write_wfFrom {lo : Nat} {m : Memory} (w : Memory.wfFrom lo m = true) {a : Nat} {x : FlashPage}
    (hlo : lo ≤ a) (ha : a < Config.pagesPerBlock * Config.blockCount) (hx : x.payload.length = Config.pageBytes) :
    Memory.wfFrom lo (m.write a x) = true := by
  induction m generalizing lo with
  | nil =>
    unfold Memory.write
    split
    · rfl
    · next h => exact wfFrom_cons.mpr ⟨hlo, ha, h, hx, rfl⟩
  | cons p m ih =>
    obtain ⟨j, y⟩ := p
    have w' := wfFrom_cons.mp w
    unfold Memory.write
    split
    · split
      · exact w
      · next h₁ h₂ => exact wfFrom_cons.mpr ⟨hlo, ha, h₂, hx, wfFrom_cons.mpr ⟨by omega, w'.2⟩⟩
    · split
      · next h =>
        subst h
        split
        · exact wfFrom_mono (by omega) w'.2.2.2.2
        · next h₂ => exact wfFrom_cons.mpr ⟨hlo, ha, h₂, hx, w'.2.2.2.2⟩
      · exact wfFrom_cons.mpr ⟨w'.1, w'.2.1, w'.2.2.1, w'.2.2.2.1, ih w'.2.2.2.2 (by omega)⟩

/-- A write of a page of 2048 payload bytes inside the flash keeps the canonical form. -/
theorem Memory.write_wf {m : Memory} (w : m.wf = true) {a : Nat} {x : FlashPage}
    (ha : a < Config.pagesPerBlock * Config.blockCount) (hx : x.payload.length = Config.pageBytes) :
    (m.write a x).wf = true := Memory.write_wfFrom w (Nat.zero_le a) ha hx

theorem read_payload_length_from {lo : Nat} {m : Memory} (w : Memory.wfFrom lo m = true) (a : Nat) :
    (m.read a).payload.length = Config.pageBytes := by
  induction m generalizing lo with
  | nil => exact erased_payload_length
  | cons p m ih =>
    obtain ⟨j, y⟩ := p
    have w' := wfFrom_cons.mp w
    simp only [Memory.read]
    split
    · exact w'.2.2.2.1
    · exact ih w'.2.2.2.2

/-- Every page of a flash in canonical form has a payload of 2048 bytes. -/
theorem Memory.read_payload_length {m : Memory} (w : m.wf = true) (a : Nat) :
    (m.read a).payload.length = Config.pageBytes := read_payload_length_from w a

theorem pageAddress_lt (b : BlockNo) (p : PageNo) :
    pageAddress b p < Config.pagesPerBlock * Config.blockCount := by
  have hb := b.isLt
  have hp := p.isLt
  simp only [pageAddress, Config.pagesPerBlock, Config.blockCount]
  omega

theorem pageAddress_inj {b c : BlockNo} {p q : PageNo} : pageAddress b p = pageAddress c q ↔ b = c ∧ p = q := by
  have hp := p.isLt
  have hq := q.isLt
  simp only [pageAddress, Config.pagesPerBlock, Fin.ext_iff]
  omega

theorem padPayload_length (bytes : List Byte) : (padPayload bytes).length = Config.pageBytes := by
  simp [padPayload]

theorem residuePage_payload_length (r : PageResidue) (count page : Nat) {old new : FlashPage}
    (ho : old.payload.length = Config.pageBytes) (hn : new.payload.length = Config.pageBytes) :
    (residuePage r count page old new).payload.length = Config.pageBytes := by
  cases r <;> simp [residuePage, ho, hn]

theorem flashProgrammed_wf (j : ProgramJob) {m : Memory} (w : m.wf = true) : (flashProgrammed j m).wf = true :=
  Memory.write_wf w (pageAddress_lt _ _) (padPayload_length _)

theorem flashProgramResidue_wf (r : PageResidue) (count : Nat) (j : ProgramJob) {m : Memory} (w : m.wf = true) :
    (flashProgramResidue r count j m).wf = true :=
  Memory.write_wf w (pageAddress_lt _ _)
    (residuePage_payload_length _ _ _ (Memory.read_payload_length w _) (padPayload_length _))

/-- Writing pages one after another keeps whatever each write keeps. -/
theorem foldl_keeps {α β : Type} (P : β → Prop) (f : β → α → β) (h : ∀ b a, P b → P (f b a)) (l : List α) :
    ∀ b, P b → P (l.foldl f b) := by
  induction l with
  | nil => exact fun _ hb => hb
  | cons a l ih => exact fun b hb => ih _ (h b a hb)

theorem flashErased_wf (b : BlockNo) {m : Memory} (w : m.wf = true) : (flashErased b m).wf = true :=
  foldl_keeps (fun m => m.wf = true) _ (fun _ _ h => Memory.write_wf h (pageAddress_lt _ _) erased_payload_length) _ m w

theorem flashEraseResidue_wf (count : Nat) (b : BlockNo) {m : Memory} (w : m.wf = true) :
    (flashEraseResidue count b m).wf = true :=
  foldl_keeps (fun m => m.wf = true) _ (fun _ _ h => Memory.write_wf h (pageAddress_lt _ _)
    (residuePage_payload_length _ _ _ (Memory.read_payload_length h _) erased_payload_length)) _ m w

/-- What a reset leaves of the flash keeps the canonical form. -/
theorem abandonedFlash_wf (s : State) (w : s.flash.wf = true) : (abandonedFlash s).wf = true := by
  unfold abandonedFlash
  split
  · exact flashProgramResidue_wf _ _ _ w
  · exact flashEraseResidue_wf _ _ w
  · exact w

/-- A page program that is cut short or fails changes one page, which is then programmed, as it was, erased in its tag or unreadable in
its tag (R13). -/
theorem flashProgramResidue_read (r : PageResidue) (count : Nat) (j : ProgramJob) {m : Memory} (w : m.wf = true) :
    (∀ a, a ≠ pageAddress j.block j.page → (flashProgramResidue r count j m).read a = m.read a) ∧
    (let x := (flashProgramResidue r count j m).read (pageAddress j.block j.page)
     x = programmedPage j ∨ x = m.read (pageAddress j.block j.page) ∨ x.spare = .erased ∨
       tagCondition true x.spare = .unreadable) := by
  unfold flashProgramResidue
  refine ⟨fun a h => by simp only [Memory.read_write w, if_neg h], ?_⟩
  simp only [Memory.read_write w, if_true]
  cases r
  · exact .inl rfl
  · exact .inr (.inl rfl)
  · exact .inr (.inr (.inl rfl))
  · exact .inr (.inr (.inr rfl))

/-- A block erase that is cut short or fails changes no page outside its block (R13). -/
theorem flashEraseResidue_read (count : Nat) (b : BlockNo) {m : Memory} (w : m.wf = true) {a : Nat}
    (h : ∀ p : PageNo, a ≠ pageAddress b p) : (flashEraseResidue count b m).read a = m.read a :=
  (foldl_keeps (fun n : Memory => n.wf = true ∧ n.read a = m.read a) _
    (fun _ p hn => ⟨Memory.write_wf hn.1 (pageAddress_lt _ _)
        (residuePage_payload_length _ _ _ (Memory.read_payload_length hn.1 _) erased_payload_length),
      by rw [Memory.read_write hn.1, if_neg (h p)]; exact hn.2⟩) _ m ⟨w, rfl⟩).2

/-- A page program changes one page. -/
theorem flashProgrammed_read (j : ProgramJob) {m : Memory} (w : m.wf = true) (a : Nat) :
    (flashProgrammed j m).read a = if a = pageAddress j.block j.page then programmedPage j else m.read a :=
  Memory.read_write w _ _ _

end Sys2Proof.Machine
end

