-- ==== Sys2Proof/Laws/Engine.lean ====
section
/-! SUPPORT. What the operations of the Voice Engine and the Zone Arbiter may change, said once: voices, zone holders, the waiting list,
event flags that are set, and the flash port. Each operation of Machine/FlashPort.lean and Machine/VoiceEngine.lean is such a step. -/

namespace Sys2Proof.Machine

namespace EngineStep

theorem refl (s : State) : EngineStep s s where
  flash := rfl
  clips := rfl
  programs := rfl
  schedule := rfl
  inputs := rfl
  inReset := rfl
  freeCount := rfl
  pending := rfl
  store := rfl
  busy := fun _ => rfl
  receiver := rfl
  owed := rfl
  mask := rfl
  linkErrors := rfl
  overruns := rfl
  flags := BitVec.and_self
  attn := .inl ⟨rfl, rfl⟩
  discardMode := rfl
  bus := rfl
  output := rfl
  level := fun _ => rfl
  enabled := fun _ => rfl
  counter := id
  disabledFree := id

theorem trans {s t u : State} (a : EngineStep s t) (b : EngineStep t u) : EngineStep s u where
  flash := b.flash.trans a.flash
  clips := b.clips.trans a.clips
  programs := b.programs.trans a.programs
  schedule := b.schedule.trans a.schedule
  inputs := b.inputs.trans a.inputs
  inReset := b.inReset.trans a.inReset
  freeCount := b.freeCount.trans a.freeCount
  pending := b.pending.trans a.pending
  store := by rw [← a.store, ← b.store]
  busy := fun h => (b.busy (by rw [a.busy h]; exact h)).trans (a.busy h)
  receiver := b.receiver.trans a.receiver
  owed := b.owed.trans a.owed
  mask := b.mask.trans a.mask
  linkErrors := b.linkErrors.trans a.linkErrors
  overruns := b.overruns.trans a.overruns
  flags := by rw [← a.flags, BitVec.and_assoc, b.flags]
  attn := by
    rcases b.attn with ⟨hf, ha⟩ | h
    · rcases a.attn with ⟨hf', ha'⟩ | h'
      · exact .inl ⟨hf.trans hf', ha.trans ha'⟩
      · exact .inr (by rw [ha, h', hf, b.mask])
    · exact .inr h
  discardMode := b.discardMode.trans a.discardMode
  bus := b.bus.trans a.bus
  output := b.output.trans a.output
  level := fun z => (b.level z).trans (a.level z)
  enabled := fun z => (b.enabled z).trans (a.enabled z)
  counter := fun h => b.counter (a.counter h)
  disabledFree := fun h => b.disabledFree (a.disabledFree h)

/-- Steps one after another over a list. -/
theorem foldl {α : Type} (f : State → α → State) (h : ∀ s a, EngineStep s (f s a)) (l : List α) (s : State) :
    EngineStep s (l.foldl f s) := by
  induction l generalizing s with
  | nil => exact refl s
  | cons a l ih => exact (h s a).trans (ih _)

end EngineStep

/-! ### The smallest steps -/

theorem engineStep_setVoice (s : State) (v : VoiceId) (x : Voice) : EngineStep s (s.setVoice v x) :=
  { EngineStep.refl s with }

theorem engineStep_setFlag (f : EventFlag) (s : State) : EngineStep s (setFlag f s) :=
  { EngineStep.refl s with
    flags := by
      apply BitVec.eq_of_getLsbD_eq
      intro i hi
      simp only [setFlag_link_flags, BitVec.getLsbD_and, BitVec.getLsbD_or]
      cases s.link.flags.getLsbD i <;> simp
    attn := .inr rfl }

theorem engineStep_leaveWaiting (v : VoiceId) (s : State) : EngineStep s (leaveWaiting v s) :=
  { EngineStep.refl s with }

theorem engineStep_setPort {s : State} (idle : s.store.port = .idle) (p : Port) : EngineStep s (s.setPort p) :=
  { EngineStep.refl s with busy := fun h => absurd idle h }

/-- A zone takes or loses a holder; a holder only while the zone is enabled. -/
theorem engineStep_setHolder (s : State) (z : ZoneId) (h : Option (VoiceId × Nat))
    (ok : h = none ∨ (s.zone z).enabled = true) : EngineStep s (s.setZone z { s.zone z with holder := h }) :=
  { EngineStep.refl s with
    level := fun w => by rw [zone_setZone]; split <;> simp_all
    enabled := fun w => by rw [zone_setZone]; split <;> simp_all
    disabledFree := fun d w => by
      rw [zone_setZone]
      split
      · next e =>
        intro hw
        rcases ok with rfl | ok
        · rfl
        · simp_all
      · exact d w }

/-! ### The flash port -/

theorem engineStep_grantFetch (v : VoiceId) {s : State} (idle : s.store.port = .idle) : EngineStep s (grantFetch v s) := by
  unfold grantFetch
  split
  · exact (engineStep_setVoice s v _).trans (engineStep_setPort (s := s.setVoice v _) idle _)
  · exact EngineStep.refl s

theorem engineStep_grantProgram (p : LoadPage) {s : State} (idle : s.store.port = .idle) : EngineStep s (grantProgram p s) := by
  unfold grantProgram
  split
  · exact EngineStep.refl s
  · split
    · exact EngineStep.refl s
    · exact engineStep_setPort idle _

theorem engineStep_grantRequest {s : State} (idle : s.store.port = .idle) : EngineStep s (grantRequest s) := by
  unfold grantRequest
  split
  · exact engineStep_grantFetch _ idle
  · split
    · exact engineStep_grantProgram _ idle
    · split
      · exact { EngineStep.refl s with busy := fun h => absurd idle h }
      · exact EngineStep.refl s

theorem engineStep_arbitrateArrival (s : State) : EngineStep s (arbitrateArrival s) := by
  unfold arbitrateArrival
  split
  · next h => exact engineStep_grantRequest h
  · exact EngineStep.refl s

theorem engineStep_arbitrate (s : State) : EngineStep s (arbitrate s) := by
  refine (engineStep_arbitrateArrival s).trans ?_
  unfold arbitrate
  simp only
  split
  · next h =>
    split
    · split
      · exact EngineStep.refl _
      · exact engineStep_setPort h _
    · exact EngineStep.refl _
  · exact EngineStep.refl _

/-! ### Steps, ends and offers: whatever the offers do, if it is such a step -/

/-- Making offers is such a step. -/
def OffersStep (o : Offers) : Prop := ∀ zs s, EngineStep s (o zs s)

theorem offersStep_noOffers : OffersStep noOffers := fun _ s => EngineStep.refl s

theorem engineStep_fetchTest (v : VoiceId) (s : State) : EngineStep s (fetchTest v s) := by
  unfold fetchTest
  split
  · exact (engineStep_setVoice _ _ _).trans (engineStep_arbitrateArrival _)
  · exact EngineStep.refl s

theorem engineStep_freeZones (v : VoiceId) (s : State) : EngineStep s (freeZones v s) := by
  apply EngineStep.foldl
  intro s z
  split
  · exact engineStep_setHolder _ _ _ (.inl rfl)
  · exact EngineStep.refl s

theorem engineStep_endVoice {o : Offers} (ho : OffersStep o) (v : VoiceId) (cause : EndCause) (s : State) :
    EngineStep s (endVoice o v cause s) := by
  unfold endVoice
  simp only
  split
  · exact EngineStep.refl s
  · exact (engineStep_setVoice _ _ _).trans ((engineStep_leaveWaiting _ _).trans
      ((engineStep_setFlag _ _).trans ((engineStep_freeZones _ _).trans (ho _ _))))

theorem engineStep_chooseWalkZone (v : VoiceId) (s : State) : EngineStep s (chooseWalkZone v s) := by
  unfold chooseWalkZone
  simp only
  split
  · split
    · exact engineStep_setVoice _ _ _
    · exact EngineStep.refl s
  · exact EngineStep.refl s

theorem engineStep_latchStep {o : Offers} (ho : OffersStep o) (v : VoiceId) (index : Nat) (p : Step) (s : State) :
    EngineStep s (latchStep o v index p s) := by
  unfold latchStep
  split
  · exact engineStep_setVoice _ _ _
  · split
    · exact (engineStep_setVoice _ _ _).trans ((engineStep_chooseWalkZone _ _).trans (engineStep_fetchTest _ _))
    · exact (engineStep_setVoice _ _ _).trans (engineStep_endVoice ho _ _ _)

theorem engineStep_stepStart {o : Offers} (ho : OffersStep o) (v : VoiceId) (s : State) :
    EngineStep s (stepStart o v s) := by
  unfold stepStart
  split
  · exact EngineStep.refl s
  · next p _ =>
    split
    · exact EngineStep.refl s
    · refine EngineStep.trans (engineStep_setVoice s v { s.voice v with stepProgram := some p }) ?_
      simp only
      split
      · exact engineStep_latchStep ho _ _ _ _
      · split
        · exact engineStep_latchStep ho _ _ _ _
        · exact engineStep_endVoice ho _ _ _
      · exact engineStep_endVoice ho _ _ _

theorem engineStep_stepEnd {o : Offers} (ho : OffersStep o) (v : VoiceId) (s : State) : EngineStep s (stepEnd o v s) := by
  unfold stepEnd
  simp only
  split
  · exact engineStep_endVoice ho _ _ _
  · exact (engineStep_setVoice _ _ _).trans (engineStep_stepStart ho _ _)

theorem engineStep_walkMove {o : Offers} (ho : OffersStep o) (v : VoiceId) (s : State) :
    EngineStep s (walkMove o v s) := by
  unfold walkMove
  simp only
  split
  · exact EngineStep.refl s
  · split
    · exact (engineStep_setVoice _ _ _).trans (engineStep_fetchTest _ _)
    · exact engineStep_stepEnd ho _ _

theorem engineStep_loseLast {o : Offers} (ho : OffersStep o) (v : VoiceId) (s : State) :
    EngineStep s (loseLast o v s) := by
  unfold loseLast
  simp only
  split
  · split
    · exact engineStep_setVoice _ _ _
    · exact engineStep_endVoice ho _ _ _
  · exact EngineStep.refl s

theorem engineStep_loseSome {o : Offers} (ho : OffersStep o) (v : VoiceId) (s : State) :
    EngineStep s (loseSome o v s) := by
  unfold loseSome
  split
  · exact engineStep_walkMove ho _ _
  · exact EngineStep.refl s

theorem engineStep_wantAlso (v : VoiceId) (zs : SetByte) (s : State) : EngineStep s (wantAlso v zs s) :=
  engineStep_setVoice _ _ _

/-! ### Claims and offers -/

theorem hasZone_addZone (zs : SetByte) (z w : ZoneId) : hasZone (addZone zs z) w = (hasZone zs w || decide (w = z)) := by
  simp only [hasZone, addZone, oneZone, BitVec.getLsbD_or, BitVec.getLsbD_twoPow]
  congr 1
  have : w.val < 8 := w.isLt
  by_cases h : w = z
  · subst h; simp [this]
  · have h' : ¬ w.val = z.val := fun e => h (Fin.ext e)
    have h'' : ¬ z.val = w.val := fun e => h (Fin.ext e.symm)
    simp [h, h'']

theorem mem_allZones (z : ZoneId) : z ∈ allZones := by revert z; decide

theorem nodup_allZones : allZones.Nodup := by decide

theorem hasZone_foldl_add (p : ZoneId → Bool) (l : List ZoneId) (zs : SetByte) (w : ZoneId) :
    hasZone (l.foldl (fun zs z => if p z then addZone zs z else zs) zs) w = (hasZone zs w || (decide (w ∈ l) && p w)) := by
  induction l generalizing zs with
  | nil => simp
  | cons z l ih =>
    simp only [List.foldl_cons, ih]
    by_cases hz : w = z
    · subst hz; by_cases h : p w <;> simp [h, hasZone_addZone]
    · by_cases h : p z <;> simp [h, hasZone_addZone, hz]

/-- Membership of the set of the zones that satisfy a test. -/
@[simp] theorem hasZone_zonesWhere (p : ZoneId → Bool) (z : ZoneId) : hasZone (zonesWhere p) z = p z := by
  simp only [zonesWhere, hasZone_foldl_add, mem_allZones]
  simp [hasZone]

@[simp] theorem hasZone_and (a b : SetByte) (z : ZoneId) : hasZone (a &&& b) z = (hasZone a z && hasZone b z) := by
  simp [hasZone]

/-- A granted claim takes zones of its claim set only, so enabled ones (R100). -/
theorem evaluateClaim_enabled {order : StartOrder} {s : State} {zs : SetByte} (h : evaluateClaim order s = some zs)
    (z : ZoneId) (hz : hasZone zs z = true) : (s.zone z).enabled = true := by
  have e : zs = grantableSet order s := by
    unfold evaluateClaim at h
    simp only at h
    split at h
    · cases h
    · split at h
      · exact (Option.some.inj h).symm
      · split at h
        · exact (Option.some.inj h).symm
        · cases h
  subst e
  simp only [grantableSet, hasZone_zonesWhere, claimSet, hasZone_and, State.enabledSet, Bool.and_eq_true] at hz
  exact hz.1.2

theorem engineStep_takeZones (v : VoiceId) (priority : Nat) (zs : SetByte) (s : State)
    (ok : ∀ z, hasZone zs z = true → (s.zone z).enabled = true) : EngineStep s (takeZones v priority zs s) := by
  unfold takeZones
  generalize allZones = l
  induction l generalizing s with
  | nil => exact EngineStep.refl s
  | cons z l ih =>
    simp only [List.foldl_cons]
    by_cases h : hasZone zs z = true
    · simp only [h, if_true]
      have a := engineStep_setHolder s z (some (v, priority)) (.inr (ok z h))
      exact a.trans (ih _ fun w hw => by rw [a.enabled]; exact ok w hw)
    · simp only [h]
      exact ih _ ok

theorem engineStep_becomeActive (v : VoiceId) (wanted : SetByte) (s : State) : EngineStep s (becomeActive v wanted s) :=
  (engineStep_setVoice _ _ _).trans ((engineStep_leaveWaiting _ _).trans (engineStep_chooseWalkZone _ _))

theorem engineStep_tellLosers {o : Offers} (ho : OffersStep o) (losers : List VoiceId) (s : State) :
    EngineStep s (tellLosers o losers s) :=
  (EngineStep.foldl _ (fun s w => engineStep_loseLast offersStep_noOffers w s) _ _).trans
    ((EngineStep.foldl _ (fun s w => engineStep_loseSome offersStep_noOffers w s) _ _).trans (ho _ _))

theorem engineStep_grantClaim {o : Offers} (ho : OffersStep o) (v : VoiceId) (order : StartOrder) (zs : SetByte) (s : State)
    (ok : ∀ z, hasZone zs z = true → (s.zone z).enabled = true) : EngineStep s (grantClaim o v order zs s) := by
  have a := EngineStep.foldl (fun s w => wantAlso w (s.heldSet w &&& zs) s)
    (fun s w => engineStep_wantAlso w _ s) (losersOf v zs s) s
  exact a.trans ((engineStep_takeZones _ _ _ _ fun z hz => by rw [a.enabled]; exact ok z hz).trans
    ((engineStep_becomeActive _ _ _).trans (engineStep_tellLosers ho _ _)))

theorem engineStep_queueClaim (v : VoiceId) (order : StartOrder) (s : State) : EngineStep s (queueClaim v order s) :=
  (engineStep_setVoice _ _ _).trans { EngineStep.refl _ with }

theorem engineStep_claimZones {o : Offers} (ho : OffersStep o) (v : VoiceId) (order : StartOrder) (s : State) :
    EngineStep s (claimZones o v order s).1 := by
  unfold claimZones
  split
  · next h => exact engineStep_grantClaim ho _ _ _ _ (evaluateClaim_enabled h)
  · split
    · exact engineStep_queueClaim _ _ _
    · exact EngineStep.refl s

theorem engineStep_takeOffered {o : Offers} (ho : OffersStep o) (v : VoiceId) (z : ZoneId) (s : State)
    (ok : (s.zone z).enabled = true) : EngineStep s (takeOffered o v z s) := by
  unfold takeOffered
  refine EngineStep.trans (engineStep_setHolder s z (some (v, (s.voice v).order.elim 0 (·.priority))) (.inr ok))
    (EngineStep.trans (engineStep_setVoice _ v
      { s.voice v with state := .active, wanted := dropZone (s.voice v).wanted z }) ?_)
  simp only
  split
  · exact engineStep_walkMove ho _ _
  · exact EngineStep.refl _

theorem engineStep_tryClaimants {o : Offers} (ho : OffersStep o) (z : ZoneId) (vs : List VoiceId) (s : State)
    (ok : (s.zone z).enabled = true) : EngineStep s (tryClaimants o z vs s) := by
  induction vs with
  | nil => exact EngineStep.refl s
  | cons v vs ih =>
    unfold tryClaimants
    split
    · split
      · exact ih
      · split
        · next h => exact engineStep_grantClaim ho _ _ _ _ (evaluateClaim_enabled h)
        · exact ih
    · exact engineStep_takeOffered ho _ _ _ ok

theorem engineStep_offerZone {o : Offers} (ho : OffersStep o) (z : ZoneId) (s : State) : EngineStep s (offerZone o z s) := by
  unfold offerZone
  split
  · exact EngineStep.refl s
  · next h =>
    refine engineStep_tryClaimants ho _ _ _ ?_
    cases he : (s.zone z).enabled <;> simp_all

theorem offersStep_offerZones {o : Offers} (ho : OffersStep o) : OffersStep (offerZones o) := by
  intro zs s
  apply EngineStep.foldl
  intro s z
  split
  · exact engineStep_offerZone ho _ _
  · exact EngineStep.refl s

theorem offersStep_offersWithin (n : Nat) : OffersStep (offersWithin n) := by
  induction n with
  | zero => exact offersStep_noOffers
  | succ n ih => exact offersStep_offerZones ih

/-- The offers that an event makes. -/
theorem offersStep_offers : OffersStep offers := offersStep_offersWithin 8

/-! ### Allocation and starts -/

theorem numberAfter_bounds (n : Nat) : 1 ≤ numberAfter n ∧ numberAfter n ≤ 4294967295 := by
  unfold numberAfter Config.greatestNumber
  split <;> omega

theorem engineStep_returnToIdle (v : VoiceId) (s : State) : EngineStep s (returnToIdle v s) := engineStep_setVoice _ _ _

theorem engineStep_allocate (v : VoiceId) (origin : Origin) (order : StartOrder) (s : State) :
    EngineStep s (allocate v origin order s) := by
  unfold allocate
  simp only
  refine EngineStep.trans (t := { s with engine.nextStart := numberAfter (issuedNumber s) }) ?_
    ((engineStep_setVoice _ _ _).trans (engineStep_stepStart offersStep_offers _ _))
  exact { EngineStep.refl s with counter := fun _ => numberAfter_bounds _ }

theorem engineStep_startVoice (origin : Origin) (order : Option StartOrder) (s : State) :
    EngineStep s (startVoice origin order s).1 := by
  unfold startVoice
  split
  · exact EngineStep.refl s
  · next o v _ =>
    have a := engineStep_allocate v origin o s
    simp only
    have b := a.trans (engineStep_claimZones offersStep_offers v o _)
    split
    · next h => rw [h] at b; exact b
    · next h => rw [h] at b; exact b
    · next h => rw [h] at b; exact b.trans (engineStep_returnToIdle _ _)

end Sys2Proof.Machine
end

