-- ==== Sys2Proof/Laws/Events.lean ====
section
/-! SUPPORT. What the shapes of a command do (an event, a guarded event, a request), and what the start of V6, a frame event and the
completion of a fetch may change. -/

namespace Sys2Proof.Machine

/-! ### Events and requests -/

theorem event_taken {f : State → State} {s : State} (h : s.inReset = false) : event f s = .next (f s) := by
  simp [event, h]

theorem event_inReset {f : State → State} {s : State} (h : s.inReset = true) : event f s = .next s := by
  simp [event, h]

theorem eventWhen_taken {g : State → Bool} {f : State → State} {s : State} (h : s.inReset = false) (hg : g s = true) :
    eventWhen g f s = .next (f s) := by
  simp [eventWhen, event, h, hg]

theorem eventWhen_not {g : State → Bool} {f : State → State} {s : State} (hg : g s = false) :
    eventWhen g f s = .next s := by
  simp [eventWhen, event, hg]

theorem eventWhen_inReset {g : State → Bool} {f : State → State} {s : State} (h : s.inReset = true) :
    eventWhen g f s = .next s := by
  simp [eventWhen, event, h]

/-- A request that is taken is served by its block, and its reply is owed (R179). -/
theorem request_taken {kind tag : Byte} {serve : State → Served} {s : State} (h : s.inReset = false)
    (late : s.frameIsLate = false) : request kind tag serve s = .next (owe kind tag false (serve (hunt s))) := by
  simp [request, event, requestFrame, h, late]

/-- A request whose frame was begun while a reply was owed is an overrun (R180). -/
theorem request_late {kind tag : Byte} {serve : State → Served} {s : State} (h : s.inReset = false)
    (late : s.frameIsLate = true) :
    request kind tag serve s =
      .next (hunt { s with link.overruns := riseTo Config.greatestCount s.link.overruns }) := by
  simp [request, event, requestFrame, h, late]

theorem request_inReset {kind tag : Byte} {serve : State → Served} {s : State} (h : s.inReset = true) :
    request kind tag serve s = .next s := by
  simp [request, event, h]

/-- An event answers a next state. -/
theorem event_answers (f : State → State) (s : State) : ∃ t, event f s = .next t := ⟨_, rfl⟩

theorem eventWhen_answers (g : State → Bool) (f : State → State) (s : State) : ∃ t, eventWhen g f s = .next t := ⟨_, rfl⟩

theorem request_answers (kind tag : Byte) (serve : State → Served) (s : State) : ∃ t, request kind tag serve s = .next t :=
  ⟨_, rfl⟩

/-! ### The reply that becomes owed -/

@[simp] theorem owe_answer (kind tag : Byte) (r : Bool) (s : State) (st : Status) (fields : List Byte) :
    owe kind tag r (answer s st fields) = { s with link.owed := .sending (frameBytes kind tag (st.code :: fields)) r } := rfl

@[simp] theorem owe_answerOnly (kind tag : Byte) (r : Bool) (s : State) (st : Status) :
    owe kind tag r (answerOnly s st) = { s with link.owed := .sending (frameBytes kind tag [st.code]) r } := rfl

/-! ### Numbers that a request carries (R190) -/

theorem oneBased_eq {n : Nat} {m : Nat} {i : Fin n} (h : m = i.val + 1) : oneBased n m = some i := by
  unfold oneBased; rw [dif_pos (by omega)]; subst h; rfl

theorem oneBased_none {n m : Nat} (h : m = 0 ∨ n < m) : oneBased n m = none := by
  unfold oneBased; rw [dif_neg (by omega)]

theorem below_eq {n m : Nat} {i : Fin n} (h : m = i.val) : below n m = some i := by
  unfold below; rw [dif_pos (by omega)]; subst h; rfl

theorem below_none {n m : Nat} (h : n ≤ m) : below n m = none := by
  unfold below; rw [dif_neg (by omega)]

/-! ### The start of V6 -/

/-- The start of V6 is a step of the engine but for the override start result it shows. -/
theorem startOverride_step (s : State) :
    ∃ t r, EngineStep s t ∧ startOverride s = { t with inputs.overrideResult := r } := by
  unfold startOverride
  split
  · exact ⟨s, _, EngineStep.refl s, rfl⟩
  · next p _ =>
    have a := engineStep_allocate overrideVoice .override (overrideOrder p s) s
    have b := a.trans (engineStep_claimZones offersStep_offers overrideVoice (overrideOrder p s) _)
    simp only
    split
    · next h => rw [h] at b; exact ⟨_, _, b, rfl⟩
    · next h => rw [h] at b; exact ⟨_, _, b, rfl⟩
    · next h => rw [h] at b; exact ⟨_, _, b.trans (engineStep_returnToIdle _ _), rfl⟩

/-! ### A frame event -/

theorem engineStep_underrunFrame (v : VoiceId) (s : State) : EngineStep s (underrunFrame v s).1 := by
  unfold underrunFrame
  simp only
  split
  · exact (engineStep_setVoice _ _ _).trans (engineStep_setFlag _ _)
  · exact engineStep_setVoice _ _ _

theorem engineStep_bufferFrame (v : VoiceId) (a : ClipAnswer) (value : Int) (s : State) :
    EngineStep s (bufferFrame v a value s).1 := by
  unfold bufferFrame
  simp only
  split
  · exact (engineStep_setVoice _ _ _).trans (engineStep_fetchTest _ _)
  · exact engineStep_setVoice _ _ _

theorem engineStep_clipFrame (v : VoiceId) (a : ClipAnswer) (s : State) : EngineStep s (clipFrame v a s).1 := by
  unfold clipFrame
  simp only
  split
  · exact engineStep_setVoice _ _ _
  · split
    · exact engineStep_bufferFrame _ _ _ _
    · exact engineStep_underrunFrame _ _

theorem engineStep_holdCount (v : VoiceId) (s : State) : EngineStep s (holdCount v s) := by
  unfold holdCount
  simp only
  split
  · exact engineStep_setVoice _ _ _
  · exact EngineStep.refl s
  · exact EngineStep.refl s

theorem engineStep_nextPass (v : VoiceId) (s : State) : EngineStep s (nextPass v s) :=
  (engineStep_setVoice _ _ _).trans (engineStep_fetchTest _ _)

theorem engineStep_passEnd {o : Offers} (ho : OffersStep o) (v : VoiceId) (s : State) : EngineStep s (passEnd o v s) := by
  unfold passEnd
  refine EngineStep.trans (engineStep_setVoice s v
    { s.voice v with passCount := riseTo Config.greatestCount (s.voice v).passCount }) ?_
  simp only
  split
  · exact engineStep_endVoice ho _ _ _
  · split
    · split
      · exact engineStep_nextPass _ _
      · exact engineStep_stepEnd ho _ _
    · split
      · exact engineStep_stepEnd ho _ _
      · exact engineStep_nextPass _ _
    · split
      · exact engineStep_stepEnd ho _ _
      · split
        · exact (engineStep_setVoice _ _ _).trans (engineStep_fetchTest _ _)
        · exact engineStep_stepEnd ho _ _
    · exact EngineStep.refl _
    · exact EngineStep.refl _

theorem engineStep_gapFrame {o : Offers} (ho : OffersStep o) (v : VoiceId) (s : State) : EngineStep s (gapFrame o v s) := by
  unfold gapFrame
  refine EngineStep.trans (engineStep_setVoice s v
    { s.voice v with lastSample := 0, gapTimer := (s.voice v).gapTimer - 1 }) ?_
  simp only
  split
  · exact engineStep_stepEnd ho _ _
  · exact EngineStep.refl _

theorem engineStep_afterYield {o : Offers} (ho : OffersStep o) (v : VoiceId) (s : State) (r : AfterYield) :
    EngineStep s (afterYield o v s r) := by
  cases r
  · exact EngineStep.refl s
  · exact engineStep_passEnd ho _ _
  · exact (engineStep_setVoice _ _ _).trans (engineStep_endVoice ho _ _ _)

theorem engineStep_voicePart (v : VoiceId) (s : State) : EngineStep s (voicePart v s).1 := by
  unfold voicePart
  split
  · simp only
    split
    · exact engineStep_gapFrame offersStep_offers _ _
    · exact EngineStep.refl s
    · exact (engineStep_clipFrame _ _ _).trans ((engineStep_holdCount _ _).trans
        (engineStep_afterYield offersStep_offers _ _ _))
  · exact EngineStep.refl s

theorem engineStep_takeParts (vs : List VoiceId) (s : State) : EngineStep s (takeParts vs s).1 := by
  induction vs generalizing s with
  | nil => exact EngineStep.refl s
  | cons v vs ih => exact (engineStep_voicePart v s).trans (ih _)

/-- A frame event is a step of the engine but for the frame it sends. -/
theorem frame_step (s : State) :
    ∃ t out, EngineStep s t ∧ EngineStep { t with arbiter.output := out } (frame s) := by
  unfold frame
  exact ⟨_, _, engineStep_takeParts allVoices s, engineStep_arbitrate _⟩

/-! ### Fetches and the schedule -/

theorem engineStep_fetchOutcome (v : VoiceId) (good : Bool) (payload : List Byte) (s : State) :
    EngineStep s (fetchOutcome v good payload s) := by
  unfold fetchOutcome
  simp only
  split
  · exact EngineStep.refl s
  · split
    · exact (engineStep_setVoice _ _ _).trans (engineStep_fetchTest _ _)
    · exact (engineStep_setVoice _ _ _).trans (engineStep_fetchTest _ _)

/-- The completion of a fetch is a step of the engine once the port is idle. -/
theorem engineStep_fetchDone (good : Bool) {s : State} {v : VoiceId} {b : BlockNo} {p : PageNo}
    (h : s.store.port = .fetch v b p) : EngineStep (s.setPort .idle) (fetchDone good s) := by
  unfold fetchDone
  split
  · simp only
    split
    · exact (engineStep_fetchOutcome _ _ _ _).trans (engineStep_arbitrate _)
    · exact (engineStep_setFlag _ _).trans ((engineStep_fetchOutcome _ _ _ _).trans (engineStep_arbitrate _))
  · next h' => exact absurd h (h' v b p)

theorem mem_allVoices (v : VoiceId) : v ∈ allVoices := by revert v; decide

end Sys2Proof.Machine
end

