-- ==== Sys2Proof/Laws/Voices.lean ====
section
/-! SUPPORT. What the arbiter, the test for a fetch, the taking and freeing of zones and a claim of free zones change. -/

namespace Sys2Proof.Machine

/-! ### The arbiter and the test for a fetch -/

/-- From s to t nothing changes but the flash port, the pending readback and the voices' fetches. -/
structure FetchStep (s t : State) : Prop where
  rest : t = { s with store.port := t.store.port, store.readback := t.store.readback, engine.voices := t.engine.voices }
  voice : ∀ w, t.voice w = { s.voice w with fetch := (t.voice w).fetch }

theorem FetchStep.refl (s : State) : FetchStep s s := ⟨rfl, fun _ => rfl⟩

theorem FetchStep.trans {s t u : State} (a : FetchStep s t) (b : FetchStep t u) : FetchStep s u := by
  refine ⟨?_, fun w => ?_⟩
  · have h1 := a.rest; have h2 := b.rest
    rw [h1] at h2; exact h2
  · have h1 := a.voice w; have h2 := b.voice w
    rw [h1] at h2; exact h2

theorem fetchStep_setPort (s : State) (p : Port) : FetchStep s (s.setPort p) := ⟨rfl, fun _ => rfl⟩

theorem fetchStep_setVoice (s : State) (v : VoiceId) (f : Option Fetch) :
    FetchStep s (s.setVoice v { s.voice v with fetch := f }) := by
  refine ⟨rfl, fun w => ?_⟩
  rw [voice_setVoice]; split
  · next h => subst h; rfl
  · rfl

theorem fetchStep_grantFetch (v : VoiceId) (s : State) : FetchStep s (grantFetch v s) := by
  unfold grantFetch
  split
  · next f hf => exact (fetchStep_setVoice s v _).trans (fetchStep_setPort _ _)
  · exact FetchStep.refl s

theorem fetchStep_grantProgram (p : LoadPage) (s : State) : FetchStep s (grantProgram p s) := by
  unfold grantProgram
  split
  · exact FetchStep.refl s
  · split
    · exact FetchStep.refl s
    · exact fetchStep_setPort s _

theorem fetchStep_arbitrateArrival (s : State) : FetchStep s (arbitrateArrival s) := by
  unfold arbitrateArrival
  split
  · unfold grantRequest
    split
    · exact fetchStep_grantFetch _ s
    · split
      · exact fetchStep_grantProgram _ s
      · split
        · exact ⟨rfl, fun _ => rfl⟩
        · exact FetchStep.refl s
  · exact FetchStep.refl s

theorem fetchStep_arbitrate (s : State) : FetchStep s (arbitrate s) := by
  unfold arbitrate; simp only
  refine (fetchStep_arbitrateArrival s).trans ?_
  split
  · split
    · split
      · exact FetchStep.refl _
      · exact fetchStep_setPort _ _
    · exact FetchStep.refl _
  · exact FetchStep.refl _

/-- A test for a further fetch changes of its own voice the fetch and the fetch point, of the others the fetch at most. -/
theorem fetchTest_step (v : VoiceId) (s : State) :
    fetchTest v s = { s with
      store.port := (fetchTest v s).store.port, store.readback := (fetchTest v s).store.readback
      engine.voices := (fetchTest v s).engine.voices } ∧
    (fetchTest v s).voice v = { s.voice v with
      fetch := ((fetchTest v s).voice v).fetch, fetchPage := ((fetchTest v s).voice v).fetchPage
      fetchPass := ((fetchTest v s).voice v).fetchPass } ∧
    ∀ w, w ≠ v → (fetchTest v s).voice w = { s.voice w with fetch := ((fetchTest v s).voice w).fetch } := by
  unfold fetchTest
  split
  · have a := fetchStep_arbitrateArrival (s.setVoice v (s.voice v).withRequest)
    refine ⟨a.rest, ?_, fun w hw => ?_⟩
    · have h := a.voice v
      rw [h, voice_setVoice, if_pos rfl]
      unfold Voice.withRequest
      split
      · rfl
      · split
        · rfl
        · simp only; split <;> rfl
    · have h := a.voice w
      rw [voice_setVoice, if_neg hw] at h
      exact h
  · exact ⟨rfl, rfl, fun _ _ => rfl⟩

/-! ### Zones taken and freed -/

/-- A fold that replaces the records of some zones replaces those and nothing else. -/
theorem foldl_setZone (p : ZoneId → Bool) (f : Zone → Zone) (l : List ZoneId) (nodup : l.Nodup) (s : State) :
    (let t := l.foldl (fun s z => if p z then s.setZone z (f (s.zone z)) else s) s
     t = { s with arbiter.zones := t.arbiter.zones } ∧
     ∀ w, t.zone w = if w ∈ l ∧ p w = true then f (s.zone w) else s.zone w) := by
  induction l generalizing s with
  | nil => exact ⟨rfl, by simp⟩
  | cons a l ih =>
    simp only [List.nodup_cons] at nodup
    simp only [List.foldl_cons]
    have h := ih nodup.2 (if p a then s.setZone a (f (s.zone a)) else s)
    simp only at h
    refine ⟨?_, fun w => ?_⟩
    · have h1 := h.1
      by_cases hp : p a = true
      · rw [if_pos hp] at h1 ⊢; exact h1
      · rw [if_neg hp] at h1 ⊢; exact h1
    · rw [h.2 w]
      by_cases hp : p a = true <;> simp only [hp, if_true, Bool.false_eq_true, if_false, zone_setZone, List.mem_cons]
      · by_cases hw : w = a
        · subst hw; simp [nodup.1, hp]
        · simp [hw]
      · by_cases hw : w = a
        · subst hw; simp [nodup.1, hp]
        · simp [hw]

theorem takeZones_step (v : VoiceId) (priority : Nat) (zs : SetByte) (s : State) :
    takeZones v priority zs s = { s with arbiter.zones := (takeZones v priority zs s).arbiter.zones } ∧
    ∀ z, (takeZones v priority zs s).zone z =
      if hasZone zs z = true then { s.zone z with holder := some (v, priority) } else s.zone z := by
  have h := foldl_setZone (hasZone zs) (fun x => { x with holder := some (v, priority) }) allZones nodup_allZones s
  refine ⟨h.1, fun z => ?_⟩
  have h2 := h.2 z
  simp only [mem_allZones, true_and] at h2
  exact h2

theorem holds_congr {s t : State} (v : VoiceId) {z : ZoneId} (h : t.zone z = s.zone z) : t.holds v z = s.holds v z := by
  simp [State.holds, h]

/-- What freeing one zone of a voice does. -/
def freeZone (v : VoiceId) (s : State) (z : ZoneId) : State :=
  if s.holds v z then s.setZone z { s.zone z with holder := none } else s

theorem zone_freeZone (v : VoiceId) (s : State) (a w : ZoneId) :
    (freeZone v s a).zone w = if w = a ∧ s.holds v w = true then { s.zone w with holder := none } else s.zone w := by
  unfold freeZone
  by_cases hw : w = a
  · subst hw; split <;> simp_all
  · split <;> simp [hw]

theorem freeZone_only (v : VoiceId) (s : State) (a : ZoneId) :
    freeZone v s a = { s with arbiter.zones := (freeZone v s a).arbiter.zones } := by
  unfold freeZone; split <;> rfl

theorem foldl_freeZone (v : VoiceId) (l : List ZoneId) (nodup : l.Nodup) (s : State) :
    (∃ zs, l.foldl (freeZone v) s = { s with arbiter.zones := zs }) ∧
    ∀ w, (l.foldl (freeZone v) s).zone w =
      if w ∈ l ∧ s.holds v w = true then { s.zone w with holder := none } else s.zone w := by
  induction l generalizing s with
  | nil => exact ⟨⟨s.arbiter.zones, rfl⟩, by simp⟩
  | cons a l ih =>
    simp only [List.nodup_cons] at nodup
    simp only [List.foldl_cons]
    obtain ⟨⟨zs, h1⟩, h2⟩ := ih nodup.2 (freeZone v s a)
    refine ⟨⟨zs, h1.trans ?_⟩, fun w => ?_⟩
    · rw [freeZone_only]
    · rw [h2 w]
      by_cases hw : w = a
      · subst hw
        simp only [nodup.1, false_and, if_false, List.mem_cons, true_or, true_and, zone_freeZone]
      · have e : (freeZone v s a).zone w = s.zone w := by simp [zone_freeZone, hw]
        rw [e, holds_congr v e]; simp [hw]

/-- The zones a voice holds are freed and nothing else changes. -/
theorem freeZones_step (v : VoiceId) (s : State) :
    freeZones v s = { s with arbiter.zones := (freeZones v s).arbiter.zones } ∧
    ∀ z, (freeZones v s).zone z = if s.holds v z = true then { s.zone z with holder := none } else s.zone z := by
  have h := foldl_freeZone v allZones nodup_allZones s
  have e : freeZones v s = allZones.foldl (freeZone v) s := rfl
  rw [e]
  obtain ⟨⟨zs, h1⟩, h2⟩ := h
  refine ⟨by rw [h1], fun z => ?_⟩
  rw [h2 z]; simp [mem_allZones]

/-- Choosing a walk zone changes nothing but the walk zone and the walked set of its voice. -/
theorem chooseWalkZone_step (v : VoiceId) (s : State) :
    chooseWalkZone v s = { s with engine.voices := (chooseWalkZone v s).engine.voices } ∧
    (chooseWalkZone v s).voice v =
      { s.voice v with walkZone := ((chooseWalkZone v s).voice v).walkZone, walked := ((chooseWalkZone v s).voice v).walked } ∧
    ∀ w, w ≠ v → (chooseWalkZone v s).voice w = s.voice w := by
  unfold chooseWalkZone; simp only
  split
  · split
    · refine ⟨rfl, by simp, fun w hw => by simp [hw]⟩
    · exact ⟨rfl, rfl, fun _ _ => rfl⟩
  · exact ⟨rfl, rfl, fun _ _ => rfl⟩

/-- A voice becomes ACTIVE. -/
theorem becomeActive_step (v : VoiceId) (wanted : SetByte) (s : State) :
    becomeActive v wanted s = { s with
      engine.voices := (becomeActive v wanted s).engine.voices, arbiter.waiting := s.arbiter.waiting.filter (· ≠ v) } ∧
    (becomeActive v wanted s).voice v = { s.voice v with
      state := .active, wanted := wanted, discardTimer := 0, waitTimer := 0
      walkZone := ((becomeActive v wanted s).voice v).walkZone, walked := ((becomeActive v wanted s).voice v).walked } ∧
    ∀ w, w ≠ v → (becomeActive v wanted s).voice w = s.voice w := by
  unfold becomeActive; simp only
  obtain ⟨h1, h2, h3⟩ := chooseWalkZone_step v (leaveWaiting v
    (s.setVoice v { s.voice v with state := .active, wanted := wanted, discardTimer := 0, waitTimer := 0 }))
  refine ⟨h1, ?_, fun w hw => ?_⟩
  · have e : (leaveWaiting v (s.setVoice v { s.voice v with state := .active, wanted := wanted, discardTimer := 0, waitTimer := 0 })).voice v
        = { s.voice v with state := .active, wanted := wanted, discardTimer := 0, waitTimer := 0 } := by
      show (s.setVoice v _).voice v = _
      simp
    rw [e] at h2; exact h2
  · rw [h3 w hw]
    show (s.setVoice v _).voice w = _
    simp [hw]

/-! ### Claims of free zones -/

theorem hasZone_heldSet (s : State) (v : VoiceId) (z : ZoneId) : hasZone (s.heldSet v) z = s.holds v z := by
  unfold State.heldSet zonesWhere
  rw [hasZone_foldl_add]
  simp [mem_allZones, hasZone]

theorem setByte_ext {a b : SetByte} (h : ∀ z : ZoneId, hasZone a z = hasZone b z) : a = b := by
  apply BitVec.eq_of_getLsbD_eq
  intro i hi
  exact h ⟨i, hi⟩

/-- No voice loses a zone to a claim whose zones have no holder. -/
theorem losersOf_free {v : VoiceId} {zs : SetByte} {s : State}
    (free : ∀ z, hasZone zs z = true → (s.zone z).holder = none) : losersOf v zs s = [] := by
  unfold losersOf
  rw [List.filter_eq_nil_iff]
  intro w _
  simp only [decide_eq_true_eq, not_and, Decidable.not_not]
  intro _
  apply setByte_ext
  intro z
  have hz : hasZone (s.heldSet w &&& zs) z = (s.holds w z && hasZone zs z) := by
    rw [← hasZone_heldSet]; simp [hasZone]
  rw [hz]
  cases h : hasZone zs z
  · simp [hasZone]
  · simp [State.holds, free z h, hasZone]

/-- Nothing is freed between a state and itself. -/
theorem freedBetween_self (s : State) : freedBetween s s = 0 := by
  apply setByte_ext; intro z
  unfold freedBetween
  rw [hasZone_zonesWhere]
  cases (s.zone z).holder <;> simp [hasZone]

/-- An offer of no zone changes nothing. -/
theorem offers_none (s : State) : offers 0 s = s := by
  have key : ∀ l : List ZoneId, l.foldl (fun s z => if hasZone 0 z then offerZone (offersWithin 7) z s else s) s = s := by
    intro l
    induction l with
    | nil => rfl
    | cons a l ih => simpa [hasZone] using ih
  exact key allZones

/-- Without losers there is nobody to tell. -/
theorem tellLosers_nil (s : State) : tellLosers offers [] s = s := by
  simp only [tellLosers, List.foldl_nil, freedBetween_self, offers_none]

/-- A grant of zones without a holder. -/
theorem grantClaim_free {v : VoiceId} {order : StartOrder} {zs : SetByte} {s : State}
    (free : ∀ z, hasZone zs z = true → (s.zone z).holder = none) :
    grantClaim offers v order zs s = becomeActive v (order.zones &&& ~~~ zs) (takeZones v order.priority zs s) := by
  simp [grantClaim, losersOf_free free, tellLosers_nil]

/-- A claim that is granted zones without a holder. -/
theorem claimZones_free {v : VoiceId} {order : StartOrder} {zs : SetByte} {s : State}
    (h : evaluateClaim order s = some zs) (free : ∀ z, hasZone zs z = true → (s.zone z).holder = none) :
    claimZones offers v order s =
      (becomeActive v (order.zones &&& ~~~ zs) (takeZones v order.priority zs s), .granted) := by
  simp [claimZones, h, grantClaim_free free]

/-! ### Claim sets (R100) and the choice of a fetch (R14) -/

theorem enabledSet_has (s : State) (z : ZoneId) : hasZone s.enabledSet z = (s.zone z).enabled := by
  unfold State.enabledSet zonesWhere; rw [hasZone_foldl_add]; simp [mem_allZones, hasZone]
theorem claimSet_has (o : StartOrder) (s : State) (z : ZoneId) :
    hasZone (claimSet o s) z = (hasZone o.zones z && (s.zone z).enabled) := by
  rw [← enabledSet_has]; simp [claimSet, hasZone]
theorem grantableSet_has (o : StartOrder) (s : State) (z : ZoneId) :
    hasZone (grantableSet o s) z = (hasZone (claimSet o s) z && grantable o.priority s z) := by
  unfold grantableSet zonesWhere; rw [hasZone_foldl_add]; simp [mem_allZones, hasZone]
theorem hasZone_zero (z : ZoneId) : hasZone 0 z = false := by simp [hasZone]

/-- A claim of free enabled zones takes them all (R101, R102). -/
theorem evaluateClaim_free {o : StartOrder} {s : State} (hz : o.zones ≠ 0)
    (h : ∀ z, hasZone o.zones z = true → (s.zone z).enabled = true ∧ (s.zone z).holder = none) :
    evaluateClaim o s = some o.zones := by
  have en : ∀ z, hasZone s.enabledSet z = (s.zone z).enabled := by
    intro z; unfold State.enabledSet zonesWhere; rw [hasZone_foldl_add]; simp [mem_allZones, hasZone]
  have cs : claimSet o s = o.zones := by
    apply setByte_ext; intro z
    have : hasZone (claimSet o s) z = (hasZone o.zones z && hasZone s.enabledSet z) := by simp [claimSet, hasZone]
    rw [this, en]
    cases hh : hasZone o.zones z
    · rfl
    · simp [(h z hh).1]
  have gs : grantableSet o s = o.zones := by
    apply setByte_ext; intro z
    unfold grantableSet zonesWhere; rw [hasZone_foldl_add, cs]
    have : hasZone 0 z = false := by simp [hasZone]
    rw [this]
    cases hh : hasZone o.zones z
    · simp
    · simp [mem_allZones, grantable, (h z hh).2]
  unfold evaluateClaim; simp only [gs, cs, if_neg hz, if_true]; split <;> rfl

/-- The general voice with the fewest buffer bytes, lowest number first, is chosen (R14). -/
theorem chooseFetch_general {s : State} {v : VoiceId} (h6 : (s.voice 6).fetchPending = false) (hv : v ≠ 6)
    (hp : (s.voice v).fetchPending = true)
    (hmin : ∀ w : VoiceId, w ≠ v → (s.voice w).fetchPending = true →
          (s.voice v).bufferBytes < (s.voice w).bufferBytes ∨
            ((s.voice v).bufferBytes = (s.voice w).bufferBytes ∧ v < w)) : chooseFetch s = some v := by
  unfold chooseFetch overrideVoice
  rw [h6]; simp only [Bool.false_eq_true, if_false]
  -- invariant over a list
  have key : ∀ (l : List VoiceId) (best : Option VoiceId),
      (∀ b, best = some b → (s.voice b).fetchPending = true) → 
      (l.Pairwise (· < ·)) → (∀ b, best = some b → ∀ x ∈ l, b < x) →
      (v ∈ l ∨ best = some v) →
      l.foldl (fun best v => if (s.voice v).fetchPending then
        match best with
        | none => some v
        | some w => if (s.voice v).bufferBytes < (s.voice w).bufferBytes then some v else best
        else best) best = some v := by
    intro l
    induction l with
    | nil => intro best _ _ _ h; simpa using h
    | cons a l ih =>
      intro best hb hpw hlt hin
      simp only [List.foldl_cons]
      rw [List.pairwise_cons] at hpw
      apply ih
      · intro b hbb
        split at hbb
        · next hap =>
          split at hbb
          · cases hbb; exact hap
          · split at hbb
            · cases hbb; exact hap
            · next e _ => exact hb b (by simpa using hbb)
        · exact hb b hbb
      · exact hpw.2
      · intro b hbb x hx
        split at hbb
        · split at hbb
          · cases hbb; exact hpw.1 x hx
          · split at hbb
            · cases hbb; exact hpw.1 x hx
            · exact hlt b (by simpa using hbb) x (by simp [hx])
        · exact hlt b hbb x (by simp [hx])
      · rcases hin with hin | hin
        · rcases List.mem_cons.1 hin with rfl | hin
          · right
            rw [if_pos hp]
            split
            · rfl
            · next w =>
              have hw := hb w rfl
              have hwv : w < v := hlt w rfl v (by simp)
              rcases hmin w (by intro h; subst h; exact absurd hwv (by simp)) hw with h | ⟨_, h⟩
              · rw [if_pos h]
              · exact absurd (Fin.lt_trans h hwv) (by simp)
          · left; exact hin
        · right
          subst hin
          split
          · next hap =>
            have hva : v < a := hlt v rfl a (by simp)
            simp only
            rcases hmin a (by intro h; subst h; exact absurd hva (by simp)) hap with h | ⟨h, _⟩
            · rw [if_neg (by omega)]
            · rw [if_neg (by omega)]
          · rfl
  apply key
  · intro b h; cases h
  · decide
  · intro b h; cases h
  · left
    have : ∀ w : VoiceId, w ≠ 6 → w ∈ generalVoices := by decide
    exact this v hv

/-! ### Voices replaced one after another -/

theorem voice_foldl_setVoice (f : Voice → Voice) (l : List VoiceId) (h : l.Nodup) (s : State) (v : VoiceId) :
    (l.foldl (fun s w => s.setVoice w (f (s.voice w))) s).voice v = if v ∈ l then f (s.voice v) else s.voice v := by
  induction l generalizing s with
  | nil => simp
  | cons a l ih =>
    simp only [List.nodup_cons] at h
    simp only [List.foldl_cons, ih h.2, voice_setVoice, List.mem_cons]
    by_cases hv : v = a
    · subst hv; simp [h.1]
    · simp [hv]

theorem foldl_setVoice_only (f : Voice → Voice) (l : List VoiceId) (s : State) :
    ∃ vs, l.foldl (fun s w => s.setVoice w (f (s.voice w))) s = { s with engine.voices := vs } := by
  induction l generalizing s with
  | nil => exact ⟨s.engine.voices, rfl⟩
  | cons a l ih =>
    obtain ⟨vs, h⟩ := ih (s.setVoice a (f (s.voice a)))
    exact ⟨vs, h⟩

end Sys2Proof.Machine
end

