-- ==== Sys2Proof/Laws/Playing.lean ====
section
/-! SUPPORT. What a voice does at a frame event, at a pass end, at a step end and at a step start: one lemma for each function, over the
voice record as it stands. -/

namespace Sys2Proof.Machine

/-! ### One voice replaced twice, or by itself -/

@[simp] theorem setVoice_setVoice (s : State) (v : VoiceId) (x y : Voice) : (s.setVoice v x).setVoice v y = s.setVoice v y := by
  simp only [State.setVoice]
  congr 2
  apply Vector.ext
  intro i hi
  simp only [Vector.getElem_set]
  split <;> rfl

@[simp] theorem setVoice_voice (s : State) (v : VoiceId) : s.setVoice v (s.voice v) = s := by
  have h : s.engine.voices.set v (s.voice v) = s.engine.voices := by
    apply Vector.ext
    intro i hi
    simp only [Vector.getElem_set]
    split
    · next h => subst h; rfl
    · rfl
  simp only [State.setVoice, h]

theorem setFlag_setVoice (f : EventFlag) (s : State) (v : VoiceId) (x : Voice) :
    setFlag f (s.setVoice v x) = (setFlag f s).setVoice v x := rfl

/-! ### Requests of fetches, and their grant (R14, R77) -/

/-- What makes a further page certain at the fetch point, in words (R77). -/
theorem certain_iff (x : Voice) : x.certain = true ↔ match x.step with
      | some (.play _ n) => x.fetchPass = 0 ∨ (x.fetchPass = 1 ∧ x.fetchPage = 0 ∧ x.passCount + 1 < n)
      | some (.hold _ _) => x.fetchPass = 0 ∨
          (x.fetchPass = 1 ∧ x.fetchPage = 0 ∧ x.releaseMark = false ∧ x.holdEndMark = false)
      | some (.walk _) => x.fetchPass = 0
      | some (.gap _) => False
      | none => False := by
  unfold Voice.certain
  rcases x.step with _ | (_ | _ | _ | _) <;> simp [and_assoc]

/-- The conditions of a request for a fetch, in words (R77). -/
theorem wantsFetch_iff (x : Voice) :
    x.wantsFetch = true ↔ x.state ≠ .idle ∧ x.fetch = none ∧ x.buffer.length < 2 ∧ x.certain = true := by
  simp [Voice.wantsFetch, and_assoc]

/-- The requests at positions 1 to 4 of R14 are granted whatever the erase queue holds. -/
theorem grantRequest_queue (s : State) :
    grantRequest { s with store.eraseQueue := [] } = { grantRequest s with store.eraseQueue := [] } := by
  have hcf : chooseFetch { s with store.eraseQueue := [] } = chooseFetch s := rfl
  unfold grantRequest
  rw [hcf]
  cases chooseFetch s with
  | some v =>
    show grantFetch v { s with store.eraseQueue := [] } = { grantFetch v s with store.eraseQueue := [] }
    unfold grantFetch
    have hv : ({ s with store.eraseQueue := [] } : State).voice v = s.voice v := rfl
    rw [hv]
    cases (s.voice v).fetch <;> rfl
  | none =>
    simp only
    cases eligibleHead s.store.buffer with
    | some p =>
      show grantProgram p { s with store.eraseQueue := [] } = { grantProgram p s with store.eraseQueue := [] }
      unfold grantProgram
      have hc : ({ s with store.eraseQueue := [] } : State).clip p.clip = s.clip p.clip := rfl
      rw [hc]
      cases s.clip p.clip with
      | none => rfl
      | some x => simp only; cases x.places.getD p.sequence none <;> rfl
    | none =>
      simp only
      cases hr : s.store.readback <;> simp only [hr] <;> rfl

/-! ### The lowest zone of a held set -/

theorem holds_setVoice (s : State) (v w : VoiceId) (x : Voice) (z : ZoneId) : (s.setVoice v x).holds w z = s.holds w z := rfl
theorem heldSet_setVoice (s : State) (v w : VoiceId) (x : Voice) : (s.setVoice v x).heldSet w = s.heldSet w := rfl

theorem find_least (p : ZoneId → Bool) (l : List ZoneId) (h : l.Pairwise (· < ·)) (z : ZoneId) :
    l.find? p = some z ↔ z ∈ l ∧ p z = true ∧ ∀ y ∈ l, y < z → p y = false := by
  induction l with
  | nil => simp
  | cons a l ih =>
    rw [List.pairwise_cons] at h
    rw [List.find?_cons]
    cases hp : p a
    · simp only [ih h.2, List.mem_cons]
      constructor
      · rintro ⟨h1, h2, h3⟩
        exact ⟨.inr h1, h2, fun y hy hlt => hy.elim (fun e => e ▸ hp) fun hy => h3 y hy hlt⟩
      · rintro ⟨h1, h2, h3⟩
        rcases h1 with rfl | h1
        · rw [hp] at h2; cases h2
        · exact ⟨h1, h2, fun y hy hlt => h3 y (.inr hy) hlt⟩
    · simp only [Option.some.injEq, List.mem_cons]
      constructor
      · rintro rfl
        refine ⟨.inl rfl, hp, fun y hy hlt => ?_⟩
        rcases hy with rfl | hy
        · exact absurd hlt (Fin.lt_irrefl _)
        · exact absurd (Fin.lt_trans hlt (h.1 y hy)) (Fin.lt_irrefl _)
      · rintro ⟨h1, h2, h3⟩
        rcases h1 with rfl | h1
        · rfl
        · have := h3 a (.inl rfl) (h.1 z h1)
          rw [hp] at this; cases this

theorem sorted_allZones : allZones.Pairwise (· < ·) := by decide

/-- The lowest zone of a set that satisfies a test. -/
theorem lowestZone_some {zs : SetByte} {p : ZoneId → Bool} {z : ZoneId} (h : hasZone zs z = true) (hp : p z = true)
    (least : ∀ y, y < z → (hasZone zs y && p y) = false) : lowestZone zs p = some z :=
  (find_least _ _ sorted_allZones z).2 ⟨mem_allZones z, by simp [h, hp], fun y _ hy => least y hy⟩

theorem lowestZone_none {zs : SetByte} {p : ZoneId → Bool} (h : ∀ y, (hasZone zs y && p y) = false) : lowestZone zs p = none := by
  unfold lowestZone
  rw [List.find?_eq_none]
  intro z _
  rw [h z]; simp

/-- The next walk zone is the lowest zone held above a given one (R87, R88). -/
theorem nextWalkZone_some {v : VoiceId} {z y : ZoneId} {s : State} (above : z < y) (held : s.holds v y = true)
    (least : ∀ x, z < x → x < y → s.holds v x = false) : nextWalkZone v z s = some y := by
  refine lowestZone_some (by rw [hasZone_heldSet]; exact held) (by simpa using above) fun x hx => ?_
  rw [hasZone_heldSet]
  by_cases h : z < x
  · simp [least x h hx]
  · simp [h]

theorem nextWalkZone_none {v : VoiceId} {z : ZoneId} {s : State} (h : ∀ y, z < y → s.holds v y = false) :
    nextWalkZone v z s = none := by
  refine lowestZone_none fun y => ?_
  rw [hasZone_heldSet]
  by_cases hy : z < y
  · simp [h y hy]
  · simp [hy]

theorem addZone_zero (z : ZoneId) : addZone 0 z = oneZone z := by simp [addZone]

/-! ### The hold timer (R84) -/

/-- The count of the hold timer changes the hold timer and the hold-end mark of its voice. -/
theorem holdCount_eq (v : VoiceId) (s : State) : holdCount v s = s.setVoice v (s.voice v).holdCounted := by
  have self : ∀ x : Voice, x = s.voice v → s.setVoice v x = s := fun x h => by rw [h, setVoice_voice]
  unfold holdCount Voice.holdCounted
  simp only
  cases h : (s.voice v).holdTimer with
  | none =>
    simp only [Option.map_none, reduceCtorEq, decide_false, Bool.false_and, Bool.or_false]
    exact (self _ (by rw [← h])).symm
  | some n =>
    cases n with
    | zero =>
      simp only [Option.map_some, Nat.zero_sub, Option.some.injEq, Nat.zero_ne_one, decide_false, Bool.false_and, Bool.or_false]
      exact (self _ (by rw [← h])).symm
    | succ n =>
      simp only [Option.map_some, Nat.add_sub_cancel, Option.some.injEq, Nat.add_eq_right]

/-! ### One voice's part in a frame event (R80, R81) -/

/-- The part of a voice in a GAP step: its timer counts down, and at 0 the step ends (R89). -/
theorem voicePart_gap {v : VoiceId} {s : State} {g : Nat} (ha : (s.voice v).state = .active) (hp : (s.voice v).paused = false)
    (hs : (s.voice v).step = some (.gap g)) :
    (let t := s.setVoice v { s.voice v with lastSample := 0, gapTimer := (s.voice v).gapTimer - 1 }
     (1 < (s.voice v).gapTimer → voicePart v s = (t, some { value := 0, only := none })) ∧
     ((s.voice v).gapTimer ≤ 1 → voicePart v s = (stepEnd offers v t, some { value := 0, only := none }))) := by
  have tp : takesPart v s = true := by simp [takesPart, ha, hp]
  refine ⟨fun h => ?_, fun h => ?_⟩
  · have h' : ¬ (s.voice v).gapTimer ≤ 1 := by omega
    simp only [voicePart, tp, hs, if_true, gapFrame, if_neg h']
  · simp only [voicePart, tp, hs, if_true, gapFrame, if_pos h]

/-- The part of a voice in a clip step: its yield, then the count of its hold timer, then what the yield leaves to do (R80). -/
theorem voicePart_clip {v : VoiceId} {s : State} {a : ClipAnswer} {p : Step} {c : ClipId} {only : Option ZoneId}
    (ha : (s.voice v).state = .active) (hp : (s.voice v).paused = false) (hs : (s.voice v).step = some p) (hc : p.clip? = some c)
    (hans : (s.voice v).answer = some a) (ho : only = if (s.voice v).inWalk then (s.voice v).walkZone else none) :
    voicePart v s = (afterYield offers v (((clipFrame v a s).1).setVoice v ((clipFrame v a s).1.voice v).holdCounted) (clipFrame v a s).2,
      some { value := widen a.format ((clipFrame v a s).1.voice v).lastSample, only := only }) := by
  have tp : takesPart v s = true := by simp [takesPart, ha, hp]
  subst ho
  cases p with
  | gap t => cases hc
  | play _ _ => simp only [voicePart, tp, hs, hans, holdCount_eq, if_true]
  | hold _ _ => simp only [voicePart, tp, hs, hans, holdCount_eq, if_true]
  | walk _ => simp only [voicePart, tp, hs, hans, holdCount_eq, if_true]

theorem widen_zero (f : Format) : widen f 0 = 0 := by cases f <;> rfl

theorem lastSample_fetchTest (v : VoiceId) (s : State) : ((fetchTest v s).voice v).lastSample = (s.voice v).lastSample := by
  rw [(fetchTest_step v s).2.1]

/-- The yield of lead-in. -/
theorem clipFrame_leadIn {v : VoiceId} {a : ClipAnswer} {s : State} (h : (s.voice v).leadIn = true) :
    clipFrame v a s = (s.setVoice v { s.voice v with lastSample := 0 }, .nothing) := by
  simp [clipFrame, h]

/-- A yield from the buffer. -/
theorem clipFrame_sample {v : VoiceId} {a : ClipAnswer} {s : State} {value : Int} (h : (s.voice v).leadIn = false)
    (hv : (s.voice v).sampleAtPosition = some value) : clipFrame v a s = bufferFrame v a value s := by
  simp [clipFrame, h, hv]

/-- A frame without the sample in the buffer. -/
theorem clipFrame_underrun {v : VoiceId} {a : ClipAnswer} {s : State} (h : (s.voice v).leadIn = false)
    (hv : (s.voice v).sampleAtPosition = none) : clipFrame v a s = underrunFrame v s := by
  simp [clipFrame, h, hv]

/-- The first yield of an 8 kHz sample. -/
theorem bufferFrame_first {v : VoiceId} {a : ClipAnswer} {s : State} {value : Int} (hr : a.rate = .khz8)
    (h2 : (s.voice v).secondPhase = false) : bufferFrame v a value s =
      (s.setVoice v { s.voice v with secondPhase := true, lastSample := value, underRun := 0 }, .nothing) := by
  simp [bufferFrame, Voice.advance, hr, h2, Voice.pageConsumed]

theorem pageSamples_eq (f : Format) : f.pageSamples = 2048 / f.size := rfl

/-- The last yield of a sample: within a page, past a page's last sample, past the clip's last sample. -/
theorem bufferFrame_last {v : VoiceId} {a : ClipAnswer} {s : State} {value : Int} (hr : a.rate = .khz16 ∨ (s.voice v).secondPhase = true) :
    (let n := (s.voice v).position + 1
     let x : Voice := { s.voice v with position := n, secondPhase := false, lastSample := value, underRun := 0 }
     let consumed := fetchTest v (s.setVoice v { x with buffer := x.buffer.drop 1 })
     (n % (2048 / a.format.size) ≠ 0 → n < a.samples → bufferFrame v a value s = (s.setVoice v x, .nothing)) ∧
     (n % (2048 / a.format.size) = 0 → n < a.samples → bufferFrame v a value s = (consumed, .nothing)) ∧
     (a.samples ≤ n → bufferFrame v a value s = (consumed, .passEnd))) := by
  have hn : ¬ (a.rate = .khz8 ∧ (s.voice v).secondPhase = false) := by
    rintro ⟨h1, h2⟩
    rcases hr with h | h
    · rw [h1] at h; cases h
    · rw [h2] at h; cases h
  intro n x consumed
  have adv : ({ s.voice v with lastSample := value, underRun := 0 } : Voice).advance a = x := by
    simp only [Voice.advance]; rw [if_neg hn]
  refine ⟨fun h1 h2 => ?_, fun h1 h2 => ?_, fun h1 => ?_⟩
  · have : x.pageConsumed a = false := by
      simp only [Voice.pageConsumed, pageSamples_eq]
      simp [x, n] at h1 h2 ⊢
      exact ⟨decide_eq_false h1, by omega⟩
    simp [bufferFrame, adv, this]
  · have : x.pageConsumed a = true := by
      simp only [Voice.pageConsumed, pageSamples_eq]
      simp [x, n] at h1 h2 ⊢
      exact .inl (decide_eq_true h1)
    have h3 : ¬ a.samples ≤ x.position := by simp [x, n] at h2 ⊢; omega
    simp only [bufferFrame, adv, this, if_true, if_neg h3]; rfl
  · have : x.pageConsumed a = true := by
      simp only [Voice.pageConsumed]
      simp [x, n] at h1 ⊢
      exact .inr (by omega)
    have h3 : a.samples ≤ x.position := h1
    simp only [bufferFrame, adv, this, if_true, if_pos h3]; rfl

/-- An underrun frame (R81). -/
theorem underrunFrame_eq (v : VoiceId) (s : State) :
    (let t := s.setVoice v { s.voice v with
        underRun := (s.voice v).underRun + 1
        underTotal := if (s.voice v).underTotal < 4294967295 then (s.voice v).underTotal + 1 else (s.voice v).underTotal
        faults := { (s.voice v).faults with underrun := true } }
     underrunFrame v s =
       (if (s.voice v).underRun = 0 then setFlag .underrun t else t, if 1600 ≤ (s.voice v).underRun + 1 then .starve else .nothing)) := by
  simp only [underrunFrame, riseTo, Config.greatestNumber, Config.starvedFrames, Nat.add_eq_right]
  rfl

/-! ### Flushes, pass ends, step ends and step starts -/

/-- A flush withdraws the fetch as R79 says. -/
theorem flushed_eq (f : Option Fetch) : flushed f = withdrawFetch f := by cases f <;> rfl

/-- The context that a latched step sets. -/
theorem latching_eq (x : Voice) (n : Nat) (p : Step) (a : Option ClipAnswer) : x.latching n p a = x.withStep n p a := by
  cases p <;> simp only [Voice.latching, Voice.withStep, Voice.atPassStart, flushed_eq]

/-- What the Clip Map answers (R51). -/
theorem clipAnswer_ready {s : State} {c : ClipId} {x : Clip} (h : s.clip c = some x) (hr : x.state = .ready) :
    s.clipAnswer c = some
      { format := x.format, rate := x.rate
        samples := match x.samples with
          | some k => k
          | none => 0
        blocks := x.places.filterMap id } := by
  simp only [State.clipAnswer, h, hr, if_true, Clip.heldBlocks]
  cases x.samples <;> rfl

theorem clipAnswer_notReady {s : State} {c : ClipId} (h : ∀ x, s.clip c = some x → x.state ≠ .ready) : s.clipAnswer c = none := by
  unfold State.clipAnswer
  cases hc : s.clip c with
  | none => rfl
  | some x => simp [h x hc]

/-- The walk zone is chosen (R86). -/
theorem chooseWalkZone_some {v : VoiceId} {s : State} {c : ClipId} {z : ZoneId} (ha : (s.voice v).state = .active)
    (hw : (s.voice v).step = some (.walk c)) (hn : (s.voice v).walkZone = none) (held : s.holds v z = true)
    (least : ∀ y, y < z → s.holds v y = false) :
    chooseWalkZone v s = s.setVoice v { s.voice v with walkZone := some z, walked := (s.voice v).walked ||| oneZone z } := by
  have iw : (s.voice v).inWalk = true := by simp [Voice.inWalk, hw]
  have hz : lowestZone (s.heldSet v) (fun _ => true) = some z :=
    lowestZone_some (by rw [hasZone_heldSet]; exact held) rfl fun y hy => by rw [hasZone_heldSet, least y hy]; rfl
  simp only [chooseWalkZone, ha, iw, hn, and_self, if_true, hz]; rfl

theorem chooseWalkZone_not {v : VoiceId} {s : State}
    (h : (s.voice v).state ≠ .active ∨ (∀ c, (s.voice v).step ≠ some (.walk c)) ∨ (s.voice v).walkZone ≠ none ∨
      ∀ z, s.holds v z = false) : chooseWalkZone v s = s := by
  unfold chooseWalkZone; simp only
  split
  · next hc =>
    split
    · next z hz =>
      rcases h with h | h | h | h
      · exact absurd hc.1 h
      · exfalso
        have := hc.2.1
        unfold Voice.inWalk at this
        split at this
        · next c hs => exact h c hs
        · cases this
      · exact absurd hc.2.2 h
      · have := (find_least _ _ sorted_allZones z).1 hz
        rw [hasZone_heldSet, h z] at this
        simp at this
    · rfl
  · rfl

/-- Before the first voice that takes part nothing has changed. -/
theorem atTurn_first {v : VoiceId} {s : State} (h : ∀ w, w < v → takesPart w s = false) : atTurn v s = s := by
  have key : ∀ l : List VoiceId, (∀ w ∈ l, takesPart w s = false) → (takeParts l s).1 = s := by
    intro l
    induction l with
    | nil => intro _; rfl
    | cons w l ih =>
      intro hl
      have : voicePart w s = (s, none) := by simp [voicePart, hl w (by simp)]
      simp only [takeParts, this]
      exact ih fun x hx => hl x (by simp [hx])
  apply key
  intro w hw
  apply h
  have : ∀ v w : VoiceId, w ∈ allVoices.takeWhile (· ≠ v) → w < v := by decide
  exact this v w hw

theorem takeParts_append (l m : List VoiceId) (s : State) : (takeParts (l ++ m) s).1 = (takeParts m (takeParts l s).1).1 := by
  induction l generalizing s with
  | nil => rfl
  | cons v l ih => simp only [List.cons_append, takeParts]; exact ih _

/-- What a voice's part leaves is what the frame event goes on from. -/
theorem partLeaves_of {v : VoiceId} {s t : State} (h : (voicePart v (atTurn v s)).1 = t) : PartLeaves v s t := by
  refine ⟨h, (formSlots (takeParts allVoices s).1 (takeParts allVoices s).2), ?_⟩
  have order : ∀ v : VoiceId, allVoices = allVoices.takeWhile (· ≠ v) ++ v :: allVoices.filter (v < ·) := by decide
  have : (takeParts allVoices s).1 = (takeParts (allVoices.filter (v < ·)) t).1 := by
    rw [show takeParts allVoices s = takeParts (allVoices.takeWhile (· ≠ v) ++ v :: allVoices.filter (v < ·)) s from
      congrArg (takeParts · s) (order v), takeParts_append]
    show (takeParts _ (voicePart v (atTurn v s)).1).1 = _
    rw [h]
  rw [← this]; rfl

/-- A row that stands for the frame event at which it comes about (log entry 16). -/
theorem frameRow {p : Voice → Bool} {v : VoiceId} {s : State} (hr : s.inReset = false) (hb : s.arbiter.bus = .running)
    (ha : ((atTurn v s).voice v).state = .active) (hp : ((atTurn v s).voice v).paused = false) (h : p ((atTurn v s).voice v) = true) :
    eventWhen (atTurnHolds p v) frame s = .next (frame s) := by
  apply eventWhen_taken hr
  simp [atTurnHolds, busRuns, hb, takesPart, ha, hp, h]

/-- A yield leaves the hold timer and the marks as they were. -/
theorem clipFrame_marks (v : VoiceId) (a : ClipAnswer) (s : State) :
    ((clipFrame v a s).1.voice v).holdTimer = (s.voice v).holdTimer ∧
    ((clipFrame v a s).1.voice v).holdEndMark = (s.voice v).holdEndMark ∧
    ((clipFrame v a s).1.voice v).releaseMark = (s.voice v).releaseMark := by
  have adv : ∀ (x : Voice), (x.advance a).holdTimer = x.holdTimer ∧ (x.advance a).holdEndMark = x.holdEndMark ∧
      (x.advance a).releaseMark = x.releaseMark := by
    intro x; unfold Voice.advance; split <;> exact ⟨rfl, rfl, rfl⟩
  unfold clipFrame; simp only
  split
  · simp
  · split
    · unfold bufferFrame; simp only
      split
      · rw [(fetchTest_step v _).2.1]; simp only [voice_setVoice, if_true]; exact adv _
      · simp only [voice_setVoice, if_true]; exact adv _
    · unfold underrunFrame; simp only
      split <;> simp

end Sys2Proof.Machine
end

