-- ==== Sys2Proof/Laws/Store.lean ====
section
/-! SUPPORT. What setting a flag, queuing, releasing and formatting a block do, alone and over a list of blocks; the load buffer; the
clips that CLIP.LIST finds. -/

namespace Sys2Proof.Machine

/-! ### Flags -/

theorem position_lt (f : EventFlag) : f.position < 20 := by
  cases f <;> simp only [EventFlag.position] <;> omega

theorem position_inj {f g : EventFlag} : f.position = g.position ↔ f = g := by
  constructor
  · intro h
    cases f <;> cases g <;> simp only [EventFlag.position] at h <;> first
      | rfl
      | (congr 1; exact Fin.ext h)
      | omega
  · exact fun h => by rw [h]

/-- Setting a flag sets that flag and no other (R184). -/
@[simp] theorem flagSet_setFlag (f g : EventFlag) (s : State) :
    (setFlag f s).flagSet g = (s.flagSet g || decide (g = f)) := by
  have hp := position_lt g
  simp only [State.flagSet, setFlag_link_flags, BitVec.getLsbD_or, EventFlag.bit, BitVec.getLsbD_twoPow]
  congr 1
  rw [Bool.eq_iff_iff]
  simp only [Bool.and_eq_true, decide_eq_true_eq, position_inj]
  exact ⟨fun h => h.2.symm, fun h => ⟨h ▸ hp, h.symm⟩⟩

/-! ### Queuing blocks (R12) -/

/-- Queuing a block marks it, appends it unless it was marked, and changes nothing else. -/
theorem queueErase_step (b : BlockNo) (s : State) :
    (∃ bs, queueErase b s = { s with
      store.blocks := bs
      store.eraseQueue := if (s.block b).eraseQueued = true then s.store.eraseQueue else s.store.eraseQueue ++ [b] }) ∧
    ∀ d, (queueErase b s).block d = if d = b then { s.block b with eraseQueued := true } else s.block d := by
  unfold queueErase; simp only
  by_cases h : (s.block b).eraseQueued = true
  · simp only [h, if_true]
    refine ⟨⟨s.store.blocks, rfl⟩, fun d => ?_⟩
    split
    · next hd => subst hd; rw [← h]
    · rfl
  · simp only [h, if_false, Bool.false_eq_true]
    refine ⟨⟨_, rfl⟩, fun d => ?_⟩
    show (s.setBlock b _).block d = _
    rw [block_setBlock]

/-- Queuing a list of blocks: those not queued yet join the tail in the order of the list, each once. -/
theorem foldl_queueErase (l : List BlockNo) (s : State) :
    (let t := l.foldl (fun s b => queueErase b s) s
     (∃ bs, t = { s with store.blocks := bs, store.eraseQueue := t.store.eraseQueue }) ∧
     (∀ d, t.block d = if d ∈ l then { s.block d with eraseQueued := true } else s.block d) ∧
     t.store.eraseQueue = s.store.eraseQueue ++ (l.filter fun b => !(s.block b).eraseQueued).eraseDups) := by
  induction l generalizing s with
  | nil => exact ⟨⟨s.store.blocks, rfl⟩, by simp, by simp⟩
  | cons b l ih =>
    obtain ⟨⟨bs, h1⟩, h2⟩ := queueErase_step b s
    obtain ⟨⟨bs', g1⟩, g2, g3⟩ := ih (queueErase b s)
    simp only [List.foldl_cons]
    generalize l.foldl (fun s b => queueErase b s) (queueErase b s) = t at g1 g2 g3 ⊢
    refine ⟨⟨bs', by rw [h1] at g1; exact g1⟩, fun d => ?_, ?_⟩
    · rw [g2 d, h2 d]
      by_cases hd : d = b
      · subst hd; simp
      · simp [hd]
    · have nq : ∀ d, (!((queueErase b s).block d).eraseQueued) = (!(s.block d).eraseQueued && !(d == b)) := by
        intro d; rw [h2 d]
        by_cases hd : d = b
        · subst hd; simp
        · simp [hd]
      have hq : (queueErase b s).store.eraseQueue =
          if (s.block b).eraseQueued = true then s.store.eraseQueue else s.store.eraseQueue ++ [b] := by rw [h1]
      rw [g3, hq]
      simp only [nq]
      cases hb : (s.block b).eraseQueued
      · simp only [Bool.false_eq_true, if_false, List.filter_cons, hb, Bool.not_false, if_true, List.eraseDups_cons,
          List.filter_filter, List.append_assoc, List.singleton_append]
        congr 4
        funext d; rw [Bool.and_comm]
      · simp only [if_true, List.filter_cons, hb, Bool.not_true, Bool.false_eq_true, if_false]
        congr 2
        apply List.filter_congr
        intro d _
        by_cases hd : d = b
        · subst hd; simp [hb]
        · simp [hd]

/-! ### Releasing blocks (R8) -/

/-- Whether a block stays with its clip when it is released: a page of it is programmed, or a program is in flight. -/
def stays (s : State) (b : BlockNo) : Bool := decide ((s.block b).programmed ≠ 0) || programInFlight b s

/-- A block that does not stay is freed and its place vacated. -/
theorem releaseBlock_freed {c : ClipId} {b : BlockNo} {s : State} {x : Clip} (hc : s.clip c = some x)
    (h : stays s b = false) :
    releaseBlock c b s = (s.setBlock b Block.free).setClip c (some (vacate b x)) := by
  simp only [stays, Bool.or_eq_false_iff, decide_eq_false_iff_not, ne_eq, Decidable.not_not] at h
  have hc' : (s.setBlock b Block.free).clip c = some x := hc
  simp only [releaseBlock, h, and_self, if_true, hc']

/-- A block that stays is queued for erasure. -/
theorem releaseBlock_queued {c : ClipId} {b : BlockNo} {s : State} (h : stays s b = true) :
    releaseBlock c b s = queueErase b s := by
  have : ¬ ((s.block b).programmed = 0 ∧ programInFlight b s = false) := by
    intro hh; simp [stays, hh.1, hh.2] at h
  simp only [releaseBlock, this, if_false]

/-- The places of a block list after the blocks of a list that do not stay have left it. -/
def placesAfter (s : State) (l : List BlockNo) (places : List (Option BlockNo)) : List (Option BlockNo) :=
  places.map fun q => match q with
    | some b => if b ∈ l ∧ stays s b = false then none else some b
    | none => none

/-- Releasing the blocks of a list for a clip: those that stay and are not queued yet join the tail of the erase queue in the order of
the list, each once. -/
theorem foldl_releaseBlock (c : ClipId) (l : List BlockNo) (s : State) (x : Clip) (hc : s.clip c = some x) :
    (let t := l.foldl (fun s b => releaseBlock c b s) s
     (∃ bs q cs, t = { s with store.blocks := bs, store.eraseQueue := q, clips := cs }) ∧
     t.clip c = some { x with places := placesAfter s l x.places } ∧
     (∀ d, d ≠ c → t.clip d = s.clip d) ∧
     (∀ d, t.block d =
       if d ∈ l then (if stays s d = true then { s.block d with eraseQueued := true } else Block.free) else s.block d) ∧
     t.store.eraseQueue = s.store.eraseQueue ++ ((l.filter (stays s)).filter fun b => !(s.block b).eraseQueued).eraseDups) := by
  induction l generalizing s x with
  | nil =>
    refine ⟨⟨s.store.blocks, s.store.eraseQueue, s.clips, rfl⟩, ?_, by simp, by simp, by simp⟩
    have : placesAfter s [] x.places = x.places := by
      refine (List.map_congr_left (g := id) fun q _ => ?_).trans (List.map_id x.places)
      cases q <;> simp
    simp only [List.foldl_nil, this]; exact hc
  | cons b l ih =>
    simp only [List.foldl_cons]
    by_cases hb : stays s b = true
    · rw [releaseBlock_queued hb]
      obtain ⟨⟨bs, h1⟩, h2⟩ := queueErase_step b s
      generalize queueErase b s = s1 at h1 h2 ⊢
      have hc1 : s1.clip c = some x := by rw [h1]; exact hc
      have st : ∀ d, stays s1 d = stays s d := by
        intro d
        have : programInFlight d s1 = programInFlight d s := by rw [h1]; rfl
        unfold stays; rw [this, h2 d]; split
        · next hd => subst hd; rfl
        · rfl
      obtain ⟨⟨bs', q', cs', g1⟩, g2, g3, g4, g5⟩ := ih s1 x hc1
      refine ⟨⟨bs', q', cs', by rw [g1, h1]⟩, ?_, fun d hd => ?_, fun d => ?_, ?_⟩
      · rw [g2]
        have : placesAfter s1 l x.places = placesAfter s (b :: l) x.places := by
          unfold placesAfter
          apply List.map_congr_left
          intro q _
          cases q with
          | none => rfl
          | some d =>
            simp only [st, List.mem_cons]
            by_cases hd : d = b
            · subst hd; simp [hb]
            · simp [hd]
        rw [this]
      · rw [g3 d hd, h1]; rfl
      · rw [g4 d, st, h2 d]
        by_cases hd : d = b
        · subst hd; simp [hb]
        · simp [hd]
      · have nq : ∀ d, (!(s1.block d).eraseQueued) = (!(s.block d).eraseQueued && !(d == b)) := by
          intro d; rw [h2 d]
          by_cases hd : d = b
          · subst hd; simp
          · simp [hd]
        have ste : stays s1 = stays s := funext st
        have hq : s1.store.eraseQueue =
            if (s.block b).eraseQueued = true then s.store.eraseQueue else s.store.eraseQueue ++ [b] := by rw [h1]
        rw [g5, hq]
        simp only [ste, nq]
        cases hb' : (s.block b).eraseQueued
        · simp only [Bool.false_eq_true, if_false, List.filter_cons, hb, hb', Bool.not_false, if_true, List.eraseDups_cons,
            List.filter_filter, List.append_assoc, List.singleton_append]
          congr 4
          funext d
          cases (d == b) <;> simp
        · simp only [if_true, List.filter_cons, hb, hb', Bool.not_true, Bool.false_eq_true, if_false]
          congr 2
          apply List.filter_congr
          intro d _
          by_cases hd : d = b
          · subst hd; simp [hb']
          · simp [hd]
    · have hb' : stays s b = false := by simpa using hb
      rw [releaseBlock_freed hc hb']
      generalize hs1 : (s.setBlock b Block.free).setClip c (some (vacate b x)) = s1
      have hc1 : s1.clip c = some (vacate b x) := by rw [← hs1]; simp
      have blk : ∀ d, s1.block d = if d = b then Block.free else s.block d := by
        intro d; rw [← hs1]; show (s.setBlock b Block.free).block d = _; rw [block_setBlock]
      have st : ∀ d, stays s1 d = stays s d := by
        intro d
        have hp : programInFlight d s1 = programInFlight d s := by rw [← hs1]; rfl
        by_cases hd : d = b
        · subst hd
          rw [hb']; unfold stays; rw [hp, blk, if_pos rfl]
          have : programInFlight d s = false := by
            unfold stays at hb'; simp at hb'; exact hb'.2
          rw [this]; rfl
        · unfold stays; rw [hp, blk, if_neg hd]
      obtain ⟨⟨bs', q', cs', g1⟩, g2, g3, g4, g5⟩ := ih s1 _ hc1
      refine ⟨⟨bs', q', cs', by rw [g1, ← hs1]; rfl⟩, ?_, fun d hd => ?_, fun d => ?_, ?_⟩
      · rw [g2]
        have : placesAfter s1 l (vacate b x).places = placesAfter s (b :: l) x.places := by
          unfold placesAfter vacate
          rw [List.map_map]
          apply List.map_congr_left
          intro q _
          cases q with
          | none => rfl
          | some d =>
            simp only [Function.comp, st, List.mem_cons, Option.some.injEq]
            by_cases hd : d = b
            · subst hd; simp [hb']
            · simp [hd]
        rw [this]; rfl
      · rw [g3 d hd, ← hs1]; simp [hd]
      · rw [g4 d, st, blk]
        by_cases hd : d = b
        · subst hd; simp [hb']
        · simp [hd]
      · have hq : s1.store.eraseQueue = s.store.eraseQueue := by rw [← hs1]; rfl
        rw [g5, hq, funext st, List.filter_cons, if_neg hb, List.filter_filter, List.filter_filter]
        congr 2
        apply List.filter_congr
        intro d _
        rw [blk d]
        by_cases hd : d = b
        · subst hd; simp [hb']
        · simp [hd]

/-- The blocks that a clip still holds after the release of all its blocks are those that stay. -/
theorem heldBlocks_filter (x : Clip) (s : State) :
    ({ x with places := placesAfter s x.heldBlocks x.places } : Clip).heldBlocks = x.heldBlocks.filter (stays s) := by
  have : ∀ (l : List (Option BlockNo)) (m : List BlockNo), (∀ b, some b ∈ l → b ∈ m) →
      (placesAfter s m l).filterMap id = (l.filterMap id).filter (stays s) := by
    intro l
    induction l with
    | nil => intros; rfl
    | cons a l ih =>
      intro m h
      have ih' := ih m (fun b hb => h b (List.mem_cons_of_mem _ hb))
      unfold placesAfter at ih' ⊢
      cases a with
      | none => exact ih'
      | some b =>
        have hb := h b List.mem_cons_self
        rw [List.map_cons, show (some b :: l).filterMap id = b :: l.filterMap id from rfl, List.filter_cons, ← ih']
        cases hs : stays s b with
        | false => simp only [if_pos (And.intro hb hs)]; rfl
        | true => simp only [if_neg (show ¬ (b ∈ m ∧ stays s b = false) from fun h => by rw [hs] at h; cases h.2)]; rfl
  exact this _ _ (by intro b hb; unfold Clip.heldBlocks; rw [List.mem_filterMap]; exact ⟨some b, hb, rfl⟩)

/-! ### The search for a FREE block (R7) -/

/-- The block that the search finds is the first FREE one from the allocation cursor on, wrapping (R7). -/
theorem findFree_first {s : State} {b : BlockNo} (h : findFree s = some b) :
    (s.block b).state = .free ∧
    ∀ k : Nat, k < (b - s.store.cursor).val → (s.block (s.store.cursor + Fin.ofNat 2048 k)).state ≠ .free := by
  unfold findFree at h
  have hs := List.find?_some h
  refine ⟨by simpa using hs, fun k hk => ?_⟩
  rw [List.find?_eq_some_iff_getElem] at h
  obtain ⟨_, i, hi, hget, hbefore⟩ := h
  simp only [List.length_map, List.length_finRange] at hi
  simp only [List.getElem_map, List.getElem_finRange] at hget
  have hki : k < i := by
    have : (b - s.store.cursor).val = i := by
      rw [← hget, Fin.sub_def]
      simp only [Fin.val_add, Fin.val_cast]
      have := s.store.cursor.isLt
      omega
    omega
  have := hbefore k hki
  simp only [List.getElem_map, List.getElem_finRange] at this
  have e : (Fin.cast (by simp) (⟨k, by simp; omega⟩ : Fin (List.finRange 2048).length) : BlockNo) = Fin.ofNat 2048 k := by
    apply Fin.ext; simp; omega
  simpa [e] using this

/-! ### The blocks of a format (R21) -/

/-- Whether STORE.FORMAT queues a block. -/
def formatQueues (s : State) (b : BlockNo) : Bool :=
  match (s.block b).state with
  | .owned _ _ => stays s b
  | .stale => true
  | .unclassified => false
  | .free => false
  | .retired => false

/-- Whether STORE.FORMAT frees a block. -/
def formatFrees (s : State) (b : BlockNo) : Bool :=
  match (s.block b).state with
  | .owned _ _ => !stays s b
  | .stale => false
  | .unclassified => false
  | .free => false
  | .retired => false

/-- Whether STORE.FORMAT vacates the place of a block in the block list of a clip. -/
def formatVacates (s : State) (c : ClipId) (b : BlockNo) : Bool :=
  match (s.block b).state with
  | .owned d _ => d = c && !stays s b
  | .stale => false
  | .unclassified => false
  | .free => false
  | .retired => false

/-- The places of the block list of clip c after STORE.FORMAT has acted on the blocks of a list. -/
def formatPlaces (s : State) (c : ClipId) (l : List BlockNo) (places : List (Option BlockNo)) : List (Option BlockNo) :=
  places.map fun p => match p with
    | some b => if b ∈ l ∧ formatVacates s c b = true then none else some b
    | none => none

theorem formatPlaces_same {s : State} {c : ClipId} {l : List BlockNo} {places : List (Option BlockNo)}
    (h : ∀ b ∈ l, formatVacates s c b = false) : formatPlaces s c l places = places := by
  refine (List.map_congr_left (g := id) fun q _ => ?_).trans (List.map_id places)
  cases q with
  | none => rfl
  | some b =>
    show (if b ∈ l ∧ formatVacates s c b = true then none else some b) = some b
    rw [if_neg]
    rintro ⟨h1, h2⟩
    rw [h b h1] at h2; cases h2

/-- A clip after STORE.FORMAT has acted on the blocks of a list. -/
def formatClip (s : State) (c : ClipId) (l : List BlockNo) (x : Clip) : Clip := { x with places := formatPlaces s c l x.places }

theorem formatClip_nil (s : State) (c : ClipId) (x : Clip) : formatClip s c [] x = x := by
  simp only [formatClip, formatPlaces_same fun b (h : b ∈ []) => absurd h (List.not_mem_nil)]

/-- From s to t STORE.FORMAT has acted on one block: queued it, freed it or left it. -/
def FormatStep (b : BlockNo) (s t : State) : Prop :=
  (∃ bs cs, t = { s with
    store.blocks := bs, clips := cs
    store.eraseQueue := s.store.eraseQueue ++ if !(s.block b).eraseQueued && formatQueues s b then [b] else [] }) ∧
  (∀ d, t.block d =
    if d = b then
      (if formatQueues s b then { s.block b with eraseQueued := true } else if formatFrees s b then Block.free else s.block b)
    else s.block d) ∧
  (∀ c, t.clip c = (s.clip c).map (formatClip s c [b]))

/-- What STORE.FORMAT does to one block. -/
theorem formatBlock_step (b : BlockNo) (s : State) : FormatStep b s (formatBlock b s) := by
  have queued (h1 : formatQueues s b = true) (h2 : formatBlock b s = queueErase b s)
      (h3 : ∀ c x, s.clip c = some x → formatClip s c [b] x = x) : FormatStep b s (formatBlock b s) := by
    obtain ⟨⟨bs, e⟩, blk⟩ := queueErase_step b s
    unfold FormatStep
    rw [h2, h1]
    refine ⟨⟨bs, s.clips, ?_⟩, blk, fun c => ?_⟩
    · rw [e]; cases (s.block b).eraseQueued <;> simp
    · rw [e]
      show s.clip c = _
      cases hc : s.clip c with
      | none => rfl
      | some x => rw [Option.map_some, h3 c x hc]
  have same (h1 : formatQueues s b = false) (h2 : formatFrees s b = false) (h3 : formatBlock b s = s)
      (h4 : ∀ c x, s.clip c = some x → formatClip s c [b] x = x) : FormatStep b s (formatBlock b s) := by
    unfold FormatStep
    rw [h3, h1, h2]
    refine ⟨⟨s.store.blocks, s.clips, by simp⟩, fun d => ?_, fun c => ?_⟩
    · split
      · next e => rw [e]; rfl
      · rfl
    · cases hc : s.clip c with
      | none => rfl
      | some x => rw [Option.map_some, h4 c x hc]
  have keeps (h : ∀ c, formatVacates s c b = false) (c : ClipId) (x : Clip) (_ : s.clip c = some x) :
      formatClip s c [b] x = x := by
    have : formatPlaces s c [b] x.places = x.places := formatPlaces_same fun d hd => by
      rw [List.mem_singleton.1 hd]; exact h c
    simp only [formatClip, this]
  cases hb : (s.block b).state with
  | owned c q =>
    have fb : formatBlock b s = releaseBlock c b s := by unfold formatBlock; rw [hb]
    cases hs : stays s b with
    | true => exact queued (by unfold formatQueues; rw [hb]; exact hs) (fb.trans (releaseBlock_queued hs))
                (keeps fun c => by unfold formatVacates; rw [hb]; simp [hs])
    | false =>
      have fq : formatQueues s b = false := by unfold formatQueues; rw [hb]; exact hs
      have ff : formatFrees s b = true := by unfold formatFrees; rw [hb]; simp [hs]
      unfold FormatStep
      rw [fb, fq, ff]
      have fv : formatVacates s c b = true := by unfold formatVacates; rw [hb]; simp [hs]
      have others : ∀ d x, d ≠ c → formatClip s d [b] x = x := by
        intro d x hd
        have : formatPlaces s d [b] x.places = x.places := formatPlaces_same fun e he => by
          rw [List.mem_singleton.1 he]; unfold formatVacates; rw [hb]; simp [hd.symm]
        simp only [formatClip, this]
      cases hc : s.clip c with
      | some x =>
        rw [releaseBlock_freed hc hs]
        refine ⟨⟨_, _, by simp; rfl⟩, fun d => ?_, fun d => ?_⟩
        · simp [Block.free]
        · rw [clip_setClip]
          split
          · next e =>
            subst e
            rw [hc, Option.map_some]
            congr 1
            unfold formatClip formatPlaces vacate
            congr 1
            apply List.map_congr_left
            intro q _
            cases q with
            | none => rfl
            | some d =>
              by_cases hd : d = b
              · subst hd; simp [fv]
              · simp [hd]
          · next e =>
            show s.clip d = _
            cases hd : s.clip d with
            | none => rfl
            | some y => rw [Option.map_some, others d y e]
      | none =>
        have hs' := hs
        simp only [stays, Bool.or_eq_false_iff, decide_eq_false_iff_not, ne_eq, Decidable.not_not] at hs'
        have hc' : (s.setBlock b Block.free).clip c = none := hc
        have e : releaseBlock c b s = s.setBlock b Block.free := by
          simp only [releaseBlock, hs', and_self, if_true, hc']
        rw [e]
        refine ⟨⟨_, s.clips, by simp; rfl⟩, fun d => ?_, fun d => ?_⟩
        · simp [Block.free]
        · show s.clip d = _
          cases hd : s.clip d with
          | none => rfl
          | some y => rw [Option.map_some, others d y (by intro h; rw [h, hc] at hd; cases hd)]
  | stale =>
    exact queued (by unfold formatQueues; rw [hb]) (by unfold formatBlock; rw [hb]) (keeps fun c => by unfold formatVacates; rw [hb])
  | unclassified =>
    exact same (by unfold formatQueues; rw [hb]) (by unfold formatFrees; rw [hb]) (by unfold formatBlock; rw [hb])
      (keeps fun c => by unfold formatVacates; rw [hb])
  | free =>
    exact same (by unfold formatQueues; rw [hb]) (by unfold formatFrees; rw [hb]) (by unfold formatBlock; rw [hb])
      (keeps fun c => by unfold formatVacates; rw [hb])
  | retired =>
    exact same (by unfold formatQueues; rw [hb]) (by unfold formatFrees; rw [hb]) (by unfold formatBlock; rw [hb])
      (keeps fun c => by unfold formatVacates; rw [hb])

/-- What STORE.FORMAT does to a list of blocks. -/
theorem foldl_formatBlock (l : List BlockNo) (nd : l.Nodup) (s : State) :
    (let t := l.foldl (fun s b => formatBlock b s) s
     (∃ bs cs, t = { s with
       store.blocks := bs, clips := cs
       store.eraseQueue := s.store.eraseQueue ++ l.filter fun b => !(s.block b).eraseQueued && formatQueues s b }) ∧
     (∀ d, t.block d =
       if d ∈ l then
         (if formatQueues s d then { s.block d with eraseQueued := true } else if formatFrees s d then Block.free else s.block d)
       else s.block d) ∧
     ∀ c, t.clip c = (s.clip c).map (formatClip s c l)) := by
  induction l generalizing s with
  | nil =>
    refine ⟨⟨s.store.blocks, s.clips, by simp⟩, by simp, fun c => ?_⟩
    show s.clip c = _
    cases s.clip c with
    | none => rfl
    | some x => rw [Option.map_some, formatClip_nil]
  | cons b l ih =>
    simp only [List.nodup_cons] at nd
    obtain ⟨⟨bs, cs, h1⟩, h2, h3⟩ := formatBlock_step b s
    obtain ⟨⟨bs', cs', g1⟩, g2, g3⟩ := ih nd.2 (formatBlock b s)
    simp only [List.foldl_cons]
    generalize l.foldl (fun s b => formatBlock b s) (formatBlock b s) = t at g1 g2 g3 ⊢
    have pif : ∀ d, programInFlight d (formatBlock b s) = programInFlight d s := by intro d; rw [h1]; rfl
    have blk : ∀ d, d ≠ b → (formatBlock b s).block d = s.block d := fun d hd => by rw [h2 d, if_neg hd]
    have st : ∀ d, d ≠ b → stays (formatBlock b s) d = stays s d := fun d hd => by simp only [stays, blk d hd, pif]
    have gd : ∀ d, d ≠ b → formatQueues (formatBlock b s) d = formatQueues s d ∧ formatFrees (formatBlock b s) d = formatFrees s d :=
      fun d hd => by constructor <;> simp only [formatQueues, formatFrees, blk d hd, st d hd]
    have ne : ∀ d ∈ l, d ≠ b := fun d hd e => nd.1 (e ▸ hd)
    refine ⟨⟨bs', cs', ?_⟩, fun d => ?_, fun c => ?_⟩
    · have q1 : (formatBlock b s).store.eraseQueue =
          s.store.eraseQueue ++ if !(s.block b).eraseQueued && formatQueues s b then [b] else [] := by rw [h1]
      have q2 : l.filter (fun d => !((formatBlock b s).block d).eraseQueued && formatQueues (formatBlock b s) d) =
          l.filter (fun d => !(s.block d).eraseQueued && formatQueues s d) :=
        List.filter_congr fun d hd => by rw [blk d (ne d hd), (gd d (ne d hd)).1]
      rw [g1, q2, q1, h1]
      rw [List.filter_cons, List.append_assoc]
      split <;> rfl
    · rw [g2 d]
      by_cases hd : d = b
      · subst hd; simp [nd.1, h2]
      · simp [hd, gd d hd, blk d hd]
    · rw [g3 c, h3 c, Option.map_map]
      cases s.clip c with
      | none => rfl
      | some x =>
        simp only [Option.map_some, Function.comp, Option.some.injEq, formatClip]
        congr 1
        unfold formatPlaces
        rw [List.map_map]
        apply List.map_congr_left
        intro q _
        cases q with
        | none => rfl
        | some d =>
          simp only [Function.comp]
          by_cases hd : d = b
          · subst hd
            cases formatVacates s c d <;> simp [nd.1]
          · have : formatVacates (formatBlock b s) c d = formatVacates s c d := by
              simp only [formatVacates, blk d hd, st d hd]
            simp [hd, this]

/-! ### The checks and the clips of a format (R21) -/

/-- Erasing the READY clips of a list of ids. -/
theorem foldl_eraseClip (l : List ClipId) (s : State) :
    (let t := l.foldl (fun s c => eraseClip c s) s
     (∃ cs, t = { s with clips := cs }) ∧
     ∀ c, t.clip c = if c ∈ l then (s.clip c).map fun x => if x.state = .ready then { x with state := .erasing } else x
       else s.clip c) := by
  induction l generalizing s with
  | nil => exact ⟨⟨s.clips, rfl⟩, by simp⟩
  | cons a l ih =>
    have step : (∃ cs, eraseClip a s = { s with clips := cs }) ∧ ∀ c, (eraseClip a s).clip c =
        if c = a then (s.clip c).map fun x => if x.state = .ready then { x with state := .erasing } else x else s.clip c := by
      unfold eraseClip
      cases ha : s.clip a with
      | none =>
        refine ⟨⟨s.clips, rfl⟩, fun c => ?_⟩
        by_cases e : c = a
        · subst e; simp [ha]
        · simp [e]
      | some x =>
        by_cases hx : x.state = .ready
        · simp only [hx, if_true]
          refine ⟨⟨_, rfl⟩, fun c => ?_⟩
          rw [clip_setClip]; split
          · next e => subst e; simp [ha, hx]
          · rfl
        · simp only [hx, if_false]
          refine ⟨⟨s.clips, rfl⟩, fun c => ?_⟩
          by_cases e : c = a
          · subst e; simp [ha, hx]
          · simp [e]
    obtain ⟨⟨cs, h1⟩, h2⟩ := step
    obtain ⟨⟨cs', g1⟩, g2⟩ := ih (eraseClip a s)
    simp only [List.foldl_cons]
    generalize l.foldl (fun s c => eraseClip c s) (eraseClip a s) = t at g1 g2 ⊢
    refine ⟨⟨cs', by rw [g1, h1]⟩, fun c => ?_⟩
    rw [g2 c, h2 c]
    by_cases hc : c = a
    · subst hc
      by_cases hl : c ∈ l
      · simp only [hl, if_true, List.mem_cons, true_or]
        cases s.clip c with
        | none => rfl
        | some x =>
          simp only [Option.map_some, Option.some.injEq]
          by_cases hx : x.state = .ready <;> simp [hx]
      · simp [hl]
    · simp [hc]

/-- A clip holds the single place for a load exactly when one is OPEN, FAILED or CLOSING (R29). -/
theorem loadingClip_isSome {s : State} : (loadingClip s).isSome = true ↔
    ∃ c x, s.clip c = some x ∧ (x.state = .opened ∨ x.state = .failed ∨ x.state = .closing) := by
  unfold loadingClip
  rw [List.find?_isSome]
  simp only [Option.any_eq_true, allClips, List.mem_finRange, true_and]
  constructor
  · rintro ⟨c, x, h1, h2⟩
    refine ⟨c, x, h1, ?_⟩
    unfold Clip.loading at h2; cases h : x.state <;> rw [h] at h2 <;> simp at h2 ⊢
  · rintro ⟨c, x, h1, h2⟩
    refine ⟨c, x, h1, ?_⟩
    unfold Clip.loading; rcases h2 with h | h | h <;> rw [h]

/-- Every voice is IDLE. -/
theorem allIdle_iff {s : State} : allIdle s = true ↔ ∀ v, (s.voice v).state = .idle := by
  unfold allIdle; simp [List.all_eq_true, mem_allVoices]

/-! ### The clips listed (R50) -/

/-- Two lists in ascending order of their numbers with the same entries are the same. -/
theorem sorted_ext {α : Type} {n : Nat} (f : α → Fin n) : ∀ (l m : List α), (l.map f).Pairwise (· < ·) → (m.map f).Pairwise (· < ·) →
    (∀ x, x ∈ l ↔ x ∈ m) → l = m := by
  intro l
  induction l with
  | nil => intro m _ _ h; cases m with
    | nil => rfl
    | cons a m => exact absurd ((h a).2 (by simp)) (by simp)
  | cons a l ih =>
    intro m hl hm h
    cases m with
    | nil => exact absurd ((h a).1 (by simp)) (by simp)
    | cons b m =>
      simp only [List.map_cons, List.pairwise_cons, List.mem_map, forall_exists_index, and_imp, forall_apply_eq_imp_iff₂] at hl hm
      have hab : a = b := by
        rcases List.mem_cons.1 ((h a).1 (by simp)) with e | h1
        · exact e
        · rcases List.mem_cons.1 ((h b).2 (by simp)) with e | h2
          · exact e.symm
          · exact absurd (Fin.lt_trans (hl.1 b h2) (hm.1 a h1)) (Fin.lt_irrefl _)
      subst hab
      rw [ih m hl.2 hm.2 fun x => ?_]
      constructor
      · intro hx
        rcases List.mem_cons.1 ((h x).1 (List.mem_cons_of_mem _ hx)) with e | e
        · subst e; exact absurd (hl.1 _ hx) (Fin.lt_irrefl _)
        · exact e
      · intro hx
        rcases List.mem_cons.1 ((h x).2 (List.mem_cons_of_mem _ hx)) with e | e
        · subst e; exact absurd (hm.1 _ hx) (Fin.lt_irrefl _)
        · exact e

/-- The clips that CLIP.LIST finds are those at or above the id that are not ABSENT, in ascending order (R50). -/
theorem clipsFrom_eq {c : ClipId} {s : State} {found : List (ClipId × Clip)} (hs : (found.map (·.1)).Pairwise (· < ·))
    (hf : ∀ d x, (d, x) ∈ found ↔ c ≤ d ∧ s.clip d = some x) : clipsFrom c s = found := by
  refine sorted_ext (·.1) _ _ ?_ hs ?_
  · unfold clipsFrom
    have : ∀ l : List ClipId, l.Pairwise (· < ·) →
        ((l.filterMap fun c => (s.clip c).map (c, ·)).map (·.1)).Pairwise (· < ·) := by
      intro l hl
      rw [List.pairwise_map, List.pairwise_filterMap]
      refine hl.imp ?_
      intro a b hab x hx y hy
      simp only [Option.map_eq_some_iff] at hx hy
      obtain ⟨_, _, rfl⟩ := hx
      obtain ⟨_, _, rfl⟩ := hy
      exact hab
    exact this _ ((List.pairwise_lt_finRange 255).filter _)
  · rintro ⟨d, x⟩
    rw [hf]
    unfold clipsFrom
    simp only [List.mem_filterMap, List.mem_filter, Option.map_eq_some_iff, decide_eq_true_eq, allClips, List.mem_finRange, true_and]
    constructor
    · rintro ⟨a, h1, y, h2, h3⟩; cases h3; exact ⟨h1, h2⟩
    · rintro ⟨h1, h2⟩; exact ⟨d, h1, x, h2, rfl⟩

/-! ### The load buffer (R10, R38) -/

/-- The bytes that the pages of a load buffer hold. -/
def bytesIn (l : List LoadPage) : Nat := (l.map fun p => p.bytes.length).sum

theorem bytesIn_joinPage (c : ClipId) (n : Nat) (bytes : List Byte) (l : List LoadPage) :
    bytesIn (joinPage c n bytes l) = bytesIn l + bytes.length := by
  induction l with
  | nil => simp [joinPage, bytesIn, newLoadPage]
  | cons p l ih =>
    cases l with
    | nil => unfold joinPage; split <;> simp [bytesIn, newLoadPage]
    | cons q r => unfold joinPage; simp [bytesIn] at ih ⊢; omega

/-- A chunk adds its length to the bytes of the load buffer. -/
theorem bytesIn_joinChunk (c : ClipId) (cursor : Nat) (chunk : List Byte) (l : List LoadPage) :
    bytesIn (joinChunk c cursor chunk l) = bytesIn l + chunk.length := by
  unfold joinChunk; simp only
  split
  · next h => rw [bytesIn_joinPage]; have := congrArg List.length h; simp at this ⊢; omega
  · rw [bytesIn_joinPage, bytesIn_joinPage]; simp; omega

/-! ### The block table after reset (R26) -/

theorem read_map_range {α : Type} (d x : α) (l : List Nat) (k : Nat) (h : k ∈ l) :
    Table.read d (l.map fun j => (j, x)) k = x := by
  induction l with
  | nil => cases h
  | cons j l ih =>
    simp only [List.map_cons, Table.read]
    split
    · rfl
    · next hk => exact ih ((List.mem_cons.1 h).resolve_left hk)

/-- After reset every block is yet to be classified. -/
theorem block_reset (b : BlockNo) : State.reset.block b = Block.unclassified := by
  have h := read_map_range Block.free Block.unclassified (List.range Config.blockCount) b.val (List.mem_range.2 b.isLt)
  simp only [State.block, State.reset]
  exact h

end Sys2Proof.Machine
end

