-- ==== Sys2Proof/Laws/Claims.lean ====
section
/-! SUPPORT. Allocation, starts and VOICE.GO, the order in which voices stand, the grant and the queuing of a claim, the claimants of an
offer, and the losses of zones while the override latch is set. -/

namespace Sys2Proof.Machine

/-! ### Allocation (R70) -/

/-- A READY clip is answered by the Clip Map (R51). -/
theorem clipAnswer_of_ready {s : State} {c : ClipId} (h : s.clipReady c = true) : ∃ a, s.clipAnswer c = some a := by
  cases hx : s.clip c with
  | none => rw [State.clipReady, hx] at h; cases h
  | some x =>
    rw [State.clipReady, hx] at h
    rw [State.clipAnswer, hx]
    exact ⟨_, if_pos (of_decide_eq_true h)⟩

/-- A step that can start is latched by a voice that is not ACTIVE: of its context only the fetch and the fetch point go on, and of the
other voices a fetch may be granted (R75). -/
theorem latchStep_notActive {o : Offers} {v : VoiceId} {index : Nat} {p : Step} {s : State}
    (ready : ∀ c, p.clip? = some c → s.clipReady c = true) (quiet : (s.voice v).state ≠ .active) :
    (let t := latchStep o v index p s
     t = { s with
       store.port := t.store.port, store.readback := t.store.readback, engine.voices := t.engine.voices } ∧
     t.voice v = { (s.voice v).withStep index p (p.clip?.bind s.clipAnswer) with
       fetch := (t.voice v).fetch, fetchPage := (t.voice v).fetchPage, fetchPass := (t.voice v).fetchPass } ∧
     ∀ w, w ≠ v → t.voice w = { s.voice w with fetch := (t.voice w).fetch }) := by
  unfold latchStep
  cases hp : p.clip? with
  | none => exact ⟨rfl, by simp, fun w hw => by simp [hw]⟩
  | some c =>
    obtain ⟨a, ha⟩ := clipAnswer_of_ready (ready c hp)
    simp only [ha, Option.bind_some]
    have e : chooseWalkZone v (s.setVoice v ((s.voice v).withStep index p (some a))) =
        s.setVoice v ((s.voice v).withStep index p (some a)) :=
      chooseWalkZone_not (.inl (by simpa [Voice.withStep, Voice.atPassStart] using quiet))
    rw [e]
    obtain ⟨b1, b2, b3⟩ := fetchTest_step v (s.setVoice v ((s.voice v).withStep index p (some a)))
    refine ⟨b1, ?_, fun w hw => ?_⟩
    · rw [b2]; simp
    · rw [b3 w hw]; simp [hw]

/-- A voice allocated to a start order whose program begins with a step that can start (R67, R70). -/
theorem allocated {v : VoiceId} {origin : Origin} {o : StartOrder} {prog : Program} {first : Step} {rest : List Step}
    {s : State} (asks : v = 6 → s.inputs.overrideProgram = some o.program) (defined : s.program o.program = some prog)
    (steps : prog.steps = first :: rest) (ready : ∀ c, first.clip? = some c → s.clipReady c = true) :
    Allocated v origin o first s (allocate v origin o s) := by
  generalize hx : ({ Voice.reset with
      state := .prepared, start := issuedNumber s, origin := origin, order := some o, fetch := (s.voice v).fetch,
      endRecord := (s.voice v).endRecord } : Voice) = x
  generalize hs1 : ({ s with engine.nextStart := numberAfter (issuedNumber s) } : State) = s1
  have e : allocate v origin o s = stepStart offers v (s1.setVoice v x) := by rw [← hx, ← hs1]; rfl
  have v1 : (s1.setVoice v x).voice v = x := by simp
  have ask : askedProgram v (s1.setVoice v x) = some o.program := by
    unfold askedProgram overrideVoice
    by_cases h6 : v = 6
    · have h1 : (s1.setVoice v x).inputs.overrideProgram = some o.program := by rw [← hs1]; exact asks h6
      have h2 : (s1.setVoice v x).program o.program = some prog := by rw [← hs1]; exact defined
      rw [if_pos h6, h1]
      simp [h2]
    · rw [v1, if_neg h6, ← hx]; rfl
  have hp1 : (s1.setVoice v x).program o.program = some prog := by rw [← hs1]; exact defined
  have hxi : x.stepIndex = 0 := by rw [← hx]; rfl
  have e2 : stepStart offers v (s1.setVoice v x) =
      latchStep offers v 0 first ((s1.setVoice v x).setVoice v { x with stepProgram := some o.program }) := by
    unfold stepStart
    rw [ask]; simp only [hp1, v1, hxi, steps]; rfl
  have eng := engineStep_allocate v origin o s
  rw [e, e2, setVoice_setVoice] at eng ⊢
  generalize hs2 : s1.setVoice v { x with stepProgram := some o.program } = s2 at eng ⊢
  have v2 : s2.voice v = { x with stepProgram := some o.program } := by rw [← hs2]; simp
  have w2 : ∀ w, w ≠ v → s2.voice w = s.voice w := by
    intro w hw; rw [← hs2, ← hs1]; simp [hw]; rfl
  have ans : ∀ c, s2.clipAnswer c = s.clipAnswer c := by intro c; rw [← hs2, ← hs1]; rfl
  obtain ⟨h1, h2, h3⟩ := latchStep_notActive (o := offers) (v := v) (index := 0) (p := first) (s := s2)
    (by rw [← hs2, ← hs1]; exact ready) (by rw [v2, ← hx]; simp)
  have hb : first.clip?.bind s2.clipAnswer = first.clip?.bind s.clipAnswer := by
    cases first.clip? with
    | none => rfl
    | some c => exact ans c
  refine { engine := eng, link := ?_, arbiter := ?_, counter := ?_, others := fun w hw => ?_, voice := ?_ }
  · rw [h1, ← hs2, ← hs1]; rfl
  · rw [h1, ← hs2, ← hs1]; rfl
  · rw [h1, ← hs2, ← hs1]; rfl
  · unfold SameButFetch; rw [h3 w hw, w2 w hw]
  · rw [hb, v2, ← hx] at h2
    rw [h2, latching_eq]
    cases first <;> rfl

/-! ### Standing in order (R105, R110) -/

/-- The place of a voice in the order of R105 and R110, in words. -/
theorem standsBefore_iff {x y : Voice} {p q : StartOrder} (hx : x.order = some p) (hy : y.order = some q) :
    x.standsBefore y = true ↔ q.priority < p.priority ∨ (q.priority = p.priority ∧ x.start < y.start) := by
  simp only [Voice.standsBefore, hx, hy, Option.elim_some, Bool.or_eq_true, Bool.and_eq_true, decide_eq_true_eq]
  omega

/-- Standing behind passes on (R105, R110). -/
theorem standsBefore_trans {x y z : Voice} (h : x.standsBefore y = false) (g : y.standsBefore z = false) :
    x.standsBefore z = false := by
  simp only [Voice.standsBefore, Bool.or_eq_false_iff, Bool.and_eq_false_iff, decide_eq_false_iff_not] at h g ⊢
  omega

/-- Of two voices at most one stands before the other. -/
theorem standsBefore_asymm {x y : Voice} (h : x.standsBefore y = true) : y.standsBefore x = false := by
  simp only [Voice.standsBefore, Bool.or_eq_true, Bool.and_eq_true, decide_eq_true_eq, Bool.or_eq_false_iff, Bool.and_eq_false_iff,
    decide_eq_false_iff_not] at h ⊢
  omega

/-- Where a voice is placed: before the first voice that it stands before. -/
theorem placeVoice_split (s : State) (v : VoiceId) (l : List VoiceId) :
    ∃ before after, l = before ++ after ∧ placeVoice s v l = before ++ v :: after ∧
      (∀ w ∈ before, (s.voice v).standsBefore (s.voice w) = false) ∧
      ∀ w ∈ after.head?, (s.voice v).standsBefore (s.voice w) = true := by
  induction l with
  | nil => exact ⟨[], [], rfl, rfl, by simp, by simp⟩
  | cons a l ih =>
    unfold placeVoice
    cases h : (s.voice v).standsBefore (s.voice a) with
    | true => exact ⟨[], a :: l, rfl, rfl, by simp, by simp [h]⟩
    | false =>
      obtain ⟨b, c, h1, h2, h3, h4⟩ := ih
      refine ⟨a :: b, c, by rw [h1]; rfl, by simp [h2], fun w hw => ?_, h4⟩
      rcases List.mem_cons.1 hw with rfl | hw
      · exact h
      · exact h3 w hw

/-- A voice joins the waiting list in the place of R105. -/
theorem joinsWaiting {v : VoiceId} {o : StartOrder} {n : Nat} {s t : State} (waiting : t.arbiter.waiting = s.arbiter.waiting)
    (order : (t.voice v).order = some o) (start : (t.voice v).start = n)
    (others : ∀ w, w ≠ v → (t.voice w).order = (s.voice w).order ∧ (t.voice w).start = (s.voice w).start) :
    JoinsWaiting v o.priority n s (placeVoice t v t.arbiter.waiting) := by
  obtain ⟨b, c, h1, h2, h3, h4⟩ := placeVoice_split t v t.arbiter.waiting
  refine ⟨b, c, by rw [← waiting]; exact h1, h2, fun w hw hv q hq => ?_, fun w hw hv q hq => ?_⟩
  · have := h3 w hw
    obtain ⟨o1, o2⟩ := others w hv
    rw [← Bool.not_eq_true, standsBefore_iff order (by rw [o1]; exact hq), start, o2] at this
    omega
  · have := h4 w hw
    obtain ⟨o1, o2⟩ := others w hv
    rw [standsBefore_iff order (by rw [o1]; exact hq), start, o2] at this
    exact this

/-! ### The claimants of a zone (R110) -/

/-- Placing a voice adds it and no other. -/
theorem placeVoice_perm (s : State) (v : VoiceId) (l : List VoiceId) : (placeVoice s v l).Perm (v :: l) := by
  obtain ⟨b, c, h1, h2, _⟩ := placeVoice_split s v l
  rw [h2, h1]
  exact List.perm_middle

/-- A voice placed among voices in order leaves them in order. -/
theorem placeVoice_sorted (s : State) (v : VoiceId) (l : List VoiceId)
    (h : l.Pairwise fun v w => (s.voice w).standsBefore (s.voice v) = false) :
    (placeVoice s v l).Pairwise fun v w => (s.voice w).standsBefore (s.voice v) = false := by
  obtain ⟨b, c, h1, h2, h3, h4⟩ := placeVoice_split s v l
  rw [h2]
  rw [h1, List.pairwise_append] at h
  obtain ⟨p1, p2, p3⟩ := h
  have after : ∀ w ∈ c, (s.voice w).standsBefore (s.voice v) = false := by
    intro w hw
    cases c with
    | nil => cases hw
    | cons a c =>
      have ha := standsBefore_asymm (h4 a (by simp))
      rcases List.mem_cons.1 hw with rfl | hw
      · exact ha
      · exact standsBefore_trans ((List.pairwise_cons.1 p2).1 w hw) ha
  rw [List.pairwise_append, List.pairwise_cons]
  refine ⟨p1, ⟨after, p2⟩, fun x hx y hy => ?_⟩
  rcases List.mem_cons.1 hy with rfl | hy
  · exact h3 x hx
  · exact p3 x hx y hy

/-- Voices placed one after another: none is lost, and the order is kept. -/
theorem foldl_placeVoice (s : State) (l m : List VoiceId) :
    (l.foldl (fun vs v => placeVoice s v vs) m).Perm (l ++ m) ∧
    (m.Pairwise (fun v w => (s.voice w).standsBefore (s.voice v) = false) →
      (l.foldl (fun vs v => placeVoice s v vs) m).Pairwise fun v w => (s.voice w).standsBefore (s.voice v) = false) := by
  induction l generalizing m with
  | nil => exact ⟨List.Perm.refl _, fun h => h⟩
  | cons a l ih =>
    obtain ⟨h1, h2⟩ := ih (placeVoice s a m)
    refine ⟨h1.trans ?_, fun h => h2 (placeVoice_sorted s a m h)⟩
    exact ((placeVoice_perm s a m).append_left l).trans List.perm_middle

/-- The claimants of a zone: each once, and in order. -/
theorem claimants_spec (s : State) (z : ZoneId) :
    (∀ v, v ∈ claimants s z ↔ isClaimant s z v = true) ∧ (claimants s z).Nodup ∧
    (claimants s z).Pairwise fun v w => (s.voice w).standsBefore (s.voice v) = false := by
  obtain ⟨h1, h2⟩ := foldl_placeVoice s (allVoices.filter (isClaimant s z)) []
  rw [List.append_nil] at h1
  refine ⟨fun v => ?_, ?_, h2 List.Pairwise.nil⟩
  · unfold claimants; rw [h1.mem_iff, List.mem_filter]; simp [mem_allVoices]
  · unfold claimants; rw [h1.nodup_iff]
    have : allVoices.Nodup := by decide
    exact this.filter _

/-- Who is a claimant of a zone (R110). -/
theorem isClaimant_iff (s : State) (z : ZoneId) (v : VoiceId) : isClaimant s z v = true ↔
    ((s.voice v).state = .waiting ∧ ∃ q, (s.voice v).order = some q ∧ hasZone q.zones z = true) ∨
    (((s.voice v).state = .active ∨ (s.voice v).state = .suspended) ∧ hasZone (s.voice v).wanted z = true) := by
  unfold isClaimant
  simp only
  cases h : (s.voice v).state <;> simp [Option.any_eq_true]

/-- A voice holds no zone. -/
theorem heldSet_eq_zero {s : State} {v : VoiceId} : s.heldSet v = 0 ↔ ∀ z, s.holds v z = false := by
  constructor
  · intro h z; rw [← hasZone_heldSet, h, hasZone_zero]
  · intro h; exact setByte_ext fun z => by rw [hasZone_heldSet, h, hasZone_zero]

/-! ### Grants (R104, R107) -/

/-- Which voices lose a zone to a claim: in ascending number, those that hold one of the zones it takes (R107). -/
theorem losersOf_spec (v : VoiceId) (zs : SetByte) (s : State) : (losersOf v zs s).Pairwise (· < ·) ∧
    ∀ w, w ∈ losersOf v zs s ↔ w ≠ v ∧ ∃ z, hasZone zs z = true ∧ s.holds w z = true := by
  refine ⟨List.Pairwise.filter _ (by decide), fun w => ?_⟩
  have e : (s.heldSet w &&& zs ≠ 0) ↔ ∃ z, hasZone zs z = true ∧ s.holds w z = true := by
    refine ⟨fun h => Decidable.byContradiction fun n => h ?_, ?_⟩
    · apply setByte_ext; intro z
      rw [hasZone_and, hasZone_heldSet, hasZone_zero, Bool.and_eq_false_iff]
      cases h2 : s.holds w z with
      | false => exact .inl rfl
      | true => exact .inr (Bool.eq_false_iff.2 fun h1 => n ⟨z, h1, h2⟩)
    · rintro ⟨z, h1, h2⟩ h
      have : hasZone (s.heldSet w &&& zs) z = false := by rw [h, hasZone_zero]
      rw [hasZone_and, hasZone_heldSet, h1, h2] at this
      cases this
  simp only [losersOf, List.mem_filter, mem_allVoices, true_and, decide_eq_true_eq, e]

/-- The zones a claim takes join the wanted sets of their holders (R107). -/
theorem foldl_wantAlso (zs : SetByte) (l : List VoiceId) (h : l.Nodup) (s : State) :
    let t := l.foldl (fun s w => wantAlso w (s.heldSet w &&& zs) s) s
    t = { s with engine.voices := t.engine.voices } ∧
    ∀ w, t.voice w = if w ∈ l then { s.voice w with wanted := (s.voice w).wanted ||| (s.heldSet w &&& zs) } else s.voice w := by
  induction l generalizing s with
  | nil => exact ⟨rfl, fun w => by simp⟩
  | cons a l ih =>
    simp only [List.nodup_cons] at h
    simp only [List.foldl_cons]
    obtain ⟨h1, h2⟩ := ih h.2 (wantAlso a (s.heldSet a &&& zs) s)
    refine ⟨h1, fun w => ?_⟩
    rw [h2 w]
    have hv : (wantAlso a (s.heldSet a &&& zs) s).voice w =
        if w = a then { s.voice a with wanted := (s.voice a).wanted ||| (s.heldSet a &&& zs) } else s.voice w := by
      simp [wantAlso]
    have hh : (wantAlso a (s.heldSet a &&& zs) s).heldSet w = s.heldSet w := rfl
    rw [hv, hh]
    by_cases hw : w = a
    · subst hw; simp [h.1]
    · simp [hw]

/-- A voice that becomes ACTIVE in a WALK step chooses its walk zone (R86). -/
theorem becomeActive_walk (v : VoiceId) (wanted : SetByte) (s : State) : WalkZoneChosen v s (becomeActive v wanted s) := by
  have h : ∀ z, (becomeActive v wanted s).holds v z = s.holds v z := fun z =>
    holds_congr v (by rw [(becomeActive_step v wanted s).1]; rfl)
  unfold becomeActive at h ⊢; simp only at h ⊢
  generalize hx : ({ s.voice v with state := .active, wanted := wanted, discardTimer := 0, waitTimer := 0 } : Voice) = x at h ⊢
  have hv : (leaveWaiting v (s.setVoice v x)).voice v = x := by
    show (s.setVoice v x).voice v = x
    simp
  have h0 : ∀ z, (leaveWaiting v (s.setVoice v x)).holds v z = s.holds v z := fun _ => rfl
  generalize leaveWaiting v (s.setVoice v x) = t at h hv h0
  have hs : (s.voice v).step = x.step ∧ (s.voice v).walkZone = x.walkZone ∧ (s.voice v).walked = x.walked ∧ x.state = .active := by
    rw [← hx]; exact ⟨rfl, rfl, rfl, rfl⟩
  unfold WalkZoneChosen
  rw [hs.1, hs.2.1, hs.2.2.1, ← hv]
  rw [← hv] at hs
  refine ⟨?_, fun hn => ?_⟩
  · rintro ⟨c, hc⟩ hn z hz least
    rw [chooseWalkZone_some hs.2.2.2 hc hn (by rw [h0, ← h]; exact hz) fun y hy => by rw [h0, ← h]; exact least y hy]
    simp
  · rw [chooseWalkZone_not (hn.elim (fun h => .inr (.inl h)) fun h => .inr (.inr (.inl h)))]
    exact ⟨rfl, rfl⟩

/-- A grant: the zones pass to the claimant, their holders want them, the claimant is ACTIVE; then the losers act (R104, R107). -/
theorem grantClaim_spec (f : Offers) (v : VoiceId) (o : StartOrder) (zs : SetByte) (s : State) :
    ∃ u : State,
      grantClaim f v o zs s = tellLosers f (losersOf v zs s) u ∧
      u = { s with
        engine.voices := u.engine.voices, arbiter.zones := u.arbiter.zones
        arbiter.waiting := s.arbiter.waiting.filter (· ≠ v) } ∧
      (∀ z, u.zone z = if hasZone zs z = true then { s.zone z with holder := some (v, o.priority) } else s.zone z) ∧
      u.voice v = { s.voice v with
        state := .active, wanted := o.zones &&& ~~~ zs, discardTimer := 0, waitTimer := 0
        walkZone := (u.voice v).walkZone, walked := (u.voice v).walked } ∧
      WalkZoneChosen v s u ∧
      ∀ w, w ≠ v → u.voice w = { s.voice w with wanted := (u.voice w).wanted } ∧
        ∀ z, hasZone (u.voice w).wanted z = (hasZone (s.voice w).wanted z || (hasZone zs z && s.holds w z)) := by
  obtain ⟨l1, l2⟩ := losersOf_spec v zs s
  have nodup : (losersOf v zs s).Nodup := l1.imp fun h => Fin.ne_of_lt h
  have hv : v ∉ losersOf v zs s := fun h => ((l2 v).1 h).1 rfl
  obtain ⟨w1, w2⟩ := foldl_wantAlso zs (losersOf v zs s) nodup s
  refine ⟨becomeActive v (o.zones &&& ~~~ zs) (takeZones v o.priority zs
    ((losersOf v zs s).foldl (fun s w => wantAlso w (s.heldSet w &&& zs) s) s)), rfl, ?_⟩
  generalize (losersOf v zs s).foldl (fun s w => wantAlso w (s.heldSet w &&& zs) s) s = s1 at w1 w2
  obtain ⟨t1, t2⟩ := takeZones_step v o.priority zs s1
  generalize takeZones v o.priority zs s1 = s2 at t1 t2
  obtain ⟨b1, b2, b3⟩ := becomeActive_step v (o.zones &&& ~~~ zs) s2
  have walk := becomeActive_walk v (o.zones &&& ~~~ zs) s2
  generalize becomeActive v (o.zones &&& ~~~ zs) s2 = u at b1 b2 b3 walk
  have v2 : ∀ w, s2.voice w = s1.voice w := fun w => by rw [t1]; rfl
  have z1 : ∀ z, s1.zone z = s.zone z := fun z => by rw [w1]; rfl
  have zu : ∀ z, u.zone z = s2.zone z := fun z => by rw [b1]; rfl
  have vv : s2.voice v = s.voice v := by rw [v2, w2, if_neg hv]
  refine ⟨?_, fun z => ?_, ?_, ?_, fun w hw => ?_⟩
  · generalize s2.arbiter.zones = zones at t1
    generalize s1.engine.voices = voices at w1
    subst w1; subst t1
    rw [b1]
  · rw [zu, t2, z1]
  · rw [vv] at b2; exact b2
  · unfold WalkZoneChosen at walk ⊢; rw [vv] at walk; exact walk
  · rw [b3 w hw, v2, w2]
    have hz : ∀ z, (hasZone zs z && s.holds w z) = hasZone (s.heldSet w &&& zs) z := fun z => by
      rw [hasZone_and, hasZone_heldSet, Bool.and_comm]
    split
    · refine ⟨rfl, fun z => ?_⟩
      rw [hz]; simp [hasZone]
    · next hn =>
      refine ⟨rfl, fun z => ?_⟩
      cases h : hasZone zs z && s.holds w z with
      | false => simp
      | true =>
        rw [Bool.and_eq_true] at h
        exact absurd ((l2 w).2 ⟨hw, z, h⟩) hn

/-! ### Starts and VOICE.GO (R69 to R73) -/

/-- A request names the general voice of a live start number (R68). -/
theorem namedVoice_live {n : BitVec 32} {v : VoiceId} {s : State} (h : liveVoice s n.toNat = some v) (h6 : v ≠ 6) :
    namedVoice n s = .ok v := by
  unfold namedVoice overrideVoice; rw [h]; simp only; rw [if_neg h6]

/-- VOICE.GO of a PREPARED voice on a running bus is its claim (R73). -/
theorem goVoice_claims {v : VoiceId} {o : StartOrder} {s : State} (hl : s.inputs.latch = false) (hs : (s.voice v).state = .prepared)
    (hb : s.arbiter.bus = .running) (ho : (s.voice v).order = some o) :
    goVoice v s = match evaluateClaim o s with
      | some zs => (arbitrate (grantClaim offers v o zs s), .ok)
      | none => if 0 < o.wait then (arbitrate (queueClaim v o s), .ok) else (s, .noZone) := by
  unfold goVoice claimZones
  simp only [hl, Bool.false_eq_true, if_false, hs, ne_eq, not_true, hb, reduceCtorEq, ho]
  cases evaluateClaim o s with
  | some zs => rfl
  | none =>
    by_cases h : 0 < o.wait
    · simp only [if_pos h]
    · simp only [if_neg h]

/-- A claim that is queued (R101, R105, R106). -/
theorem queueClaim_step (v : VoiceId) (o : StartOrder) (s : State) :
    queueClaim v o s = { s with
      engine.voices := (queueClaim v o s).engine.voices, arbiter.waiting := (queueClaim v o s).arbiter.waiting } ∧
    (queueClaim v o s).voice v = { s.voice v with state := .waiting, discardTimer := 0, waitTimer := o.wait } ∧
    (∀ w, w ≠ v → (queueClaim v o s).voice w = s.voice w) ∧
    ((s.voice v).order = some o → JoinsWaiting v o.priority (s.voice v).start s (queueClaim v o s).arbiter.waiting) := by
  have hv : ∀ w, (queueClaim v o s).voice w =
      if w = v then { s.voice v with state := .waiting, discardTimer := 0, waitTimer := o.wait } else s.voice w := fun w =>
    voice_setVoice ..
  refine ⟨rfl, by rw [hv, if_pos rfl], fun w hw => by rw [hv, if_neg hw], fun ho => ?_⟩
  exact joinsWaiting (t := s.setVoice v { s.voice v with state := .waiting, discardTimer := 0, waitTimer := o.wait }) rfl
    (by simp [ho]) (by simp) fun w hw => by simp [hw]


/-- A claim depends on the zones alone. -/
theorem evaluateClaim_congr {o : StartOrder} {s t : State} (h : t.arbiter = s.arbiter) : evaluateClaim o t = evaluateClaim o s := by
  have : grantableSet o t = grantableSet o s ∧ claimSet o t = claimSet o s := by
    constructor
    · apply setByte_ext; intro z; simp only [grantableSet_has, claimSet_has, grantable, State.zone, h]
    · apply setByte_ext; intro z; simp only [claimSet_has, State.zone, h]
  unfold evaluateClaim; simp only [this.1, this.2]

/-- A start order that passes its checks is allocated and claims (R70, R71). -/
theorem startVoice_checked {raw : Option StartOrder} {origin : Origin} {o : StartOrder} {v : VoiceId} {s : State}
    (h : startChecks raw true s = .ok (o, v)) :
    startVoice origin raw s =
      (let a := allocate v origin o s
       match evaluateClaim o a with
       | some zs => (grantClaim offers v o zs a, .started v (a.voice v).start .active)
       | none => if 0 < o.wait then (queueClaim v o a, .started v (a.voice v).start .waiting)
                 else (returnToIdle v a, .refused .noZone)) := by
  unfold startVoice claimZones
  simp only [h]
  cases evaluateClaim o (allocate v origin o s) with
  | some zs => rfl
  | none =>
    by_cases h : 0 < o.wait
    · simp only [if_pos h]
    · simp only [if_neg h]

/-- When a start order passes its checks (R69). -/
theorem startChecks_pass {o : StartOrder} {prog : Program} {first : Step} {rest : List Step} {v : VoiceId} {claims : Bool} {s : State}
    (service : s.store.state = .service) (latch : s.inputs.latch = false) (bus : claims = true → s.arbiter.bus = .running)
    (defined : s.program o.program = some prog) (steps : prog.steps = first :: rest)
    (ready : ∀ c, first.clip? = some c → s.clipReady c = true) (idle : idleVoice s = some v) :
    startChecks (some o) claims s = .ok (o, v) := by
  have r : stepClipReady s prog.steps.head? = true := by
    rw [steps]; unfold stepClipReady
    simp only [List.head?_cons, Option.bind_some]
    cases hc : first.clip? with
    | none => rfl
    | some c => exact ready c hc
  have hb : ¬ (claims = true ∧ s.arbiter.bus = .halted) := by
    rintro ⟨h1, h2⟩; rw [bus h1] at h2; cases h2
  simp [startChecks, service, latch, defined, r, idle, hb]

/-- The voice that a start takes is an IDLE general voice (R70). -/
theorem idleVoice_general {s : State} {v : VoiceId} (h : idleVoice s = some v) : v ≠ 6 ∧ (s.voice v).state = .idle := by
  have h1 := List.find?_some h
  have h2 := List.mem_of_find?_eq_some h
  refine ⟨?_, by simpa using h1⟩
  rintro rfl; revert h2; decide

/-- A start order that reads well asks for a zone (R66). -/
theorem readOrder_zones {raw : RawOrder} {o : StartOrder} (h : readOrder raw = some o) : o.zones ≠ 0 := by
  unfold readOrder at h
  cases h1 : readProgram raw.program with
  | none => simp [h1] at h
  | some p =>
    cases h2 : readYesNo raw.partialOpt with
    | none => simp [h1, h2] at h
    | some b =>
      cases h3 : readYesNo raw.suspendable with
      | none => simp [h1, h2, h3] at h
      | some c =>
        simp only [h1, h2, h3, Option.bind_eq_bind, Option.bind_some] at h
        split at h
        · next hc => cases h; exact hc.1
        · cases h

/-- The voice chosen for a grant has a fetch pending (R14). -/
theorem chooseFetch_pending {s : State} {v : VoiceId} (h : chooseFetch s = some v) : (s.voice v).fetchPending = true := by
  unfold chooseFetch at h
  split at h
  · next hp => cases h; exact hp
  · have key : ∀ (l : List VoiceId) (best : Option VoiceId), (∀ b, best = some b → (s.voice b).fetchPending = true) →
        ∀ b, l.foldl (fun best v => if (s.voice v).fetchPending then
          match best with
          | none => some v
          | some w => if (s.voice v).bufferBytes < (s.voice w).bufferBytes then some v else best
          else best) best = some b → (s.voice b).fetchPending = true := by
      intro l
      induction l with
      | nil => exact fun best hb b h => hb b h
      | cons a l ih =>
        intro best hb b h
        refine ih _ (fun c hc => ?_) b h
        cases ha : (s.voice a).fetchPending with
        | false => simp only [ha, Bool.false_eq_true, if_false] at hc; exact hb c hc
        | true =>
          simp only [ha, if_true] at hc
          cases best with
          | none => cases hc; exact ha
          | some w =>
            simp only at hc
            split at hc
            · cases hc; exact ha
            · exact hb c hc
    exact key _ none (fun b h => by cases h) v h

/-- A fetch that is granted stays as it is at a grant decision. -/
theorem arbitrate_fetch {s : State} {w : VoiceId} (h : (s.voice w).fetchPending = false) :
    ((arbitrate s).voice w).fetch = (s.voice w).fetch := by
  have a : ((arbitrateArrival s).voice w).fetch = (s.voice w).fetch := by
    unfold arbitrateArrival
    split
    · unfold grantRequest
      split
      · next v hv =>
        have hw : w ≠ v := fun e => by subst e; rw [chooseFetch_pending hv] at h; cases h
        unfold grantFetch
        split
        · show ((s.setVoice v _).voice w).fetch = _
          simp [hw]
        · rfl
      · split
        · unfold grantProgram
          split
          · rfl
          · split <;> rfl
        · split
          · rfl
          · rfl
    · rfl
  rw [← a]
  unfold arbitrate; simp only
  split
  · split
    · split <;> rfl
    · rfl
  · rfl


/-! ### While the override latch is set (R109) -/

/-- While the override latch is set no zone is offered (R109). -/
theorem offerZone_latched {o : Offers} {z : ZoneId} {s : State} (h : s.inputs.latch = true) : offerZone o z s = s := by
  unfold offerZone; rw [if_pos (.inl h)]

/-- While the override latch is set an end offers nothing (R109). -/
theorem offers_latched {zs : SetByte} {s : State} (h : s.inputs.latch = true) : offers zs s = s := by
  have key : ∀ l : List ZoneId, l.foldl (fun s z => if hasZone zs z then offerZone (offersWithin 7) z s else s) s = s := by
    intro l
    induction l with
    | nil => rfl
    | cons a l ih =>
      rw [List.foldl_cons]
      split
      · rw [offerZone_latched h]; exact ih
      · exact ih
  exact key allZones

/-- Nothing is freed of a voice that holds nothing. -/
theorem zone_freeZones_none {v : VoiceId} {s : State} (h : ∀ z, s.holds v z = false) (z : ZoneId) :
    (freeZones v s).zone z = s.zone z := by
  rw [(freeZones_step v s).2 z, if_neg (by rw [h z]; decide)]

/-- An end of an IDLE voice changes nothing (R94). -/
theorem endVoice_idle {o : Offers} {v : VoiceId} {cause : EndCause} {s : State} (idle : (s.voice v).state = .idle) :
    endVoice o v cause s = s := by
  unfold endVoice; simp only; rw [if_pos idle]

/-- An end of a voice takes it off the waiting list and changes no other voice (R94). -/
theorem endVoice_noOffers_step {v : VoiceId} {cause : EndCause} {s : State} (alive : (s.voice v).state ≠ .idle) :
    (endVoice noOffers v cause s).arbiter.waiting = s.arbiter.waiting.filter (· ≠ v) ∧
    ∀ w, w ≠ v → (endVoice noOffers v cause s).voice w = s.voice w := by
  have e : endVoice noOffers v cause s = freeZones v (setFlag (.voiceEnd v) (leaveWaiting v
      (s.setVoice v { (s.voice v).cleared with endRecord := some (endRecordOf (s.voice v) cause s.clockTime) }))) := by
    unfold endVoice; simp only; rw [if_neg alive, noOffers]
  rw [e]
  generalize ({ (s.voice v).cleared with endRecord := some (endRecordOf (s.voice v) cause s.clockTime) } : Voice) = x
  have v1 : ∀ w, (setFlag (.voiceEnd v) (leaveWaiting v (s.setVoice v x))).voice w = (s.setVoice v x).voice w := fun _ => rfl
  have w1 : (setFlag (.voiceEnd v) (leaveWaiting v (s.setVoice v x))).arbiter.waiting = s.arbiter.waiting.filter (· ≠ v) := rfl
  generalize setFlag (.voiceEnd v) (leaveWaiting v (s.setVoice v x)) = s1 at v1 w1
  have fz := (freeZones_step v s1).1
  generalize freeZones v s1 = f at fz
  refine ⟨by rw [fz]; exact w1, fun w hw => ?_⟩
  rw [fz]
  show s1.voice w = _
  rw [v1]; simp [hw]

/-- The ends that OUTPUT.HALT makes take every general voice that is not IDLE off the waiting list (R105, R119). -/
theorem forceVoices_waiting (s : State) : (forceVoices s).arbiter.waiting =
    s.arbiter.waiting.filter (fun v => decide (v = 6) || decide ((s.voice v).state = .idle)) := by
  have key : ∀ (l : List VoiceId) (s : State), l.Nodup →
      (l.foldl (fun s v => endVoice noOffers v .forced s) s).arbiter.waiting =
        s.arbiter.waiting.filter (fun v => decide (v ∉ l) || decide ((s.voice v).state = .idle)) := by
    intro l
    induction l with
    | nil => intro s _; simp [List.filter_eq_self.2]
    | cons a l ih =>
      intro s hn
      rw [List.nodup_cons] at hn
      rw [List.foldl_cons, ih _ hn.2]
      by_cases h : (s.voice a).state = .idle
      · rw [endVoice_idle h]
        apply List.filter_congr
        intro w _
        by_cases hw : w = a
        · subst hw; simp [h]
        · simp [hw]
      · obtain ⟨e1, e⟩ := endVoice_noOffers_step (cause := .forced) h
        rw [e1, List.filter_filter]
        apply List.filter_congr
        intro w _
        by_cases hw : w = a
        · subst hw; simp [h]
        · simp [hw, e w hw]
  rw [forceVoices, key _ _ (by decide)]
  apply List.filter_congr
  intro w _
  have : ∀ w : VoiceId, decide (w ∉ generalVoices) = decide (w = 6) := by decide
  rw [this]

/-- The end of a voice that holds no zone (R94). -/
theorem endVoice_holdsNone {w : VoiceId} {cause : EndCause} {s : State}
    (alive : (s.voice w).state ≠ .idle) (none : ∀ z, s.holds w z = false) :
    (let t := endVoice noOffers w cause s
     (∀ z, t.zone z = s.zone z) ∧ (∀ v, v ≠ w → t.voice v = s.voice v) ∧
     t.voice w = { (s.voice w).cleared with endRecord := some (endRecordOf (s.voice w) cause s.clockTime) } ∧
     t.flagSet (.voiceEnd w) = true) := by
  have e : endVoice noOffers w cause s = freeZones w (setFlag (.voiceEnd w) (leaveWaiting w
      (s.setVoice w { (s.voice w).cleared with endRecord := some (endRecordOf (s.voice w) cause s.clockTime) }))) := by
    unfold endVoice; simp only; rw [if_neg alive, noOffers]
  rw [e]
  generalize ({ (s.voice w).cleared with endRecord := some (endRecordOf (s.voice w) cause s.clockTime) } : Voice) = x
  have v1 : ∀ v, (setFlag (.voiceEnd w) (leaveWaiting w (s.setVoice w x))).voice v = (s.setVoice w x).voice v := fun _ => rfl
  have z1 : ∀ z, (setFlag (.voiceEnd w) (leaveWaiting w (s.setVoice w x))).zone z = s.zone z := fun _ => rfl
  have f1 : (setFlag (.voiceEnd w) (leaveWaiting w (s.setVoice w x))).flagSet (.voiceEnd w) = true := by simp
  generalize setFlag (.voiceEnd w) (leaveWaiting w (s.setVoice w x)) = s1 at v1 z1 f1
  have n1 : ∀ z, s1.holds w z = false := fun z => by rw [holds_congr w (z1 z), none z]
  have fz := (freeZones_step w s1).1
  have z2 : ∀ z, (freeZones w s1).zone z = s.zone z := fun z => by rw [zone_freeZones_none n1, z1]
  generalize freeZones w s1 = f at fz z2
  have v2 : ∀ v, f.voice v = (s.setVoice w x).voice v := fun v => by rw [fz]; exact v1 v
  refine ⟨z2, fun v hv => ?_, ?_, ?_⟩
  · rw [v2]; simp [hv]
  · rw [v2]; simp
  · rw [fz]; exact f1

/-- The notice to a voice that holds no zone any more (R90, R107). -/
theorem loseLast_holdsNone {w : VoiceId} {s : State} (none : ∀ z, s.holds w z = false) :
    (let t := loseLast noOffers w s
     (∀ z, t.zone z = s.zone z) ∧ (∀ v, v ≠ w → t.voice v = s.voice v) ∧ (t.voice w).state ≠ .active ∧
     ∀ q, (s.voice w).state = .active → (s.voice w).order = some q →
       (q.suspendable = true → t.voice w = { s.voice w with state := .suspended }) ∧
       (q.suspendable = false → (t.voice w).state = .idle ∧ t.flagSet (.voiceEnd w) = true ∧
         ∃ r, (t.voice w).endRecord = some r ∧ r.cause = .preempted ∧ r.start = (s.voice w).start)) := by
  have h0 : s.heldSet w = 0 := heldSet_eq_zero.2 none
  unfold loseLast
  by_cases ha : (s.voice w).state = .active
  · simp only [ha, h0, and_self, if_true]
    by_cases hs : (s.voice w).order.any (·.suspendable) = true
    · rw [if_pos hs]
      refine ⟨fun _ => rfl, fun v hv => by simp [hv], by simp, fun q _ ho => ⟨fun _ => by simp, fun hq => ?_⟩⟩
      rw [ho] at hs; simp [hq] at hs
    · rw [if_neg hs]
      obtain ⟨e1, e2, e3, e4⟩ := endVoice_holdsNone (cause := .preempted) (by rw [ha]; decide) none
      refine ⟨e1, e2, ?_, fun q _ ho => ⟨fun hq => ?_, fun _ => ⟨?_, e4, ?_⟩⟩⟩
      · rw [e3]; show VoiceState.idle ≠ _; decide
      · rw [ho] at hs; simp [hq] at hs
      · rw [e3]; rfl
      · exact ⟨_, by rw [e3], rfl, rfl⟩
  · rw [if_neg fun h => ha h.1]
    exact ⟨fun _ => rfl, fun _ _ => rfl, ha, fun q h => absurd h ha⟩

/-- The notices, while the latch is set, to voices that hold no zone (R90, R107, R109). -/
theorem tellLosers_latched (l : List VoiceId) (nodup : l.Nodup) (s : State) (latch : s.inputs.latch = true)
    (none : ∀ w ∈ l, ∀ z, s.holds w z = false) :
    (let t := tellLosers offers l s
     EngineStep s t ∧ (∀ z, t.zone z = s.zone z) ∧ (∀ v, v ∉ l → t.voice v = s.voice v) ∧
     ∀ w ∈ l, ∀ q, (s.voice w).state = .active → (s.voice w).order = some q →
       (q.suspendable = true → t.voice w = { s.voice w with state := .suspended }) ∧
       (q.suspendable = false → (t.voice w).state = .idle ∧ t.flagSet (.voiceEnd w) = true ∧
         ∃ r, (t.voice w).endRecord = some r ∧ r.cause = .preempted ∧ r.start = (s.voice w).start)) := by
  have key : ∀ (l : List VoiceId) (s : State), l.Nodup → (∀ w ∈ l, ∀ z, s.holds w z = false) →
      (let t := l.foldl (fun s w => loseLast noOffers w s) s
       EngineStep s t ∧ (∀ z, t.zone z = s.zone z) ∧ (∀ v, v ∉ l → t.voice v = s.voice v) ∧
       ∀ w ∈ l, (t.voice w).state ≠ .active ∧ ∀ q, (s.voice w).state = .active → (s.voice w).order = some q →
         (q.suspendable = true → t.voice w = { s.voice w with state := .suspended }) ∧
         (q.suspendable = false → (t.voice w).state = .idle ∧ t.flagSet (.voiceEnd w) = true ∧
           ∃ r, (t.voice w).endRecord = some r ∧ r.cause = .preempted ∧ r.start = (s.voice w).start)) := by
    intro l
    induction l with
    | nil => exact fun s _ _ => ⟨EngineStep.refl s, fun _ => rfl, fun _ _ => rfl, by simp⟩
    | cons a l ih =>
      intro s nodup none
      rw [List.nodup_cons] at nodup
      simp only [List.foldl_cons]
      obtain ⟨a1, a2, a3, a4⟩ := loseLast_holdsNone (none a (by simp))
      have ae := engineStep_loseLast offersStep_noOffers a s
      generalize loseLast noOffers a s = s1 at a1 a2 a3 a4 ae
      obtain ⟨b1, b2, b3, b4⟩ := ih s1 nodup.2
        fun w hw z => by rw [holds_congr w (a1 z)]; exact none w (by simp [hw]) z
      generalize l.foldl (fun s w => loseLast noOffers w s) s1 = t at b1 b2 b3 b4
      refine ⟨ae.trans b1, fun z => by rw [b2, a1], fun v hv => ?_, fun w hw => ?_⟩
      · rw [List.mem_cons, not_or] at hv
        rw [b3 v hv.2, a2 v hv.1]
      · by_cases he : w = a
        · subst he
          rw [b3 w nodup.1]
          refine ⟨a3, fun q h1 h2 => ⟨(a4 q h1 h2).1, fun h3 => ?_⟩⟩
          obtain ⟨c1, c2, c3⟩ := (a4 q h1 h2).2 h3
          refine ⟨c1, ?_, c3⟩
          have := b1.flags
          unfold State.flagSet at c2 ⊢
          rw [← this, BitVec.getLsbD_and, Bool.and_eq_true] at c2
          exact c2.2
        · have hl : w ∈ l := by simpa [he] using hw
          rw [← a2 w he]; exact b4 w hl
  obtain ⟨k1, k2, k3, k4⟩ := key l s nodup none
  have same : ∀ (m : List VoiceId) (t : State), (∀ w ∈ m, (t.voice w).state ≠ .active) →
      m.foldl (fun s w => loseSome noOffers w s) t = t := by
    intro m
    induction m with
    | nil => exact fun _ _ => rfl
    | cons a m ih =>
      intro t h
      rw [List.foldl_cons]
      have : loseSome noOffers a t = t := by unfold loseSome; rw [if_neg fun hh => h a (by simp) hh.1]
      rw [this]; exact ih t fun w hw => h w (by simp [hw])
  have e : tellLosers offers l s = l.foldl (fun s w => loseLast noOffers w s) s := by
    unfold tellLosers
    simp only
    rw [same l _ fun w hw => (k4 w hw).1]
    exact offers_latched (by rw [k1.inputs]; exact latch)
  rw [e]
  exact ⟨k1, k2, k3, fun w hw => (k4 w hw).2⟩

end Sys2Proof.Machine
end

