-- ==== Sys2Proof/Laws/Operands.lean ====
section
/-! SUPPORT. The fields of request bodies: when one is out of range, and that a number written as bytes is read back. -/

namespace Sys2Proof.Machine

/-! ### Numbers (R190) -/

/-- A number of two bytes read back. -/
theorem fromLe_le16 (w : BitVec 16) : BitVec.ofNat 16 (fromLe (le16 w.toNat)) = w := by
  apply BitVec.eq_of_toNat_eq
  have := w.isLt
  simp only [le16, fromLe, byteOf, BitVec.toNat_ofNat]
  omega

/-- A number of four bytes read back. -/
theorem fromLe_le32 (w : BitVec 32) : BitVec.ofNat 32 (fromLe (le32 w.toNat)) = w := by
  apply BitVec.eq_of_toNat_eq
  have := w.isLt
  simp only [le32, fromLe, byteOf, BitVec.toNat_ofNat]
  omega

/-- A number from 1 on is out of range at 0 and above its greatest value. -/
theorem oneBased_eq_none {n m : Nat} : oneBased n m = none ↔ m = 0 ∨ n < m := by
  unfold oneBased; split <;> simp <;> omega

/-- A yes-or-no field is out of range above 1. -/
theorem readYesNo_eq_none {b : Byte} : readYesNo b = none ↔ 1 < b.toNat := by
  unfold readYesNo
  constructor
  · intro h
    split at h
    · cases h
    · split at h
      · cases h
      · next h0 h1 =>
        have : b.toNat ≠ 0 := fun e => h0 (BitVec.eq_of_toNat_eq e)
        have : b.toNat ≠ 1 := fun e => h1 (BitVec.eq_of_toNat_eq e)
        omega
  · intro h
    rw [if_neg (by rintro rfl; simp at h), if_neg (by rintro rfl; simp at h)]

/-- A yes-or-no field in range. -/
theorem readYesNo_yesNo (b : Bool) : readYesNo (yesNo b) = some b := by cases b <;> decide

/-! ### Text (R191) -/

/-- A text field of 16 bytes: printable characters, then zeros to its end. -/
theorem readText_eq_some {l t : List Byte} (length : l.length = 16) : readText l = some t ↔
    t.length ≤ 16 ∧ (∀ b ∈ t, 32 ≤ b.toNat ∧ b.toNat ≤ 126) ∧ l = t ++ List.replicate (16 - t.length) 0 := by
  unfold readText
  simp only
  constructor
  · intro h
    split at h
    · next hc =>
      cases h
      rw [Bool.and_eq_true, List.all_eq_true, List.all_eq_true] at hc
      have hl := List.takeWhile_append_dropWhile (p := (· ≠ (0 : Byte))) (l := l)
      have len : (l.takeWhile (· ≠ 0)).length + (l.dropWhile (· ≠ 0)).length = 16 := by
        rw [← length, ← List.length_append, hl]
      refine ⟨by omega, fun b hb => ?_, ?_⟩
      · have := hc.1 b hb; simp [printable] at this; exact this
      · have : l.dropWhile (· ≠ 0) = List.replicate (16 - (l.takeWhile (· ≠ 0)).length) 0 := by
          rw [List.eq_replicate_iff]
          exact ⟨by omega, fun b hb => by simpa using hc.2 b hb⟩
        rw [← this]; exact hl.symm
    · cases h
  · rintro ⟨_, h2, h3⟩
    have nz : ∀ b ∈ t, decide (b ≠ 0) = true := by
      intro b hb; have := (h2 b hb).1; simp; rintro rfl; simp at this
    have rz : (List.replicate (16 - t.length) (0 : Byte)).takeWhile (fun b => decide (b ≠ 0)) = [] := by
      cases 16 - t.length <;> simp [List.replicate_succ]
    have rd : (List.replicate (16 - t.length) (0 : Byte)).dropWhile (fun b => decide (b ≠ 0)) =
        List.replicate (16 - t.length) 0 := by
      cases 16 - t.length <;> simp [List.replicate_succ]
    have e1 : l.takeWhile (fun b => decide (b ≠ 0)) = t := by
      rw [h3, List.takeWhile_append_of_pos nz, rz, List.append_nil]
    have e2 : l.dropWhile (fun b => decide (b ≠ 0)) = List.replicate (16 - t.length) 0 := by
      rw [h3, List.dropWhile_append_of_pos nz, rd]
    rw [e1, e2, if_pos]
    rw [Bool.and_eq_true, List.all_eq_true, List.all_eq_true]
    exact ⟨fun b hb => by simp [printable]; exact h2 b hb, fun b hb => by simp [List.eq_of_mem_replicate hb]⟩

/-! ### Step records (R196) -/

/-- The step records of a PROG.WRITE body, read back. -/
theorem stepsOf_layout (a b c : Byte) (steps : List RawStep) :
    stepsOf ([a, b, c] ++ (steps.map fun r => [r.kind, r.clip, r.count] ++ le16 r.limit.toNat ++ le16 r.gap.toNat).flatten) =
      steps := by
  generalize hf : (fun r : RawStep => [r.kind, r.clip, r.count] ++ le16 r.limit.toNat ++ le16 r.gap.toNat) = f
  have hl : ∀ r, (f r).length = 7 := by intro r; rw [← hf]; rfl
  have len : ∀ l : List RawStep, (l.map f).flatten.length = 7 * l.length := by
    intro l
    induction l with
    | nil => rfl
    | cons a l ih => simp [hl, ih]; omega
  have hs : ∀ (l : List RawStep) (pre : List Byte),
      (List.range l.length).map (fun k => stepAt (pre ++ (l.map f).flatten) (pre.length + 7 * k)) = l := by
    intro l
    induction l with
    | nil => intro _; rfl
    | cons r l ih =>
      intro pre
      rw [List.length_cons, List.range_succ_eq_map, List.map_cons, List.map_map]
      have := ih (pre ++ f r)
      congr 1
      · have hw := fromLe_le16 r.limit
        have hg := fromLe_le16 r.gap
        simp only [stepAt, byteAt, wordAt, field, ← hf, List.map_cons, List.flatten_cons, le16] at hw hg ⊢
        have h3 : pre.drop (pre.length + 3) = [] := List.drop_eq_nil_of_le (by omega)
        have h5 : pre.drop (pre.length + 5) = [] := List.drop_eq_nil_of_le (by omega)
        simp [List.getD, List.drop_append, h3, h5, hw, hg]
      · refine Eq.trans ?_ this
        apply List.map_congr_left
        intro k _
        simp only [Function.comp, List.map_cons, List.flatten_cons, List.append_assoc, List.length_append, hl]
        congr 1; omega
  have := hs steps [a, b, c]
  unfold stepsOf
  rw [List.length_append, len]
  have h1 : ([a, b, c].length + 7 * steps.length - 3) / 7 = steps.length := by simp
  rw [h1]; exact this

end Sys2Proof.Machine
end

