-- ==== Sys2Proof/Laws/Scan.lean ====
section
/-! SUPPORT. The store scan: how a page is read, a block classified and a load found complete, and what the completion of the scan leaves
in the tables. -/

namespace Sys2Proof.Machine

/-! ### Reading a page (R170, R172) -/

/-- The condition of a page read by the scan (R170). -/
theorem scanCondition_spec (tagGood payloadGood : Bool) (x : FlashPage) :
    (tagCondition tagGood x.spare = .erased →
      scanCondition tagGood payloadGood x =
        if payloadGood = true ∧ (∀ b ∈ x.payload, b = 255) then .erased else .unreadable) ∧
    (tagCondition tagGood x.spare ≠ .erased →
      scanCondition tagGood payloadGood x = tagCondition tagGood x.spare) := by
  unfold scanCondition
  refine ⟨fun h => ?_, fun h => ?_⟩
  · rw [h]; simp only [Bool.and_eq_true, List.all_eq_true, decide_eq_true_eq]
  · split
    · next e => exact absurd e h
    · next e => exact e.symm
    · next e => exact e.symm

/-- The greatest load number of a clip with a page taken into account (R172). -/
theorem noteLoad_read (c : PageCondition) (g : Table Nat) (k : ClipId) :
    (noteLoad c g).read 0 k.val = match c with
      | .valid t => if t.clip = k then max t.load (g.read 0 k.val) else g.read 0 k.val
      | _ => g.read 0 k.val := by
  unfold noteLoad
  cases c with
  | valid t =>
    simp only
    rw [Table.read_write]
    by_cases h : t.clip = k
    · subst h; simp
    · have : k.val ≠ t.clip.val := fun e => h (Fin.ext e.symm)
      simp [h, this]
  | erased => rfl
  | unreadable => rfl
/-! ### Classifying a block (R171) -/

/-- The pages of a block with a valid prefix: valid tags, then erased pages. -/
theorem validPrefix_some {pages : List PageCondition} {ts : List Tag} (h : validPrefix pages = some ts) :
    ∃ k, pages = ts.map PageCondition.valid ++ List.replicate k .erased := by
  induction pages generalizing ts with
  | nil => simp only [validPrefix, Option.some.injEq] at h; subst h; exact ⟨0, rfl⟩
  | cons c rest ih =>
    cases c with
    | valid t =>
      simp only [validPrefix, Option.map_eq_some_iff] at h
      obtain ⟨us, h1, rfl⟩ := h
      obtain ⟨k, hk⟩ := ih h1
      exact ⟨k, by rw [hk]; rfl⟩
    | erased =>
      simp only [validPrefix] at h
      split at h
      · next ha =>
        cases h
        refine ⟨rest.length + 1, ?_⟩
        rw [List.all_eq_true] at ha
        rw [List.map_nil, List.nil_append, List.replicate_succ]
        congr 1
        exact List.eq_replicate_iff.2 ⟨rfl, fun c hc => of_decide_eq_true (ha c hc)⟩
      · cases h
    | unreadable => cases h

theorem validPrefix_of (ts : List Tag) (k : Nat) :
    validPrefix (ts.map PageCondition.valid ++ List.replicate k .erased) = some ts := by
  induction ts with
  | nil =>
    cases k with
    | zero => rfl
    | succ k => simp [List.replicate_succ, validPrefix]
  | cons t ts ih => simp only [List.map_cons, List.cons_append, validPrefix, ih, Option.map_some]

/-- All tags of a block stand rightly exactly when each does. -/
theorem tagsFit_iff (first : Tag) (n i : Nat) (ts : List Tag) :
    tagsFit first n i ts = true ↔ ∀ (j : Nat) t, ts[j]? = some t → tagFits first n (i + j) t = true := by
  induction ts generalizing i with
  | nil => simp [tagsFit]
  | cons t ts ih =>
    simp only [tagsFit, Bool.and_eq_true, ih]
    constructor
    · rintro ⟨h1, h2⟩ j u hj
      cases j with
      | zero => simp at hj; subst hj; exact h1
      | succ j => have := h2 j u (by simpa using hj); rwa [Nat.add_assoc, Nat.add_comm 1 j] at this
    · intro h
      refine ⟨h 0 t rfl, fun j u hj => ?_⟩
      have := h (j + 1) u (by simpa using hj)
      rwa [Nat.add_assoc, Nat.add_comm 1 j]

/-- The pages programmed of a STALE block: one more than the highest page that is not erased (R171). -/
theorem pagesWritten_spec (pages : List PageCondition) :
    (∀ (i : Nat) c, pages[i]? = some c → pagesWritten pages ≤ i → c = .erased) ∧
    ∀ m : Nat, pagesWritten pages = m + 1 → ∃ c, pages[m]? = some c ∧ c ≠ .erased := by
  induction pages with
  | nil => exact ⟨by simp, by simp [pagesWritten]⟩
  | cons a rest ih =>
    obtain ⟨h1, h2⟩ := ih
    unfold pagesWritten
    by_cases h : pagesWritten rest = 0 ∧ a = .erased
    · rw [if_pos h]
      refine ⟨fun i c hi _ => ?_, fun m hm => by omega⟩
      cases i with
      | zero => simp at hi; rw [← hi]; exact h.2
      | succ i => exact h1 i c (by simpa using hi) (by omega)
    · rw [if_neg h]
      refine ⟨fun i c hi hl => ?_, fun m hm => ?_⟩
      · cases i with
        | zero => omega
        | succ i => exact h1 i c (by simpa using hi) (by omega)
      · cases m with
        | zero =>
          refine ⟨a, rfl, fun ha => h ⟨by omega, ha⟩⟩
        | succ m =>
          obtain ⟨c, hc, hne⟩ := h2 m (by omega)
          exact ⟨c, by simpa using hc, hne⟩

theorem valid_get {ts : List Tag} {k i : Nat} {t : Tag}
    (h : (ts.map PageCondition.valid ++ List.replicate k .erased)[i]? = some (.valid t)) : ts[i]? = some t := by
  rw [List.getElem?_append] at h
  split at h
  · rw [List.getElem?_map] at h
    cases ht : ts[i]? with
    | none => rw [ht] at h; cases h
    | some u => rw [ht] at h; simp at h; rw [h]
  · rw [List.getElem?_replicate] at h
    split at h <;> simp at h

/-- Why a block is STALE (R171). -/
def StaleCause (pages : List PageCondition) : Prop :=
  PageCondition.unreadable ∈ pages ∨
      (∃ (i j : Nat) (t : Tag), i < j ∧ pages[i]? = some PageCondition.erased ∧ pages[j]? = some (PageCondition.valid t)) ∨
      (∃ t t', PageCondition.valid t ∈ pages ∧ PageCondition.valid t' ∈ pages ∧
        (t.clip ≠ t'.clip ∨ t.load ≠ t'.load ∨ t.sequence ≠ t'.sequence)) ∨
      (∃ (i : Nat) (t : Tag), pages[i]? = some (PageCondition.valid t) ∧ t.page.val ≠ i) ∨
      (∃ (i j : Nat) (t t' : Tag), i < j ∧ pages[i]? = some (PageCondition.valid t) ∧ pages[j]? = some (PageCondition.valid t') ∧
        t.final ≠ none) ∨
      (∃ (i : Nat) (t : Tag), pages[i]? = some (PageCondition.valid t) ∧ t.header ≠ none ∧ ¬ (i = 0 ∧ t.sequence = 0))

/-- A block whose valid tags all stand rightly, with erased pages after them, has no cause to be STALE. -/
theorem no_staleCause {ts : List Tag} {k : Nat} {first : Tag}
    (fits : ∀ (j : Nat) t, ts[j]? = some t → tagFits first ts.length j t = true) :
    ¬ StaleCause (ts.map PageCondition.valid ++ List.replicate k .erased) := by
  have mem : ∀ t, PageCondition.valid t ∈ ts.map PageCondition.valid ++ List.replicate k .erased →
      t.clip = first.clip ∧ t.load = first.load ∧ t.sequence = first.sequence := by
    intro t ht
    simp only [List.mem_append, List.mem_map, List.mem_replicate, PageCondition.valid.injEq, exists_eq_right, reduceCtorEq, and_false,
      or_false] at ht
    obtain ⟨j, hj⟩ := List.getElem?_of_mem ht
    have := fits j t hj
    simp only [tagFits, Bool.and_eq_true, decide_eq_true_eq] at this
    exact ⟨this.1.1.1.1.1, this.1.1.1.1.2, this.1.1.1.2⟩
  rintro (h | ⟨i, j, t, hij, hi, hj⟩ | ⟨t, t', ht, ht', h⟩ | ⟨i, t, hi, h⟩ | ⟨i, j, t, t', hij, hi, hj, h⟩ | ⟨i, t, hi, h1, h2⟩)
  · simp at h
  · have := (List.getElem?_eq_some_iff.1 (valid_get hj)).1
    rw [List.getElem?_append_left (by simp; omega), List.getElem?_map] at hi
    cases ht : ts[i]? with
    | none => rw [ht] at hi; cases hi
    | some u => rw [ht] at hi; simp at hi
  · obtain ⟨a1, a2, a3⟩ := mem t ht
    obtain ⟨b1, b2, b3⟩ := mem t' ht'
    rw [a1, a2, a3, b1, b2, b3] at h; simp at h
  · have := fits i t (valid_get hi)
    simp only [tagFits, Bool.and_eq_true, decide_eq_true_eq] at this
    exact h this.1.1.2
  · have hl := (List.getElem?_eq_some_iff.1 (valid_get hj)).1
    have := fits i t (valid_get hi)
    simp only [tagFits, Bool.and_eq_true, decide_eq_true_eq, Bool.or_eq_true, Option.isNone_iff_eq_none] at this
    rcases this.1.2 with e | e
    · exact h e
    · omega
  · have := fits i t (valid_get hi)
    simp only [tagFits, Bool.and_eq_true, decide_eq_true_eq, Bool.or_eq_true, Option.isNone_iff_eq_none] at this
    rcases this.2 with e | e
    · exact h1 e
    · exact h2 e

/-- A block with every page erased is FREE. -/
theorem classify_free {b : BlockNo} {pages : List PageCondition} (h : ∀ c ∈ pages, c = .erased) : classify b pages = .free := by
  have : pages = ([] : List Tag).map PageCondition.valid ++ List.replicate pages.length .erased := by
    rw [List.map_nil, List.nil_append]; exact List.eq_replicate_iff.2 ⟨rfl, h⟩
  unfold classify
  have e := validPrefix_of [] pages.length
  rw [← this] at e
  rw [e]

/-- A block with a cause to be STALE is STALE. -/
theorem classify_stale {b : BlockNo} {pages : List PageCondition} (h : StaleCause pages) :
    classify b pages = .stale (pagesWritten pages) := by
  unfold classify
  cases hv : validPrefix pages with
  | none => rfl
  | some ts =>
    obtain ⟨k, hk⟩ := validPrefix_some hv
    cases ts with
    | nil => rw [hk] at h; exact absurd h (no_staleCause (first := ⟨0, 0, 0, 0, none, none⟩) (by simp))
    | cons first rest =>
      simp only
      rw [if_neg]
      intro hf
      rw [tagsFit_iff] at hf
      rw [hk] at h
      exact absurd h (no_staleCause (first := first) (by simpa using hf))

/-- A block whose valid tags all stand rightly is a candidate. -/
theorem classify_candidate {b : BlockNo} {first : Tag} {tags : List Tag} (k : Nat)
    (h : ∀ (i : Nat) (t : Tag), (first :: tags)[i]? = some t →
        t.clip = first.clip ∧ t.load = first.load ∧ t.sequence = first.sequence ∧ t.page.val = i ∧
        (t.final ≠ none → i = tags.length) ∧ (t.header ≠ none → i = 0 ∧ t.sequence = 0)) :
    classify b ((first :: tags).map PageCondition.valid ++ List.replicate k .erased) =
      .candidate (candidateOf b first (first :: tags)) := by
  unfold classify
  rw [validPrefix_of]
  simp only
  rw [if_pos]
  rw [tagsFit_iff]
  intro j t hj
  obtain ⟨h1, h2, h3, h4, h5, h6⟩ := h j t hj
  simp only [tagFits, Bool.and_eq_true, decide_eq_true_eq, Bool.or_eq_true, Option.isNone_iff_eq_none, Nat.zero_add]
  refine ⟨⟨⟨⟨⟨h1, h2⟩, h3⟩, h4⟩, ?_⟩, ?_⟩
  · by_cases hf : t.final = none
    · exact .inl hf
    · exact .inr (by rw [h5 hf])
  · by_cases hf : t.header = none
    · exact .inl hf
    · exact .inr (h6 hf)

/-! ### The greatest load numbers and the reads (R167, R172) -/

theorem fromLe_lt (l : List Byte) : fromLe l < 256 ^ l.length := by
  induction l with
  | nil => simp [fromLe]
  | cons b l ih =>
    have := b.isLt
    simp only [fromLe, List.length_cons, Nat.pow_succ]
    omega

theorem readTag_load {bytes : List Byte} {t : Tag} (h : readTag bytes = some t) : 1 ≤ t.load ∧ t.load ≤ 4294967295 := by
  unfold readTag at h
  simp only [Option.bind_eq_bind, Option.bind_eq_some_iff] at h
  obtain ⟨_, _, _, _, _, _, _, _, h⟩ := h
  split at h
  · next hc =>
    cases h
    refine ⟨hc.2.1, ?_⟩
    have := fromLe_lt (field bytes 1 4)
    have hl : (field bytes 1 4).length = 4 := by simp [field, hc.1]
    rw [hl] at this; simp only; omega
  · cases h

/-- A valid tag carries a load number in the range of R9. -/
theorem scanCondition_load {g p : Bool} {x : FlashPage} {t : Tag} (h : scanCondition g p x = .valid t) :
    1 ≤ t.load ∧ t.load ≤ 4294967295 := by
  have h1 : tagCondition g x.spare = .valid t := by
    unfold scanCondition at h
    split at h
    · split at h <;> cases h
    · next e => rw [e, h]
    · cases h
  unfold tagCondition at h1
  split at h1
  · split at h1
    · cases h1
    · split at h1
      · cases h1; exact readTag_load (by assumption)
      · cases h1
  · cases h1

/-- A table keeps its keys in rising order. -/
theorem sorted_write {α : Type} (k : Nat) (x : α) (t : Table α) (h : (t.map (·.1)).Pairwise (· < ·)) :
    ((t.write k x).map (·.1)).Pairwise (· < ·) ∧ ∀ q ∈ t.write k x, q = (k, x) ∨ q ∈ t := by
  induction t with
  | nil => simp [Table.write]
  | cons a t ih =>
    obtain ⟨j, y⟩ := a
    simp only [List.map_cons, List.pairwise_cons, List.mem_map, forall_exists_index, and_imp, forall_apply_eq_imp_iff₂] at h
    unfold Table.write
    split
    · next hk =>
      refine ⟨?_, fun q hq => List.mem_cons.1 hq⟩
      simp only [List.map_cons, List.pairwise_cons, List.mem_cons, List.mem_map, forall_eq_or_imp, forall_exists_index, and_imp,
        forall_apply_eq_imp_iff₂]
      exact ⟨⟨hk, fun q hq => Nat.lt_trans hk (h.1 q hq)⟩, h.1, h.2⟩
    · split
      · next hk =>
        subst hk
        refine ⟨?_, fun q hq => ?_⟩
        · simp only [List.map_cons, List.pairwise_cons, List.mem_map, forall_exists_index, and_imp, forall_apply_eq_imp_iff₂]
          exact h
        · rcases List.mem_cons.1 hq with e | e
          · exact .inl e
          · exact .inr (List.mem_cons_of_mem _ e)
      · next h1 h2 =>
        obtain ⟨i1, i2⟩ := ih h.2
        refine ⟨?_, fun q hq => ?_⟩
        · simp only [List.map_cons, List.pairwise_cons, List.mem_map, forall_exists_index, and_imp, forall_apply_eq_imp_iff₂]
          refine ⟨fun q hq => ?_, i1⟩
          rcases i2 q hq with e | e
          · subst e; simp only; omega
          · exact h.1 q e
        · rcases List.mem_cons.1 hq with e | e
          · exact .inr (by rw [e]; simp)
          · rcases i2 q e with e | e
            · exact .inl e
            · exact .inr (List.mem_cons_of_mem _ e)

theorem table_read_mem {α : Type} (d : α) (t : Table α) (h : (t.map (·.1)).Pairwise (· < ·)) (q : Nat × α) (hq : q ∈ t) :
    t.read d q.1 = q.2 := by
  induction t with
  | nil => cases hq
  | cons a t ih =>
    simp only [List.map_cons, List.pairwise_cons, List.mem_map, forall_exists_index, and_imp, forall_apply_eq_imp_iff₂] at h
    unfold Table.read
    rcases List.mem_cons.1 hq with e | e
    · subst e; simp
    · rw [if_neg, ih h.2 e]
      have := h.1 q e; omega

theorem table_read_cases {α : Type} (d : α) (t : Table α) (k : Nat) : t.read d k = d ∨ (k, t.read d k) ∈ t := by
  induction t with
  | nil => exact .inl rfl
  | cons a t ih =>
    unfold Table.read
    split
    · next h => right; subst h; simp
    · rcases ih with h | h
      · exact .inl h
      · exact .inr (List.mem_cons_of_mem _ h)

/-- The greatest load numbers stay listed by clip, each once, and in the range of R9. -/
theorem noteLoad_sorted {g p : Bool} {x : FlashPage} {t : Table Nat} (h : (t.map (·.1)).Pairwise (· < ·))
    (b : ∀ q ∈ t, q.1 < 255 ∧ q.2 ≤ 4294967295) :
    ((noteLoad (scanCondition g p x) t).map (·.1)).Pairwise (· < ·) ∧
    ∀ q ∈ noteLoad (scanCondition g p x) t, q.1 < 255 ∧ q.2 ≤ 4294967295 := by
  unfold noteLoad
  cases hc : scanCondition g p x with
  | valid u =>
    obtain ⟨h1, h2⟩ := sorted_write u.clip.val (max u.load (t.read 0 u.clip.val)) t h
    refine ⟨h1, fun q hq => ?_⟩
    rcases h2 q hq with e | e
    · subst e
      have := (scanCondition_load hc).2
      refine ⟨u.clip.isLt, ?_⟩
      rcases table_read_cases 0 t u.clip.val with e | e
      · simp only [e]; omega
      · have := (b _ e).2; simp only at this ⊢; omega
    · exact b q e
  | erased => exact ⟨h, b⟩
  | unreadable => exact ⟨h, b⟩

/-- A read of the scan completes (R167). -/
theorem scanDone_next {g p : Bool} {s : State} {b : BlockNo} {i : PageNo} (hp : s.store.port = .scanRead b i) (j : PageNo)
    (hj : j.val = i.val + 1) :
    (let c := scanCondition g p (s.flash.read (pageAddress b i))
     scanDone g p s = { s with
       store.scan.greatest := noteLoad c s.store.scan.greatest
       store.port := .scanRead b j, store.scan.pages := s.store.scan.pages ++ [c] }) := by
  have := j.isLt
  unfold scanDone
  rw [hp]
  simp only
  rw [dif_pos (by omega)]
  have : (⟨i.val + 1, by omega⟩ : PageNo) = j := Fin.ext hj.symm
  rw [this]; rfl

/-- The 16th read of a block completes (R167). -/
theorem scanDone_last {g p : Bool} {s : State} {b : BlockNo} (hp : s.store.port = .scanRead b 15) :
    (let c := scanCondition g p (s.flash.read (pageAddress b 15))
     scanDone g p s = nextBlock b (recordBlock b (classify b (s.store.scan.pages ++ [c])) { s with
       store.scan.greatest := noteLoad c s.store.scan.greatest, store.scan.pages := [] })) := by
  unfold scanDone
  rw [hp]
  rfl

theorem nextBlock_next {b d : BlockNo} {s : State} (h : d.val = b.val + 1) : nextBlock b s = s.setPort (.scanRead d 0) := by
  have := d.isLt
  unfold nextBlock
  rw [dif_pos (by omega)]
  have : (⟨b.val + 1, by omega⟩ : BlockNo) = d := Fin.ext h.symm
  rw [this]

theorem nextBlock_last {s : State} : nextBlock 2047 s = completeScan s := by
  unfold nextBlock; rw [dif_neg (by decide)]

/-! ### Complete loads (R173) -/

theorem mem_inSequence {cs : List Candidate} {x : Candidate} (h : x ∈ inSequence cs) : x ∈ cs := by
  unfold inSequence at h
  rw [List.mem_filterMap] at h
  obtain ⟨k, _, hk⟩ := h
  exact List.mem_of_find?_eq_some hk

theorem filterMap_length_eq {α β : Type} (f : α → Option β) (l : List α) :
    (l.filterMap f).length = l.length → ∀ (i : Nat) a, l[i]? = some a → (l.filterMap f)[i]? = f a := by
  induction l with
  | nil => simp
  | cons a l ih =>
    intro h i b hb
    have hle := List.length_filterMap_le f l
    cases ha : f a with
    | none => rw [List.filterMap_cons_none ha] at h; simp at h; omega
    | some c =>
      rw [List.filterMap_cons_some ha] at h ⊢
      simp only [List.length_cons, Nat.add_right_cancel_iff] at h
      cases i with
      | zero => simp at hb; subst hb; simp [ha]
      | succ i => simpa using ih h i b (by simpa using hb)

theorem inSequence_sequence {cs : List Candidate} (h : (inSequence cs).length = cs.length) (i : Nat) (x : Candidate)
    (hx : (inSequence cs)[i]? = some x) : x.sequence = i ∧ cs.find? (fun y => y.sequence = i) = some x := by
  have hi : i < cs.length := by have := (List.getElem?_eq_some_iff.1 hx).1; omega
  have := filterMap_length_eq (fun k => cs.find? fun x => x.sequence = k) (List.range cs.length) (by simpa [inSequence] using h) i i
    (by rw [List.getElem?_range hi])
  have e : cs.find? (fun y => y.sequence = i) = some x := by rw [← this]; exact hx
  exact ⟨by simpa using List.find?_some e, e⟩

theorem nodup_of_sequence {l : List Candidate} (h : ∀ (i : Nat) x, l[i]? = some x → x.sequence = i) : l.Nodup := by
  rw [List.Nodup, List.pairwise_iff_getElem]
  intro i j hi hj hij e
  have h1 := h i l[i] (List.getElem?_eq_getElem _)
  have h2 := h j l[j] (List.getElem?_eq_getElem _)
  rw [e] at h1; omega

theorem perm_of_nodup {α : Type} [DecidableEq α] {l m : List α} (nd : l.Nodup) (sub : ∀ x ∈ l, x ∈ m) (len : l.length = m.length) :
    l.Perm m := by
  induction l generalizing m with
  | nil => rw [List.eq_nil_of_length_eq_zero len.symm]
  | cons a l ih =>
    rw [List.nodup_cons] at nd
    have ha := sub a (by simp)
    refine ((ih nd.2 (fun x hx => ?_) ?_).cons a).trans (List.perm_cons_erase ha).symm
    · exact (List.mem_erase_of_ne (fun e : x = a => nd.1 (by rw [← e]; exact hx))).2 (sub x (List.mem_cons_of_mem _ hx))
    · rw [List.length_erase_of_mem ha]; simp at len; omega

/-- The candidates of a load stand in the order of their sequences, each once (R173). -/
theorem inSequence_perm {cs : List Candidate} (h : (inSequence cs).length = cs.length) : (inSequence cs).Perm cs := by
  have nd := nodup_of_sequence fun i x hx => (inSequence_sequence h i x hx).1
  exact perm_of_nodup nd (fun x hx => mem_inSequence hx) h

theorem inSequence_eq {cs l : List Candidate} (p : l.Perm cs) (h : ∀ (i : Nat) x, l[i]? = some x → x.sequence = i) :
    inSequence cs = l := by
  have find : ∀ i (hi : i < l.length), cs.find? (fun x => x.sequence = i) = some l[i] := by
    intro i hi
    cases hf : cs.find? (fun x => x.sequence = i) with
    | none =>
      rw [List.find?_eq_none] at hf
      have := hf l[i] (p.mem_iff.1 (List.getElem_mem hi))
      simp [h i l[i] (List.getElem?_eq_getElem hi)] at this
    | some y =>
      have hy := List.mem_of_find?_eq_some hf
      have hs := List.find?_some hf
      simp only [decide_eq_true_eq] at hs
      obtain ⟨j, hj⟩ := List.getElem?_of_mem (p.mem_iff.2 hy)
      have := h j y hj
      have : j = i := by omega
      subst this
      rw [List.getElem?_eq_getElem hi] at hj; rw [hj]
  unfold inSequence
  rw [← p.length_eq]
  apply List.ext_getElem?
  intro i
  have e : (List.range l.length).filterMap (fun k => cs.find? fun x => x.sequence = k) =
      (List.range l.length).map (fun k => l.getD k ⟨0, 0, 0, 0, 0, none, none⟩) := by
    have : ∀ m : List Nat, (∀ k ∈ m, k < l.length) → m.filterMap (fun k => cs.find? fun x => x.sequence = k) =
        m.map (fun k => l.getD k ⟨0, 0, 0, 0, 0, none, none⟩) := by
      intro m
      induction m with
      | nil => intro _; rfl
      | cons k m ih =>
        intro hm
        have hk := hm k (by simp)
        rw [List.filterMap_cons_some (f := fun k => cs.find? fun x => x.sequence = k) (find k hk), List.map_cons,
          ih fun j hj => hm j (List.mem_cons_of_mem _ hj)]
        simp [List.getElem?_eq_getElem hk]
    exact this _ fun k hk => List.mem_range.1 hk
  rw [e, List.getElem?_map]
  by_cases hi : i < l.length
  · rw [List.getElem?_range hi]; simp [List.getElem?_eq_getElem hi]
  · rw [List.getElem?_eq_none (by simp; omega), List.getElem?_eq_none (by omega)]; rfl

/-- When a load is complete, and the order of its candidates and the record they give (R173). -/
theorem completeLoad_iff (cs l : List Candidate) (x : Clip) : completeLoad cs = some (l, x) ↔
    ∃ h n, LoadComplete cs l h n ∧ ∃ first, l.head? = some first ∧ x =
      { state := .ready, format := h.format, rate := h.rate, protect := h.protect, name := h.name, load := first.load
        places := l.map fun y => some y.block, accepted := n * h.format.size, programmed := n * h.format.size
        samples := some n } := by
  unfold completeLoad
  simp only [Option.bind_eq_bind, Option.bind_eq_some_iff]
  constructor
  · rintro ⟨first, hf, last, hl, h, hh, n, hn, hc⟩
    split at hc
    · next hc' =>
      obtain ⟨c1, c2, c3, c4⟩ := hc'
      cases hc
      have p := inSequence_perm c2
      refine ⟨h, n, ⟨p, by rw [c2]; exact c1, fun i x hx => (inSequence_sequence c2 i x hx).1, fun x hx => ?_, ⟨first, hf, hh⟩,
        ⟨last, hl, hn, ?_⟩⟩, first, hf, rfl⟩
      · rw [List.all_eq_true] at c3
        have := c3 x hx
        simp only [Bool.and_eq_true, decide_eq_true_eq, Option.isNone_iff_eq_none] at this
        exact this
      · rw [c2]; exact c4
    · cases hc
  · rintro ⟨h, n, ⟨p, c1, hs, c3, ⟨f, hf, hh⟩, ⟨last, hl, hn, c4⟩⟩, first, hf', rfl⟩
    rw [hf] at hf'; cases hf'
    rw [inSequence_eq p hs]
    refine ⟨f, hf, last, hl, h, hh, n, hn, ?_⟩
    rw [if_pos]
    refine ⟨by rw [← p.length_eq]; exact c1, p.length_eq, ?_, ?_⟩
    · rw [List.all_eq_true]; intro x hx; simp only [Bool.and_eq_true, decide_eq_true_eq, Option.isNone_iff_eq_none]; exact c3 x hx
    · rw [← p.length_eq]; exact c4

/-! ### Completion (R172 to R174) -/

/-- The block table entry of a candidate whose load is complete (R173). -/
def Candidate.owned (x : Candidate) : Block :=
  { state := .owned x.clip x.sequence, programmed := x.pages, retireMark := false, eraseQueued := false }

/-- Owning the candidates of a list, whose blocks are distinct. -/
theorem foldl_ownCandidate (l : List Candidate) (nd : (l.map (·.block)).Nodup) (s : State) :
    (let t := l.foldl (fun s y => ownCandidate y s) s
     (∃ bs, t = { s with store.blocks := bs }) ∧ (∀ y ∈ l, t.block y.block = y.owned) ∧
     ∀ b, (∀ y ∈ l, y.block ≠ b) → t.block b = s.block b) := by
  induction l generalizing s with
  | nil => exact ⟨⟨s.store.blocks, rfl⟩, by simp, fun _ _ => rfl⟩
  | cons a l ih =>
    simp only [List.map_cons, List.nodup_cons, List.mem_map, not_exists, not_and] at nd
    obtain ⟨⟨bs, h1⟩, h2, h3⟩ := ih nd.2 (ownCandidate a s)
    simp only [List.foldl_cons]
    refine ⟨⟨bs, h1⟩, fun y hy => ?_, fun b hb => ?_⟩
    · rcases List.mem_cons.1 hy with rfl | hy
      · rw [h3 y.block fun z hz => nd.1 z hz]
        unfold ownCandidate; rw [block_setBlock, if_pos rfl]; rfl
      · exact h2 y hy
    · rw [h3 b fun y hy => hb y (List.mem_cons_of_mem _ hy)]
      unfold ownCandidate; rw [block_setBlock, if_neg (hb a (by simp)).symm]

/-- The load chosen for a clip, when it is complete: its candidates in order and the record they give (R172, R173). -/
def chosenLoad (s : State) (c : ClipId) : Option (List Candidate × Clip) := completeLoad (latestLoad s c)

/-- The candidates of a chosen load are candidates of its clip. -/
theorem chosenLoad_mem {s : State} {c : ClipId} {l : List Candidate} {x : Clip} (h : chosenLoad s c = some (l, x)) (y : Candidate)
    (hy : y ∈ l) : y ∈ s.store.scan.candidates ∧ y.clip = c := by
  obtain ⟨_, _, hc, _⟩ := (completeLoad_iff _ _ _).1 h
  have := hc.1.mem_iff.1 hy
  simp only [latestLoad, List.mem_filter, decide_eq_true_eq] at this
  exact ⟨this.1, this.2.1⟩

theorem chosenLoad_nodup {s : State} {c : ClipId} {l : List Candidate} {x : Clip}
    (nd : (s.store.scan.candidates.map (·.block)).Nodup) (h : chosenLoad s c = some (l, x)) : (l.map (·.block)).Nodup := by
  obtain ⟨_, _, hc, _⟩ := (completeLoad_iff _ _ _).1 h
  refine (hc.1.map _).nodup_iff.2 ?_
  exact nd.sublist ((List.filter_sublist).map _)

/-- Candidates of distinct blocks. -/
theorem block_inj {l : List Candidate} (nd : (l.map (·.block)).Nodup) {x y : Candidate} (hx : x ∈ l) (hy : y ∈ l)
    (h : x.block = y.block) : x = y := by
  induction l with
  | nil => cases hx
  | cons a l ih =>
    simp only [List.map_cons, List.nodup_cons, List.mem_map, not_exists, not_and] at nd
    rcases List.mem_cons.1 hx with e | hx <;> rcases List.mem_cons.1 hy with e' | hy
    · rw [e, e']
    · exact absurd (e ▸ h).symm (nd.1 y hy)
    · exact absurd (e' ▸ h) (nd.1 x hx)
    · exact ih nd.2 hx hy

/-- Rebuilding the clips of a list of ids. -/
theorem foldl_rebuildClip (L : List ClipId) (nL : L.Nodup) (s : State) (nd : (s.store.scan.candidates.map (·.block)).Nodup) :
    (let t := L.foldl (fun s c => rebuildClip c s) s
     (∃ bs cs, t = { s with store.blocks := bs, clips := cs }) ∧
     (∀ c, t.clip c = if c ∈ L then (match chosenLoad s c with
       | some (_, x) => some x
       | none => s.clip c) else s.clip c) ∧
     (∀ c ∈ L, ∀ l x, chosenLoad s c = some (l, x) → ∀ y ∈ l, t.block y.block = y.owned) ∧
     ∀ b, (∀ c ∈ L, ∀ l x, chosenLoad s c = some (l, x) → ∀ y ∈ l, y.block ≠ b) → t.block b = s.block b) := by
  induction L generalizing s with
  | nil => exact ⟨⟨s.store.blocks, s.clips, rfl⟩, by simp, by simp, fun _ _ => rfl⟩
  | cons a L ih =>
    rw [List.nodup_cons] at nL
    have step : (∃ bs cs, rebuildClip a s = { s with store.blocks := bs, clips := cs }) ∧
        (∀ c, (rebuildClip a s).clip c = if c = a then (match chosenLoad s a with
          | some (_, x) => some x
          | none => s.clip a) else s.clip c) ∧
        (∀ l x, chosenLoad s a = some (l, x) → ∀ y ∈ l, (rebuildClip a s).block y.block = y.owned) ∧
        ∀ b, (∀ l x, chosenLoad s a = some (l, x) → ∀ y ∈ l, y.block ≠ b) → (rebuildClip a s).block b = s.block b := by
      unfold rebuildClip
      cases hc : chosenLoad s a with
      | none =>
        have hc' : completeLoad (latestLoad s a) = none := hc
        rw [hc']
        refine ⟨⟨s.store.blocks, s.clips, rfl⟩, fun c => ?_, by simp, fun _ _ => rfl⟩
        by_cases e : c = a
        · subst e; simp
        · simp [e]
      | some r =>
        obtain ⟨l, x⟩ := r
        have hc' : completeLoad (latestLoad s a) = some (l, x) := hc
        rw [hc']
        obtain ⟨⟨bs, h1⟩, h2, h3⟩ := foldl_ownCandidate l (chosenLoad_nodup nd hc) s
        simp only
        refine ⟨⟨bs, _, by rw [h1]; rfl⟩, fun c => ?_, fun l' x' h => ?_, fun b h => ?_⟩
        · rw [clip_setClip, h1]; rfl
        · cases h; exact h2
        · exact h3 b (h l x rfl)
    obtain ⟨⟨bs, cs, h1⟩, h2, h3, h4⟩ := step
    have cand : (rebuildClip a s).store.scan = s.store.scan := by rw [h1]
    have ch : ∀ c, chosenLoad (rebuildClip a s) c = chosenLoad s c := by
      intro c; unfold chosenLoad latestLoad; rw [cand]
    obtain ⟨⟨bs', cs', g1⟩, g2, g3, g4⟩ := ih nL.2 (rebuildClip a s) (by rw [cand]; exact nd)
    simp only [List.foldl_cons]
    generalize L.foldl (fun s c => rebuildClip c s) (rebuildClip a s) = t at g1 g2 g3 g4 ⊢
    refine ⟨⟨bs', cs', by rw [g1, h1]⟩, fun c => ?_, fun c hcL l x hl y hy => ?_, fun b hb => ?_⟩
    · rw [g2 c, h2 c, ch]
      by_cases e : c = a
      · subst e; simp [nL.1]
      · simp [e]
    · rcases List.mem_cons.1 hcL with rfl | hcL
      · rw [g4 y.block, h3 l x hl y hy]
        intro d hd l' x' hl' z hz e
        rw [ch] at hl'
        obtain ⟨m1, m2⟩ := chosenLoad_mem hl' z hz
        obtain ⟨k1, k2⟩ := chosenLoad_mem hl y hy
        have := block_inj nd m1 k1 e
        subst this
        rw [m2] at k2; exact nL.1 (k2 ▸ hd)
      · exact g3 c hcL l x (by rw [ch]; exact hl) y hy
    · rw [g4 b, h4 b]
      · exact fun l x h => hb a (by simp) l x h
      · intro c hcL l x h; rw [ch] at h; exact hb c (List.mem_cons_of_mem _ hcL) l x h

/-- Leaving the candidates of a list, whose blocks are distinct: those that no load has taken become STALE. -/
theorem foldl_leaveCandidate (l : List Candidate) (nd : (l.map (·.block)).Nodup) (s : State) :
    (let t := l.foldl (fun s y => leaveCandidate y s) s
     (∃ bs, t = { s with store.blocks := bs }) ∧
     (∀ y ∈ l, t.block y.block =
       if (s.block y.block).state = .unclassified then Block.staleWith y.pages else s.block y.block) ∧
     ∀ b, (∀ y ∈ l, y.block ≠ b) → t.block b = s.block b) := by
  induction l generalizing s with
  | nil => exact ⟨⟨s.store.blocks, rfl⟩, by simp, fun _ _ => rfl⟩
  | cons a l ih =>
    simp only [List.map_cons, List.nodup_cons, List.mem_map, not_exists, not_and] at nd
    have step : (∃ bs, leaveCandidate a s = { s with store.blocks := bs }) ∧ ∀ b, (leaveCandidate a s).block b =
        if b = a.block ∧ (s.block a.block).state = .unclassified then Block.staleWith a.pages else s.block b := by
      unfold leaveCandidate
      split
      · next h =>
        refine ⟨⟨_, rfl⟩, fun b => ?_⟩
        rw [block_setBlock]
        by_cases e : b = a.block <;> simp [e, h]
      · next h => exact ⟨⟨s.store.blocks, rfl⟩, fun b => by simp [h]⟩
    obtain ⟨⟨bs, h1⟩, h2⟩ := step
    obtain ⟨⟨bs', g1⟩, g2, g3⟩ := ih nd.2 (leaveCandidate a s)
    simp only [List.foldl_cons]
    refine ⟨⟨bs', by rw [g1, h1]⟩, fun y hy => ?_, fun b hb => ?_⟩
    · rcases List.mem_cons.1 hy with rfl | hy
      · rw [g3 y.block fun z hz => nd.1 z hz, h2]; simp
      · have ne : y.block ≠ a.block := fun e => nd.1 y hy e
        rw [g2 y hy, h2]; simp [ne]
    · rw [g3 b fun y hy => hb y (List.mem_cons_of_mem _ hy), h2]
      simp [(hb a (by simp)).symm]

theorem eraseDups_of_nodup {α : Type} [BEq α] [LawfulBEq α] (l : List α) (h : l.Nodup) : l.eraseDups = l := by
  induction l with
  | nil => rfl
  | cons a l ih =>
    rw [List.nodup_cons] at h
    rw [List.eraseDups_cons]
    have : l.filter (fun b => !b == a) = l := by
      rw [List.filter_eq_self]
      intro b hb
      have : b ≠ a := fun e => h.1 (e ▸ hb)
      simp [this]
    rw [this, ih h.2]

/-- The store as the completion of the scan leaves it (R172 to R174). -/
theorem rebuildStore_spec {s : State} (nd : (s.store.scan.candidates.map (·.block)).Nodup)
    (un : ∀ x ∈ s.store.scan.candidates, (s.block x.block).state = .unclassified) (nq : ∀ b, (s.block b).eraseQueued = false)
    (rest : ∀ b, (∀ x ∈ s.store.scan.candidates, x.block ≠ b) → (s.block b).state = .free ∨ (s.block b).state = .stale)
    (queue : s.store.eraseQueue = []) (none : ∀ c, s.clip c = none) :
    (let t := rebuildStore s
     (∃ bs cs, t = { s with
       clips := cs, store.blocks := bs
       store.eraseQueue := allBlocks.filter fun b => decide ((t.block b).state = .stale)
       store.loadCounter := scannedCounter (greatestLoad s.store.scan.greatest), store.state := .service
       store.scan := { pages := [], candidates := [], greatest := [] }, link := (setFlag .startDone s).link }) ∧
     (∀ c, t.clip c = (chosenLoad s c).map (·.2)) ∧
     (∀ x ∈ s.store.scan.candidates,
       ((∃ l y, chosenLoad s x.clip = some (l, y) ∧ x ∈ l) → t.block x.block = x.owned) ∧
       ((∀ l y, chosenLoad s x.clip = some (l, y) → x ∉ l) →
         t.block x.block = { Block.staleWith x.pages with eraseQueued := true })) ∧
     ∀ b, (∀ x ∈ s.store.scan.candidates, x.block ≠ b) →
       ((s.block b).state = .free ∧ t.block b = s.block b) ∨
       ((s.block b).state = .stale ∧ t.block b = { s.block b with eraseQueued := true })) := by
  have mem : ∀ c : ClipId, c ∈ allClips := List.mem_finRange
  obtain ⟨⟨bs1, cs1, a1⟩, a2, a3, a4⟩ := foldl_rebuildClip allClips (List.nodup_finRange 255) s nd
  have memB : ∀ b : BlockNo, b ∈ allBlocks := List.mem_finRange
  have ndB : allBlocks.Nodup := List.nodup_finRange 2048
  have hR : rebuildStore s = (let A := allClips.foldl (fun s c => rebuildClip c s) s
    let B := A.store.scan.candidates.foldl (fun s x => leaveCandidate x s) A
    let C := (allBlocks.filter fun b => (B.block b).state = .stale).foldl (fun s b => queueErase b s) B
    setFlag .startDone
    { C with
      store.loadCounter := scannedCounter (greatestLoad C.store.scan.greatest)
      store.state := .service
      store.scan := { pages := [], candidates := [], greatest := [] } }) := rfl
  generalize rebuildStore s = T at hR ⊢
  generalize allBlocks = F at hR memB ndB ⊢
  generalize allClips.foldl (fun s c => rebuildClip c s) s = A at a1 a2 a3 a4 hR
  have sc : A.store.scan = s.store.scan := by rw [a1]
  obtain ⟨⟨bs2, b1⟩, b2, b3⟩ := foldl_leaveCandidate s.store.scan.candidates nd A
  simp only [sc] at hR
  generalize s.store.scan.candidates.foldl (fun s x => leaveCandidate x s) A = B at b1 b2 b3 hR
  -- the blocks of B
  have cB : ∀ x ∈ s.store.scan.candidates,
       ((∃ l y, chosenLoad s x.clip = some (l, y) ∧ x ∈ l) → B.block x.block = x.owned) ∧
       ((∀ l y, chosenLoad s x.clip = some (l, y) → x ∉ l) → B.block x.block = Block.staleWith x.pages) := by
    intro x hx
    refine ⟨fun ⟨l, y, h1, h2⟩ => ?_, fun h => ?_⟩
    · have := a3 x.clip (mem _) l y h1 x h2
      rw [b2 x hx, this]; rfl
    · have : A.block x.block = s.block x.block := by
        refine a4 _ fun c _ l y hl z hz e => ?_
        obtain ⟨m1, m2⟩ := chosenLoad_mem hl z hz
        have := block_inj nd m1 hx e
        subst this; subst m2
        exact h l y hl hz
      rw [b2 x hx, this, un x hx, if_pos rfl]
  have oB : ∀ b, (∀ x ∈ s.store.scan.candidates, x.block ≠ b) → B.block b = s.block b := by
    intro b hb
    rw [b3 b hb]
    exact a4 b fun c _ l y hl z hz => hb z (chosenLoad_mem hl z hz).1
  have qB : ∀ b, (B.block b).eraseQueued = false := by
    intro b
    by_cases hb : ∃ x ∈ s.store.scan.candidates, x.block = b
    · obtain ⟨x, hx, rfl⟩ := hb
      by_cases h : ∃ l y, chosenLoad s x.clip = some (l, y) ∧ x ∈ l
      · rw [(cB x hx).1 h]; rfl
      · rw [(cB x hx).2 fun l y h1 h2 => h ⟨l, y, h1, h2⟩]; rfl
    · rw [oB b fun x hx e => hb ⟨x, hx, e⟩]; exact nq b
  have eB : B = { s with store.blocks := bs2, clips := cs1 } := by rw [b1, a1]
  obtain ⟨⟨bs3, c1⟩, c2, c3⟩ := foldl_queueErase (F.filter fun b => (B.block b).state = .stale) B
  generalize (F.filter fun b => (B.block b).state = .stale).foldl (fun s b => queueErase b s) B = C at c1 c2 c3 hR
  have tb : ∀ b, T.block b = C.block b := by intro b; rw [hR]; rfl
  have st : ∀ b, (T.block b).state = (B.block b).state := by
    intro b; rw [tb, c2]; split <;> rfl
  have qC : C.store.eraseQueue = F.filter fun b => decide ((T.block b).state = .stale) := by
    rw [c3]
    have : B.store.eraseQueue = [] := by rw [eB]; exact queue
    have ft : (F.filter fun b => decide ((B.block b).state = .stale)).filter (fun b => !(B.block b).eraseQueued) =
        F.filter fun b => decide ((B.block b).state = .stale) := List.filter_eq_self.2 fun b _ => by rw [qB]; rfl
    simp only [this, st, ft, List.nil_append]
    exact eraseDups_of_nodup _ (ndB.filter _)
  have cT : ∀ c, T.clip c = A.clip c := by
    intro c; rw [hR]
    show C.clip c = A.clip c
    rw [c1, b1]; rfl
  have bT : ∀ b, T.block b = if (B.block b).state = .stale then { B.block b with eraseQueued := true } else B.block b := by
    intro b; rw [tb, c2]; simp [memB]
  refine ⟨⟨bs3, cs1, ?_⟩, fun c => ?_, fun x hx => ⟨fun h => ?_, fun h => ?_⟩, fun b hb => ?_⟩
  · rw [← qC]
    rw [hR, c1, eB]; rfl
  · rw [cT, a2, if_pos (mem c)]
    cases chosenLoad s c with
    | none => exact none c
    | some r => rfl
  · rw [bT, (cB x hx).1 h]; simp [Candidate.owned]
  · rw [bT, (cB x hx).2 h]; simp [Block.staleWith]
  · rw [bT, oB b hb]
    rcases rest b hb with h | h <;> simp [h]

/-! ### The load counter (R174) -/

theorem foldl_max (t : List (Nat × Nat)) (n : Nat) :
    n ≤ t.foldl (fun n p => max n p.2) n ∧ (∀ q ∈ t, q.2 ≤ t.foldl (fun n p => max n p.2) n) ∧
    (t.foldl (fun n p => max n p.2) n = n ∨ ∃ q ∈ t, q.2 = t.foldl (fun n p => max n p.2) n) := by
  induction t generalizing n with
  | nil => simp
  | cons a t ih =>
    obtain ⟨h1, h2, h3⟩ := ih (max n a.2)
    simp only [List.foldl_cons]
    refine ⟨by omega, fun q hq => ?_, ?_⟩
    · rcases List.mem_cons.1 hq with rfl | hq
      · omega
      · exact h2 q hq
    · rcases h3 with h | ⟨q, hq, h⟩
      · by_cases e : n ≤ a.2
        · right; exact ⟨a, by simp, by rw [h]; omega⟩
        · left; rw [h]; omega
      · right; exact ⟨q, List.mem_cons_of_mem _ hq, h⟩

/-- The greatest load number over the clips (R172, R174). -/
theorem greatestLoad_spec {t : Table Nat} (sorted : (t.map (·.1)).Pairwise (· < ·)) (bound : ∀ q ∈ t, q.1 < 255) :
    (∀ c : ClipId, t.read 0 c.val ≤ greatestLoad t) ∧
    (greatestLoad t = 0 ∨ ∃ c : ClipId, t.read 0 c.val = greatestLoad t) := by
  obtain ⟨_, h2, h3⟩ := foldl_max t 0
  refine ⟨fun c => ?_, ?_⟩
  · rcases table_read_cases 0 t c.val with h | h
    · rw [h]; exact Nat.zero_le _
    · exact h2 _ h
  · rcases h3 with h | ⟨q, hq, h⟩
    · exact .inl h
    · exact .inr ⟨⟨q.1, bound q hq⟩, (table_read_mem 0 t sorted q hq).trans h⟩

/-! ### What the tables hold during the scan -/

/-- What the tables hold lies in the store and the clip records. -/
theorem ScanConsistent.congr {s t : State} (h : ScanConsistent s) (store : t.store = s.store) (clips : t.clips = s.clips) :
    ScanConsistent t := by
  have c : ∀ k, t.clip k = s.clip k := fun k => by unfold State.clip; rw [clips]
  have b : ∀ d, t.block d = s.block d := fun d => by unfold State.block; rw [store]
  unfold ScanConsistent at h ⊢
  simp only [store, c, b]
  exact h

theorem scanConsistent_of_service {s : State} (h : s.store.state ≠ .starting) : ScanConsistent s := fun h' => absurd h' h

/-- The engine leaves the tables alone while the scan holds the port. -/
theorem EngineStep.scanConsistent {s t : State} (e : EngineStep s t) (h : ScanConsistent s) : ScanConsistent t := by
  by_cases hs : s.store.state = .starting
  · obtain ⟨b, p, hp, _⟩ := h hs
    exact h.congr (e.busy (by rw [hp]; simp)) e.clips
  · refine scanConsistent_of_service ?_
    have := e.store
    rw [← this] at hs
    exact hs

/-- A reset begins the scan with the tables in order. -/
theorem scanConsistent_afterReset (s : State) : ScanConsistent (afterReset s) := by
  have : ScanConsistent State.reset := by
    intro _
    have bl := block_reset
    refine ⟨0, 0, rfl, rfl, rfl, rfl, fun c => rfl, fun d => by rw [bl]; rfl, fun d => .inl (by rw [bl]; rfl), fun d => ?_, List.Pairwise.nil,
      (fun x hx => by cases hx), rfl, List.Pairwise.nil, (fun x hx => by cases hx)⟩
    constructor
    · intro _; exact .inl (Nat.zero_le _)
    · intro _; rw [bl]; rfl
  exact this.congr rfl rfl

/-- Completing the scan ends STARTING (R174). -/
theorem completeScan_state (s : State) : (completeScan s).store.state = .service := by
  have r : (rebuildStore s).store.state = .service := by unfold rebuildStore; rw [setFlag_store]
  have p : (pendingOverride (rebuildStore s)).store.state = .service := by
    unfold pendingOverride
    split
    · obtain ⟨t, r', e, h⟩ := startOverride_step (rebuildStore s)
      rw [h]
      show t.store.state = .service
      have := e.store
      rw [← r, ← this]
    · exact r
  unfold completeScan
  generalize pendingOverride (rebuildStore s) = u at p ⊢
  have := (engineStep_arbitrate (u.setPort .idle)).store
  have e : (arbitrate (u.setPort .idle)).store.state = (u.setPort .idle).store.state := by rw [← this]
  rw [e]; exact p

/-- A candidate is of the block it was found in. -/
theorem classify_block {b : BlockNo} {pages : List PageCondition} {x : Candidate} (h : classify b pages = .candidate x) :
    x.block = b := by
  unfold classify at h
  split at h
  · cases h
  · cases h
  · split at h
    · cases h; rfl
    · cases h

/-- Each read of the scan keeps what the tables hold. -/
theorem scanConsistent_scanDone {g p : Bool} {s : State} (h : ScanConsistent s) : ScanConsistent (scanDone g p s) := by
  cases hs : s.store.port with
  | scanRead b i =>
    by_cases hst : s.store.state = .starting
    · obtain ⟨b', i', hp, h1, h2, h3, h4, h5, h6, h7, h8, h9, h10, h11, h12⟩ := h hst
      rw [hs] at hp; cases hp
      obtain ⟨n1, n2⟩ := noteLoad_sorted (g := g) (p := p) (x := s.flash.read (pageAddress b i)) h11 h12
      by_cases hi : i.val + 1 < 16
      · rw [scanDone_next hs ⟨i.val + 1, hi⟩ rfl]
        intro _
        exact ⟨b, ⟨i.val + 1, hi⟩, rfl, h1, h2, h3, h4, h5, h6, h7, h8, h9, by simp [h10], n1, n2⟩
      · have h15 : i = 15 := Fin.ext (by have := i.isLt; show i.val = 15; omega)
        subst h15
        rw [scanDone_last hs]
        by_cases hb : b.val + 1 < 2048
        · rw [nextBlock_next (d := ⟨b.val + 1, hb⟩) rfl]
          have lt : ∀ d : BlockNo, (⟨b.val + 1, hb⟩ : BlockNo) ≤ d ↔ b < d := fun d => Iff.rfl
          have lt' : ∀ d : BlockNo, d < (⟨b.val + 1, hb⟩ : BlockNo) ↔ d ≤ b := fun d => Nat.lt_succ_iff
          have le : ∀ d : BlockNo, b ≤ d ↔ d = b ∨ b < d := fun d => by
            constructor
            · intro h; rcases Nat.lt_or_eq_of_le h with h | h
              · exact .inr h
              · exact .inl (Fin.ext h.symm)
            · rintro (rfl | h)
              · exact Nat.le_refl _
              · exact Nat.le_of_lt h
          have nc : ∀ x ∈ s.store.scan.candidates, x.block ≠ b := fun x hx e => by
            have := h9 x hx; rw [e] at this; exact absurd this (Fin.lt_irrefl _)
          have classified : ∀ y : Block, y.eraseQueued = false → y.state = .free ∨ y.state = .stale →
              ScanConsistent ((({ s with
                store.scan.greatest := noteLoad (scanCondition g p (s.flash.read (pageAddress b 15))) s.store.scan.greatest
                store.scan.pages := [] } : State).setBlock b y).setPort (.scanRead ⟨b.val + 1, hb⟩ 0)) := by
            intro y hy1 hy2 _
            have blk : ∀ d, ((({ s with
                store.scan.greatest := noteLoad (scanCondition g p (s.flash.read (pageAddress b 15))) s.store.scan.greatest
                store.scan.pages := [] } : State).setBlock b y).setPort (.scanRead ⟨b.val + 1, hb⟩ 0)).block d =
                if d = b then y else s.block d := fun d => by rw [block_setPort, block_setBlock]; rfl
            refine ⟨⟨b.val + 1, hb⟩, 0, rfl, h1, h2, h3, h4, fun d => ?_, fun d => ?_, fun d => ?_, h8, fun x hx => ?_, rfl, n1, n2⟩
            · rw [blk]; split
              · exact hy1
              · exact h5 d
            · rw [blk]; split
              · exact .inr hy2
              · exact h6 d
            · rw [blk, lt]; split
              · next e =>
                subst e
                constructor
                · intro h; rw [h] at hy2; simp at hy2
                · rintro (h | ⟨x, hx, h⟩)
                  · exact absurd h (Fin.lt_irrefl _)
                  · exact absurd h (nc x hx)
              · next e => exact (h7 d).trans (by rw [le]; simp [e])
            · rw [lt']; exact Nat.le_of_lt (h9 x hx)
          cases hk : classify b (s.store.scan.pages ++ [scanCondition g p (s.flash.read (pageAddress b 15))]) with
          | free => exact classified _ rfl (.inl rfl)
          | stale n => exact classified _ rfl (.inr rfl)
          | candidate x =>
            have xb : x.block = b := classify_block hk
            intro _
            refine ⟨⟨b.val + 1, hb⟩, 0, rfl, h1, h2, h3, h4, h5, h6, fun d => ?_, ?_, fun y hy => ?_, rfl, n1, n2⟩
            · show (s.block d).state = _ ↔ _ ∨ ∃ y ∈ s.store.scan.candidates ++ [x], y.block = d
              rw [h7 d, lt, le]
              simp only [List.mem_append, List.mem_singleton, or_and_right, exists_or, exists_eq_left, xb]
              constructor
              · rintro ((h | h) | h)
                · exact .inr (.inr h.symm)
                · exact .inl h
                · exact .inr (.inl h)
              · rintro (h | h | h)
                · exact .inl (.inr h)
                · exact .inr h
                · exact .inl (.inl h.symm)
            · show ((s.store.scan.candidates ++ [x]).map (·.block)).Pairwise (· < ·)
              rw [List.map_append, List.pairwise_append]
              refine ⟨h8, by simp, fun c hc d hd => ?_⟩
              simp only [List.map_cons, List.map_nil, List.mem_singleton] at hd
              obtain ⟨y, hy, rfl⟩ := List.mem_map.1 hc
              rw [hd, xb]; exact h9 y hy
            · rw [lt']
              rcases List.mem_append.1 hy with hy | hy
              · exact Nat.le_of_lt (h9 y hy)
              · rw [List.mem_singleton] at hy; exact Nat.le_of_eq (by rw [hy, xb])
        · have : b = 2047 := Fin.ext (by have := b.isLt; show b.val = 2047; omega)
          subst this
          rw [nextBlock_last]
          exact scanConsistent_of_service (by rw [completeScan_state]; simp)
    · have hrec : ∀ k (u : State), (recordBlock b k u).store.state = u.store.state := fun k u => by cases k <;> rfl
      refine scanConsistent_of_service ?_
      by_cases hi : i.val + 1 < 16
      · rw [scanDone_next hs ⟨i.val + 1, hi⟩ rfl]; exact hst
      · have h15 : i = 15 := Fin.ext (by have := i.isLt; show i.val = 15; omega)
        subst h15
        rw [scanDone_last hs]
        unfold nextBlock
        split
        · show (recordBlock b _ _).store.state ≠ _
          rw [hrec]; exact hst
        · rw [completeScan_state]; simp
  | idle => unfold scanDone; rw [hs]; exact h
  | fetch _ _ _ => unfold scanDone; rw [hs]; exact h
  | program _ => unfold scanDone; rw [hs]; exact h
  | readback _ _ => unfold scanDone; rw [hs]; exact h
  | erase _ => unfold scanDone; rw [hs]; exact h

end Sys2Proof.Machine
end

