-- ==== Sys2Proof/Laws/Schedule.lean ====
section
/-! SUPPORT. What the firing of a cue, the entering of a second and the forward rounding of a minute mark do. -/

namespace Sys2Proof.Machine

/-! ### Firing (R128 to R130) -/

/-- The cues depend on the schedule alone. -/
theorem cue_congr {s t : State} (h : t.schedule = s.schedule) (c : CueId) : t.cue c = s.cue c := by unfold State.cue; rw [h]

/-- A firing changes the record of its cue, the flags, and what the start of a voice changes (R130). -/
theorem fireCue_step (c : CueId) (x : CueEntry) (s : State) :
    (∀ d, (fireCue c x s).cue d = if d = c then
      { entry := some (firedState x), done := true
        outcome := firedOutcome (startVoice (.cue c) (some x.order) s).2 s.schedule.clock.time } else s.cue d) ∧
    (fireCue c x s).schedule.clock = s.schedule.clock ∧
    (fireCue c x s).flagSet (firedFlag (startVoice (.cue c) (some x.order) s).2) = true ∧
    EngineStep s { fireCue c x s with schedule := s.schedule } := by
  have es := engineStep_startVoice (.cue c) (some x.order) s
  refine ⟨fun d => ?_, ?_, ?_, ?_⟩
  · unfold fireCue
    show (State.setCue _ c _).cue d = _
    rw [cue_setCue]
    split
    · rfl
    · exact cue_congr es.schedule d
  · unfold fireCue
    show (startVoice (.cue c) (some x.order) s).1.schedule.clock = _
    rw [es.schedule]
  · unfold fireCue; simp only [flagSet_setFlag]; simp
  · have e : ({ fireCue c x s with schedule := s.schedule } : State) =
        setFlag (firedFlag (startVoice (.cue c) (some x.order) s).2) (startVoice (.cue c) (some x.order) s).1 := by
      unfold fireCue
      generalize startVoice (.cue c) (some x.order) s = r at es ⊢
      rw [← es.schedule]; rfl
    rw [e]
    exact es.trans (engineStep_setFlag _ _)

/-- But for the schedule, a firing leaves the state that its start leaves, with its flag set (R130). -/
theorem fireCue_rest (c : CueId) (x : CueEntry) (s : State) :
    fireCue c x s = { setFlag (firedFlag (startVoice (.cue c) (some x.order) s).2) (startVoice (.cue c) (some x.order) s).1 with
      schedule := (fireCue c x s).schedule } := rfl

/-- The cues due at a second that is entered fire in ascending number (R129). -/
theorem enterSecond_fires {s : State} {l : List (CueId × CueEntry)} (sorted : (l.map (·.1)).Pairwise (· < ·))
    (due : ∀ c x, (c, x) ∈ l ↔ (s.cue c).entry = some x ∧ (s.cue c).due s.schedule.clock.time = true) :
    enterSecond s = l.foldl (fun t p => fireCue p.1 p.2 t) s := by
  have e : allCues.filter (fun c => (s.cue c).due s.schedule.clock.time) = l.map (·.1) := by
    refine sorted_ext id _ _ (by rw [List.map_id]; exact (List.pairwise_lt_finRange 96).filter _)
      (by rw [List.map_id]; exact sorted) fun c => ?_
    rw [List.mem_filter, List.mem_map]
    constructor
    · rintro ⟨_, h⟩
      have : ∃ x, (s.cue c).entry = some x := by
        unfold Cue.due at h
        cases hx : (s.cue c).entry with
        | none => rw [hx] at h; cases h
        | some x => exact ⟨x, rfl⟩
      obtain ⟨x, hx⟩ := this
      exact ⟨(c, x), (due c x).2 ⟨hx, h⟩, rfl⟩
    · rintro ⟨⟨d, x⟩, h, rfl⟩
      exact ⟨List.mem_finRange _, ((due d x).1 h).2⟩
  unfold enterSecond
  simp only [e, List.foldl_map]
  have entries : ∀ p ∈ l, (s.cue p.1).entry = some p.2 := fun p hp => ((due p.1 p.2).1 hp).1
  clear e due
  induction l generalizing s with
  | nil => rfl
  | cons p l ih =>
    simp only [List.map_cons, List.pairwise_cons] at sorted
    simp only [List.foldl_cons, entries p (by simp)]
    refine ih sorted.2 fun q hq => ?_
    have ne : q.1 ≠ p.1 := by
      intro h
      have := sorted.1 q.1 (List.mem_map_of_mem hq)
      rw [h] at this; exact absurd this (Fin.lt_irrefl _)
    rw [(fireCue_step p.1 p.2 s).1, if_neg ne]
    exact entries q (List.mem_cons_of_mem _ hq)

/-- Whether a cue is due, in words (R129). -/
theorem due_iff (c : Cue) (t : ClockTime) : c.due t = true ↔ ∃ x, c.entry = some x ∧ x.state = .armed ∧ c.done = false ∧
       x.hour = t.hour ∧ x.minute = t.minute ∧ x.second = t.second ∧ x.days.getLsbD t.weekday = true := by
  unfold Cue.due
  cases c.entry with
  | none => simp
  | some x =>
    simp only [CueEntry.isAt, CueEntry.dayTest, Bool.and_eq_true, decide_eq_true_eq, Bool.not_eq_true', Option.some.injEq,
      exists_eq_left']
    constructor
    · rintro ⟨⟨⟨h1, ⟨h2, h3⟩, h4⟩, h5⟩, h6⟩; exact ⟨h1, h6, h2, h3, h4, h5⟩
    · rintro ⟨h1, h6, h2, h3, h4, h5⟩; exact ⟨⟨⟨h1, ⟨h2, h3⟩, h4⟩, h5⟩, h6⟩

/-! ### Seconds that are entered (R123, R136) -/

/-- Entering a second does not move the clock. -/
theorem enterSecond_clock (s : State) : (enterSecond s).schedule.clock = s.schedule.clock := by
  unfold enterSecond
  simp only
  generalize allCues.filter _ = l
  induction l generalizing s with
  | nil => rfl
  | cons c l ih =>
    simp only [List.foldl_cons]
    rw [ih]
    split
    · unfold fireCue
      show (startVoice _ _ s).1.schedule.clock = _
      rw [(engineStep_startVoice _ _ s).schedule]
    · rfl

/-- Advancing by a second moves the clock to the second after its own. -/
theorem advanceSecond_clock (s : State) :
    (advanceSecond s).schedule.clock = { s.schedule.clock with time := s.schedule.clock.time.nextSecond } := by
  unfold advanceSecond
  simp only
  rw [enterSecond_clock]
  split <;> rfl

theorem repeat_succ {α : Type} (f : α → α) (n : Nat) (a : α) : Nat.repeat f (n + 1) a = f (Nat.repeat f n a) := rfl

/-- Advancing by seconds within a minute. -/
theorem advance_to (s : State) (k : Nat) (w h m sec tenth : Nat)
    (ht : s.schedule.clock.time = { weekday := w, hour := h, minute := m, second := sec, tenth := tenth })
    (hk : 0 < k) (hs : sec + k ≤ 59) :
    (Nat.repeat advanceSecond k s).schedule.clock = { s.schedule.clock with
      time := { weekday := w, hour := h, minute := m, second := sec + k, tenth := 0 } } := by
  induction k with
  | zero => omega
  | succ k ih =>
    rw [repeat_succ, advanceSecond_clock]
    by_cases h0 : k = 0
    · subst h0
      show { s.schedule.clock with time := s.schedule.clock.time.nextSecond } = _
      rw [ht]; unfold ClockTime.nextSecond; simp only
      rw [if_pos (by omega)]
    · rw [ih (by omega) (by omega)]
      unfold ClockTime.nextSecond; simp only
      rw [if_pos (by omega)]; rfl

/-- Forward rounding ends at second 0 of the next minute. -/
theorem roundForward_time {s : State} {w h m sec tenth : Nat}
    (ht : s.schedule.clock.time = { weekday := w, hour := h, minute := m, second := sec, tenth := tenth })
    (hs : sec ≤ 59) (hw : w ≤ 6) :
    (roundForward s).schedule.clock = { s.schedule.clock with time :=
      if m < 59 then { weekday := w, hour := h, minute := m + 1, second := 0, tenth := 0 }
      else if h < 23 then { weekday := w, hour := h + 1, minute := 0, second := 0, tenth := 0 }
      else { weekday := (w + 1) % 7, hour := 0, minute := 0, second := 0, tenth := 0 } } := by
  have last : ∀ (u : State) (t : Nat), u.schedule.clock = { s.schedule.clock with
      time := { weekday := w, hour := h, minute := m, second := 59, tenth := t } } →
      (advanceSecond u).schedule.clock = { s.schedule.clock with time :=
        if m < 59 then { weekday := w, hour := h, minute := m + 1, second := 0, tenth := 0 }
        else if h < 23 then { weekday := w, hour := h + 1, minute := 0, second := 0, tenth := 0 }
        else { weekday := (w + 1) % 7, hour := 0, minute := 0, second := 0, tenth := 0 } } := by
    intro u t hu
    rw [advanceSecond_clock, hu]
    unfold ClockTime.nextSecond; simp only [Nat.lt_irrefl, if_false]
    have : (if w < 6 then w + 1 else 0) = (w + 1) % 7 := by split <;> omega
    rw [this]
  unfold roundForward
  rw [ht]; simp only
  have e : 60 - sec = (59 - sec) + 1 := by omega
  rw [e, repeat_succ]
  by_cases h9 : sec = 59
  · subst h9
    exact last s tenth (by rw [← ht])
  · exact last _ 0 (by rw [advance_to s (59 - sec) w h m sec tenth ht (by omega) (by omega), show sec + (59 - sec) = 59 by omega])

end Sys2Proof.Machine
end

