-- ==== Sys2Proof/Tests/Slice0.lean ====
section
/-! SUPPORT. Our own tests. First the terms that the well-formedness check refuses; then single commands on a small state, with values
taken from the manual; then, for each statement that has hypotheses, states and operands that meet them, at the ends of their ranges. -/

namespace Sys2Proof.Tests

set_option Elab.async false

open Sys2Proof Sys2Proof.Machine

/-! ### Well-formed commands -/

def longFrame : Frame := { kind := 1, tag := 0, body := List.replicate 521 0, crc := 0 }
def noStep : RawStep := { kind := 0, clip := 0, count := 0, limit := 0, gap := 0 }

theorem test_frameComplete_of_521_bytes_refused : (Instr.frameComplete longFrame).wellFormed = false := by decide +kernel
theorem test_frameCrcError_of_521_bytes_refused : (Instr.frameCrcError longFrame).wellFormed = false := by decide +kernel
theorem test_overrun_of_521_bytes_refused : (Instr.overrun longFrame).wellFormed = false := by decide +kernel
theorem test_frameLengthDrop_at_520_refused : (Instr.frameLengthDrop 520).wellFormed = false := by decide
theorem test_frameLengthDrop_at_521_accepted : (Instr.frameLengthDrop 521).wellFormed = true := by decide
theorem test_clipData_without_bytes_refused : (Instr.clipData 0 1 0 []).wellFormed = false := by decide
theorem test_clipData_of_513_bytes_refused : (Instr.clipData 0 1 0 (List.replicate 513 0)).wellFormed = false := by
  decide +kernel
theorem test_progWrite_of_13_steps_refused : (Instr.progWrite 0 1 0 13 (List.replicate 13 noStep)).wellFormed = false := by
  decide

/-! ### Small states -/

/-- The state of the part with its scan over, on an erased flash with every block FREE. -/
def base : State :=
  { State.reset with store := { State.reset.store with state := .service, port := .idle, blocks := [] } }

def storeIn (x : StoreState) : State := { base with store.state := x }
def latched : State := { base with inputs.latch := true }
def halted : State := { base with arbiter.bus := .halted }
def held : State := { base with inReset := true }
def portIs (p : Port) : State := { base with store.port := p }
def owing (o : Owed) : State := { base with link.owed := o }

/-- The state after a command; the state itself where the command gives none. -/
def after (c : Instr) (s : State) : State :=
  match exec c s with
  | .next t => t
  | .fault _ => s
  | .refused _ => s

/-- The body of the reply being sent: its frame without the start byte, the length, the kind, the tag and the CRC. -/
def bodySent (s : State) : Option (List Byte) :=
  match s.link.owed with
  | .sending f _ => some ((f.drop 5).take (f.length - 7))
  | .held _ => none
  | .none => none

/-- Program 32, zones 0 and 7, priority 14, wait limit 255. -/
def rawOrder : RawOrder := { program := 32, zones := 129, priority := 14, wait := 255, partialOpt := 0, suspendable := 1 }
def order : StartOrder :=
  { program := 31, zones := 129, priority := 14, wait := 255, partialOpt := false, suspendable := true }

/-- A clip of one full page and one sample more, in block 2047. -/
def clipIn (x : ClipState) : Clip :=
  { state := x, format := .s16, rate := .khz16, protect := false, name := [65], load := 1, places := [some 2047]
    accepted := 2050, programmed := 2050, samples := some 1025 }
/-- A clip that is being loaded, at its write cursor. -/
def loadingAt (x : ClipState) (cursor : Nat) (places : List (Option BlockNo)) : Clip :=
  { clipIn x with places := places, accepted := cursor, programmed := 0, samples := none }
def withClip (x : Clip) : State := base.setClip 254 (some x)

def gapProgram : Program := { cycle := false, steps := [.gap 1] }
def playProgram : Program := { cycle := true, steps := [.play 254 15] }
/-- Program 32 is a GAP step of one tenth. -/
def ready : State := base.setProgram 31 (some gapProgram)
/-- Program 32 plays clip 255 on and on. -/
def readyToPlay : State := (withClip (clipIn .ready)).setProgram 31 (some playProgram)

/-- A voice that is not IDLE, with the greatest start number. -/
def live (st : VoiceState) (p : Option Machine.Step) : Voice :=
  { Voice.reset with state := st, start := 4294967295, origin := .link, order := some order, step := p }
def withVoice (v : VoiceId) (x : Voice) : State := ready.setVoice v x
def holding (v : VoiceId) (x : Voice) : State :=
  (withVoice v x).setZone 7 { holder := some (v, 14), level := 31, enabled := true }

def midnight : ClockTime := { weekday := 0, hour := 0, minute := 0, second := 0, tenth := 0 }
def lastTenth : ClockTime := { weekday := 6, hour := 23, minute := 59, second := 59, tenth := 9 }
def clockAt (st : ClockState) (t : ClockTime) : State := { base with schedule.clock := { state := st, time := t } }

def rawCue : RawCue := { hour := 23, minute := 59, second := 59, days := 64, rept := 1, state := 1, order := rawOrder }
def cueEntry (st : CueState) : CueEntry :=
  { state := st, hour := 0, minute := 0, second := 0, days := 1, rept := .weekly, order := order }
def withCue (st : CueState) (s : State) : State :=
  s.setCue 95 { entry := some (cueEntry st), done := false, outcome := .none }

def rawTrigger : RawTrigger :=
  { action := 3, edge := 2, order := rawOrder, stopPriority := 14, releaseProgram := 0, log := 1 }
def withAction (a : TriggerAction) (log : Bool) (s : State) : State := s.setTrigger 7 { action := a, log := log, lastStart := 0 }
def entry : FifoEntry := { input := 7, edge := .close, time := none, action := .none, result := .ok, start := 0 }
def fifoOf (n : Nat) : State := { base with inputs.fifo := List.replicate n entry }

def job (final : Bool) : ProgramJob :=
  { clip := 254, block := 2047, page := 15, payload := [1, 2], tag := [3], carried := 2, final := final }
def aFetch : Fetch := { block := 2047, blockPage := 15, page := 0, pass := 0, start := 4294967295, keep := true, granted := false }

/-- A voice at the last sample but one of a page, that page in its buffer. -/
def playing : Voice :=
  { live .active (some (.play 254 15)) with
    answer := some { format := .s16, rate := .khz16, samples := 1024, blocks := [2047] }
    buffer := [{ page := 0, pass := 0, data := some (List.replicate 2048 255) }]
    position := 1022 }
/-- A voice in a WALK step whose sample is for zone 7 alone. -/
def walking : Voice := { playing with step := some (.walk 254), walkZone := some 7 }

/-- A state that lists no clip has none. -/
theorem no_clip {s : State} {c : ClipId} {x : Clip} (h : s.clips = []) : s.clip c ≠ some x := by
  simp [State.clip, h, Table.read]

/-! ### Values of the manual -/

/-- The check value of section 9.2: the CRC of the text "123456789". -/
theorem test_crc_check_value : crc16 [49, 50, 51, 52, 53, 54, 55, 56, 57] = 10673 := by decide +kernel
theorem test_expansion_of_37 : expandL8 37 = 688 := by decide
theorem test_expansion_of_200 : expandL8 200 = -3136 := by decide
theorem test_expansion_of_255 : expandL8 255 = -32256 := by decide
theorem test_s24_disregards_the_fourth_byte : linearValue .s24 [255, 255, 255, 127] = -1 := by decide
theorem test_scaling_rounds_toward_zero : scale 256000 5 = 80953 ∧ scale (-256000) 5 = -80953 := by decide +kernel
theorem test_reset_flash_is_canonical : State.reset.flash.wf = true := by decide

/-! ### Single commands -/

theorem test_ident_names_the_part : (bodySent (after (.ident 9) base)).map (List.take 12) =
    some [0, 85, 76, 67, 65, 83, 84, 32, 52, 54, 49, 48] := by decide +kernel
theorem test_reset_is_starting : (after .reset base).store.state = .starting := by decide +kernel
theorem test_scan_starts_with_page_0 : (after (.scanReadComplete true true) State.reset).store.port = .scanRead 0 1 := by
  decide +kernel
theorem test_crc_error_is_counted :
    (after (.frameCrcError { kind := 1, tag := 0, body := [], crc := frameCrc 1 0 [] + 1 }) base).link.linkErrors = 1 := by
  decide +kernel
theorem test_frameComplete_takes_report :
    bodySent (after (.frameComplete { kind := 2, tag := 0, body := [], crc := frameCrc 2 0 [] }) (storeIn .starting)) =
      bodySent (after (.report 0) (storeIn .starting)) := by decide +kernel
theorem test_unknown_kind_answered :
    bodySent (after (.frameComplete { kind := 0, tag := 0, body := [], crc := frameCrc 0 0 [] }) base) = some [1] := by
  decide +kernel
theorem test_format_while_a_voice_plays_is_busy :
    bodySent (after (.storeFormat 1) (ready.setVoice 6 (live .active none))) = some [5] := by decide +kernel
theorem test_clip_open_makes_it_opened :
    ((after (.clipOpen 1 255 3 1 0 (Vector.replicate 16 0)) base).clip 254).map (·.state) = some .opened := by decide +kernel
theorem test_clip_data_reserves_block_0 :
    ((after (.clipData 1 255 0 [7, 8]) (withClip (loadingAt .opened 0 []))).clip 254).map (·.places) = some [some 0] := by
  decide +kernel
theorem test_clip_close_of_half_a_sample_refused :
    bodySent (after (.clipClose 1 255) (withClip (loadingAt .opened 1 [some 0]))) = some [3] := by decide +kernel
theorem test_program_of_the_final_page_makes_the_clip_ready :
    (after (.pageProgramComplete true) { withClip (clipIn .closing) with store.port := .program (job true) }).clipReady 254
      = true := by decide +kernel
theorem test_erase_retires_a_failed_block :
    ((after (.blockEraseComplete false) { base with store.port := .erase 5, store.eraseQueue := [5] }).block 5).state
      = .retired := by decide +kernel
theorem test_progWrite_names_the_faulty_step :
    bodySent (after (.progWrite 1 32 0 2 [{ noStep with kind := 3, gap := 600 }, noStep]) base) = some [3, 1] := by
  decide +kernel
theorem test_voiceStart_answers_voice_0_number_1 : bodySent (after (.voiceStart 1 rawOrder) ready) =
    some [0, 0, 1, 0, 0, 0, 3] := by decide +kernel
theorem test_voiceStart_takes_zone_7 : ((after (.voiceStart 1 rawOrder) ready).zone 7).holder = some (0, 14) := by
  decide +kernel
theorem test_voicePrepare_takes_no_zone : ((after (.voicePrepare 1 rawOrder) ready).zone 7).holder = none := by decide +kernel
theorem test_a_gap_of_a_tenth_lasts_1600_frames :
    ((after (.voiceStart 1 rawOrder) ready).voice 0).gapTimer = 1600 := by decide +kernel
theorem test_voiceStart_asks_for_the_first_page :
    (after (.voiceStart 1 rawOrder) readyToPlay).store.port = .fetch 0 2047 0 := by decide +kernel
theorem test_frameEvent_sends_silence_from_a_gap :
    (after .frameEvent (after (.voiceStart 1 rawOrder) ready)).arbiter.output = some (Vector.replicate 8 0) := by decide +kernel
theorem test_tenthEvent_at_the_end_of_the_week :
    (after .tenthEvent (clockAt .running lastTenth)).schedule.clock.time = midnight := by decide +kernel
theorem test_cue_fires_at_its_second :
    (after .tenthEvent (withCue .armed (clockAt .running lastTenth))).flagSet .cueMissed = true := by decide +kernel
theorem test_minute_mark_starts_a_held_clock :
    (let s := (withAction (.mark .close) true (clockAt .held midnight)).setInput 7 { pin := .closed, level := .opened, settling := true }
     (after (.settleTimerExpiry 7) s).schedule.clock.state) = .running := by decide +kernel
theorem test_override_without_a_program :
    (after (.settleTimerExpiry 8) (base.setInput 8 { pin := .closed, level := .opened, settling := true })).inputs.overrideResult
      = .noProgram := by decide +kernel
theorem test_replySent_lets_the_next_request_in :
    (after .replySent (after (.ident 1) base)).link.owed = .none := by decide +kernel
theorem test_an_early_frame_is_an_overrun : (after (.report 2) (after (.ident 1) base)).link.overruns = 1 := by decide +kernel

/-! ### States and operands that meet the hypotheses of the statements -/

theorem test_meets_StepRunsFrontCommand : ({ base with pending := [.frameEvent, .startByte] } : State).pending =
    .frameEvent :: [.startByte] := rfl

theorem test_meets_EmptyQueueLetsASecondPass :
    (held.pending = [] ∧ held.inReset = true) ∧
    (let s := (withVoice 0 { live .prepared none with discardTimer := 2 }).setVoice 5 { live .waiting none with waitTimer := 1 }
     s.pending = [] ∧ s.inReset = false ∧ (s.voice 0).state = .prepared ∧ (s.voice 5).state = .waiting ∧
     (s.voice 6).state ≠ .prepared ∧ (s.voice 6).state ≠ .waiting) := by decide

theorem test_meets_ResetLeavesTheTables :
    (∀ j, base.store.port ≠ .program j) ∧ (∀ b, base.store.port ≠ .erase b) :=
  ⟨fun j h => Port.noConfusion (show Port.idle = .program j from h), fun b h => Port.noConfusion (show Port.idle = .erase b from h)⟩

theorem test_meets_ResetAssertedHoldsThePart :
    held.inReset = true ∧ Instr.frameEvent ≠ .reset ∧ Instr.frameEvent ≠ .resetAsserted ∧
    (∀ i l, Instr.frameEvent ≠ .pinChange i l) :=
  ⟨by decide, by decide, by decide, fun _ _ h => nomatch h⟩

/-- The longest good frame, and the same frame with another CRC. -/
def longestBody : List Byte := List.replicate 520 0
def goodFrame : Frame := { kind := 48, tag := 255, body := longestBody, crc := frameCrc 48 255 longestBody }
def badFrame : Frame := { goodFrame with crc := goodFrame.crc + 1 }

theorem crc_is_not_the_next (x : BitVec 16) : x ≠ x + 1 := by
  intro h
  have := congrArg BitVec.toNat h
  rw [BitVec.toNat_add, show (1 : BitVec 16).toNat = 1 from rfl] at this
  omega

theorem badFrame_is_bad : frameCrc badFrame.kind badFrame.tag badFrame.body ≠ badFrame.crc := by
  simp only [badFrame, goodFrame]
  generalize frameCrc 48 255 longestBody = x
  exact crc_is_not_the_next x

theorem goodFrame_is_good : GoodFrame goodFrame := ⟨show longestBody.length ≤ 520 by decide +kernel, by simp only [goodFrame]⟩

theorem test_meets_FramesAreBegunAndDropped :
    base.inReset = false ∧ base.link.receiver = .hunting ∧
    ({ base with link.receiver := .receiving true } : State).link.receiver ≠ .hunting ∧
    longestBody.length ≤ 520 ∧ frameCrc badFrame.kind badFrame.tag badFrame.body ≠ badFrame.crc ∧
    520 < (521 : BitVec 16).toNat ∧ GoodFrame goodFrame ∧
    ({ base with link.receiver := .receiving true } : State).frameIsLate = true ∧
    (owing (.sending [1] false)).frameIsLate = true :=
  ⟨rfl, rfl, by decide, by decide +kernel, badFrame_is_bad, by decide, goodFrame_is_good, rfl, rfl⟩

theorem test_meets_ReplySentEndsTheReply :
    (owing (.sending [1] false)).inReset = false ∧ (owing (.sending [1] false)).link.owed = .sending [1] false ∧
    (owing (.sending [1] true)).link.owed = .sending [1] true ∧
    (owing (.held (.inspect 1 2047 15))).link.owed = .held (.inspect 1 2047 15) ∧
    base.link.owed = .none ∧ base.frameIsLate = false := by decide

def frameOf (kind : Byte) (body : List Byte) : Frame := { kind := kind, tag := 0, body := body, crc := frameCrc kind 0 body }

theorem test_meets_FrameCompleteIsItsRequest :
    Takes base ∧
    GoodFrame (frameOf 3 [1, 2, 3]) ∧ parseRequest 3 0 [1, 2, 3] = .request (.eventsMask 0 0x030201) ∧
    GoodFrame (frameOf 0 []) ∧ parseRequest 0 0 [] = .unknownKind ∧
    GoodFrame (frameOf 3 [1, 2]) ∧ parseRequest 3 0 [1, 2] = .badLength := by decide +kernel

theorem test_lengths_at_the_ends_of_their_ranges :
    parseRequest 33 0 (List.replicate 5 0) = .badLength ∧ parseRequest 33 0 (List.replicate 6 0) ≠ .badLength ∧
    parseRequest 33 0 (List.replicate 517 0) ≠ .badLength ∧ parseRequest 33 0 (List.replicate 518 0) = .badLength ∧
    parseRequest 48 0 (List.replicate 3 0) ≠ .badLength ∧ parseRequest 48 0 (List.replicate 87 0) ≠ .badLength ∧
    parseRequest 48 0 (List.replicate 94 0) = .badLength ∧ parseRequest 48 0 (List.replicate 9 0) = .badLength := by
  decide +kernel

theorem test_bodies_at_the_ends_of_their_ranges :
    parseRequest 66 7 [1, 2, 3, 255] = .request (.voiceGo 7 0xFF030201) ∧
    parseRequest 33 7 ([255, 1, 0, 0, 2] ++ List.replicate 512 9) = .request (.clipData 7 255 0x02000001 (List.replicate 512 9)) ∧
    parseRequest 48 7 [32, 1, 2, 2, 255, 0, 16, 14, 0, 0, 3, 0, 0, 0, 0, 88, 2] = .request (.progWrite 7 32 1 2
      [{ kind := 2, clip := 255, count := 0, limit := 3600, gap := 0 }, { kind := 3, clip := 0, count := 0, limit := 0, gap := 600 }]) ∧
    1 ≤ ([9] : List Byte).length ∧ ([9] : List Byte).length ≤ 512 ∧ (List.replicate 12 noStep).length ≤ 12 := by decide +kernel

/-- The premise of IdentAnswers and ReportReadsAndClears, and the first of every request's. -/
theorem test_meets_Takes : Takes base ∧ Takes { base with link.receiver := .receiving false } := by decide

theorem test_meets_EventsMaskReplacesTheMask :
    Takes base ∧ (0x0FFFFF : BitVec 24).toNat < 2 ^ 20 ∧ 2 ^ 20 ≤ (0x100000 : BitVec 24).toNat := by decide

theorem test_meets_ReadingRequestsAnswer :
    Takes (storeIn .starting) ∧ (storeIn .starting).store.state = .starting ∧
    Takes (withClip (clipIn .ready)) ∧ (withClip (clipIn .ready)).store.state ≠ .starting ∧
    (255 : Byte).toNat = (254 : ClipId).val + 1 ∧ (withClip (clipIn .ready)).clip 254 = some (clipIn .ready) ∧
    (withClip (clipIn .ready)).clip 253 = none ∧
    Takes ready ∧ (32 : Byte).toNat = (31 : ProgramId).val + 1 ∧ ready.program 31 = some gapProgram ∧ ready.program 30 = none ∧
    (0 : Byte).toNat = 0 ∧ 32 < (33 : Byte).toNat ∧ 6 < (7 : Byte).toNat ∧ 96 < (97 : Byte).toNat ∧
    (6 : Byte).toNat = (6 : VoiceId).val ∧ (∀ z, hasZone 128 z = (holding 6 (live .active none)).holds 6 z) ∧
    Takes (withCue .armed base) ∧ (96 : Byte).toNat = (95 : CueId).val + 1 ∧
    ((withCue .armed base).cue 95).entry = some (cueEntry .armed) ∧ ((withCue .armed base).cue 94).entry = none := by
  decide +kernel

/-- The clips that CLIP.LIST finds from id 255 on, and from id 1 on in an empty store. -/
theorem test_meets_ReadingRequestsAnswer_found :
    (([(254, clipIn .ready)] : List (ClipId × Clip)).map (·.1)).Pairwise (· < ·) ∧
    (∀ (d : ClipId) x, (d, x) ∈ [(254, clipIn .ready)] ↔ 254 ≤ d ∧ (withClip (clipIn .ready)).clip d = some x) ∧
    ∀ (d : ClipId) (x : Clip), (d, x) ∈ ([] : List (ClipId × Clip)) ↔ 0 ≤ d ∧ base.clip d = some x := by
  have only : (withClip (clipIn .ready)).clip 254 = some (clipIn .ready) := by decide +kernel
  refine ⟨List.pairwise_singleton _ _, fun d x => ⟨fun h => ?_, fun ⟨h1, h2⟩ => ?_⟩, fun d x => ⟨fun h => absurd h List.not_mem_nil, fun h => absurd h.2 (no_clip rfl)⟩⟩
  · cases List.mem_singleton.1 h
    exact ⟨Nat.le_refl _, only⟩
  · obtain rfl : d = 254 := Fin.le_antisymm (Nat.le_of_lt_succ d.isLt) h1
    rw [only] at h2
    cases h2
    exact List.mem_singleton_self _

theorem test_clipInfo_answers_the_layout : bodySent (after (.clipInfo 1 255) (withClip (clipIn .ready))) =
    some ([0, 4, 1, 2, 0, 65] ++ List.replicate 15 0 ++ [1, 0, 0, 0, 1, 0, 1, 0, 2, 8, 0, 0, 2, 8, 0, 0, 1, 4, 0, 0]) := by
  decide +kernel

theorem test_meets_SettingsAreReplaced :
    Takes base ∧ (storeIn .starting).store.state = .starting ∧ Takes (storeIn .starting) ∧ base.store.state ≠ .starting ∧
    1 < (2 : Byte).toNat ∧ (1 : Byte) = yesNo true ∧ (0 : Byte) = yesNo false ∧ (3 : Byte) ≠ 1 ∧ (3 : Byte) ≠ 2 := by decide

/-- Voices 2 and 6 have fetches pending. -/
def twoFetches : State :=
  (withVoice 2 { live .active none with fetch := some aFetch }).setVoice 6 { live .active none with fetch := some aFetch }
/-- Voices 2 and 5 have fetches pending, with as many buffer bytes. -/
def evenFetches : State :=
  (withVoice 2 { live .active none with fetch := some aFetch }).setVoice 5 { live .active none with fetch := some aFetch }
def finalPage : LoadPage := { clip := 254, sequence := 0, page := 0, bytes := [1, 2], final := some 1 }
def programWaits : State := { withClip (clipIn .closing) with store.buffer := [finalPage] }

theorem test_meets_ArbiterGrantsInOrder :
    ((portIs (.erase 0)).store.port ≠ .idle) ∧
    (twoFetches.store.port = .idle ∧ (twoFetches.voice 6).fetch = some aFetch ∧ aFetch.granted = false) ∧
    (evenFetches.store.port = .idle ∧ (evenFetches.voice 2).fetch = some aFetch ∧ (evenFetches.voice 6).fetchPending = false ∧
      ∀ w : VoiceId, w ≠ 2 → (evenFetches.voice w).fetchPending = true →
        (evenFetches.voice 2).bufferBytes < (evenFetches.voice w).bufferBytes ∨
          ((evenFetches.voice 2).bufferBytes = (evenFetches.voice w).bufferBytes ∧ 2 < w)) ∧
    (programWaits.store.port = .idle ∧ (∀ v, (programWaits.voice v).fetchPending = false) ∧
      eligibleHead programWaits.store.buffer = some finalPage ∧ programWaits.clip 254 = some (clipIn .closing) ∧
      (clipIn .closing).places[0]? = some (some 2047)) ∧
    (let s : State := { base with store.readback := some (2047, 15) }
     eligibleHead s.store.buffer = none ∧ s.store.readback = some (2047, 15)) ∧
    (let s : State := { withVoice 0 (live .active none) with store.eraseQueue := [5] }
     s.store.port = .idle ∧ (∀ v, (s.voice v).fetchPending = false) ∧ eligibleHead s.store.buffer = none ∧
     s.store.readback = none ∧ s.store.eraseQueue = 5 :: [] ∧ s.store.state = .service ∧ s.store.deferErase = true ∧
     ∃ v, (s.voice v).state = .active) ∧
    (let s : State := { base with store.eraseQueue := [5] }
     s.store.eraseQueue = 5 :: [] ∧ ¬ ∃ v, (s.voice v).state = .active) ∧
    base.store.eraseQueue = [] := by decide +kernel

theorem test_meets_InspectionIsHeldThenAnswered :
    Takes base ∧ (storeIn .starting).store.state = .starting ∧ base.store.state ≠ .starting ∧ 2047 < (2048 : BitVec 16).toNat ∧
    15 < (16 : Byte).toNat ∧ (2047 : BitVec 16).toNat = (2047 : BlockNo).val ∧ (15 : Byte).toNat = (15 : PageNo).val ∧
    (let s : State := { portIs (.readback 2047 15) with link.owed := .held (.inspect 1 2047 15) }
     s.inReset = false ∧ s.store.port = .readback 2047 15 ∧ s.link.owed = .held (.inspect 1 2047 15) ∧
     bodySent (after (.inspectReadbackComplete true) s) = some (List.replicate 42 0)) := by decide +kernel

/-- Of a state that lists one clip. -/
theorem only_clip (s : State) (x : Clip) (c : ClipId) (hs : s.clips = [(c.val, some x)]) : ∀ d y, s.clip d = some y → y = x := by
  intro d y hy
  simp only [State.clip, hs, Table.read] at hy
  split at hy <;> simp_all

theorem test_meets_FormatErasesEveryClip :
    (∀ st ∈ [StoreState.starting, .formatting, .service], Takes (storeIn st) ∧ (storeIn st).store.state = st) ∧
    (∃ v, ((withVoice 6 (live .prepared none)).voice v).state ≠ .idle) ∧ (withVoice 6 (live .prepared none)).store.state = .service ∧
    (∀ st ∈ [ClipState.opened, .failed, .closing], (withClip (clipIn st)).clip 254 = some (clipIn st)) ∧
    (∀ v, (base.voice v).state = .idle) ∧ ∀ c x, base.clip c = some x → x.state = .ready ∨ x.state = .erasing :=
  ⟨by decide, ⟨6, by decide⟩, by decide, by decide, by decide, fun _ _ h => absurd h (no_clip rfl)⟩

/-- A store with a block of each kind that STORE.FORMAT tells apart. -/
def mixedStore : State :=
  ((((base.setBlock 0 { state := .owned 254 0, programmed := 0, retireMark := false, eraseQueued := false }).setBlock 1
    { state := .owned 254 1, programmed := 16, retireMark := false, eraseQueued := false }).setBlock 2
    { state := .stale, programmed := 16, retireMark := false, eraseQueued := false }).setBlock 2047
    { state := .retired, programmed := 0, retireMark := false, eraseQueued := false }).setClip 254
    (some { clipIn .ready with places := [some 0, some 1] })

theorem test_meets_FormatErasesEveryClip_mixed :
    Takes mixedStore ∧ mixedStore.store.state = .service ∧ (∀ v, (mixedStore.voice v).state = .idle) ∧
    (∀ c x, mixedStore.clip c = some x → x.state = .ready ∨ x.state = .erasing) ∧
    (mixedStore.block 0).state = .owned 254 0 ∧ (mixedStore.block 0).programmed = 0 ∧ programInFlight 0 mixedStore = false ∧
    (mixedStore.block 1).state = .owned 254 1 ∧ (mixedStore.block 1).programmed ≠ 0 ∧ (mixedStore.block 2).state = .stale ∧
    (mixedStore.block 2047).state = .retired ∧ (mixedStore.block 2046).state = .free := by
  refine ⟨by decide +kernel, by decide +kernel, by decide +kernel, fun c x h => .inl ?_, by decide +kernel⟩
  rw [only_clip mixedStore _ 254 rfl c x h]
  rfl

theorem test_format_of_mixed_blocks :
    (let t := [0, 1, 2, 2047].foldl (fun s b => formatBlock b s) mixedStore
     t.store.eraseQueue = [1, 2] ∧ (t.block 0).state = .free ∧ (t.block 2047).state = .retired ∧
     (t.clip 254).map (·.places) = some [none, some 1]) := by decide +kernel

/-- A page program in flight for a clip in a state. -/
def programming (x : ClipState) (final : Bool) : State :=
  { withClip (clipIn x) with store.port := .program (job final) }

theorem test_meets_PageProgramSucceeds_and_Fails :
    (∀ final, (programming .closing final).inReset = false ∧ (programming .closing final).flash.wf = true ∧
      (programming .closing final).store.port = .program (job final) ∧
      (programming .closing final).clip 254 = some (clipIn .closing)) ∧
    (clipIn .closing).state = .closing ∧ (programming .opened false).clip 254 = some (clipIn .opened) := by decide +kernel

theorem test_meets_PageProgramOfErasingClip :
    (programming .erasing false).inReset = false ∧ (programming .erasing false).store.port = .program (job false) ∧
    (programming .erasing false).clip 254 = some (clipIn .erasing) ∧ (clipIn .erasing).state = .erasing ∧
    (programming .erasing false).flash.wf = true ∧ pageAddress 2047 14 ≠ pageAddress (job false).block (job false).page := by decide

/-- A reset with a program and with an erase in flight; pages next to the operation's own. -/
theorem test_meets_ResetLeavesTheTables_in_flight :
    (programming .opened true).store.port = .program (job true) ∧ (programming .opened true).flash.wf = true ∧
    pageAddress 2047 14 ≠ pageAddress (job true).block (job true).page ∧
    (portIs (.erase 2047)).store.port = .erase 2047 ∧ (portIs (.erase 2047)).flash.wf = true ∧
    ∀ p : PageNo, pageAddress 2046 15 ≠ pageAddress 2047 p := by decide +kernel

def erasing : State :=
  { mixedStore with store.port := .erase 1, store.eraseQueue := [1], store.state := .formatting }

theorem test_meets_BlockEraseCompletes :
    erasing.inReset = false ∧ erasing.store.port = .erase 1 ∧ (erasing.block 1).state = .owned 254 1 ∧
    erasing.clip 254 = some { clipIn .ready with places := [some 0, some 1] } ∧ erasing.flash.wf = true := by decide +kernel

theorem test_meets_OnlyProgramsErasesAndResetsChangeTheFlash :
    exec .frameEvent halted = .next halted ∧ Instr.frameEvent ≠ .reset ∧ Instr.frameEvent ≠ .replySent ∧
    (∀ v, Instr.frameEvent ≠ .pageProgramComplete v) ∧ ∀ v, Instr.frameEvent ≠ .blockEraseComplete v :=
  ⟨rfl, by decide, by decide, by decide, by decide⟩

def fetching (keep : Bool) : State :=
  (portIs (.fetch 5 2047 15)).setVoice 5
    { live .active none with fetch := some { aFetch with granted := true, keep := keep }, leadIn := true }

theorem test_meets_FetchIsKeptOrDiscarded :
    (∀ k, (fetching k).inReset = false ∧ (fetching k).store.port = .fetch 5 2047 15 ∧
      ((fetching k).voice 5).fetch = some { aFetch with granted := true, keep := k }) ∧
    ((fetching true).voice 5).state ≠ .idle ∧ aFetch.start = ((fetching true).voice 5).start ∧ aFetch.keep = true := by decide

/-- A voice that holds one page of a clip of 17 pages, at a fetch point. -/
def fetchingAt (p : Machine.Step) (page pass : Nat) : Voice :=
  { live .active (some p) with
    answer := some { format := .s16, rate := .khz16, samples := 16385, blocks := [2047, 0] }
    buffer := [{ page := 15, pass := 0, data := none }], fetchPage := page, fetchPass := pass }

/-- With `certain_iff`, the premise about the page at the fetch point at the ends of its ranges: the last page of a pass, the first of
the pass after it, and the second. -/
theorem test_meets_FetchIsKeptOrDiscarded_certain :
    (∀ x ∈ [fetchingAt (.play 254 1) 16 0, { fetchingAt (.play 254 15) 0 1 with passCount := 13 }, fetchingAt (.hold 254 0) 0 1,
            fetchingAt (.walk 254) 16 0],
      x.certain = true ∧ x.state ≠ .idle ∧ x.fetch = none ∧ x.buffer.length < 2 ∧
      (x.answer.bind fun a => a.blocks[x.fetchPage / 16]?).isSome = true) ∧
    (∀ x ∈ [{ fetchingAt (.play 254 15) 0 1 with passCount := 14 }, fetchingAt (.play 254 15) 1 1,
            { fetchingAt (.hold 254 0) 0 1 with releaseMark := true }, { fetchingAt (.hold 254 0) 0 1 with holdEndMark := true },
            fetchingAt (.walk 254) 0 1, fetchingAt (.gap 1) 0 0],
      x.certain = false) ∧
    2 ≤ ({ playing with buffer := List.replicate 2 { page := 0, pass := 0, data := none } } : Voice).buffer.length ∧
    (portIs (.erase 0)).store.port ≠ .idle := by decide

def name16 : Vector Byte 16 := Vector.replicate 16 126
def aHeader : Header := { format := .l8, rate := .khz8, protect := true, name := List.replicate 16 126 }
def firstTag : Tag := { clip := 254, load := 4294967295, sequence := 0, page := 0, final := none, header := none }

theorem test_meets_ScanReadsOnAndClassifies :
    State.reset.inReset = false ∧ State.reset.store.port = .scanRead 0 0 ∧ (1 : PageNo).val = (0 : PageNo).val + 1 ∧
    (15 : PageNo).val = (14 : PageNo).val + 1 ∧ PageCondition.unreadable ∈ List.replicate 16 PageCondition.unreadable ∧
    tagCondition true (State.reset.flash.read 0).spare = .erased ∧ tagCondition false (State.reset.flash.read 0).spare ≠ .erased ∧
    (2047 : BlockNo).val = (2046 : BlockNo).val + 1 ∧
    classify 2046 (List.replicate 15 .erased ++ [.erased]) = .free ∧
    classify 2046 (List.replicate 15 .unreadable ++ [.erased]) = .stale 15 ∧
    classify 2046 (.valid firstTag :: List.replicate 14 .erased ++ [.erased]) = .candidate
      { block := 2046, clip := 254, load := 4294967295, sequence := 0, pages := 1, final := none, header := none } := by
  decide +kernel

/-- Pages for each condition that makes a block STALE, two tags being one page apart. -/
theorem test_meets_ScanReadsOnAndClassifies_stale :
    (let above : Tag := { firstTag with page := 1 }
     classify 0 [.erased, .valid above] = .stale 2 ∧ ({ above with load := 1 } : Tag).load ≠ firstTag.load ∧
     classify 0 [.valid firstTag, .valid { above with load := 1 }] = .stale 2 ∧
     classify 0 [.valid { firstTag with page := 15 }] = .stale 1 ∧
     classify 0 [.valid { firstTag with final := some 1 }, .valid above] = .stale 2 ∧
     classify 0 [.valid { firstTag with sequence := 1, header := some aHeader }] = .stale 1 ∧
     classify 0 [.valid firstTag, .valid { above with header := some aHeader }] = .stale 2) := by decide +kernel

/-- A candidate of 16 pages: the tags that follow the first. -/
theorem test_meets_ScanReadsOnAndClassifies_full :
    (let tags := (List.finRange 16).tail.map fun p : PageNo => ({ firstTag with page := p } : Tag)
     tags.length + 1 = 16 ∧ (∀ t ∈ firstTag :: tags, t.clip = firstTag.clip ∧ t.load = firstTag.load ∧
       t.sequence = firstTag.sequence ∧ t.final = none ∧ t.header = none) ∧
     (firstTag :: tags).map (·.page.val) = List.range 16) := by decide +kernel

/-- The scan at its last read: every block but the last is FREE, and the last has held so far what the pages say. -/
def lastRead (pages : List PageCondition) (greatest : Table Nat) : State :=
  { (storeIn .starting).setBlock 2047 Block.unclassified with
    store.port := .scanRead 2047 15, store.scan := { pages := pages, candidates := [], greatest := greatest } }

theorem test_meets_ScanCompletes (pages : List PageCondition) (greatest : Table Nat) (h15 : pages.length = 15)
    (hg : (greatest.map (·.1)).Pairwise (· < ·)) (hb : ∀ q ∈ greatest, q.1 < 255 ∧ q.2 ≤ 4294967295) :
    (lastRead pages greatest).inReset = false ∧ (lastRead pages greatest).store.state = .starting ∧
    (lastRead pages greatest).store.port = .scanRead 2047 15 ∧ ScanConsistent (lastRead pages greatest) := by
  have blocks : ∀ d, (lastRead pages greatest).block d = if d = 2047 then Block.unclassified else Block.free := by
    intro d
    have : (lastRead pages greatest).block d = ((storeIn .starting).setBlock 2047 Block.unclassified).block d := rfl
    rw [this, block_setBlock]
    split <;> rfl
  refine ⟨rfl, rfl, rfl, fun _ => ⟨2047, 15, rfl, rfl, rfl, rfl, fun _ => rfl, fun d => ?_, fun d => ?_, fun d => ?_, List.Pairwise.nil,
    fun _ hx => absurd hx List.not_mem_nil, h15, hg, hb⟩⟩
  · rw [blocks]; split <;> rfl
  · rw [blocks]; split
    · exact .inl rfl
    · exact .inr (.inl rfl)
  · rw [blocks]
    constructor
    · intro h
      split at h
      · next e => exact .inl (e ▸ Nat.le_refl _)
      · cases h
    · rintro (h | ⟨x, hx, _⟩)
      · rw [if_pos (Fin.le_antisymm (Nat.le_of_lt_succ d.isLt) h)]; rfl
      · cases hx

/-- The one page of a whole clip, under the greatest load number, and the candidate that its block makes. -/
def wholeTag : Tag := { firstTag with final := some 2048, header := some aHeader }
def wholeCandidate : Candidate :=
  { block := 2047, clip := 254, load := 4294967295, sequence := 0, pages := 1, final := some 2048, header := some aHeader }

theorem test_meets_ScanCompletes_last :
    (let pages := PageCondition.valid wholeTag :: List.replicate 14 .erased
     pages.length = 15 ∧ classify 2047 (pages ++ [.erased]) = .candidate wholeCandidate) ∧
    (noteLoad .erased [(254, 4294967295)]).read 0 254 = wholeCandidate.load ∧ (noteLoad .erased []).read 0 254 = 0 ∧
    classify 2047 (List.replicate 15 .unreadable ++ [.unreadable]) = .stale 16 ∧
    classify 2047 (List.replicate 15 .erased ++ [.erased]) = .free := by decide +kernel

theorem test_meets_ScanCompletes_load :
    LoadComplete [wholeCandidate] [wholeCandidate] aHeader 2048 ∧ ∀ l h n, ¬ LoadComplete [] l h n := by
  refine ⟨⟨List.Perm.refl _, by decide, ?_, by simp, ⟨_, rfl, rfl⟩, ⟨_, rfl, rfl, by decide⟩⟩, ?_⟩
  · rintro (_ | i) x hx
    · cases hx; rfl
    · cases hx
  · rintro l h n ⟨hp, _, _, _, ⟨x, hx, _⟩, _⟩
    rw [List.perm_nil.1 hp] at hx
    cases hx

theorem test_meets_ClipOpenAndClose :
    (Takes base ∧ base.store.state = .service ∧ (255 : Byte).toNat = (254 : ClipId).val + 1 ∧
      readAttributes 3 1 1 name16 = some aHeader ∧ readAttributes 4 1 1 name16 = none ∧ (1 : Byte) ≠ 0 ∧ base.clip 254 = none ∧
      base.store.loadCounter = some 1 ∧ Takes (storeIn .starting) ∧ (storeIn .formatting).store.state = .formatting ∧
      (storeIn .formatting).clip 254 = none ∧ Takes (storeIn .formatting) ∧
      ({ base with store.loadCounter := none } : State).store.loadCounter = none ∧
      ({ base with store.loadCounter := some 4294967295 } : State).store.loadCounter = some 4294967295) ∧
    (∀ d x, base.clip d = some x → x.state = .ready ∨ x.state = .erasing) ∧
    (∀ st ∈ [ClipState.opened, .failed, .closing], (withClip (clipIn st)).clip 254 = some (clipIn st) ∧
      (withClip (clipIn st)).clip 253 = none) ∧
    (let x := loadingAt .opened 2 [some 0]
     let y := loadingAt .opened 3 [some 0]
     let z := loadingAt .opened 0 []
     Takes (withClip x) ∧ (withClip x).clip 254 = some x ∧ x.state = .opened ∧ x.accepted ≠ 0 ∧
     x.accepted % x.format.size = 0 ∧ y.accepted % y.format.size ≠ 0 ∧ z.accepted = 0 ∧ (clipIn .closing).state ≠ .opened) :=
  ⟨by decide +kernel, fun _ _ h => absurd h (no_clip rfl), by decide +kernel, by decide +kernel⟩

/-- A load buffer that holds n bytes, in pages of one block. -/
def buffering (n : Nat) : List LoadPage :=
  [{ clip := 254, sequence := 0, page := 0, bytes := List.replicate n 0, final := none }]

theorem test_meets_ClipDataAndReservation :
    (let x := loadingAt .opened 0 []
     Takes (withClip x) ∧ (withClip x).store.state ≠ .starting ∧ (withClip x).clip 254 = some x ∧ x.state = .opened ∧
     (0 : BitVec 32).toNat = x.accepted ∧ bufferedBytes (withClip x) + (List.replicate 512 (0 : Byte)).length ≤ 8192 ∧
     needsBlock x 512 = true ∧ x.places.length < 512 ∧ findFree (withClip x) = some 0) ∧
    (let x := loadingAt .opened 32767 [some 0]
     needsBlock x 1 = false ∧ needsBlock x 2 = true ∧ (0x7FFF : BitVec 32).toNat = x.accepted ∧
     (0x7FFE : BitVec 32).toNat + 1 ≤ x.accepted ∧
     x.accepted < (0x7FFE : BitVec 32).toNat + 2 ∧ (0x7FFE : BitVec 32).toNat ≠ x.accepted) ∧
    (let x := loadingAt .opened 16777216 (List.replicate 512 none)
     needsBlock x 1 = true ∧ 512 ≤ x.places.length) ∧
    (let s : State := { withClip (loadingAt .opened 8192 [some 0]) with store.buffer := buffering 8192 }
     8192 < bufferedBytes s + 1) ∧
    (let s : State := { withClip (loadingAt .opened 8192 [some 0]) with store.buffer := buffering 7680 }
     bufferedBytes s + 512 ≤ 8192) ∧
    (∀ st ∈ [ClipState.failed, .closing, .ready, .erasing], (withClip (clipIn st)).clip 254 = some (clipIn st)) ∧
    Takes (storeIn .starting) ∧ (storeIn .starting).store.state = .starting ∧ base.clip 254 = none ∧
    (let s : State := { mixedStore with store.cursor := 2047 }
     (s.clip 254).isSome = true ∧ findFree s = some 3) := by decide +kernel

theorem test_meets_ClipAbortReleasesOrQueues :
    (∀ st ∈ [ClipState.opened, .failed, .closing, .ready, .erasing], (let s := withClip (clipIn st)
      Takes s ∧ s.store.state ≠ .starting ∧ s.clip 254 = some (clipIn st) ∧ (clipIn st).state = st)) ∧
    (255 : Byte).toNat = (254 : ClipId).val + 1 ∧ base.clip 254 = none ∧ Takes (storeIn .starting) := by decide +kernel

/-- Of the blocks of a clip, the one with programmed pages is queued and the one without is freed. -/
theorem test_abort_queues_programmed_blocks :
    (let t := after (.clipAbort 1 255) (mixedStore.setClip 254 (some { clipIn .failed with places := [some 0, some 1] }))
     t.store.port = .erase 1 ∧ t.store.eraseQueue = [1] ∧ (t.block 0).state = .free ∧
     (t.clip 254).map (·.places) = some [none, some 1]) := by decide +kernel

theorem test_meets_ClipEraseQueuesTheBlocks :
    (let s := withClip (clipIn .ready)
     Takes s ∧ s.clip 254 = some (clipIn .ready) ∧ (clipIn .ready).state = .ready ∧ (clipIn .ready).protect = false ∧
     isLatched 254 s = false ∧ isLatched 254 (s.setVoice 5 (live .prepared (some (.walk 254)))) = true ∧
     (255 : Byte).toNat = (254 : ClipId).val + 1 ∧ s.clip 253 = none) ∧ Takes (storeIn .starting) ∧
    (clipIn .erasing).state ≠ .ready ∧ ({ clipIn .ready with protect := true } : Clip).protect = true := by decide +kernel

def readingBack (offset length : Nat) : State :=
  { withClip (clipIn .ready) with
    store.port := .readback 2047 0
    link.owed := .held (.clipRead 1 254 offset length []) }

theorem test_meets_ClipReadIsHeldThenAnswered :
    (let s := withClip (clipIn .ready)
     let x := clipIn .ready
     Takes s ∧ s.store.state ≠ .starting ∧ s.clip 254 = some x ∧ x.state = .ready ∧ s.clip 253 = none ∧
     (1 ≤ (512 : BitVec 16).toNat ∧ (512 : BitVec 16).toNat ≤ 512 ∧
       (1538 : BitVec 32).toNat + (512 : BitVec 16).toNat ≤ x.accepted ∧
       x.placeOf (1538 : BitVec 32).toNat = some (2047, 0)) ∧
     (1 ≤ (1 : BitVec 16).toNat ∧ (2049 : BitVec 32).toNat + (1 : BitVec 16).toNat ≤ x.accepted ∧
       x.placeOf (2049 : BitVec 32).toNat = some (2047, 1)) ∧
     (0 : BitVec 16).toNat = 0 ∧ 512 < (513 : BitVec 16).toNat ∧
     x.accepted < (2050 : BitVec 32).toNat + (1 : BitVec 16).toNat ∧ (clipIn .closing).state ≠ .ready) ∧
    (∀ p ∈ [(1536, 512), (1537, 512)],
      (let s := readingBack p.1 p.2
       s.inReset = false ∧ s.flash.wf = true ∧ s.store.port = .readback 2047 0 ∧
       s.link.owed = .held (.clipRead 1 254 p.1 p.2 []) ∧ ([] : List Byte).length < p.2)) ∧
    (1536 + 0) % 2048 + (512 - 0) ≤ 2048 ∧ 2048 < (1537 + 0) % 2048 + (512 - 0) ∧
    (clipIn .ready).placeOf (1537 + 0 + (2048 - 1537)) = some (2047, 1) := by decide +kernel

def gapStep : RawStep := { noStep with kind := 3, gap := 600 }

theorem test_meets_ProgramWriteAndDelete :
    Takes ready ∧ (0 : Byte).toNat = 0 ∧ 32 < (33 : Byte).toNat ∧ (32 : Byte).toNat = (31 : ProgramId).val + 1 ∧
    (1 : Byte) = yesNo true ∧ 1 ≤ (List.replicate 12 gapStep).length ∧ (List.replicate 12 gapStep).length ≤ 12 ∧
    (12 : Byte).toNat = (List.replicate 12 gapStep).length ∧
    (List.replicate 12 gapStep).map readStep = (List.replicate 12 (Machine.Step.gap 600)).map some ∧
    (∀ r ∈ List.replicate 11 gapStep, readStep r ≠ none) ∧ readStep noStep = none ∧ readStep { gapStep with gap := 601 } = none ∧
    base.program 31 = none ∧ ready.program 31 ≠ none ∧ (∀ v, usesProgram 31 ready v = false) ∧
    ∃ v, usesProgram 31 (withVoice 5 (live .prepared none)) v = true := by decide +kernel

/-- The refusals of PROG.WRITE: each field at the ends of its range, and a count that is not that of the records. -/
theorem test_meets_ProgramWriteAndDelete_refused :
    ([noStep] : List RawStep).length ≤ 12 ∧ 12 < (List.replicate 13 noStep).length ∧ 1 < (2 : Byte).toNat ∧
    (1 : Byte).toNat ≤ 1 ∧ (0 : Byte).toNat = 0 ∧ 12 < (13 : Byte).toNat ∧ (12 : Byte).toNat ≤ 12 ∧
    (12 : Byte).toNat ≠ ([noStep] : List RawStep).length ∧
    bodySent (after (.progWrite 1 33 1 1 [gapStep]) base) = some [3, 255] ∧
    bodySent (after (.progWrite 1 32 2 1 [gapStep]) base) = some [3, 255] ∧
    bodySent (after (.progWrite 1 32 1 13 [gapStep]) base) = some [3, 255] ∧
    bodySent (after (.progWrite 1 32 1 2 [gapStep]) base) = some [2] := by decide +kernel

theorem gap_names_no_clip (s : State) : ∀ c, (Machine.Step.gap 1).clip? = some c → s.clipReady c = true :=
  fun _ h => nomatch h

theorem test_meets_VoiceStart_and_VoicePrepare :
    (Takes ready ∧ ready.store.state = .service ∧ ready.inputs.latch = false ∧ ready.arbiter.bus = .running ∧
      readOrder rawOrder = some order ∧ ready.program order.program = some gapProgram ∧
      gapProgram.steps = Machine.Step.gap 1 :: [] ∧ idleVoice ready = some 0 ∧
      ∀ z, hasZone order.zones z = true → (ready.zone z).enabled = true ∧ (ready.zone z).holder = none) ∧
    (∀ c, (Machine.Step.gap 1).clip? = some c → ready.clipReady c = true) ∧
    (readyToPlay.program order.program = some playProgram ∧ playProgram.steps = Machine.Step.play 254 15 :: [] ∧
      readyToPlay.clipReady 254 = true) :=
  ⟨by decide +kernel, gap_names_no_clip ready, by decide +kernel⟩

/-- Zone 7 is held by voice 0 at a priority: a claim at 14 takes it from 13, and is queued or refused at 14. -/
def heldAt (p : Nat) : State := (holding 0 (live .active none)).setZone 7 { holder := some (0, p), level := 0, enabled := true }

theorem test_meets_VoiceStartTakesFreeZones_held :
    (∀ p ∈ [13, 14], Takes (heldAt p) ∧ (heldAt p).store.state = .service ∧ idleVoice (heldAt p) = some 1 ∧
      (heldAt p).program order.program = some gapProgram) ∧
    evaluateClaim order (heldAt 13) = some 129 ∧ evaluateClaim order (heldAt 14) = none ∧ 0 < order.wait ∧
    readOrder { rawOrder with wait := 0 } = some { order with wait := 0 } ∧
    evaluateClaim { order with wait := 0 } (heldAt 14) = none := by decide +kernel

theorem test_a_walk_begins_at_the_lowest_zone_held :
    (let s := after (.voiceStart 1 { rawOrder with zones := 144 }) (readyToPlay.setProgram 31 (some { playProgram with steps := [.walk 254] }))
     (s.voice 0).walkZone = some 4 ∧ (s.voice 0).walked = 16) := by decide +kernel

def noIdleVoice : State := [0, 1, 2, 3, 4, 5].foldl (fun s v => s.setVoice v (live .prepared none)) ready
def number : BitVec 32 := 4294967295

theorem test_meets_RefusedVoiceRequestsChangeNothing :
    (storeIn .starting).store.state = .starting ∧ (storeIn .formatting).store.state = .formatting ∧
    latched.store.state = .service ∧ latched.inputs.latch = true ∧ Takes latched ∧
    readOrder { rawOrder with priority := 15 } = none ∧ readOrder { rawOrder with zones := 0 } = none ∧
    readOrder { rawOrder with program := 33 } = none ∧ readOrder rawOrder = some order ∧ base.program order.program = none ∧
    (let s := base.setProgram 31 (some playProgram)
     s.program order.program = some playProgram ∧ (Machine.Step.play 254 15).clip? = some 254 ∧ s.clipReady 254 = false) ∧
    (∀ v, v ≠ 6 → (noIdleVoice.voice v).state ≠ .idle) ∧ noIdleVoice.program order.program = some gapProgram ∧
    (∃ v, v ≠ 6 ∧ (halted.voice v).state = .idle) ∧ halted.arbiter.bus = .halted ∧
    liveVoice ready number.toNat = none ∧ liveVoice (withVoice 6 (live .active none)) number.toNat = some 6 ∧
    (3 : Byte) ≠ 1 ∧ (3 : Byte) ≠ 2 := by decide +kernel

/-- A start order is refused at each of its fields, and to a cue on a halted bus. -/
theorem test_meets_RefusedVoiceRequestsChangeNothing_orders :
    rawOrder.program.toNat = (31 : ProgramId).val + 1 ∧ rawOrder.zones ≠ 0 ∧ rawOrder.priority.toNat ≤ 14 ∧
    rawOrder.partialOpt = yesNo false ∧ rawOrder.suspendable = yesNo true ∧
    readOrder { rawOrder with program := 0 } = none ∧ readOrder { rawOrder with partialOpt := 2 } = none ∧
    readOrder { rawOrder with suspendable := 2 } = none ∧
    (let s : State := { ready with arbiter.bus := .halted }
     (startVoice (.cue 95) (some order) s).2 = .refused .wrongState) := by decide +kernel

/-- Zone 7 is held at priority 14, so that a claim at 14 finds it taken; the wait limit is as given. -/
def contended (wait : Nat) : State :=
  (holding 0 (live .active none)).setVoice 1
    { live .prepared none with start := 7, order := some { order with wait := wait } }

theorem test_meets_VoiceGoClaims :
    (let s := withVoice 5 (live .prepared none)
     Takes s ∧ liveVoice s number.toNat = some 5 ∧ s.inputs.latch = false ∧ (s.voice 5).state = .prepared ∧
     s.arbiter.bus = .running ∧ (s.voice 5).order = some order ∧ evaluateClaim order s = some 129 ∧
     ∀ z, hasZone 129 z = true → (s.zone z).holder = none) ∧
    (∀ w ∈ [0, 1, 255],
      (let s := contended w
       Takes s ∧ liveVoice s (7 : BitVec 32).toNat = some 1 ∧ (s.voice 1).state = .prepared ∧
       (s.voice 1).order = some { order with wait := w } ∧ evaluateClaim { order with wait := w } s = none)) ∧
    (let s := (heldAt 13).setVoice 1 { live .prepared none with start := 7 }
     liveVoice s (7 : BitVec 32).toNat = some 1 ∧ evaluateClaim order s = some 129 ∧ hasZone 129 7 = true ∧ s.holds 0 7 = true) ∧
    (let s : State := { withVoice 5 (live .prepared none) with arbiter.bus := .halted }
     Takes s ∧ liveVoice s number.toNat = some 5 ∧ s.arbiter.bus = .halted) ∧
    (let s : State := { withVoice 5 (live .prepared none) with inputs.latch := true }
     Takes s ∧ liveVoice s number.toNat = some 5 ∧ s.inputs.latch = true) ∧
    (let s := withVoice 5 (live .waiting none)
     liveVoice s number.toNat = some 5 ∧ (s.voice 5).state ≠ .prepared) := by decide +kernel

theorem test_meets_StopsAndExpiriesEndVoices :
    (let s := withVoice 5 (live .active (some (.walk 254)))
     Takes s ∧ liveVoice s number.toNat = some 5 ∧ (s.voice 5).state = .active ∧
     (s.voice 5).step = some (.walk 254) ∧ (Machine.Step.walk 254).clip? = some 254) ∧
    ((withVoice 5 (live .active (some (.gap 1)))).voice 5).step = some (.gap 1) ∧ (Machine.Step.gap 1).clip? = none ∧
    ((withVoice 5 (live .suspended none)).voice 5).state ≠ .active ∧
    ((withVoice 5 (live .prepared none)).voice 5).state = .prepared ∧
    ((withVoice 5 (live .waiting none)).voice 5).state = .waiting ∧ (ready.voice 5).state ≠ .prepared ∧
    (ready.voice 5).state ≠ .waiting := by decide +kernel

theorem test_meets_EndOfAVoice :
    (ready.voice 5).state = .idle ∧
    (∀ g, (let x := { live .active none with stepProgram := some 31, fetch := some { aFetch with granted := g } }
           let s := holding 5 x
           (s.voice 5).state ≠ .idle ∧ (s.voice 5).stepProgram = some 31 ∧
           (s.voice 5).fetch = some { aFetch with granted := g } ∧ s.holds 5 7 = true)) ∧
    ((holding 5 (live .active none)).voice 5).fetch = none ∧ ((holding 5 (live .active none)).voice 5).stepProgram = none := by
  decide +kernel

theorem test_meets_PauseResumeRelease :
    (let s := withVoice 5 (live .suspended (some (.hold 254 3600)))
     Takes s ∧ liveVoice s number.toNat = some 5 ∧ (s.voice 5).state = .suspended ∧
     (s.voice 5).step = some (.hold 254 3600) ∧ (s.voice 5).releaseMark = false ∧ (s.voice 5).holdEndMark = false) ∧
    ({ live .active none with holdEndMark := true } : Voice).holdEndMark = true ∧
    ({ live .active none with releaseMark := true } : Voice).releaseMark = true ∧
    (live .waiting none).state = .waiting := by decide +kernel

theorem test_meets_PauseResumeRelease_outside_HOLD (c : ClipId) (limit : Nat) :
    ((withVoice 5 (live .active (some (.gap 1)))).voice 5).step ≠ some (.hold c limit) := by
  rw [show ((withVoice 5 (live .active (some (.gap 1)))).voice 5).step = some (.gap 1) from by decide +kernel]
  intro h
  cases h

def claimedIn (o : StartOrder) (s : State) (z : ZoneId) : Prop := hasZone o.zones z = true ∧ (s.zone z).enabled = true
def freeFor (o : StartOrder) (s : State) (z : ZoneId) : Prop :=
  (s.zone z).holder = none ∨ ∃ w p, (s.zone z).holder = some (w, p) ∧ p < o.priority

theorem test_meets_ClaimsAreEvaluated :
    (∀ z, claimedIn order ready z ↔ hasZone order.zones z = true ∧ (ready.zone z).enabled = true) ∧
    (∀ z, freeFor order ready z ↔ (ready.zone z).holder = none ∨
      ∃ w p, (ready.zone z).holder = some (w, p) ∧ p < order.priority) ∧
    evaluateClaim order ready = some 129 ∧ order.partialOpt = false ∧
    ({ order with partialOpt := true } : StartOrder).partialOpt = true ∧
    evaluateClaim { order with partialOpt := true } (contended 0) = some 1 :=
  ⟨fun _ => Iff.rfl, fun _ => Iff.rfl, by decide +kernel⟩

theorem test_meets_LossesAndOffersOfZones :
    (let s := withVoice 5 (live .active none)
     (s.voice 5).state = .active ∧ (s.voice 5).order = some order ∧ s.heldSet 5 = 0 ∧ order.suspendable = true ∧
     (holding 5 (live .active none)).heldSet 5 ≠ 0 ∧ ({ order with suspendable := false } : StartOrder).suspendable = false) ∧
    latched.inputs.latch = true ∧ ((holding 5 (live .active none)).zone 7).holder ≠ none ∧
    (∀ v, isClaimant ready 7 v = false) ∧
    (let s := withVoice 5 { live .suspended none with wanted := 128 }
     s.inputs.latch = false ∧ (s.zone 7).holder = none ∧ (s.zone 7).enabled = true ∧ claimants s 7 = 5 :: [] ∧
     (s.voice 5).state = .suspended ∧ (s.voice 5).order = some order) := by decide +kernel

/-- WALK voices that have lost their walk zone: with a zone held above it, the lowest of them 7, and with none. -/
theorem test_meets_LossesAndOffersOfZones_walk :
    (∀ z : ZoneId, z < 7 → (let s := holding 5 { walking with walkZone := some z }
      (s.voice 5).state = .active ∧ (s.voice 5).step = some (.walk 254) ∧ (s.voice 5).walkZone = some z ∧ s.holds 5 z = false ∧
      s.holds 5 7 = true ∧ ∀ x, z < x → x < 7 → s.holds 5 x = false)) ∧
    (let s := withVoice 5 walking
     (s.voice 5).walkZone = some 7 ∧ s.holds 5 7 = false ∧ ∀ y, 7 < y → s.holds 5 y = false) ∧
    (holding 5 walking).holds 5 7 = true := by decide +kernel

/-- Claimants of zone 7: a WAITING voice of priority 14, then two of priority 3 by start number, one SUSPENDED and one ACTIVE. -/
def claiming (w : Nat) : State :=
  let low : StartOrder := { order with priority := 3 }
  ((ready.setVoice 5 { live .waiting none with order := some { order with wait := w } }).setVoice 0
    { live .active none with start := 9, order := some low, wanted := 128 }).setVoice 1
    { live .suspended none with start := 8, order := some low, wanted := 128 }

theorem test_claimants_are_tried_in_order :
    claimants (claiming 1) 7 = [5, 1, 0] ∧ evaluateClaim { order with wait := 1 } (claiming 1) = some 129 ∧
    evaluateClaim { order with wait := 1 } ((claiming 1).setZone 0 { holder := some (6, 15), level := 0, enabled := true }) = none ∧
    ((offerZone offers 7 (claiming 1)).zone 7).holder = some (5, 14) := by decide +kernel

/-- WALK voices at the top of their zones: voice 0 holds zones 3 to 7, voice 1 zones 0 to 2 and wants zone 5; both stop at a step end. -/
def twoWalks : State :=
  let x : Voice := { walking with stopAfterPass := true, order := some { order with priority := 3, zones := 255 } }
  let s := ((base.setProgram 31 (some gapProgram)).setVoice 0 { x with start := 1, walkZone := some 7 }).setVoice 1
    { x with start := 2, walkZone := some 2, wanted := 32 }
  [0, 1, 2, 3, 4, 5, 6, 7].foldl (fun s z =>
    s.setZone z { holder := some (if z < 3 then (1, 3) else (0, 3)), level := 0, enabled := true }) s

/-- A claim takes zones 7 and 2. Voice 0 ends and frees zone 5, which voice 1 wants; voice 1 acts on the held set that the claim leaves,
without it, and ends too (R88, R107). -/
theorem test_losers_act_on_the_held_sets_the_claim_leaves :
    (let s := after (.voiceStart 1 { rawOrder with zones := 132 }) twoWalks
     (s.voice 0).state = .idle ∧ (s.voice 1).state = .idle ∧ (s.zone 5).holder = none ∧ (s.zone 7).holder = some (2, 14)) := by
  decide +kernel

theorem test_meets_ZoneSetSetsLevelAndEnabled :
    Takes base ∧ (7 : Byte).toNat = (7 : ZoneId).val ∧ (31 : Byte).toNat ≤ 31 ∧ (1 : Byte) = yesNo true ∧
    base.inputs.latch = false ∧ true = (base.zone 7).enabled ∧ (base.zone 7).holder = none ∧
    ((holding 5 (live .active none)).zone 7).holder = some (5, 14) ∧
    ((base.setZone 7 { holder := none, level := 0, enabled := false }).zone 7).enabled = false ∧
    latched.inputs.latch = true ∧ Takes latched ∧ 7 < (8 : Byte).toNat ∧ 31 < (32 : Byte).toNat ∧ 1 < (2 : Byte).toNat := by
  decide

theorem test_meets_BusHaltsAndRuns :
    Takes base ∧ base.inputs.latch = false ∧ (∀ v, v ≠ 6 → (base.voice v).state = .idle) ∧
    (∃ v, v ≠ 6 ∧ ((holding 5 (live .active none)).voice v).state ≠ .idle) ∧ latched.inputs.latch = true ∧
    (1 : Byte).toNat ≤ 1 ∧ 1 < (2 : Byte).toNat ∧ ((holding 5 (live .active none)).zone 7).holder = some (5, 14) ∧
    (base.zone 7).holder = none := by decide

theorem test_meets_BusHaltsAndRuns_waiting :
    (let s : State := { withVoice 5 (live .waiting none) with arbiter.waiting := [5] }
     (∀ v ∈ s.arbiter.waiting, v ≠ 6 ∧ (s.voice v).state ≠ .idle) ∧
     (after (.outputHalt 1 1) s).arbiter.waiting = []) := by decide +kernel

theorem test_meets_ClockSetAndStart :
    Takes base ∧ (6 : Byte).toNat ≤ 6 ∧ (23 : Byte).toNat ≤ 23 ∧ (59 : Byte).toNat ≤ 59 ∧ (9 : Byte).toNat ≤ 9 ∧
    6 < (7 : Byte).toNat ∧ 23 < (24 : Byte).toNat ∧ 59 < (60 : Byte).toNat ∧ 9 < (10 : Byte).toNat ∧
    Takes (clockAt .held midnight) ∧ (clockAt .held midnight).schedule.clock.state = .held ∧
    base.schedule.clock.state ≠ .held := by decide

theorem test_clockSet_passes_the_cue_of_its_own_second :
    (let s := withCue .armed base
     ((after (.clockSet 1 0 0 0 0 9 1) s).cue 95).outcome = .passed { midnight with tenth := 9 } ∧
     ((after (.clockSet 1 1 0 0 0 0 1) s).cue 95).outcome = .none) := by decide +kernel

theorem test_meets_CueRequestsChangeOneRecord :
    Takes base ∧ (96 : Byte).toNat = (95 : CueId).val + 1 ∧ (readCueEntry rawCue).isSome = true ∧
    readCueEntry { rawCue with days := 128 } = none ∧ readCueEntry { rawCue with hour := 24 } = none ∧
    (base.cue 95).entry = none ∧
    (∀ st ∈ [CueState.armed, .disabled, .spent], Takes (withCue st base) ∧
      ((withCue st base).cue 95).entry = some (cueEntry st)) := by decide +kernel

theorem test_meets_CueRequestsChangeOneRecord_numbers :
    (0 : Byte).toNat = 0 ∧ 96 < (97 : Byte).toNat ∧ Takes base ∧
    bodySent (after (.cueWrite 1 97 rawCue) base) = some [3] ∧ rawCue.hour.toNat ≤ 23 ∧ rawCue.minute.toNat ≤ 59 ∧
    rawCue.second.toNat ≤ 59 ∧ rawCue.days ≠ 0 ∧ rawCue.days.toNat ≤ 127 ∧ readOrder rawCue.order = some order ∧
    rawCue.rept = 1 ∧ rawCue.state = 1 ∧ readCueEntry { rawCue with state := 3 } = none := by decide +kernel

theorem test_meets_TenthEventAdvancesTheClock :
    base.schedule.clock.state ≠ .running ∧
    (let s := clockAt .running { midnight with tenth := 8 }
     s.inReset = false ∧ s.schedule.clock.state = .running ∧ s.schedule.clock.time.tenth < 9) ∧
    (clockAt .running { midnight with second := 58, tenth := 9 }).schedule.clock =
      { state := .running, time := { weekday := 0, hour := 0, minute := 0, second := 58, tenth := 9 } } ∧
    (clockAt .running lastTenth).schedule.clock =
      { state := .running, time := { weekday := 6, hour := 23, minute := 59, second := 59, tenth := 9 } } ∧
    (6 : Nat) ≤ 6 := by decide

/-- The clock has just entered the second of the ARMED cue 96, its program as given. -/
def dueWith (p : Option Program) : State := (withCue .armed (clockAt .running midnight)).setProgram 31 p

theorem test_meets_FiringRecordsTheOutcome :
    (startVoice (.cue 95) (some (cueEntry .armed).order) (dueWith (some gapProgram))).2 = .started 0 1 .active ∧
    (startVoice (.cue 95) (some (cueEntry .armed).order) (dueWith none)).2 = .refused .notFound ∧
    (let s := dueWith none
     (s.cue 95).entry = some (cueEntry .armed) ∧ (s.cue 95).done = false ∧
     (cueEntry .armed).hour = s.schedule.clock.time.hour ∧ (cueEntry .armed).minute = s.schedule.clock.time.minute ∧
     (cueEntry .armed).second = s.schedule.clock.time.second ∧
     (cueEntry .armed).days.getLsbD s.schedule.clock.time.weekday = true ∧ ∀ d, d ≠ 95 → (s.cue d).entry = none) ∧
    ∀ d, (base.cue d).entry = none := by decide +kernel

/-- Two cues that are due in one second, 95 and 96, in ascending number. -/
theorem test_meets_FiringRecordsTheOutcome_two :
    (let s := (dueWith (some gapProgram)).setCue 94 { entry := some (cueEntry .armed), done := false, outcome := .none }
     let l := [((94 : CueId), cueEntry .armed), (95, cueEntry .armed)]
     (l.map (·.1)).Pairwise (· < ·) ∧ (∀ d, (s.cue d).entry = if d = 94 ∨ d = 95 then some (cueEntry .armed) else none) ∧
     (∀ d, (s.cue d).due s.schedule.clock.time = (decide (d = 94) || decide (d = 95))) ∧
     ((enterSecond s).cue 94).outcome = .started 0 1 midnight ∧ ((enterSecond s).voice 1).state = .waiting) := by decide +kernel

theorem test_meets_TriggerRequests :
    Takes (fifoOf 16) ∧ (7 : Byte).toNat = (7 : TriggerId).val ∧ readAction rawTrigger = some (.stop .opening 14) ∧
    rawTrigger.log = yesNo true ∧ 7 < (8 : Byte).toNat ∧ readAction { rawTrigger with stopPriority := 15 } = none ∧
    readAction { rawTrigger with action := 6 } = none ∧ 1 < ({ rawTrigger with log := 2 } : RawTrigger).log.toNat := by
  decide +kernel

/-- Each action at the ends of its fields' ranges; TRIG.READ's entry of thirteen bytes. -/
theorem test_meets_TriggerRequests_actions :
    readAction { rawTrigger with action := 1 } = some (.start .opening order) ∧
    readAction { rawTrigger with action := 2, edge := 9 } = some (.follow order) ∧
    readAction { rawTrigger with action := 4, releaseProgram := 32 } = some (.release .opening 31) ∧
    readAction { rawTrigger with action := 5, edge := 1 } = some (.mark .close) ∧
    readAction { rawTrigger with action := 0, edge := 9 } = some .none ∧
    readAction { rawTrigger with action := 4, releaseProgram := 33 } = none ∧
    readAction { rawTrigger with action := 5, edge := 3 } = none ∧
    bodySent (after (.trigRead 1) (fifoOf 1)) = some [0, 0, 1, 7, 1, 255, 255, 255, 255, 255, 0, 0, 0, 0, 0, 0] := by
  decide +kernel

theorem test_meets_OverrideRequests :
    Takes base ∧ (31 : Byte).toNat ≤ 31 ∧ (32 : Byte).toNat = (31 : ProgramId).val + 1 ∧ 32 < (33 : Byte).toNat ∧
    31 < (32 : Byte).toNat ∧ ((base.setInput 8 { pin := .closed, level := .closed, settling := false }).input 8).level = .closed ∧
    (base.input 8).level = .opened ∧ base.inputs.latch = false ∧ (latched.input 8).level = .opened ∧
    latched.inputs.latch = true := by decide

theorem test_meets_PinsSettleIntoEdges :
    (base.input 8).pin = .opened ∧ (base.input 8).pin ≠ .closed ∧ base.inReset = false ∧ held.inReset = true ∧
    (held.input 8).pin ≠ .closed ∧
    (∀ i : InputId, (let s := base.setInput i { pin := .closed, level := .opened, settling := true }
                     (s.input i).settling = true ∧ (s.input i).pin ≠ (s.input i).level)) ∧
    (7 : TriggerId).val = (7 : InputId).val ∧ (base.input 0).settling = false ∧
    ((withVoice 6 (live .active none)).voice 6).state ≠ .idle ∧ (base.voice 6).state = .idle ∧
    (storeIn .starting).store.state = .starting ∧ base.store.state ≠ .starting ∧ base.inputs.overrideProgram = none ∧
    (let s : State := { base with inputs.overrideProgram := some 31 }
     s.inputs.overrideProgram = some 31 ∧ s.program 31 = none) := by decide

/-- The latch is set and program 32 is the override program; zone 7 is held at 14 by an ACTIVE voice 5, suspendable or not. -/
def overridden (s : State) : State := { s with inputs.latch := true, inputs.overrideProgram := some 31 }

theorem test_meets_PinsSettleIntoEdges_start :
    (let s := overridden (holding 5 (live .active none))
     s.inputs.overrideProgram = some 31 ∧ s.program 31 = some gapProgram ∧ gapProgram.steps = .gap 1 :: [] ∧
     (∀ z, hasZone 255 z = (s.zone z).enabled) ∧ (∀ z, ∀ h ∈ (s.zone z).holder, h.2 < 15) ∧ s.inputs.latch = true ∧
     (∀ z, (s.zone z).enabled = false → (s.zone z).holder = none) ∧
     (s.voice 5).state = .active ∧ (s.voice 5).order = some order ∧ s.holds 5 7 = true ∧ ∀ z, s.holds 4 z = false) ∧
    (let s := overridden (base.setProgram 31 (some playProgram))
     s.program 31 = some playProgram ∧ (Machine.Step.play 254 15).clip? = some 254 ∧ s.clipReady 254 = false) ∧
    (let s := allZones.foldl (fun s z => s.setZone z { holder := none, level := 0, enabled := false }) (overridden ready)
     ∀ z, hasZone 0 z = (s.zone z).enabled) := by decide +kernel

theorem test_override_suspends_or_preempts :
    (let s := startOverride (overridden (holding 5 (live .active none)))
     s.inputs.overrideResult = .started ∧ (s.zone 7).holder = some (6, 15) ∧ (s.voice 5).state = .suspended) ∧
    (let s := startOverride (overridden (holding 5 { live .active none with order := some { order with suspendable := false } }))
     (s.zone 0).holder = some (6, 15) ∧ (s.voice 5).state = .idle ∧ s.flagSet (.voiceEnd 5) = true) := by decide +kernel

theorem test_meets_EdgesCarryOutTheirAction :
    (∀ a ∈ [TriggerAction.none, .start .close order, .follow order, .stop .opening 14, .release .close 31, .mark .opening],
      ((withAction a true base).trigger 7).action = a) ∧
    actionAt (.start .close order) .opening = .none ∧ actionAt .none .close = .none ∧
    (base.trigger 7).lastStart = 0 ∧
    (let s := (withVoice 5 (live .active none)).setTrigger 7 { action := .follow order, log := true, lastStart := 4294967295 }
     (s.trigger 7).lastStart ≠ 0 ∧ liveVoice s (s.trigger 7).lastStart = some 5) ∧
    base.schedule.clock.state = .unset ∧ (clockAt .held midnight).schedule.clock.state = .held ∧
    (clockAt .running { midnight with second := 29 }).schedule.clock.time.second < 30 ∧
    30 ≤ (clockAt .running { midnight with second := 30 }).schedule.clock.time.second ∧
    (clockAt .running lastTenth).schedule.clock.time.second ≤ 59 := by decide

/-- The minute mark forward, from second 30 and from second 59, over a minute, an hour and the end of the week. -/
theorem test_minute_mark_reaches_the_next_minute :
    (∀ p ∈ [({ lastTenth with minute := 58, second := 30 }, { lastTenth with minute := 59, second := 0, tenth := 0 }),
            ({ lastTenth with hour := 22 }, { lastTenth with minute := 0, second := 0, tenth := 0 }),
            ({ lastTenth with second := 30 }, midnight), (lastTenth, midnight)],
      (minuteMark (clockAt .running p.1)).1.schedule.clock = { state := .running, time := p.2 }) := by decide +kernel

theorem test_meets_LoggedEdgesJoinTheFifo :
    (fifoOf 0).inputs.fifo = [] ∧ (fifoOf 15).inputs.fifo ≠ [] ∧ (fifoOf 15).inputs.fifo.length < 16 ∧
    16 ≤ (fifoOf 16).inputs.fifo.length ∧ ((withAction .none true base).trigger 7).log = true ∧
    ((withAction .none false base).trigger 7).log = false := by decide

theorem test_meets_FrameEventSendsAFrame :
    base.inReset = false ∧ halted.arbiter.bus = .halted ∧ base.arbiter.bus = .running ∧
    (let s := holding 5 playing
     let u := (takeParts allVoices s).1
     let yields := (takeParts allVoices s).2
     (u.zone 0).holder = none ∧ (u.zone 7).holder = some (5, 14) ∧ yieldOf yields 0 = none ∧ effectiveLevel u 7 = 31 ∧
     yieldOf yields 5 = some { value := -256, only := none }) ∧
    (let s := withVoice 5 playing
     (s.voice 5).state = .active ∧ (s.voice 5).paused = false ∧ (s.voice 5).step = some (.play 254 15) ∧
     (s.voice 5).answer = some { format := .s16, rate := .khz16, samples := 1024, blocks := [2047] } ∧
     (s.voice 5).leadIn = false ∧ (s.voice 5).secondPhase = false ∧ (s.voice 5).holdTimer = none ∧
     (s.voice 5).sampleAtPosition = some (-1) ∧ ((s.voice 5).position + 1) % Format.s16.pageSamples ≠ 0 ∧
     (s.voice 5).position + 1 < 1024) ∧
    ((withVoice 5 { playing with paused := true }).voice 5).paused = true := by decide +kernel

theorem test_meets_FrameEventSendsAFrame_parts :
    voicePart 0 base = (base, none) ∧
    (voicePart 5 (withVoice 5 playing)).2 = some { value := -256, only := none } ∧
    yieldOf [(4, { value := 1, only := none }), (5, { value := 2, only := none })] 5 = some { value := 2, only := none } := by
  decide +kernel

/-- Of an 8 kHz clip the first and the second yield of a sample, the last sample of a page and of the clip, and a frame of an underrun. -/
theorem test_meets_FrameEventSendsAFrame_clauses :
    (let slow : Voice := { playing with answer := some { format := .s16, rate := .khz8, samples := 2048, blocks := [2047] } }
     slow.secondPhase = false ∧ ({ slow with secondPhase := true } : Voice).secondPhase = true ∧
     ({ slow with position := 1023 } : Voice).sampleAtPosition = some (-1) ∧ (1023 + 1) % (2048 / Format.s16.size) = 0 ∧ 1023 + 1 < 2048) ∧
    ({ playing with position := 1023 } : Voice).sampleAtPosition = some (-1) ∧ 1024 ≤ 1023 + 1 ∧
    ({ playing with leadIn := true } : Voice).leadIn = true ∧
    (∀ n ∈ [0, 1598], (let x : Voice := { playing with buffer := [], underRun := n }
      x.sampleAtPosition = none ∧ x.underRun + 1 < 1600)) ∧
    ({ playing with underTotal := 4294967295 } : Voice).underTotal = 4294967295 ∧
    (∀ n ∈ [1, 2], ({ live .active (some (.gap 1)) with gapTimer := n } : Voice).gapTimer = n) := by decide +kernel

theorem test_meets_FrameEventSendsAFrame_for_one_zone :
    (let s := (holding 5 walking).setZone 0 { holder := some (5, 14), level := 0, enabled := true }
     (((takeParts allVoices s).1.zone 0).holder = some (5, 14)) ∧
     yieldOf (takeParts allVoices s).2 5 = some { value := -256, only := some 7 }) := by decide +kernel

theorem test_meets_FrameTimedRows :
    (∀ x ∈ [{ playing with buffer := [], underRun := 1599 }, { live .active (some (.gap 1)) with gapTimer := 1 },
            { playing with step := some (.hold 254 3600), holdTimer := some 1 }],
      (let s := holding 5 x
       s.inReset = false ∧ s.arbiter.bus = .running ∧ (∀ w, w < 5 → takesPart w s = false) ∧ atTurn 5 s = s ∧
       (s.voice 5).state = .active ∧ (s.voice 5).paused = false)) ∧
    ({ playing with buffer := [] } : Voice).sampleAtPosition = none ∧ playing.leadIn = false ∧
    ({ playing with step := some (.hold 254 3600) } : Voice).answer = playing.answer := by decide +kernel

theorem test_meets_FrameTimedRows_ends :
    (∀ x ∈ [{ playing with stopAfterPass := true }, { playing with passCount := 13 }, { playing with passCount := 14 },
            { playing with step := some (.hold 254 0) }, { playing with step := some (.hold 254 0), releaseMark := true }],
      x.state = .active ∧ x.answer.isSome = true) ∧
    ({ playing with passCount := 65535 } : Voice).passCount = 65535 ∧
    (let s := holding 5 { walking with walkZone := some 6 }
     (s.voice 5).walkZone = some 6 ∧ s.holds 5 7 = true ∧ ∀ w : ZoneId, 6 < w → w < 7 → s.holds 5 w = false) ∧
    (∀ y : ZoneId, 7 < y → (holding 5 walking).holds 5 y = false) := by decide +kernel

/-- A voice at step n of the program it reads, which has one step. -/
theorem test_meets_FrameTimedRows_starts :
    (∀ s ∈ [ready, readyToPlay], ∃ prog ∈ (s.program 31).toList, prog.steps.length = 1 ∧ prog.steps[0]?.isSome = true) ∧
    (live .active none).order.map (·.program) = some 31 ∧ gapProgram.cycle = false ∧ playProgram.cycle = true ∧
    (overridden ready).inputs.overrideProgram = some 31 ∧ ready.inputs.overrideProgram = none ∧
    ((ready.setVoice 6 { live .active none with stepProgram := some 31 }).voice 6).stepProgram = some 31 ∧
    (readyToPlay.clip 254).map (·.state) = some .ready ∧ ((withClip (clipIn .erasing)).clip 254).map (·.state) = some .erasing ∧
    ready.clip 254 = none ∧ (Machine.Step.gap 1).clip? = none ∧ (Machine.Step.walk 254).clip? = some 254 ∧
    (∀ z, (withVoice 5 walking).holds 5 z = false) := by decide +kernel

/-- The last frame of a gap: the one step of program 32 ends, and with it the voice. -/
theorem test_gap_timer_expiry_completes_the_program :
    (let s := holding 5 { live .active (some (.gap 1)) with gapTimer := 1 }
     ((after (.gapTimerExpiry 5) s).voice 5).endRecord.map (·.cause) = some .completed ∧
     ((after (.gapTimerExpiry 5) s).zone 7).holder = none) ∧
    (let s := holding 5 { playing with buffer := [], underRun := 1599 }
     ((after (.starved 5) s).voice 5).endRecord.map (·.fault) = some .starved) ∧
    (let s := holding 5 { playing with step := some (.hold 254 3600), holdTimer := some 1, position := 0 }
     ((after (.holdTimerExpiry 5) s).voice 5).holdEndMark) = true := by decide +kernel

theorem test_meets_EncodingsReadBack :
    firstTag.inRange = true ∧ ({ firstTag with load := 1, sequence := 511, final := some 16777216, header := some aHeader } : Tag).inRange = true ∧
    order.zones ≠ 0 ∧ order.priority ≤ 14 ∧ order.wait ≤ 255 := by decide +kernel

theorem test_steps_at_the_ends_of_their_ranges :
    readStep (stepAt (Machine.Step.play 254 15).bytes 0) = some (.play 254 15) ∧
    readStep (stepAt (Machine.Step.hold 0 3600).bytes 0) = some (.hold 0 3600) ∧
    readStep (stepAt (Machine.Step.gap 600).bytes 0) = some (.gap 600) ∧
    readStep (stepAt (Machine.Step.gap 0).bytes 0) = none := by decide +kernel

/-- A tag of page 0 of clip 1, written out byte by byte from R200. -/
theorem test_tag_bytes_of_the_manual :
    readTag ([1, 4, 3, 2, 1, 0, 0, 0, 1, 7, 0, 0, 0, 1, 1, 2, 0, 65] ++ List.replicate 15 0) =
      some { clip := 0, load := 0x01020304, sequence := 0, page := 0, final := some 7
             header := some { format := .s16, rate := .khz16, protect := false, name := [65] } } := by decide +kernel

theorem test_meets_StepsKeepAttn :
    AttnFollows base ∧ AttnFollows (setFlag .trigger base) ∧ AttnFollows held ∧ step { halted with pending := [.frameEvent] } =
      .next halted := ⟨rfl, show _ = _ by decide, rfl, rfl⟩

theorem test_meets_StepsKeepTheFlashCanonical : FlashCanonical (after (.pageProgramComplete true) (programming .closing true)) := by
  show Memory.wf _ = true
  decide +kernel

theorem test_meets_StepsKeepTheBounds :
    FifoBounded (fifoOf 16) ∧ LinkCountsBounded { fifoOf 16 with link.linkErrors := 65535 } ∧ LevelsBounded (fifoOf 16) ∧
    ClockBounded (clockAt .running lastTenth) ∧ CounterBounded (fifoOf 16) ∧ DisabledFree (fifoOf 16) := by
  refine ⟨?_, ?_, ?_, ?_, ?_, ?_⟩
  · show (fifoOf 16).inputs.fifo.length ≤ 16; decide
  · show _ ∧ _; decide
  · show _ ∧ _; decide
  · show _ ∧ _; decide
  · show _ ∧ _; decide
  · show ∀ _, _; decide

end Sys2Proof.Tests
end

section
/-! SUPPORT. Which operations leave the flash as it is: everything but the completions of a page program and of a block erase, and a
reset (R1, R13, R17); the statements about the flash as a whole. -/

namespace Sys2Proof.Machine

/-! ### The engine and the flash port -/

@[simp] theorem arbitrate_flash (s : State) : (arbitrate s).flash = s.flash := (engineStep_arbitrate s).flash

@[simp] theorem arbitrateArrival_flash (s : State) : (arbitrateArrival s).flash = s.flash := (engineStep_arbitrateArrival s).flash

@[simp] theorem endVoice_offers_flash (v : VoiceId) (cause : EndCause) (s : State) :
    (endVoice offers v cause s).flash = s.flash := (engineStep_endVoice offersStep_offers v cause s).flash

@[simp] theorem endVoice_noOffers_flash (v : VoiceId) (cause : EndCause) (s : State) :
    (endVoice noOffers v cause s).flash = s.flash := (engineStep_endVoice offersStep_noOffers v cause s).flash

@[simp] theorem offers_flash (zs : SetByte) (s : State) : (offers zs s).flash = s.flash := (offersStep_offers zs s).flash

@[simp] theorem allocate_flash (v : VoiceId) (origin : Origin) (o : StartOrder) (s : State) :
    (allocate v origin o s).flash = s.flash := (engineStep_allocate v origin o s).flash

@[simp] theorem claimZones_flash (v : VoiceId) (o : StartOrder) (s : State) :
    (claimZones offers v o s).1.flash = s.flash := (engineStep_claimZones offersStep_offers v o s).flash

@[simp] theorem startVoice_flash (origin : Origin) (o : Option StartOrder) (s : State) :
    (startVoice origin o s).1.flash = s.flash := (engineStep_startVoice origin o s).flash

@[simp] theorem startOverride_flash (s : State) : (startOverride s).flash = s.flash := by
  obtain ⟨t, r, step, e⟩ := startOverride_step s
  rw [e]; exact step.flash

@[simp] theorem frame_flash (s : State) : (frame s).flash = s.flash := by
  obtain ⟨t, out, toParts, toFrame⟩ := frame_step s
  exact toFrame.flash.trans toParts.flash

/-- A fold of an operation that leaves the flash leaves it too. -/
theorem foldl_flash {α : Type} {f : State → α → State} (h : ∀ s a, (f s a).flash = s.flash) (l : List α) (s : State) :
    (l.foldl f s).flash = s.flash :=
  foldl_keeps (fun t => t.flash = s.flash) f (fun t a e => (h t a).trans e) l s rfl

/-! ### The store and the clips -/

@[simp] theorem queueErase_flash (b : BlockNo) (s : State) : (queueErase b s).flash = s.flash := by
  obtain ⟨⟨bs, e⟩, -⟩ := queueErase_step b s
  rw [e]

@[simp] theorem releaseBlock_flash (c : ClipId) (b : BlockNo) (s : State) : (releaseBlock c b s).flash = s.flash := by
  unfold releaseBlock
  split
  · dsimp only; split <;> rfl
  · exact queueErase_flash b s

@[simp] theorem reserveBlock_flash (c : ClipId) (b : BlockNo) (s : State) : (reserveBlock c b s).flash = s.flash := by
  unfold reserveBlock; split <;> rfl

@[simp] theorem eraseClip_flash (c : ClipId) (s : State) : (eraseClip c s).flash = s.flash := by
  unfold eraseClip
  split
  · split <;> rfl
  · rfl

@[simp] theorem formatBlock_flash (b : BlockNo) (s : State) : (formatBlock b s).flash = s.flash := by
  obtain ⟨⟨bs, cs, e⟩, -⟩ := formatBlock_step b s
  rw [e]

@[simp] theorem formatEnd_flash (s : State) : (formatEnd s).flash = s.flash := by unfold formatEnd; split <;> rfl

/-- STORE.FORMAT over given lists of clips and blocks: formatStore with its two long lists abstracted, so that no proof about it
evaluates them. -/
def formatLists (clips : List ClipId) (blocks : List BlockNo) (s : State) : State :=
  let s := clips.foldl (fun s c => eraseClip c s) s
  let s := blocks.foldl (fun s b => formatBlock b s) s
  formatEnd { s with store.state := .formatting }

theorem formatStore_eq (s : State) : formatStore s = formatLists allClips (List.finRange 2048) s := rfl

theorem formatLists_flash (clips : List ClipId) (blocks : List BlockNo) (s : State) :
    (formatLists clips blocks s).flash = s.flash := by
  unfold formatLists
  rw [formatEnd_flash]
  exact (foldl_flash (fun s b => formatBlock_flash b s) blocks _).trans (foldl_flash (fun s c => eraseClip_flash c s) clips s)

@[simp] theorem formatStore_flash (s : State) : (formatStore s).flash = s.flash := by
  rw [formatStore_eq]; exact formatLists_flash _ _ s

@[simp] theorem acceptChunk_flash (c : ClipId) (chunk : List Byte) (s : State) : (acceptChunk c chunk s).flash = s.flash := by
  unfold acceptChunk; split <;> simp

@[simp] theorem takeChunk_flash (c : ClipId) (offset : Nat) (chunk : List Byte) (s : State) :
    (takeChunk c offset chunk s).1.flash = s.flash := by
  unfold takeChunk
  repeat' split
  all_goals simp

@[simp] theorem abortEnd_flash (c : ClipId) (s : State) : (abortEnd c s).flash = s.flash := by
  unfold abortEnd
  split
  · rfl
  · split <;> rfl

@[simp] theorem sendReply_flash (kind tag : Byte) (bytes : List Byte) (s : State) :
    (sendReply kind tag bytes s).flash = s.flash := rfl

@[simp] theorem readPage_flash (tag : Byte) (c : ClipId) (offset length : Nat) (taken payload : List Byte) (s : State) :
    (readPage tag c offset length taken payload s).flash = s.flash := by
  unfold readPage
  dsimp only
  split
  · rfl
  · split <;> rfl

theorem readbackDone_flash (good : Bool) (s : State) : (readbackDone good s).flash = s.flash := by
  unfold readbackDone
  split
  · cases good <;> simp
  · rfl

theorem inspectDone_flash (good : Bool) (s : State) : (inspectDone good s).flash = s.flash := by
  unfold inspectDone
  split
  · dsimp only; split <;> simp
  · rfl

theorem fetchDone_flash (good : Bool) (s : State) : (fetchDone good s).flash = s.flash := by
  cases h : s.store.port with
  | fetch v b p => exact (engineStep_fetchDone good h).flash
  | _ => simp [fetchDone, h]

/-! ### The scan -/

@[simp] theorem rebuildStore_flash (s : State) : (rebuildStore s).flash = s.flash := by
  have owned (x : Candidate) (s : State) : (ownCandidate x s).flash = s.flash := rfl
  have rebuilt (c : ClipId) (s : State) : (rebuildClip c s).flash = s.flash := by
    unfold rebuildClip
    split
    · exact foldl_flash (fun s x => owned x s) _ s
    · rfl
  have left (x : Candidate) (s : State) : (leaveCandidate x s).flash = s.flash := by
    unfold leaveCandidate; split <;> rfl
  simp only [rebuildStore, setFlag_flash]
  rw [foldl_flash fun s b => queueErase_flash b s, foldl_flash fun s x => left x s, foldl_flash fun s c => rebuilt c s]

theorem completeScan_flash (s : State) : (completeScan s).flash = s.flash := by
  simp only [completeScan, arbitrate_flash, setPort_flash, pendingOverride]
  split <;> simp

@[simp] theorem recordBlock_flash (b : BlockNo) (c : Classified) (s : State) : (recordBlock b c s).flash = s.flash := by
  cases c <;> rfl

theorem scanDone_flash (g p : Bool) (s : State) : (scanDone g p s).flash = s.flash := by
  unfold scanDone
  split
  · dsimp only
    split
    · rfl
    · unfold nextBlock
      split
      · simp
      · simp [completeScan_flash]
  · rfl

/-! ### The clock, the schedule and the inputs -/

@[simp] theorem advanceSecond_flash (s : State) : (advanceSecond s).flash = s.flash := by
  simp only [advanceSecond, enterSecond]
  refine (foldl_flash (fun s c => ?_) _ _).trans ?_
  · split
    · simp [fireCue]
    · rfl
  · split <;> rfl

theorem tenth_flash (s : State) : (tenth s).flash = s.flash := by
  unfold tenth
  dsimp only
  split <;> simp

@[simp] theorem minuteMark_flash (s : State) : (minuteMark s).1.flash = s.flash := by
  have forward (n : Nat) (s : State) : (Nat.repeat advanceSecond n s).flash = s.flash := by
    induction n with
    | zero => rfl
    | succ n ih => simpa [Nat.repeat] using ih
  unfold minuteMark
  split
  · rfl
  · rfl
  · dsimp only
    split
    · rfl
    · exact forward _ s

@[simp] theorem carryOut_flash (i : TriggerId) (e : Edge) (s : State) : (carryOut i e s).state.flash = s.flash := by
  unfold carryOut
  split
  · simp [triggerStart, setLastStart]
  · simp [triggerStart, setLastStart]
  · unfold followStop; dsimp only; split <;> simp [setLastStart]
  · exact foldl_flash (fun s v => endVoice_offers_flash v .stopped s) _ s
  · show (triggerRelease _ s).flash = s.flash
    exact foldl_flash (fun _ _ => by rfl) _ s
  · simp
  · rfl

theorem appendEntry_flash (x : FifoEntry) (s : State) : (appendEntry x s).flash = s.flash := by
  unfold appendEntry
  split
  · dsimp only; split <;> rfl
  · rfl

@[simp] theorem inputEdge_flash (i : InputId) (e : Edge) (s : State) : (inputEdge i e s).flash = s.flash := by
  have taken (t : TriggerId) : (takeEdge t e s).flash = s.flash := by
    unfold takeEdge; dsimp only; split <;> simp [appendEntry_flash]
  have overridden : (overrideEdge e s).flash = s.flash := by
    cases e with
    | opening => rfl
    | close =>
      show (askOverride _).flash = _
      unfold askOverride
      split
      · rfl
      · split
        · rfl
        · simp [runBus]
  unfold inputEdge
  split
  · exact taken _
  · exact overridden

theorem settle_flash (i : InputId) (s : State) : (settle i s).flash = s.flash := by simp [settle]

/-! ### The receiver and the requests -/

@[simp] theorem dropFrame_flash (s : State) : (dropFrame s).flash = s.flash := rfl

@[simp] theorem answer_state (s : State) (st : Status) (fields : List Byte) : (answer s st fields).state = s := rfl

@[simp] theorem answerOnly_state (s : State) (st : Status) : (answerOnly s st).state = s := rfl

@[simp] theorem owe_flash (kind tag : Byte) (r : Bool) (v : Served) : (owe kind tag r v).flash = v.state.flash := by
  unfold owe; split <;> rfl

theorem event_flash {f : State → State} {s t : State} (h : event f s = .next t) (hf : ∀ s, (f s).flash = s.flash) :
    t.flash = s.flash := by
  cases h
  split
  · rfl
  · exact hf s

theorem eventWhen_flash {g : State → Bool} {f : State → State} {s t : State}
    (h : eventWhen g f s = .next t)
    (hf : ∀ s, (f s).flash = s.flash) : t.flash = s.flash := by
  refine event_flash h fun s => ?_
  split
  · exact hf s
  · rfl

theorem requestFrame_flash {kind tag : Byte} {r : Bool} {serve : State → Served}
    (hs : ∀ s, (serve s).state.flash = s.flash) (s : State) : (requestFrame kind tag r serve s).flash = s.flash := by
  unfold requestFrame
  split
  · rfl
  · simp [hs]

theorem request_flash {kind tag : Byte} {serve : State → Served} {s t : State} (h : request kind tag serve s = .next t)
    (hs : ∀ s, (serve s).state.flash = s.flash) : t.flash = s.flash :=
  event_flash h (requestFrame_flash hs)

theorem clipRequest_flash {clip : Byte} {s : State} {serve : ClipId → Served} (hs : ∀ c, (serve c).state.flash = s.flash) :
    (clipRequest clip s serve).state.flash = s.flash := by
  unfold clipRequest
  split
  · rfl
  · split
    · rfl
    · exact hs _

theorem programRequest_flash {program : Byte} {s : State} {serve : ProgramId → Program → Served}
    (hs : ∀ p x, (serve p x).state.flash = s.flash) : (programRequest program s serve).state.flash = s.flash := by
  unfold programRequest
  split
  · rfl
  · split
    · rfl
    · exact hs _ _

theorem cueRequest_flash {cue : Byte} {s : State} {serve : CueId → Served} (hs : ∀ c, (serve c).state.flash = s.flash) :
    (cueRequest cue s serve).state.flash = s.flash := by
  unfold cueRequest
  split
  · rfl
  · exact hs _

theorem heldCue_flash {cue : Byte} {s : State} {serve : CueId → CueEntry → Served}
    (hs : ∀ c x, (serve c x).state.flash = s.flash) : (heldCue cue s serve).state.flash = s.flash := by
  refine cueRequest_flash fun c => ?_
  split
  · rfl
  · exact hs _ _

/-! ### The requests at their blocks -/

theorem serveEventsMask_flash (mask : BitVec 24) (s : State) : (serveEventsMask mask s).state.flash = s.flash := by
  unfold serveEventsMask; split <;> rfl

theorem serveStoreConfig_flash (b : Byte) (s : State) : (serveStoreConfig b s).state.flash = s.flash := by
  unfold serveStoreConfig
  split
  · rfl
  · split <;> simp

theorem serveStoreInspect_flash (tag : Byte) (b : BitVec 16) (p : Byte) (s : State) :
    (serveStoreInspect tag b p s).state.flash = s.flash := by
  unfold serveStoreInspect
  split
  · rfl
  · split <;> simp

theorem serveStoreFormat_flash (s : State) : (serveStoreFormat s).state.flash = s.flash := by
  unfold serveStoreFormat
  repeat' split
  all_goals simp

theorem serveClipOpen_flash (clip format rate protect : Byte) (name : Vector Byte 16) (s : State) :
    (serveClipOpen clip format rate protect name s).state.flash = s.flash := by
  refine clipRequest_flash fun c => ?_
  repeat' split
  all_goals rfl

theorem serveClipData_flash (clip : Byte) (offset : BitVec 32) (chunk : List Byte) (s : State) :
    (serveClipData clip offset chunk s).state.flash = s.flash := by
  unfold serveClipData
  repeat' split
  all_goals simp

theorem serveClipClose_flash (clip : Byte) (s : State) : (serveClipClose clip s).state.flash = s.flash := by
  refine clipRequest_flash fun c => ?_
  repeat' split
  all_goals simp

theorem serveClipAbort_flash (clip : Byte) (s : State) : (serveClipAbort clip s).state.flash = s.flash := by
  refine clipRequest_flash fun c => ?_
  split
  · rfl
  · split
    · rfl
    · simp [foldl_flash fun s b => releaseBlock_flash c b s]

theorem serveClipErase_flash (clip : Byte) (s : State) : (serveClipErase clip s).state.flash = s.flash := by
  refine clipRequest_flash fun c => ?_
  repeat' split
  all_goals simp [foldl_flash fun s b => queueErase_flash b s]

theorem serveClipRead_flash (tag clip : Byte) (offset : BitVec 32) (length : BitVec 16) (s : State) :
    (serveClipRead tag clip offset length s).state.flash = s.flash := by
  refine clipRequest_flash fun c => ?_
  repeat' split
  all_goals simp

theorem serveClipInfo_flash (clip : Byte) (s : State) : (serveClipInfo clip s).state.flash = s.flash := by
  refine clipRequest_flash fun c => ?_
  split <;> rfl

theorem serveProgWrite_flash (program cycle count : Byte) (steps : List RawStep) (s : State) :
    (serveProgWrite program cycle count steps s).state.flash = s.flash := by
  unfold serveProgWrite
  repeat' split
  all_goals rfl

theorem serveProgDelete_flash (program : Byte) (s : State) : (serveProgDelete program s).state.flash = s.flash := by
  refine programRequest_flash fun p x => ?_
  split <;> rfl

theorem serveVoiceStart_flash (o : RawOrder) (s : State) : (serveVoiceStart o s).state.flash = s.flash := by
  have h := startVoice_flash .link (readOrder o) s
  unfold serveVoiceStart
  split <;> next e => rw [e] at h; simpa using h

theorem serveVoicePrepare_flash (o : RawOrder) (s : State) : (serveVoicePrepare o s).state.flash = s.flash := by
  unfold serveVoicePrepare
  split <;> simp

theorem goVoice_flash (v : VoiceId) (s : State) : (goVoice v s).1.flash = s.flash := by
  have claimed (o : StartOrder) := claimZones_flash v o s
  unfold goVoice
  repeat' split
  all_goals first
    | rfl
    | (next o _ _ _ e => have h := claimed o; rw [e] at h; simpa using h)

theorem serveVoiceGo_flash (n : BitVec 32) (s : State) : (serveVoiceGo n s).state.flash = s.flash := by
  unfold serveVoiceGo
  split
  · rfl
  · exact goVoice_flash _ s

theorem serveVoiceStop_flash (n : BitVec 32) (mode : Byte) (s : State) : (serveVoiceStop n mode s).state.flash = s.flash := by
  have stopped (m : StopMode) (v : VoiceId) : (stopVoice m v s).flash = s.flash := by
    unfold stopVoice; dsimp only; split <;> simp
  unfold serveVoiceStop
  split
  · rfl
  · split
    · rfl
    · exact stopped _ _

theorem servePaused_flash (paused : Bool) (n : BitVec 32) (s : State) : (servePaused paused n s).state.flash = s.flash := by
  unfold servePaused
  split
  · rfl
  · dsimp only; split <;> rfl

theorem serveVoiceRelease_flash (n : BitVec 32) (s : State) : (serveVoiceRelease n s).state.flash = s.flash := by
  unfold serveVoiceRelease
  split
  · rfl
  · dsimp only
    repeat' split
    all_goals rfl

theorem serveVoiceStatus_flash (voice : Byte) (s : State) : (serveVoiceStatus voice s).state.flash = s.flash := by
  unfold serveVoiceStatus; split <;> rfl

theorem serveVoiceConfig_flash (mode : Byte) (s : State) : (serveVoiceConfig mode s).state.flash = s.flash := by
  unfold serveVoiceConfig; split <;> rfl

@[simp] theorem setLevel_flash (z : ZoneId) (level : Nat) (enabled : Bool) (s : State) :
    (setLevel z level enabled s).flash = s.flash := by
  have disabled (s : State) : (disableZone z s).flash = s.flash := by
    unfold disableZone
    dsimp only
    split
    · rfl
    · rw [(engineStep_loseSome offersStep_offers _ _).flash, (engineStep_loseLast offersStep_offers _ _).flash,
        (engineStep_wantAlso _ _ _).flash, setZone_flash]
  simp only [setLevel, arbitrate_flash]
  split
  · exact disabled _
  · simp [enableZone]
  · rfl
  · rfl

theorem serveZoneSet_flash (zone level enabled : Byte) (s : State) : (serveZoneSet zone level enabled s).state.flash = s.flash := by
  unfold serveZoneSet
  split
  · split <;> simp
  · rfl

theorem serveOutputHalt_flash (force : Byte) (s : State) : (serveOutputHalt force s).state.flash = s.flash := by
  have forced : (forceVoices s).flash = s.flash := foldl_flash (fun s v => endVoice_noOffers_flash v .forced s) _ s
  unfold serveOutputHalt
  repeat' split
  all_goals simp [haltBus, forced]

theorem serveClockSet_flash (weekday hour minute second tenth start : Byte) (s : State) :
    (serveClockSet weekday hour minute second tenth start s).state.flash = s.flash := by
  have loaded (t : ClockTime) (st : ClockState) : (loadClock t st s).flash = s.flash := by
    unfold loadClock; dsimp only; split <;> rfl
  unfold serveClockSet
  split
  · exact loaded _ _
  · rfl

theorem serveClockStart_flash (s : State) : (serveClockStart s).state.flash = s.flash := by
  unfold serveClockStart; split <;> rfl

theorem serveCueWrite_flash (cue : Byte) (r : RawCue) (s : State) : (serveCueWrite cue r s).state.flash = s.flash := by
  refine cueRequest_flash fun c => ?_
  split <;> rfl

theorem serveCueEnable_flash (cue : Byte) (s : State) : (serveCueEnable cue s).state.flash = s.flash := by
  refine heldCue_flash fun c x => ?_
  split <;> rfl

theorem serveCueDisable_flash (cue : Byte) (s : State) : (serveCueDisable cue s).state.flash = s.flash := by
  refine heldCue_flash fun c x => ?_
  split <;> rfl

theorem serveTrigSet_flash (input : Byte) (r : RawTrigger) (s : State) : (serveTrigSet input r s).state.flash = s.flash := by
  unfold serveTrigSet; split <;> rfl

theorem serveOverrideSet_flash (program level : Byte) (s : State) :
    (serveOverrideSet program level s).state.flash = s.flash := by
  unfold serveOverrideSet; split <;> rfl

theorem serveOverrideClear_flash (s : State) : (serveOverrideClear s).state.flash = s.flash := by
  unfold serveOverrideClear
  repeat' split
  all_goals simp [clearOverride, offerFree]

/-! ### The commands -/

/-- No request changes the flash. -/
theorem execRequest_flash {i : Instr} {s t : State} (h : execRequest i s = .next t) : t.flash = s.flash := by
  cases i with
  | ident tag => exact request_flash h fun _ => rfl
  | report tag => exact request_flash h fun _ => rfl
  | eventsMask tag mask => exact request_flash h (serveEventsMask_flash _)
  | restart tag => exact event_flash h (requestFrame_flash fun _ => rfl)
  | storeStatus tag => exact request_flash h fun _ => rfl
  | storeConfig tag b => exact request_flash h (serveStoreConfig_flash _)
  | storeInspect tag b p => exact request_flash h (serveStoreInspect_flash _ _ _)
  | storeFormat tag => exact request_flash h serveStoreFormat_flash
  | clipOpen tag clip format rate protect name => exact request_flash h (serveClipOpen_flash _ _ _ _ _)
  | clipData tag clip offset chunk => exact request_flash h (serveClipData_flash _ _ _)
  | clipClose tag clip => exact request_flash h (serveClipClose_flash _)
  | clipAbort tag clip => exact request_flash h (serveClipAbort_flash _)
  | clipErase tag clip => exact request_flash h (serveClipErase_flash _)
  | clipRead tag clip offset length => exact request_flash h (serveClipRead_flash _ _ _ _)
  | clipInfo tag clip => exact request_flash h (serveClipInfo_flash _)
  | clipList tag first => exact request_flash h fun _ => clipRequest_flash fun _ => rfl
  | progWrite tag program cycle count steps => exact request_flash h (serveProgWrite_flash _ _ _ _)
  | progRead tag program => exact request_flash h fun _ => programRequest_flash fun _ _ => rfl
  | progDelete tag program => exact request_flash h (serveProgDelete_flash _)
  | voiceStart tag o => exact request_flash h (serveVoiceStart_flash _)
  | voicePrepare tag o => exact request_flash h (serveVoicePrepare_flash _)
  | voiceGo tag n => exact request_flash h (serveVoiceGo_flash _)
  | voiceStop tag n mode => exact request_flash h (serveVoiceStop_flash _ _)
  | voicePause tag n => exact request_flash h (servePaused_flash _ _)
  | voiceResume tag n => exact request_flash h (servePaused_flash _ _)
  | voiceRelease tag n => exact request_flash h (serveVoiceRelease_flash _)
  | voiceStatus tag voice => exact request_flash h (serveVoiceStatus_flash _)
  | voiceConfig tag mode => exact request_flash h (serveVoiceConfig_flash _)
  | zoneSet tag zone level enabled => exact request_flash h (serveZoneSet_flash _ _ _)
  | zoneStatus tag => exact request_flash h fun _ => rfl
  | outputHalt tag force => exact request_flash h (serveOutputHalt_flash _)
  | outputRun tag => exact request_flash h fun _ => rfl
  | clockSet tag weekday hour minute second tenth start => exact request_flash h (serveClockSet_flash _ _ _ _ _ _)
  | clockStart tag => exact request_flash h serveClockStart_flash
  | clockRead tag => exact request_flash h fun _ => rfl
  | cueWrite tag cue record => exact request_flash h (serveCueWrite_flash _ _)
  | cueRead tag cue => exact request_flash h fun _ => heldCue_flash fun _ _ => rfl
  | cueEnable tag cue => exact request_flash h (serveCueEnable_flash _)
  | cueDisable tag cue => exact request_flash h (serveCueDisable_flash _)
  | cueDelete tag cue => exact request_flash h fun _ => heldCue_flash fun _ _ => rfl
  | trigSet tag input entry => exact request_flash h (serveTrigSet_flash _ _)
  | trigRead tag => exact request_flash h fun _ => rfl
  | trigStatus tag => exact request_flash h fun _ => rfl
  | overrideSet tag program level => exact request_flash h (serveOverrideSet_flash _ _)
  | overrideClear tag => exact request_flash h serveOverrideClear_flash
  | overrideStatus tag => exact request_flash h fun _ => rfl
  | _ => cases h; rfl

/-- No frame changes the flash, whatever it carries. -/
theorem execFrameComplete_flash {f : Frame} {s t : State} (h : execFrameComplete f s = .next t) : t.flash = s.flash := by
  unfold execFrameComplete takeFrame at h
  split at h
  · split at h
    · exact request_flash h fun _ => rfl
    · exact request_flash h fun _ => rfl
    · exact execRequest_flash h
  · cases h; rfl

/-- The commands that can change the flash: completions of page programs and block erases, and what can bring a reset (R1, R13). -/
def changesFlash : Instr → Bool
  | .reset | .replySent | .pageProgramComplete _ | .blockEraseComplete _ => true
  | _ => false

/-- Every other command leaves the flash as it is. -/
theorem exec_flash {c : Instr} {s t : State} (h : exec c s = .next t) (hc : changesFlash c = false) : t.flash = s.flash := by
  have asked : execRequest c s = .next t → t.flash = s.flash := execRequest_flash
  cases c with
  | reset | replySent | pageProgramComplete _ | blockEraseComplete _ => cases hc
  | resetAsserted => cases h; rfl
  | frameComplete f => exact execFrameComplete_flash h
  | frameCrcError f => exact eventWhen_flash (show execFrameCrcError f s = _ from h) dropFrame_flash
  | frameLengthDrop n => exact eventWhen_flash (show execFrameLengthDrop n s = _ from h) dropFrame_flash
  | linkTimeout | byteError => exact eventWhen_flash h dropFrame_flash
  | overrun f => exact eventWhen_flash (show execOverrun f s = _ from h) fun _ => rfl
  | startByte => exact eventWhen_flash (show execStartByte s = _ from h) fun _ => rfl
  | fetchComplete good => exact event_flash h (fetchDone_flash good)
  | clipReadReadbackComplete good => exact event_flash h (readbackDone_flash good)
  | inspectReadbackComplete good => exact event_flash h (inspectDone_flash good)
  | scanReadComplete g p => exact event_flash h (scanDone_flash g p)
  | frameEvent | starved v | gapTimerExpiry v | holdTimerExpiry v => exact eventWhen_flash h frame_flash
  | discardTimerExpiry v => exact eventWhen_flash (show execDiscardTimerExpiry v s = _ from h) fun _ => by simp
  | waitTimerExpiry v => exact eventWhen_flash (show execWaitTimerExpiry v s = _ from h) fun _ => by simp
  | tenthEvent => exact eventWhen_flash (show execTenthEvent s = _ from h) tenth_flash
  | pinChange i level => cases h; split <;> rfl
  | settleTimerExpiry i => exact eventWhen_flash h (settle_flash i)
  | _ => exact asked h

/-- Settles O24: the only commands that can change the flash are those of changesFlash. -/
theorem onlyProgramsErasesAndResetsChangeTheFlash : Obligations.OnlyProgramsErasesAndResetsChangeTheFlash := by
  intro c s t h notReset notSent notProgram notErase
  refine exec_flash h ?_
  cases c with
  | reset => exact absurd rfl notReset
  | replySent => exact absurd rfl notSent
  | pageProgramComplete v => exact absurd rfl (notProgram v)
  | blockEraseComplete v => exact absurd rfl (notErase v)
  | _ => rfl

/-! ### The canonical form of the flash (R1) -/

theorem afterReset_canonical {s : State} (h : FlashCanonical s) : FlashCanonical (afterReset s) := abandonedFlash_wf s h

@[simp] theorem programOutcome_flash (verified : Bool) (j : ProgramJob) (s : State) :
    (programOutcome verified j s).flash = s.flash := by
  unfold programOutcome
  have reported (x : Clip) : (programReport j x s).flash = s.flash := by
    unfold programReport; dsimp only; split <;> rfl
  split
  · rfl
  · split <;> cases verified <;> simp [failureReport, reported]

theorem programDone_canonical {verified : Bool} {s : State} (h : FlashCanonical s) : FlashCanonical (programDone verified s) := by
  unfold FlashCanonical programDone
  split
  · cases verified
    · simpa [programFlash, countProgram] using flashProgramResidue_wf _ _ _ h
    · simpa [programFlash, countProgram] using flashProgrammed_wf _ h
  · exact h

@[simp] theorem leaveClip_flash (b : BlockNo) (c : ClipId) (s : State) : (leaveClip b c s).flash = s.flash := by
  unfold leaveClip
  split
  · rfl
  · dsimp only; split <;> rfl

theorem eraseDone_canonical {verified : Bool} {s : State} (h : FlashCanonical s) : FlashCanonical (eraseDone verified s) := by
  unfold FlashCanonical eraseDone
  split
  · dsimp only
    rw [arbitrate_flash, formatEnd_flash]
    cases verified
    · split <;> simpa [eraseFlash] using flashEraseResidue_wf _ _ h
    · split <;> simpa [eraseFlash] using flashErased_wf _ h
  · exact h

theorem replyGone_canonical {s : State} (h : FlashCanonical s) : FlashCanonical (replyGone s) := by
  unfold replyGone
  split
  · exact afterReset_canonical h
  · exact h
  · exact h
  · exact h

/-- An event keeps the canonical form when what it does keeps it. -/
theorem event_canonical {f : State → State} {s t : State} (hs : FlashCanonical s) (h : event f s = .next t)
    (hf : FlashCanonical s → FlashCanonical (f s)) : FlashCanonical t := by
  cases h
  split
  · exact hs
  · exact hf hs

/-- Every command keeps the canonical form of the flash. -/
theorem exec_canonical {c : Instr} {s t : State} (hs : FlashCanonical s) (h : exec c s = .next t) : FlashCanonical t := by
  cases hc : changesFlash c with
  | false => unfold FlashCanonical; rw [exec_flash h hc]; exact hs
  | true =>
    cases c with
    | reset => cases h; exact afterReset_canonical hs
    | replySent => exact event_canonical hs h replyGone_canonical
    | pageProgramComplete v => exact event_canonical hs h programDone_canonical
    | blockEraseComplete v => exact event_canonical hs h eraseDone_canonical
    | _ => cases hc

theorem idleStep_flash (s : State) : (idleStep s).flash = s.flash := by
  unfold idleStep
  split
  · rfl
  · exact foldl_flash (fun _ _ => by rfl) _ s

/-- Settles O58: a step is a command, which keeps the canonical form, or a second of the timers, which leaves the flash alone. -/
theorem stepsKeepTheFlashCanonical : Obligations.StepsKeepTheFlashCanonical := by
  intro s t hs h
  unfold step at h
  split at h
  · cases h; unfold FlashCanonical; rw [idleStep_flash]; exact hs
  · next c rest _ => exact exec_canonical (s := { s with pending := rest }) hs h

end Sys2Proof.Machine
end

section
/-! SUPPORT. What a reset leaves in the tables and in the flash (R13, R166). -/

namespace Sys2Proof.Machine

/-! ### The flash after an abandoned operation (R13) -/

theorem abandonedFlash_other {s : State} (notProgram : ∀ j, s.store.port ≠ .program j) (notErase : ∀ b, s.store.port ≠ .erase b) :
    abandonedFlash s = s.flash := by
  unfold abandonedFlash
  split
  · next j h => exact absurd h (notProgram j)
  · next b h => exact absurd h (notErase b)
  · rfl

theorem abandonedFlash_program {s : State} {j : ProgramJob} (h : s.store.port = .program j) :
    abandonedFlash s = flashProgramResidue (Config.residue s.freeCount j.page.val) s.freeCount j s.flash := by
  simp only [abandonedFlash, h]

theorem abandonedFlash_erase {s : State} {b : BlockNo} (h : s.store.port = .erase b) :
    abandonedFlash s = flashEraseResidue s.freeCount b s.flash := by
  simp only [abandonedFlash, h]

/-! ### The tables after a reset (R166) -/

theorem voice_afterReset (s : State) (v : VoiceId) : (afterReset s).voice v = Voice.reset := by
  simp [State.voice, afterReset, State.reset]

theorem zone_afterReset (s : State) (z : ZoneId) :
    (afterReset s).zone z = { holder := none, level := 0, enabled := true } := by
  simp [State.zone, afterReset, State.reset]

theorem trigger_afterReset (s : State) (i : TriggerId) :
    (afterReset s).trigger i = { action := .none, log := false, lastStart := 0 } := by
  simp [State.trigger, afterReset, State.reset]

theorem input_afterReset (s : State) (i : InputId) : (afterReset s).input i = (s.input i).sampled := by
  simp [State.input, afterReset]

theorem block_afterReset (s : State) (b : BlockNo) : (afterReset s).block b = Block.unclassified := block_reset b

/-- Settles O5: each table by its own lemma, the flash by the operation in flight. -/
theorem resetLeavesTheTables : Obligations.ResetLeavesTheTables := by
  intro s
  refine ⟨afterReset s, rfl, rfl, rfl, rfl, rfl, rfl, rfl, rfl, rfl, rfl, rfl, fun b => ?_, fun _ => rfl, fun _ => rfl,
    fun v => ⟨voice_afterReset s v, voice_afterReset s v⟩, rfl, rfl, zone_afterReset s, rfl, rfl, rfl, fun _ => rfl,
    trigger_afterReset s, rfl, rfl, rfl, rfl, rfl, rfl, input_afterReset s, abandonedFlash_other,
    fun wf => ⟨fun j hj => ?_, fun b hb a outside => ?_⟩⟩
  · rw [block_afterReset]; exact ⟨rfl, rfl⟩
  · show (∀ a, _ → (abandonedFlash s).read a = _) ∧ _
    have residue := flashProgramResidue_read (Config.residue s.freeCount j.page.val) s.freeCount j wf
    rw [← abandonedFlash_program hj] at residue
    exact residue
  · show (abandonedFlash s).read a = _
    rw [abandonedFlash_erase hb]
    exact flashEraseResidue_read s.freeCount b wf outside

end Sys2Proof.Machine
end

section
/-! SUPPORT. The grant decision of the flash port, case by case in the order of R14. -/

namespace Sys2Proof.Machine

/-! ### Which fetch is chosen (R14, positions 1 and 2) -/

theorem chooseFetch_none {s : State} (h : ∀ v, (s.voice v).fetchPending = false) : chooseFetch s = none := by
  simp [chooseFetch, generalVoices, h]

theorem fetchPending_iff {x : Voice} : x.fetchPending = true ↔ ∃ f, x.fetch = some f ∧ f.granted = false := by
  unfold Voice.fetchPending
  cases x.fetch <;> simp

/-- The choice of a fetch in the order of R14. -/
theorem chooseFetch_some {s : State} {v : VoiceId} (pending : (s.voice v).fetchPending = true)
    (first : v ≠ 6 → (s.voice 6).fetchPending = false ∧ ∀ w, w ≠ v → (s.voice w).fetchPending = true →
      (s.voice v).bufferBytes < (s.voice w).bufferBytes ∨
        ((s.voice v).bufferBytes = (s.voice w).bufferBytes ∧ v < w)) : chooseFetch s = some v := by
  by_cases hv : v = 6
  · subst hv; exact if_pos pending
  · exact chooseFetch_general (first hv).1 hv pending (first hv).2

/-! ### The decision (R13 to R15) -/

theorem arbitrateArrival_busy {s : State} (h : s.store.port ≠ .idle) : arbitrateArrival s = s := if_neg h

theorem arbitrateArrival_idle {s : State} (h : s.store.port = .idle) : arbitrateArrival s = grantRequest s := if_pos h

theorem arbitrate_busy {s : State} (h : s.store.port ≠ .idle) : arbitrate s = s := by
  simp only [arbitrate, arbitrateArrival_busy h, if_neg h]

/-- A request that is granted leaves the port busy, so the erase queue has no turn. -/
theorem arbitrate_granted {s : State} (idle : s.store.port = .idle) (busy : (grantRequest s).store.port ≠ .idle) :
    arbitrate s = grantRequest s := by
  simp only [arbitrate, arbitrateArrival_idle idle, if_neg busy]

/-- No request at positions 1 to 4 of R14 leaves the decision to the erase queue. -/
theorem arbitrate_noRequest {s : State} (idle : s.store.port = .idle) (nothing : grantRequest s = s) :
    arbitrate s = match s.store.eraseQueue with
      | b :: _ => if erasesDeferred s then s else s.setPort (.erase b)
      | [] => s := by
  simp only [arbitrate, arbitrateArrival_idle idle, nothing, if_pos idle] <;> rfl

theorem grantRequest_fetch {s : State} {v : VoiceId} {f : Fetch} (chosen : chooseFetch s = some v) (hf : (s.voice v).fetch = some f) :
    grantRequest s =
      (s.setVoice v { s.voice v with fetch := some { f with granted := true } }).setPort (.fetch v f.block f.blockPage) := by
  simp only [grantRequest, chosen, grantFetch, hf]

theorem grantRequest_program {s : State} {p : LoadPage} {x : Clip} {b : BlockNo} (noFetch : chooseFetch s = none)
    (head : eligibleHead s.store.buffer = some p) (clip : s.clip p.clip = some x)
    (place : x.places[p.sequence]? = some (some b)) :
    grantRequest s = s.setPort (.program
      { clip := p.clip, block := b, page := p.page, payload := padPayload p.bytes, tag := (composeTag x p).bytes,
        carried := p.bytes.length, final := p.final.isSome }) := by
  simp only [grantRequest, noFetch, head, grantProgram, clip, List.getD_eq_getElem?_getD, place, Option.getD_some]

theorem grantRequest_readback {s : State} {b : BlockNo} {p : PageNo} (noFetch : chooseFetch s = none)
    (noHead : eligibleHead s.store.buffer = none) (readback : s.store.readback = some (b, p)) :
    grantRequest s = { s with store.port := .readback b p, store.readback := none } := by
  simp only [grantRequest, noFetch, noHead, readback, grantReadback]

theorem grantRequest_nothing {s : State} (noFetch : chooseFetch s = none) (noHead : eligibleHead s.store.buffer = none)
    (noReadback : s.store.readback = none) : grantRequest s = s := by
  simp only [grantRequest, noFetch, noHead, noReadback]

theorem erasesDeferred_iff {s : State} : erasesDeferred s = true ↔
    s.store.state = .service ∧ s.store.deferErase = true ∧ ∃ v, (s.voice v).state = .active := by
  simp [erasesDeferred, anyActive, mem_allVoices, and_assoc]

/-- Settles O17: the choice of a fetch by chooseFetch_some, every later position by its own equation. -/
theorem arbiterGrantsInOrder : Obligations.ArbiterGrantsInOrder := by
  intro s
  refine ⟨arbitrate_busy, fun idle => ⟨fun v f hf ungranted first => ?_, fun noFetch => ?_⟩⟩
  · have chosen := chooseFetch_some (fetchPending_iff.2 ⟨f, hf, ungranted⟩) first
    have granted := grantRequest_fetch chosen hf
    rw [← granted]
    exact arbitrate_granted idle (by rw [granted]; simp)
  · have noVoice := chooseFetch_none noFetch
    refine ⟨fun p x b head clip place => ?_, fun noHead b p readback => ?_, fun noHead noReadback => ⟨fun b rest queue => ?_,
      fun queue => ?_⟩⟩
    · have granted := grantRequest_program noVoice head clip place
      rw [← granted]
      exact arbitrate_granted idle (by rw [granted]; simp)
    · have granted := grantRequest_readback noVoice noHead readback
      rw [← granted]
      exact arbitrate_granted idle (by rw [granted]; simp)
    · rw [arbitrate_noRequest idle (grantRequest_nothing noVoice noHead noReadback), queue]
      exact ⟨fun deferred => if_pos (erasesDeferred_iff.2 deferred), fun notDeferred => if_neg (mt erasesDeferred_iff.1 notDeferred)⟩
    · rw [arbitrate_noRequest idle (grantRequest_nothing noVoice noHead noReadback), queue]

end Sys2Proof.Machine
end

section
/-! SUPPORT. The completions of a page program and of a block erase (R18 to R20, R22, R41, R42, R46). -/

namespace Sys2Proof.Machine

/-! ### A page program completes -/

/-- The state in which the outcome of a page program is reported: the port is idle, the flash written, the page counted. -/
def programCounted (verified : Bool) (j : ProgramJob) (s : State) : State :=
  countProgram verified j.block (programFlash verified j (s.setPort .idle))

theorem exec_pageProgramComplete {verified : Bool} {s : State} {j : ProgramJob} (live : s.inReset = false)
    (port : s.store.port = .program j) :
    exec (.pageProgramComplete verified) s = .next (arbitrate (programOutcome verified j (programCounted verified j s))) := by
  show event (programDone verified) s = _
  rw [event_taken live]
  simp only [programDone, port, programCounted]

@[simp] theorem programCounted_block (verified : Bool) (j : ProgramJob) (s : State) (b : BlockNo) :
    (programCounted verified j s).block b =
      if b = j.block then
        { s.block b with programmed := (s.block b).programmed + 1, retireMark := (s.block b).retireMark || !verified }
      else s.block b := by
  have before (b : BlockNo) : (programFlash verified j (s.setPort .idle)).block b = s.block b := by cases verified <;> rfl
  simp only [programCounted, countProgram, block_setBlock, before]
  split
  · next h => rw [h]
  · rfl

@[simp] theorem programCounted_clip (verified : Bool) (j : ProgramJob) (s : State) (c : ClipId) :
    (programCounted verified j s).clip c = s.clip c := by cases verified <;> rfl

/-- The only page a program can change is its own (R1, R18). -/
theorem programCounted_read_other (verified : Bool) (j : ProgramJob) {s : State} (wf : s.flash.wf = true) {a : Nat}
    (other : a ≠ pageAddress j.block j.page) : (programCounted verified j s).flash.read a = s.flash.read a := by
  cases verified
  · exact (flashProgramResidue_read _ _ j wf).1 a other
  · exact (flashProgrammed_read j wf a).trans (if_neg other)

/-- A program that verifies writes payload and tag together into its page (R1). -/
theorem programCounted_read_own (j : ProgramJob) {s : State} (wf : s.flash.wf = true) :
    (programCounted true j s).flash.read (pageAddress j.block j.page) =
      { payload := padPayload j.payload, spare := .written j.tag true } :=
  (flashProgrammed_read j wf _).trans (if_pos rfl)

theorem programOutcome_loading {verified : Bool} {j : ProgramJob} {s : State} {x : Clip} (clip : s.clip j.clip = some x)
    (loading : x.state = .opened ∨ x.state = .closing) :
    programOutcome verified j s = if verified then programReport j x s else failureReport j x s := by
  rcases loading with h | h <;> simp only [programOutcome, clip, h]

theorem programOutcome_erasing {verified : Bool} {j : ProgramJob} {s : State} {x : Clip} (clip : s.clip j.clip = some x)
    (erasing : x.state = .erasing) :
    programOutcome verified j s = queueErase j.block (if verified then s else setFlag .storeFault s) := by
  simp only [programOutcome, clip, erasing]

/-- The report of a page programmed with success: one clip record, the load buffer and, after the final page, a flag (R18, R41). -/
theorem programReport_eq (j : ProgramJob) (x : Clip) (s : State) :
    programReport j x s = { s.setClip j.clip (some { x with
        programmed := x.programmed + j.carried, state := if j.final = true then .ready else x.state }) with
      store.buffer := s.store.buffer.drop 1
      link := if j.final = true then (setFlag .clipReady s).link else s.link } := by
  unfold programReport
  cases j.final <;> rfl

/-- The report of a page program that failed: one clip record, the emptied load buffer and two flags (R18, R42). -/
theorem failureReport_eq (j : ProgramJob) (x : Clip) (s : State) :
    failureReport j x s = { s.setClip j.clip (some { x with state := .failed, samples := none }) with
      store.buffer := []
      link := (setFlag .clipFailed (setFlag .storeFault s)).link } := rfl

/-- Settles O20. -/
theorem pageProgramSucceeds : Obligations.PageProgramSucceeds := by
  intro s j x live wf port clip loading
  have answered := exec_pageProgramComplete (verified := true) live port
  have clip' : (programCounted true j s).clip j.clip = some x := by rw [programCounted_clip]; exact clip
  rw [programOutcome_loading clip' loading, if_pos rfl, programReport_eq] at answered
  refine ⟨_, answered, rfl, programCounted_read_own j wf, fun a => programCounted_read_other true j wf, ?_,
    fun b other => ?_, ?_, fun c other => ?_⟩
  · show (programCounted true j s).block _ = _
    simp
  · show (programCounted true j s).block _ = _
    simp [other]
  · show ((programCounted true j s).setClip _ _).clip _ = _
    simp
  · show ((programCounted true j s).setClip _ _).clip _ = _
    simp [other]

/-- Settles O21. -/
theorem pageProgramFails : Obligations.PageProgramFails := by
  intro s j x live wf port clip loading
  have answered := exec_pageProgramComplete (verified := false) live port
  have clip' : (programCounted false j s).clip j.clip = some x := by rw [programCounted_clip]; exact clip
  rw [programOutcome_loading clip' loading, if_neg (by simp), failureReport_eq] at answered
  refine ⟨_, answered, rfl, fun a => programCounted_read_other false j wf, ?_, fun b other => ?_, ?_, fun c other => ?_⟩
  · show (programCounted false j s).block _ = _
    simp
  · show (programCounted false j s).block _ = _
    simp [other]
  · show ((programCounted false j s).setClip _ _).clip _ = _
    simp
  · show ((programCounted false j s).setClip _ _).clip _ = _
    simp [other]

/-- Settles O22. -/
theorem pageProgramOfErasingClip : Obligations.PageProgramOfErasingClip := by
  intro verified s j x live port clip erasing
  have answered := exec_pageProgramComplete (verified := verified) live port
  have clip' : (programCounted verified j s).clip j.clip = some x := by rw [programCounted_clip]; exact clip
  rw [programOutcome_erasing clip' erasing] at answered
  generalize ht : (if verified then programCounted verified j s else setFlag .storeFault (programCounted verified j s)) = t
    at answered
  have block (b : BlockNo) : t.block b = (programCounted verified j s).block b := by subst ht; split <;> rfl
  have flash : t.flash = (programCounted verified j s).flash := by subst ht; split <;> rfl
  have frame : t = { s with
      flash := t.flash, freeCount := t.freeCount, store.blocks := t.store.blocks, store.port := .idle
      link := if verified = true then s.link else (setFlag .storeFault s).link } := by
    subst ht; cases verified <;> rfl
  obtain ⟨⟨bs, queued⟩, blocks⟩ := queueErase_step j.block t
  refine ⟨_, answered, ?_, ?_, fun b other => ?_, fun wf => ?_⟩
  · have marked : (t.block j.block).eraseQueued = (s.block j.block).eraseQueued := by rw [block]; simp
    rw [queued, marked]
    generalize (s.block j.block).eraseQueued = q
    rw [frame]
  · rw [blocks, block]; simp
  · rw [blocks, if_neg other, block]; simp [other]
  · rw [queueErase_flash, flash]
    exact ⟨fun v => by subst v; exact programCounted_read_own j wf, fun a => programCounted_read_other verified j wf⟩

/-! ### A block erase completes -/

/-- A block off the erase queue (R20). -/
def offQueue (b : BlockNo) (s : State) : State := { s with store.eraseQueue := s.store.eraseQueue.filter (· ≠ b) }

/-- The state in which a clip loses the block whose erase completes: the port is idle, the flash erased, the block off the queue and
its entry written, a failure flagged. -/
def eraseRecorded (verified : Bool) (b : BlockNo) (s : State) : State :=
  let t := (offQueue b (eraseFlash verified b (s.setPort .idle))).setBlock b (erasedBlock verified (s.block b))
  if verified then t else setFlag .storeFault t

/-- The clip that owns a block loses it (R20, R46). -/
def loseBlock (b : BlockNo) (x : Block) (s : State) : State :=
  match x.state with
  | .owned c _ => leaveClip b c s
  | _ => s

theorem exec_blockEraseComplete {verified : Bool} {s : State} {b : BlockNo} (live : s.inReset = false)
    (port : s.store.port = .erase b) :
    exec (.blockEraseComplete verified) s =
      .next (arbitrate (formatEnd (loseBlock b (s.block b) (eraseRecorded verified b s)))) := by
  show event (eraseDone verified) s = _
  rw [event_taken live]
  simp only [eraseDone, port]
  refine congrArg (fun t => Host.Outcome.next (arbitrate (formatEnd t))) ?_
  unfold loseBlock eraseRecorded offQueue
  cases (s.block b).state <;> rfl

theorem eraseFlash_frame (verified : Bool) (b : BlockNo) (s : State) :
    ∃ m n, eraseFlash verified b s = { s with flash := m, freeCount := n } := by
  cases verified
  · exact ⟨_, _, rfl⟩
  · exact ⟨_, s.freeCount, rfl⟩

/-- Recording a completed erase leaves all but the flash, the free count, the block table, the port, the erase queue and the flags. -/
theorem eraseRecorded_frame (verified : Bool) (b : BlockNo) (s : State) :
    ∃ m n bs flags attn, eraseRecorded verified b s = { s with
      flash := m, freeCount := n, store.blocks := bs, store.port := .idle
      store.eraseQueue := s.store.eraseQueue.filter (· ≠ b), link.flags := flags, link.attn := attn } := by
  obtain ⟨m, n, erased⟩ := eraseFlash_frame verified b (s.setPort .idle)
  unfold eraseRecorded
  rw [erased]
  cases verified <;> exact ⟨m, n, _, _, _, rfl⟩

theorem eraseRecorded_clip (verified : Bool) (b : BlockNo) (s : State) (c : ClipId) :
    (eraseRecorded verified b s).clip c = s.clip c := by
  obtain ⟨m, n, bs, flags, attn, e⟩ := eraseRecorded_frame verified b s
  rw [e]; rfl

theorem eraseRecorded_block (verified : Bool) (b d : BlockNo) (s : State) :
    (eraseRecorded verified b s).block d = if d = b then erasedBlock verified (s.block b) else s.block d := by
  have before : (offQueue b (eraseFlash verified b (s.setPort .idle))).block d = s.block d := by
    obtain ⟨m, n, erased⟩ := eraseFlash_frame verified b (s.setPort .idle)
    rw [erased]; rfl
  unfold eraseRecorded
  cases verified <;> simp [before]

theorem eraseRecorded_flagSet (verified : Bool) (b : BlockNo) (s : State) (f : EventFlag) :
    (eraseRecorded verified b s).flagSet f = true ↔ s.flagSet f = true ∨ (f = .storeFault ∧ verified = false) := by
  have before : ((offQueue b (eraseFlash verified b (s.setPort .idle))).setBlock b (erasedBlock verified (s.block b))).flagSet f =
      s.flagSet f := by
    obtain ⟨m, n, erased⟩ := eraseFlash_frame verified b (s.setPort .idle)
    rw [erased]; rfl
  unfold eraseRecorded
  cases verified <;> simp [before]

theorem eraseRecorded_flash (verified : Bool) (b : BlockNo) (s : State) :
    (eraseRecorded verified b s).flash =
      if verified then flashErased b s.flash else flashEraseResidue s.freeCount b s.flash := by
  unfold eraseRecorded
  cases verified <;> simp [offQueue, eraseFlash]

/-- Erasing the pages of a list leaves each of them erased and every other page as it was. -/
theorem foldl_erasePages (b : BlockNo) (l : List PageNo) : ∀ {m : Memory}, m.wf = true →
    (∀ p ∈ l, (l.foldl (fun m p => m.write (pageAddress b p) FlashPage.erased) m).read (pageAddress b p) = FlashPage.erased) ∧
    ∀ a, (∀ p ∈ l, a ≠ pageAddress b p) →
      (l.foldl (fun m p => m.write (pageAddress b p) FlashPage.erased) m).read a = m.read a := by
  induction l with
  | nil => exact fun _ => ⟨fun p hp => absurd hp List.not_mem_nil, fun a _ => rfl⟩
  | cons q l ih =>
    intro m wf
    obtain ⟨own, other⟩ := ih (Memory.write_wf wf (pageAddress_lt b q) erased_payload_length)
    refine ⟨fun p hp => ?_, fun a ha => ?_⟩
    · by_cases hl : p ∈ l
      · exact own p hl
      · have hpq : p = q := (List.mem_cons.1 hp).resolve_right hl
        subst hpq
        refine (other _ fun r hr e => hl (by rwa [(pageAddress_inj.1 e).2])).trans ?_
        rw [Memory.read_write wf, if_pos rfl]
    · refine (other a fun p hp => ha p (List.mem_cons_of_mem q hp)).trans ?_
      rw [Memory.read_write wf, if_neg (ha q (List.mem_cons_self ..))]

theorem mem_allPages (p : PageNo) : p ∈ allPages := List.mem_finRange p

/-- A verified erase leaves every page of its block erased (R1, R20). -/
theorem eraseRecorded_read_own {b : BlockNo} {s : State} (wf : s.flash.wf = true) (p : PageNo) :
    (eraseRecorded true b s).flash.read (pageAddress b p) = FlashPage.erased := by
  rw [eraseRecorded_flash, if_pos rfl]
  exact (foldl_erasePages b allPages wf).1 p (mem_allPages p)

/-- An erase changes no page outside its block (R20). -/
theorem eraseRecorded_read_other (verified : Bool) {b : BlockNo} {s : State} (wf : s.flash.wf = true) {a : Nat}
    (outside : ∀ p : PageNo, a ≠ pageAddress b p) : (eraseRecorded verified b s).flash.read a = s.flash.read a := by
  rw [eraseRecorded_flash]
  cases verified
  · exact flashEraseResidue_read s.freeCount b wf outside
  · exact (foldl_erasePages b allPages wf).2 a fun p _ => outside p

theorem leaveClip_some {b : BlockNo} {c : ClipId} {s : State} {x : Clip} (clip : s.clip c = some x) :
    leaveClip b c s = if (vacate b x).heldBlocks = [] then setFlag .eraseDone (s.setClip c none)
      else s.setClip c (some (vacate b x)) := by
  simp only [leaveClip, clip]

theorem leaveClip_none {b : BlockNo} {c : ClipId} {s : State} (clip : s.clip c = none) : leaveClip b c s = s := by
  simp only [leaveClip, clip]

/-- Whether the clip that owns a block loses its last block with it (R46). -/
def losesLast (b : BlockNo) (x : Block) (s : State) : Prop :=
  ∃ c q y, x.state = .owned c q ∧ s.clip c = some y ∧ (vacate b y).heldBlocks = []

/-- From s to t the clip that owns block b, whose entry is x, has lost it: its record changes, and a flag is set when the block was its
last; nothing else changes (R46). -/
structure LosesBlock (b : BlockNo) (x : Block) (s t : State) : Prop where
  frame : ∃ cs flags attn, t = { s with clips := cs, link.flags := flags, link.attn := attn }
  block : ∀ d, t.block d = s.block d
  owner : ∀ c q y, x.state = .owned c q → s.clip c = some y →
    t.clip c = if (vacate b y).heldBlocks = [] then none else some (vacate b y)
  others : ∀ c, (∀ q, x.state ≠ .owned c q) → t.clip c = s.clip c
  flags : ∀ f, t.flagSet f = true ↔ s.flagSet f = true ∨ (f = .eraseDone ∧ losesLast b x s)

/-- A block that no clip record owns is lost by none. -/
theorem LosesBlock.refl {b : BlockNo} {x : Block} {s : State} (unowned : ∀ c q, x.state = .owned c q → s.clip c = none) :
    LosesBlock b x s s where
  frame := ⟨s.clips, s.link.flags, s.link.attn, rfl⟩
  block _ := rfl
  owner c q y hx hy := by rw [unowned c q hx] at hy; cases hy
  others _ _ := rfl
  flags f := by
    have never : ¬ losesLast b x s := fun ⟨c, q, y, hx, hy, _⟩ => by rw [unowned c q hx] at hy; cases hy
    simp [never]

theorem loseBlock_spec (b : BlockNo) (x : Block) (s : State) : LosesBlock b x s (loseBlock b x s) := by
  unfold loseBlock
  split
  · next c q hx =>
    cases hy : s.clip c with
    | none =>
      rw [leaveClip_none hy]
      exact LosesBlock.refl fun d r hd => by rw [hx] at hd; cases hd; exact hy
    | some y =>
      rw [leaveClip_some hy]
      have last : losesLast b x s ↔ (vacate b y).heldBlocks = [] := by
        constructor
        · rintro ⟨d, r, z, hd, hz, h⟩
          rw [hx] at hd; cases hd
          rw [hy] at hz; cases hz
          exact h
        · exact fun h => ⟨c, q, y, hx, hy, h⟩
      have other {d : ClipId} (hd : ∀ r, x.state ≠ .owned d r) : d ≠ c := fun e => hd q (e ▸ hx)
      by_cases h : (vacate b y).heldBlocks = []
      · rw [if_pos h]
        refine ⟨⟨_, _, _, rfl⟩, fun _ => rfl, fun d r z hd hz => ?_, fun d hd => ?_, fun f => ?_⟩
        · rw [hx] at hd; cases hd
          rw [hy] at hz; cases hz
          simp [h]
        · simp [other hd]
        · rw [flagSet_setFlag, last]; simp [h]; rfl
      · rw [if_neg h]
        refine ⟨⟨_, s.link.flags, s.link.attn, rfl⟩, fun _ => rfl, fun d r z hd hz => ?_, fun d hd => ?_, fun f => ?_⟩
        · rw [hx] at hd; cases hd
          rw [hy] at hz; cases hz
          simp [h]
        · simp [other hd]
        · rw [last]; simp [h]; rfl
  · next hx => exact LosesBlock.refl fun c q hc => absurd hc (hx c q)

/-- FORMATTING ends, with its flag, when the erase queue is empty; nothing else changes (R21, R22). -/
theorem formatEnd_spec (s : State) :
    (∃ flags attn, formatEnd s = { s with
      store.state := if s.store.state = .formatting ∧ s.store.eraseQueue = [] then .service else s.store.state
      link.flags := flags, link.attn := attn }) ∧
    (∀ c, (formatEnd s).clip c = s.clip c) ∧ (∀ d, (formatEnd s).block d = s.block d) ∧
    ∀ f, (formatEnd s).flagSet f = true ↔
      s.flagSet f = true ∨ (f = .formatDone ∧ s.store.state = .formatting ∧ s.store.eraseQueue = []) := by
  by_cases h : s.store.state = .formatting ∧ s.store.eraseQueue = []
  · have ends : formatEnd s = setFlag .formatDone { s with store.state := .service } := if_pos h
    rw [ends, if_pos h]
    refine ⟨⟨_, _, rfl⟩, fun _ => rfl, fun _ => rfl, fun f => ?_⟩
    rw [flagSet_setFlag]
    simp [h]; rfl
  · have stays : formatEnd s = s := if_neg h
    rw [stays, if_neg h]
    exact ⟨⟨s.link.flags, s.link.attn, rfl⟩, fun _ => rfl, fun _ => rfl, fun f => by simp only [h, and_false, or_false]⟩

/-- Settles O23: the entry and the flash are recorded, the clip loses the block, a format may end. -/
theorem blockEraseCompletes : Obligations.BlockEraseCompletes := by
  intro verified s b live port
  have lost := loseBlock_spec b (s.block b) (eraseRecorded verified b s)
  have answered := exec_blockEraseComplete (verified := verified) live port
  generalize loseBlock b (s.block b) (eraseRecorded verified b s) = t at lost answered
  obtain ⟨⟨m, n, bs, flags, attn, recordedFrame⟩, ⟨cs, flags', attn', lostFrame⟩⟩ :=
    And.intro (eraseRecorded_frame verified b s) lost.frame
  obtain ⟨⟨flags'', attn'', endFrame⟩, endClip, endBlock, endFlags⟩ := formatEnd_spec t
  have state : t.store.state = s.store.state := by rw [lostFrame, recordedFrame]
  have queue : t.store.eraseQueue = s.store.eraseQueue.filter (· ≠ b) := by rw [lostFrame, recordedFrame]
  have flash : (formatEnd t).flash = (eraseRecorded verified b s).flash := by rw [endFrame, lostFrame]
  refine ⟨formatEnd t, answered, ?_, ?_, fun d other => ?_, fun c q x owned clip => ?_, fun c unowned => ?_, fun f => ?_,
    fun wf => ⟨fun v p => ?_, fun a outside => ?_⟩⟩
  · rw [endFrame, state, queue, lostFrame, recordedFrame]
  · rw [endBlock, lost.block, eraseRecorded_block, if_pos rfl]; rfl
  · rw [endBlock, lost.block, eraseRecorded_block, if_neg other]
  · rw [endClip]; exact lost.owner c q x owned ((eraseRecorded_clip verified b s c).trans clip)
  · rw [endClip, lost.others c unowned, eraseRecorded_clip]
  · have last : losesLast b (s.block b) (eraseRecorded verified b s) ↔ losesLast b (s.block b) s := by
      simp only [losesLast, eraseRecorded_clip]
    rw [endFlags, lost.flags, eraseRecorded_flagSet, last, state, queue, or_assoc, or_assoc]
    rfl
  · subst v; rw [flash]; exact eraseRecorded_read_own wf p
  · rw [flash]; exact eraseRecorded_read_other verified wf outside

end Sys2Proof.Machine
end

section
/-! SUPPORT. How a request that is taken is answered or held (R179, R182), and the store requests (R21, R24, R25, R97). -/

namespace Sys2Proof.Machine

/-! ### Requests answered and held -/

/-- A request that is taken and answered by its block: the reply is being sent. -/
theorem request_answer {kind tag : Byte} {serve : State → Served} {s t : State} {st : Status} {fields : List Byte}
    (takes : Takes s) (served : serve (hunt s) = answer t st fields) :
    request kind tag serve s = .next (reply kind tag st fields t) := by
  rw [request_taken takes.1 takes.2, served]; rfl

/-- A request that is taken and whose reply waits for the flash. -/
theorem request_held {kind tag : Byte} {serve : State → Served} {s t : State} {r : HeldReply}
    (takes : Takes s) (served : serve (hunt s) = { state := t, reply := .held r }) :
    request kind tag serve s = .next { t with link.owed := .held r } := by
  rw [request_taken takes.1 takes.2, served]; rfl

/-! ### STORE.CONFIG and VOICE.CONFIG (R24, R97) -/

theorem serveStoreConfig_starting {b : Byte} {s : State} (h : s.store.state = .starting) :
    serveStoreConfig b s = answerOnly s .starting := if_pos h

theorem serveStoreConfig_badField {b : Byte} {s : State} (h : s.store.state ≠ .starting) (out : 1 < b.toNat) :
    serveStoreConfig b s = answerOnly s .badField := by
  simp only [serveStoreConfig, if_neg h, readYesNo_eq_none.2 out]

theorem serveStoreConfig_ok {d : Bool} {s : State} (h : s.store.state ≠ .starting) :
    serveStoreConfig (yesNo d) s = answerOnly (arbitrate { s with store.deferErase := d }) .ok := by
  simp only [serveStoreConfig, if_neg h, readYesNo_yesNo]

theorem serveVoiceConfig_badField {b : Byte} {s : State} (h1 : b ≠ 1) (h2 : b ≠ 2) :
    serveVoiceConfig b s = answerOnly s .badField := by
  simp only [serveVoiceConfig, readDiscardMode, if_neg h1, if_neg h2]

/-- Settles O16. -/
theorem settingsAreReplaced : Obligations.SettingsAreReplaced := by
  intro tag b s takes
  refine ⟨fun h => ?_, fun h out => ?_, fun h d hd => ?_, fun hb => ?_, fun hb => ?_, fun h1 h2 => ?_⟩
  · exact request_answer (serve := serveStoreConfig b) takes (serveStoreConfig_starting h)
  · exact request_answer (serve := serveStoreConfig b) takes (serveStoreConfig_badField h out)
  · subst hd
    exact request_answer (serve := serveStoreConfig (yesNo d)) takes (serveStoreConfig_ok h)
  · subst hb; exact request_answer (serve := serveVoiceConfig 1) takes rfl
  · subst hb; exact request_answer (serve := serveVoiceConfig 2) takes rfl
  · exact request_answer (serve := serveVoiceConfig b) takes (serveVoiceConfig_badField h1 h2)

/-! ### STORE.INSPECT (R25, R200) -/

theorem serveStoreInspect_starting {tag page : Byte} {block : BitVec 16} {s : State} (h : s.store.state = .starting) :
    serveStoreInspect tag block page s = answerOnly s .starting := if_pos h

theorem serveStoreInspect_badField {tag page : Byte} {block : BitVec 16} {s : State} (h : s.store.state ≠ .starting)
    (out : 2047 < block.toNat ∨ 15 < page.toNat) : serveStoreInspect tag block page s = answerOnly s .badField := by
  simp only [serveStoreInspect, if_neg h]
  split
  · next b p hb hp =>
    rcases out with o | o
    · rw [below_none (by omega)] at hb; cases hb
    · rw [below_none (by omega)] at hp; cases hp
  · rfl

theorem serveStoreInspect_held {tag page : Byte} {block : BitVec 16} {s : State} {b : BlockNo} {p : PageNo}
    (h : s.store.state ≠ .starting) (hb : block.toNat = b.val) (hp : page.toNat = p.val) :
    serveStoreInspect tag block page s =
      { state := arbitrate { s with store.readback := some (b, p) }, reply := .held (.inspect tag b p) } := by
  simp only [serveStoreInspect, if_neg h, below_eq hb, below_eq hp]

/-- The fields of the reply are those of R200. -/
theorem inspectLayout_eq (x : Block) (c : PageCondition) : blockFields x ++ conditionFields c = inspectLayout x c := by
  have entry : blockFields x = (match x.state with
      | .unclassified => [0, 0, 0, 0]
      | .free => [0, 0, 0, 0]
      | .owned k q => [1, byteOf (k.val + 1)] ++ le16 q
      | .stale => [2, 0, 0, 0]
      | .retired => [3, 0, 0, 0]) ++ [byteOf x.programmed, yesNo x.retireMark, yesNo x.eraseQueued] := by
    unfold blockFields
    cases x.state <;> rfl
  unfold inspectLayout
  rw [entry]
  cases c with
  | erased => rfl
  | unreadable => rfl
  | valid t =>
    refine congrArg (HAppend.hAppend _) ?_
    obtain ⟨clip, load, sequence, page, final, header⟩ := t
    cases header with
    | none =>
      cases final <;> simp only [conditionFields, Tag.bytes, numberByte, List.cons_append, List.append_assoc, List.nil_append] <;> rfl
    | some h =>
      obtain ⟨format, rate, protect, name⟩ := h
      cases final <;> cases format <;> cases rate <;>
        simp only [conditionFields, Tag.bytes, numberByte, List.cons_append, List.append_assoc, List.nil_append] <;> rfl

theorem inspectDone_held {good : Bool} {tag : Byte} {b b' : BlockNo} {p p' : PageNo} {s : State}
    (port : s.store.port = .readback b p) (owed : s.link.owed = .held (.inspect tag b' p')) :
    (let c := tagCondition good (s.flash.read (pageAddress b p)).spare
     let u := if c = .unreadable then setFlag .storeFault (s.setPort .idle) else s.setPort .idle
     inspectDone good s = arbitrate (sendReply 18 tag (0 :: inspectLayout (s.block b) c) u)) := by
  intro c u
  have block : u.block b = s.block b := by unfold u; split <;> rfl
  rw [← inspectLayout_eq, ← block]
  simp only [inspectDone, port, owed]
  rfl

/-- Settles O18. -/
theorem inspectionIsHeldThenAnswered : Obligations.InspectionIsHeldThenAnswered := by
  refine ⟨fun tag page block s takes => ⟨fun h => ?_, fun h out => ?_, fun h b p hb hp => ?_⟩,
    fun good tag b b' p p' s live port owed => ?_⟩
  · exact request_answer (serve := serveStoreInspect tag block page) takes (serveStoreInspect_starting h)
  · exact request_answer (serve := serveStoreInspect tag block page) takes (serveStoreInspect_badField h out)
  · exact request_held (serve := serveStoreInspect tag block page) takes (serveStoreInspect_held h hb hp)
  · show event (inspectDone good) s = _
    rw [event_taken live, inspectDone_held port owed]
    rfl

/-! ### STORE.FORMAT (R21) -/

theorem serveStoreFormat_starting {s : State} (h : s.store.state = .starting) : serveStoreFormat s = answerOnly s .starting :=
  if_pos h

theorem serveStoreFormat_formatting {s : State} (h : s.store.state = .formatting) : serveStoreFormat s = answerOnly s .busy := by
  simp [serveStoreFormat, h]

theorem serveStoreFormat_playing {s : State} (h : s.store.state = .service) (v : ∃ v, (s.voice v).state ≠ .idle) :
    serveStoreFormat s = answerOnly s .busy := by
  have notIdle : allIdle s = false := by
    rw [Bool.eq_false_iff]
    exact fun idle => v.elim fun v hv => hv (allIdle_iff.1 idle v)
  simp [serveStoreFormat, h, notIdle]

theorem serveStoreFormat_loading {s : State} (h : s.store.state = .service)
    (loading : ∃ c x, s.clip c = some x ∧ (x.state = .opened ∨ x.state = .failed ∨ x.state = .closing)) :
    serveStoreFormat s = answerOnly s .busy := by
  simp [serveStoreFormat, h, loadingClip_isSome.2 loading]

/-- No clip holds the place of a load while every clip is READY, ERASING or ABSENT (R29). -/
theorem notLoading {s : State} (settled : ∀ d x, s.clip d = some x → x.state = .ready ∨ x.state = .erasing) :
    (loadingClip s).isSome = false := by
  rw [Bool.eq_false_iff]
  intro loading
  obtain ⟨d, x, hx, state⟩ := loadingClip_isSome.1 loading
  rcases settled d x hx with e | e <;> rw [e] at state <;> simp at state

theorem serveStoreFormat_ok {s : State} (h : s.store.state = .service) (idle : ∀ v, (s.voice v).state = .idle)
    (settled : ∀ c x, s.clip c = some x → x.state = .ready ∨ x.state = .erasing) :
    serveStoreFormat s = answerOnly (arbitrate (formatStore s)) .ok := by
  unfold serveStoreFormat
  rw [if_neg (by simp [h]), if_neg (by simp [h]), if_neg (by simp [allIdle_iff.2 idle]), if_neg (by simp [notLoading settled])]

/-- What STORE.FORMAT over all clips and a list of blocks does (R21, R8). -/
structure Formatted (blocks : List BlockNo) (s u : State) : Prop where
  frame : u = { s with
    clips := u.clips, store.blocks := u.store.blocks, store.eraseQueue := u.store.eraseQueue
    store.state := if u.store.eraseQueue = [] then .service else .formatting
    link := if u.store.eraseQueue = [] then (setFlag .formatDone s).link else s.link }
  block : ∀ d, u.block d =
    if formatQueues s d then { s.block d with eraseQueued := true } else if formatFrees s d then Block.free else s.block d
  clip : ∀ c, u.clip c = (s.clip c).map fun x => { x with state := .erasing, places := formatPlaces s c blocks x.places }
  queue : u.store.eraseQueue = s.store.eraseQueue ++ blocks.filter fun b => !(s.block b).eraseQueued && formatQueues s b

theorem formatLists_spec {clips : List ClipId} {blocks : List BlockNo} {s : State} (allC : ∀ c, c ∈ clips) (nodup : blocks.Nodup)
    (allB : ∀ b, b ∈ blocks) (settled : ∀ c x, s.clip c = some x → x.state = .ready ∨ x.state = .erasing) :
    Formatted blocks s (formatLists clips blocks s) := by
  obtain ⟨⟨cs, erased⟩, erasedClip⟩ := foldl_eraseClip clips s
  unfold formatLists
  simp only
  generalize clips.foldl (fun s c => eraseClip c s) s = t at erased erasedClip ⊢
  have clipErasing (c : ClipId) : t.clip c = (s.clip c).map fun x => { x with state := .erasing } := by
    rw [erasedClip, if_pos (allC c)]
    cases hx : s.clip c with
    | none => rfl
    | some x => rcases settled c x hx with e | e <;> simp [← e]
  have block (d : BlockNo) : t.block d = s.block d := by rw [erased]; rfl
  have flight (d : BlockNo) : programInFlight d t = programInFlight d s := by rw [erased]; rfl
  have stay (d : BlockNo) : stays t d = stays s d := by unfold stays; rw [block, flight]
  have queues : formatQueues t = formatQueues s := by funext d; simp only [formatQueues, block, stay]
  have frees : formatFrees t = formatFrees s := by funext d; simp only [formatFrees, block, stay]
  have vacates : formatVacates t = formatVacates s := by funext c d; simp only [formatVacates, block, stay]
  obtain ⟨⟨bs, cs', formatted⟩, formattedBlock, formattedClip⟩ := foldl_formatBlock blocks nodup t
  simp only [queues, frees, block] at formatted formattedBlock
  generalize blocks.foldl (fun s b => formatBlock b s) t = w at formatted formattedBlock formattedClip ⊢
  have queue : w.store.eraseQueue = s.store.eraseQueue ++ blocks.filter fun b => !(s.block b).eraseQueued && formatQueues s b := by
    rw [formatted, erased]
  have wFrame : w = { s with clips := w.clips, store.blocks := w.store.blocks, store.eraseQueue := w.store.eraseQueue } := by
    rw [formatted, erased]
  have blockW (d : BlockNo) : w.block d = if formatQueues s d then { s.block d with eraseQueued := true }
      else if formatFrees s d then Block.free else s.block d := by rw [formattedBlock, if_pos (allB d)]
  have clipW (c : ClipId) : w.clip c =
      (s.clip c).map fun x => { x with state := .erasing, places := formatPlaces s c blocks x.places } := by
    rw [formattedClip, clipErasing, Option.map_map]
    congr 1
    funext x
    simp only [Function.comp, formatClip, formatPlaces, vacates]
  obtain ⟨⟨flags, attn, ended⟩, -, -, -⟩ := formatEnd_spec { w with store.state := .formatting }
  by_cases empty : w.store.eraseQueue = []
  · have ends : formatEnd { w with store.state := .formatting } = setFlag .formatDone { w with store.state := .service } :=
      if_pos ⟨rfl, empty⟩
    rw [ends]
    refine ⟨?_, blockW, clipW, queue⟩
    simp only [setFlag_store, empty, if_true]
    rw [wFrame]; rfl
  · have stays : formatEnd { w with store.state := .formatting } = { w with store.state := .formatting } :=
      if_neg fun h => empty h.2
    rw [stays]
    refine ⟨?_, blockW, clipW, queue⟩
    simp only [empty, if_false]
    rw [wFrame]

/-- A block that stays: a page of it is programmed, or a program is in flight (R8). -/
theorem stays_iff {s : State} {b : BlockNo} : stays s b = true ↔ (s.block b).programmed ≠ 0 ∨ programInFlight b s = true := by
  simp [stays]

theorem stays_eq_false {s : State} {b : BlockNo} :
    stays s b = false ↔ (s.block b).programmed = 0 ∧ programInFlight b s = false := by
  simp [stays]

/-- The place of a block list after a format of every block, spelled by the state of the block it holds. -/
theorem formatPlaces_all {s : State} {c : ClipId} {blocks : List BlockNo} (all : ∀ b, b ∈ blocks) (places : List (Option BlockNo)) :
    formatPlaces s c blocks places = places.map fun p => match p with
      | some b => match (s.block b).state with
        | .owned d _ => if d = c ∧ (s.block b).programmed = 0 ∧ programInFlight b s = false then none else some b
        | _ => some b
      | none => none := by
  refine List.map_congr_left fun p _ => ?_
  cases p with
  | none => rfl
  | some b =>
    show (if b ∈ blocks ∧ formatVacates s c b = true then none else some b) = _
    simp only [all b, true_and]
    cases hx : (s.block b).state with
    | owned d q =>
      have vacates : formatVacates s c b = true ↔ d = c ∧ (s.block b).programmed = 0 ∧ programInFlight b s = false := by
        simp [formatVacates, hx, stays_eq_false]
      simp only [vacates]
    | _ => simp [formatVacates, hx]

/-- Settles O19: the refusals by their checks, the accepted format by formatLists_spec. -/
theorem formatErasesEveryClip : Obligations.FormatErasesEveryClip := by
  intro tag s takes
  refine ⟨fun h => ?_, fun h => ?_, fun h v => ?_, fun h loading => ?_, fun h idle settled => ?_⟩
  · exact request_answer (serve := serveStoreFormat) takes (serveStoreFormat_starting h)
  · exact request_answer (serve := serveStoreFormat) takes (serveStoreFormat_formatting h)
  · exact request_answer (serve := serveStoreFormat) takes (serveStoreFormat_playing h v)
  · exact request_answer (serve := serveStoreFormat) takes (serveStoreFormat_loading h loading)
  · have served := serveStoreFormat_ok (s := hunt s) h idle settled
    have all (b : BlockNo) : b ∈ List.finRange 2048 := List.mem_finRange b
    have formatted := formatLists_spec (clips := allClips) (s := hunt s) (fun c => List.mem_finRange c)
      (List.nodup_finRange 2048) all settled
    rw [formatStore_eq] at served
    generalize formatLists allClips (List.finRange 2048) (hunt s) = u at served formatted
    have block (d : BlockNo) : u.block d = if formatQueues s d then { s.block d with eraseQueued := true }
      else if formatFrees s d then Block.free else s.block d := formatted.block d
    refine ⟨u, request_answer (serve := serveStoreFormat) takes served, formatted.frame, fun c x hx => ?_, fun c hc => ?_,
      fun b c q owned => ⟨fun none idle => ?_, fun busy => ?_⟩, fun b stale => ?_, fun b other => ?_, formatted.queue.trans ?_⟩
    · rw [formatted.clip]
      show (s.clip c).map _ = _
      rw [hx, Option.map_some, formatPlaces_all all]; rfl
    · rw [formatted.clip]
      show (s.clip c).map _ = _
      rw [hc]; rfl
    · have goes : stays s b = false := stays_eq_false.2 ⟨none, idle⟩
      simp [block, formatQueues, formatFrees, owned, goes]
    · have stay : stays s b = true := stays_iff.2 busy
      simp [block, formatQueues, owned, stay]
    · simp [block, formatQueues, stale]
    · rcases other with h | h <;> simp [block, formatQueues, formatFrees, h]
    · generalize List.finRange 2048 = blocks
      refine congrArg (s.store.eraseQueue ++ ·) (List.filter_congr fun b _ => ?_)
      show (!(s.block b).eraseQueued && formatQueues s b) = _
      unfold formatQueues stays
      cases (s.block b).state <;> rfl

end Sys2Proof.Machine
end

section
/-! SUPPORT. The clip requests: the checks they share (R34), opening and closing (R35, R40), aborting and erasing (R43, R44). -/

namespace Sys2Proof.Machine

/-! ### The checks of every clip request (R34) -/

theorem clipRequest_starting {clip : Byte} {s : State} {serve : ClipId → Served} (h : s.store.state = .starting) :
    clipRequest clip s serve = answerOnly s .starting := if_pos h

theorem clipRequest_badField {s : State} {serve : ClipId → Served} (h : s.store.state ≠ .starting) :
    clipRequest 0 s serve = answerOnly s .badField := if_neg h

theorem clipRequest_named {clip : Byte} {s : State} {serve : ClipId → Served} {c : ClipId} (h : s.store.state ≠ .starting)
    (named : clip.toNat = c.val + 1) : clipRequest clip s serve = serve c := by
  simp only [clipRequest, if_neg h, readClip, oneBased_eq named]

/-- Every id but 0 names a clip. -/
theorem named_of_ne_zero {id : Byte} (h : id ≠ 0) : ∃ c : ClipId, id.toNat = c.val + 1 := by
  have pos : id.toNat ≠ 0 := fun e => h (BitVec.eq_of_toNat_eq e)
  have := id.isLt
  exact ⟨⟨id.toNat - 1, by omega⟩, by simp only; omega⟩

/-! ### The attributes of CLIP.OPEN (R191, R194) -/

theorem readFormat_code (f : Format) : readFormat f.code = some f := by cases f <;> rfl

theorem readRate_code (r : Rate) : readRate r.code = some r := by cases r <;> rfl

theorem readFormat_eq_some {b : Byte} {f : Format} : readFormat b = some f ↔ b = f.code := by
  constructor
  · intro h
    unfold readFormat at h
    split at h
    · next code => cases h; exact code
    · split at h
      · next code => cases h; exact code
      · split at h
        · next code => cases h; exact code
        · cases h
  · rintro rfl
    exact readFormat_code f

theorem readRate_eq_some {b : Byte} {r : Rate} : readRate b = some r ↔ b = r.code := by
  constructor
  · intro h
    unfold readRate at h
    split at h
    · next code => cases h; exact code
    · split at h
      · next code => cases h; exact code
      · cases h
  · rintro rfl
    exact readRate_code r

theorem readYesNo_eq_some {b : Byte} {x : Bool} : readYesNo b = some x ↔ b = yesNo x := by
  constructor
  · intro h
    unfold readYesNo at h
    split at h
    · next no => cases h; exact no
    · split at h
      · next yes => cases h; exact yes
      · cases h
  · rintro rfl
    exact readYesNo_yesNo x

/-- The attributes are read as they were written (check 1 of R35). -/
theorem readAttributes_eq_some {format rate protect : Byte} {name : Vector Byte 16} {h : Header} :
    readAttributes format rate protect name = some h ↔
      format = h.format.code ∧ rate = h.rate.code ∧ protect = yesNo h.protect ∧ h.name.length ≤ 16 ∧
      (∀ b ∈ h.name, 32 ≤ b.toNat ∧ b.toNat ≤ 126) ∧
      name.toList = h.name ++ List.replicate (16 - h.name.length) 0 := by
  have fields : readAttributes format rate protect name = some h ↔ readFormat format = some h.format ∧
      readRate rate = some h.rate ∧ readYesNo protect = some h.protect ∧ readText name.toList = some h.name := by
    obtain ⟨f, r, p, n⟩ := h
    simp only [readAttributes, Option.bind_eq_bind, Option.bind_eq_some_iff, Option.some.injEq, Header.mk.injEq]
    constructor
    · rintro ⟨f', hf, r', hr, p', hp, n', hn, rfl, rfl, rfl, rfl⟩
      exact ⟨hf, hr, hp, hn⟩
    · rintro ⟨hf, hr, hp, hn⟩
      exact ⟨f, hf, r, hr, p, hp, n, hn, rfl, rfl, rfl, rfl⟩
  rw [fields, readFormat_eq_some, readRate_eq_some, readYesNo_eq_some, readText_eq_some name.length_toList]

/-! ### CLIP.OPEN and CLIP.CLOSE (R35, R40) -/

/-- Settles O28: the attributes by readAttributes_eq_some, each check and effect by the branch of the request it decides. -/
theorem clipOpenAndClose : Obligations.ClipOpenAndClose := by
  refine ⟨fun format rate protect name h => readAttributes_eq_some, fun tag id format rate protect name s takes => ?_,
    fun tag id s takes => ?_⟩
  · have answered {t : State} {st : Status} (e : serveClipOpen id format rate protect name (hunt s) = answerOnly t st) :
        exec (.clipOpen tag id format rate protect name) s = .next (reply 32 tag st [] t) :=
      request_answer (serve := serveClipOpen id format rate protect name) takes e
    refine ⟨fun h => answered (clipRequest_starting h), fun h id0 => ?_, fun h id0 attributes => ?_,
      fun header c h named attributes => ?_⟩
    · subst id0; exact answered (clipRequest_badField h)
    · obtain ⟨c, named⟩ := named_of_ne_zero id0
      exact answered ((clipRequest_named (s := hunt s) h named).trans (by simp [attributes]))
    · have opened {t : State} {st : Status} := fun e =>
        answered (t := t) (st := st) ((clipRequest_named (s := hunt s) h named).trans e)
      refine ⟨fun present => opened (by simp [attributes, present]), fun absent => ⟨fun loading => ?_, fun settled => ?_⟩⟩
      · have busy : (loadingClip (hunt s)).isSome = true := loadingClip_isSome.2 loading
        exact opened (by simp [attributes, absent, busy])
      · have free : (loadingClip (hunt s)).isSome = false := notLoading settled
        refine ⟨fun formatting => ?_, fun service exhausted => ?_, fun n service counter => ?_⟩
        · exact opened (by simp [attributes, absent, formatting])
        · exact opened (by simp [attributes, absent, free, service, exhausted])
        · exact opened (by
            simp [attributes, absent, free, service, counter, openedClip, counterAfter, Config.greatestNumber] <;> rfl)
  · have answered {t : State} {st : Status} (e : serveClipClose id (hunt s) = answerOnly t st) :
        exec (.clipClose tag id) s = .next (reply 34 tag st [] t) :=
      request_answer (serve := serveClipClose id) takes e
    refine ⟨fun h => answered (clipRequest_starting h), fun h id0 => ?_, fun c h named => ?_⟩
    · subst id0; exact answered (clipRequest_badField h)
    · have closed {t : State} {st : Status} := fun e =>
        answered (t := t) (st := st) ((clipRequest_named (s := hunt s) h named).trans e)
      refine ⟨fun absent => closed (by simp [absent]), fun x hx =>
        ⟨fun state loaded whole => ?_, fun state fault => ?_, fun state => ?_⟩⟩
      · exact closed (by simp [hx, state, loaded, whole])
      · exact closed (by simp [hx, state, fault])
      · exact closed (by simp [hx, state])

/-! ### CLIP.ABORT (R43) -/

theorem abortEnd_none {c : ClipId} {s : State} {x : Clip} (clip : s.clip c = some x) (empty : x.heldBlocks = []) :
    abortEnd c s = setFlag .eraseDone (s.setClip c none) := by
  simp only [abortEnd, clip, if_pos empty]

theorem abortEnd_some {c : ClipId} {s : State} {x : Clip} (clip : s.clip c = some x) (held : x.heldBlocks ≠ []) :
    abortEnd c s = s.setClip c (some { x with state := .erasing }) := by
  simp only [abortEnd, clip, if_neg held]

theorem mem_heldBlocks {x : Clip} {b : BlockNo} : b ∈ x.heldBlocks ↔ some b ∈ x.places := by
  simp [Clip.heldBlocks]

/-- The places of a clip's list after its own blocks are released: those that stay keep theirs. -/
theorem placesAfter_held (s : State) (x : Clip) :
    placesAfter s x.heldBlocks x.places = x.places.map fun q => match q with
      | some b => if stays s b = true then some b else none
      | none => none := by
  refine List.map_congr_left fun q hq => ?_
  cases q with
  | none => rfl
  | some b =>
    have held : b ∈ x.heldBlocks := mem_heldBlocks.2 hq
    show (if b ∈ x.heldBlocks ∧ stays s b = false then none else some b) = if stays s b = true then some b else none
    cases stays s b <;> simp [held]

/-- What aborting the load of clip c, whose record is x, leaves (R43, R8). -/
structure Aborted (c : ClipId) (x : Clip) (s u : State) : Prop where
  frame : u = { s with
    clips := u.clips, store.blocks := u.store.blocks, store.buffer := []
    store.eraseQueue :=
      s.store.eraseQueue ++ ((x.heldBlocks.filter (stays s)).filter fun b => !(s.block b).eraseQueued).eraseDups
    link := if x.heldBlocks.filter (stays s) = [] then (setFlag .eraseDone s).link else s.link }
  clip : u.clip c = if x.heldBlocks.filter (stays s) = [] then none else
    some { x with state := .erasing, places := placesAfter s x.heldBlocks x.places }
  others : ∀ d, d ≠ c → u.clip d = s.clip d
  block : ∀ b, u.block b = if b ∈ x.heldBlocks then
    (if stays s b = true then { s.block b with eraseQueued := true } else Block.free) else s.block b

theorem abort_spec {c : ClipId} {x : Clip} {s : State} (clip : s.clip c = some x) :
    Aborted c x s (abortEnd c (x.heldBlocks.foldl (fun s b => releaseBlock c b s) { s with store.buffer := [] })) := by
  obtain ⟨⟨bs, q, cs, released⟩, own, others, block, queue⟩ :=
    foldl_releaseBlock c x.heldBlocks { s with store.buffer := [] } x clip
  generalize x.heldBlocks.foldl (fun s b => releaseBlock c b s) { s with store.buffer := [] } = t
    at released own others block queue ⊢
  have queue' : t.store.eraseQueue =
      s.store.eraseQueue ++ ((x.heldBlocks.filter (stays s)).filter fun b => !(s.block b).eraseQueued).eraseDups := queue
  have frame : t = { s with
      clips := t.clips, store.blocks := t.store.blocks, store.buffer := []
      store.eraseQueue :=
        s.store.eraseQueue ++ ((x.heldBlocks.filter (stays s)).filter fun b => !(s.block b).eraseQueued).eraseDups } := by
    rw [← queue', released]
  have held := heldBlocks_filter x s
  by_cases noneStays : x.heldBlocks.filter (stays s) = []
  · rw [abortEnd_none own (held.trans noneStays)]
    refine ⟨?_, ?_, fun d hd => ?_, block⟩
    · rw [if_pos noneStays, frame]; rfl
    · simp [noneStays]
    · simp only [clip_setFlag, clip_setClip, if_neg hd]; exact others d hd
  · rw [abortEnd_some own fun e => noneStays (held.symm.trans e)]
    refine ⟨?_, ?_, fun d hd => ?_, block⟩
    · rw [if_neg noneStays, frame]; rfl
    · simp only [clip_setClip, if_true, if_neg noneStays]; rfl
    · simp only [clip_setClip, if_neg hd]; exact others d hd

/-- Settles O30: the refusals by their checks, the abort by abort_spec. -/
theorem clipAbortReleasesOrQueues : Obligations.ClipAbortReleasesOrQueues := by
  intro tag id s takes
  have answered {t : State} {st : Status} (e : serveClipAbort id (hunt s) = answerOnly t st) :
      exec (.clipAbort tag id) s = .next (reply 35 tag st [] t) :=
    request_answer (serve := serveClipAbort id) takes e
  refine ⟨fun h => answered (clipRequest_starting h), fun h id0 => ?_, fun c h named => ?_⟩
  · subst id0; exact answered (clipRequest_badField h)
  · have aborted {t : State} {st : Status} := fun e =>
      answered (t := t) (st := st) ((clipRequest_named (s := hunt s) h named).trans e)
    refine ⟨fun absent => aborted (by simp [absent]), fun x hx => ⟨fun settled => ?_, fun loading => ?_⟩⟩
    · have : x.loading = false := by rcases settled with e | e <;> simp [Clip.loading, e]
      exact aborted (by simp [hx, this])
    · have loads : x.loading = true := by rcases loading with e | e | e <;> simp [Clip.loading, e]
      have spec := abort_spec (s := hunt s) hx
      refine ⟨_, aborted (by simp only [clip_hunt, hx, loads]; rfl), spec.frame, ?_, spec.others, spec.block⟩
      exact spec.clip.trans (by rw [placesAfter_held]; rfl)

/-! ### CLIP.ERASE (R44, R45) -/

/-- Settles O31: the refusals by their checks, the blocks by foldl_queueErase. -/
theorem clipEraseQueuesTheBlocks : Obligations.ClipEraseQueuesTheBlocks := by
  intro tag id s takes
  have answered {t : State} {st : Status} (e : serveClipErase id (hunt s) = answerOnly t st) :
      exec (.clipErase tag id) s = .next (reply 36 tag st [] t) :=
    request_answer (serve := serveClipErase id) takes e
  refine ⟨fun h => answered (clipRequest_starting h), fun h id0 => ?_, fun c h named => ?_⟩
  · subst id0; exact answered (clipRequest_badField h)
  · have erased {t : State} {st : Status} := fun e =>
      answered (t := t) (st := st) ((clipRequest_named (s := hunt s) h named).trans e)
    have latch : isLatched c (hunt s) = isLatched c s := rfl
    refine ⟨fun absent => erased (by simp [absent]), fun x hx => ⟨fun ready open_ free => ?_, fun state => ?_,
      fun ready protect => ?_, fun ready open_ latched => ?_⟩⟩
    · have erasing : eraseClip c (hunt s) = (hunt s).setClip c (some { x with state := .erasing }) := by
        simp only [eraseClip, clip_hunt, hx, if_pos ready]
      obtain ⟨⟨bs, queued⟩, block, queue⟩ := foldl_queueErase x.heldBlocks ((hunt s).setClip c (some { x with state := .erasing }))
      refine ⟨_, erased (by simp only [clip_hunt, hx, ready, open_, latch, free, erasing]; rfl), ?_, block⟩
      rw [queue] at queued
      rw [queued]; rfl
    · exact erased (by simp [hx, state])
    · exact erased (by simp [hx, ready, protect])
    · exact erased (by simp [hx, ready, open_, latch, latched])

end Sys2Proof.Machine
end

section
/-! SUPPORT. The load of a clip, chunk by chunk (R36 to R39, R7), and the reading back of a clip (R47, R48). -/

namespace Sys2Proof.Machine

/-! ### Taking a chunk (R36 to R38) -/

@[simp] theorem arbitrate_clip (s : State) (c : ClipId) : (arbitrate s).clip c = s.clip c := by
  unfold State.clip; rw [(engineStep_arbitrate s).clips]

@[simp] theorem arbitrate_buffer (s : State) : (arbitrate s).store.buffer = s.store.buffer := by
  have store := congrArg Store.buffer (engineStep_arbitrate s).store
  exact store

theorem acceptChunk_some {c : ClipId} {chunk : List Byte} {s : State} {x : Clip} (clip : s.clip c = some x) :
    acceptChunk c chunk s = arbitrate (({ s with store.buffer := joinChunk c x.accepted chunk s.store.buffer } : State).setClip c
      (some { x with accepted := x.accepted + chunk.length })) := by
  simp only [acceptChunk, clip]

theorem bufferedBytes_eq (s : State) : bufferedBytes s = bytesIn s.store.buffer := rfl

/-- The cursor and the room after a chunk has been accepted (R39). -/
theorem cursorAndRoom_acceptChunk {c : ClipId} {chunk : List Byte} {s : State} {x : Clip} (clip : s.clip c = some x) :
    cursorAndRoom c (acceptChunk c chunk s) =
      le32 (x.accepted + chunk.length) ++ le16 (8192 - (bufferedBytes s + chunk.length)) := by
  rw [acceptChunk_some clip]
  simp [cursorAndRoom, bufferRoom, bufferedBytes_eq, bytesIn_joinChunk, Config.loadBufferBytes]

theorem cursorAndRoom_some {c : ClipId} {s : State} {x : Clip} (clip : s.clip c = some x) :
    cursorAndRoom c s = le32 x.accepted ++ le16 (8192 - bufferedBytes s) := by
  simp [cursorAndRoom, clip, bufferRoom, Config.loadBufferBytes]

theorem cursorAndRoom_none {c : ClipId} {s : State} (clip : s.clip c = none) :
    cursorAndRoom c s = le32 0 ++ le16 (8192 - bufferedBytes s) := by
  simp [cursorAndRoom, clip, bufferRoom, Config.loadBufferBytes]

/-- What reserving a block changes: the block's entry, the clip's last place and the cursor (R7). -/
theorem reserveBlock_some {c : ClipId} {b : BlockNo} {s : State} {x : Clip} (clip : s.clip c = some x) :
    reserveBlock c b s =
      { (s.setBlock b ⟨.owned c x.places.length, 0, false, false⟩).setClip c (some { x with places := x.places ++ [some b] }) with
        store.cursor := b + 1 } := by
  simp only [reserveBlock, clip]

theorem reserveBlock_clip {c : ClipId} {b : BlockNo} {s : State} {x : Clip} (clip : s.clip c = some x) :
    (reserveBlock c b s).clip c = some { x with places := x.places ++ [some b] } := by
  rw [reserveBlock_some clip]
  show (State.setClip _ c _).clip c = _
  simp

theorem reserveBlock_block {c : ClipId} {b : BlockNo} {s : State} {x : Clip} (clip : s.clip c = some x) (d : BlockNo) :
    (reserveBlock c b s).block d = if d = b then
      { state := .owned c x.places.length, programmed := 0, retireMark := false, eraseQueued := false } else s.block d := by
  rw [reserveBlock_some clip]
  show (s.setBlock b _).block d = _
  simp

theorem reserveBlock_buffer (c : ClipId) (b : BlockNo) (s : State) : (reserveBlock c b s).store.buffer = s.store.buffer := by
  unfold reserveBlock; split <;> rfl

section
variable {c : ClipId} {offset : Nat} {chunk : List Byte} {s : State} {x : Clip}

theorem takeChunk_absent (clip : s.clip c = none) : takeChunk c offset chunk s = (s, .wrongState) := by
  simp only [takeChunk, clip]

theorem takeChunk_failed (clip : s.clip c = some x) (failed : x.state = .failed) :
    takeChunk c offset chunk s = (s, .failed) := by
  simp only [takeChunk, clip, if_pos failed]

theorem takeChunk_wrongState (clip : s.clip c = some x) (notFailed : x.state ≠ .failed) (notOpen : x.state ≠ .opened) :
    takeChunk c offset chunk s = (s, .wrongState) := by
  simp only [takeChunk, clip, if_neg notFailed, if_pos notOpen]

theorem takeChunk_already (clip : s.clip c = some x) (opened : x.state = .opened)
    (before : offset + chunk.length ≤ x.accepted) : takeChunk c offset chunk s = (s, .already) := by
  simp [takeChunk, clip, opened, before]

theorem takeChunk_offset (clip : s.clip c = some x) (opened : x.state = .opened)
    (beyond : x.accepted < offset + chunk.length) (elsewhere : offset ≠ x.accepted) :
    takeChunk c offset chunk s = (s, .offset) := by
  simp [takeChunk, clip, opened, Nat.not_le.2 beyond, elsewhere]

/-- The taking of a chunk for which a block is reserved (R37). -/
def takeReserving (c : ClipId) (x : Clip) (chunk : List Byte) (s : State) : State × Status :=
  if Config.blocksPerClip ≤ x.places.length then (s, .noSpace)
  else match findFree s with
    | none => (s, .noSpace)
    | some b => (acceptChunk c chunk (reserveBlock c b s), .ok)

theorem takeReserving_some {b : BlockNo} (places : x.places.length < 512) (found : findFree s = some b) :
    takeReserving c x chunk s = (acceptChunk c chunk (reserveBlock c b s), .ok) := by
  have few : ¬ Config.blocksPerClip ≤ x.places.length := Nat.not_le.2 places
  simp only [takeReserving, if_neg few, found]

theorem takeReserving_none (noBlock : 512 ≤ x.places.length ∨ findFree s = none) : takeReserving c x chunk s = (s, .noSpace) := by
  by_cases many : Config.blocksPerClip ≤ x.places.length
  · simp only [takeReserving, if_pos many]
  · simp only [takeReserving, if_neg many, noBlock.resolve_left many]

/-- The checks that are left of a chunk that begins at the write cursor (R36, R37). -/
theorem takeChunk_atCursor (clip : s.clip c = some x) (opened : x.state = .opened) (nonempty : 1 ≤ chunk.length)
    (atCursor : offset = x.accepted) : takeChunk c offset chunk s =
      if Config.loadBufferBytes < bufferedBytes s + chunk.length then (s, .full)
      else if needsBlock x chunk.length = true then takeReserving c x chunk s
      else (acceptChunk c chunk s, .ok) := by
  have notFailed : ¬ x.state = .failed := fun e => nomatch opened.symm.trans e
  have isOpen : ¬ x.state ≠ .opened := fun e => e opened
  have beyond : ¬ offset + chunk.length ≤ x.accepted := by omega
  have here : ¬ offset ≠ x.accepted := fun e => e atCursor
  cases found : findFree s <;>
    simp only [takeChunk, takeReserving, clip, if_neg notFailed, if_neg isOpen, if_neg beyond, if_neg here, found]

theorem takeChunk_full (clip : s.clip c = some x) (opened : x.state = .opened) (nonempty : 1 ≤ chunk.length)
    (atCursor : offset = x.accepted) (noRoom : 8192 < bufferedBytes s + chunk.length) :
    takeChunk c offset chunk s = (s, .full) := by
  have full : Config.loadBufferBytes < bufferedBytes s + chunk.length := noRoom
  rw [takeChunk_atCursor clip opened nonempty atCursor, if_pos full]

/-- At the cursor and with room, the chunk is taken where no block is needed. -/
theorem takeChunk_joins (clip : s.clip c = some x) (opened : x.state = .opened) (nonempty : 1 ≤ chunk.length)
    (atCursor : offset = x.accepted) (room : bufferedBytes s + chunk.length ≤ 8192) (noBlock : needsBlock x chunk.length = false) :
    takeChunk c offset chunk s = (acceptChunk c chunk s, .ok) := by
  have fits : ¬ Config.loadBufferBytes < bufferedBytes s + chunk.length := Nat.not_lt.2 room
  rw [takeChunk_atCursor clip opened nonempty atCursor, if_neg fits, if_neg (ne_true_of_eq_false noBlock)]

/-- At the cursor and with room, the chunk is taken into a block reserved for it. -/
theorem takeChunk_reserves {b : BlockNo} (clip : s.clip c = some x) (opened : x.state = .opened) (nonempty : 1 ≤ chunk.length)
    (atCursor : offset = x.accepted) (room : bufferedBytes s + chunk.length ≤ 8192) (block : needsBlock x chunk.length = true)
    (places : x.places.length < 512) (found : findFree s = some b) :
    takeChunk c offset chunk s = (acceptChunk c chunk (reserveBlock c b s), .ok) := by
  have fits : ¬ Config.loadBufferBytes < bufferedBytes s + chunk.length := Nat.not_lt.2 room
  rw [takeChunk_atCursor clip opened nonempty atCursor, if_neg fits, if_pos block, takeReserving_some places found]

theorem takeChunk_noSpace (clip : s.clip c = some x) (opened : x.state = .opened) (nonempty : 1 ≤ chunk.length)
    (atCursor : offset = x.accepted) (room : bufferedBytes s + chunk.length ≤ 8192) (block : needsBlock x chunk.length = true)
    (noBlock : 512 ≤ x.places.length ∨ findFree s = none) : takeChunk c offset chunk s = (s, .noSpace) := by
  have fits : ¬ Config.loadBufferBytes < bufferedBytes s + chunk.length := Nat.not_lt.2 room
  rw [takeChunk_atCursor clip opened nonempty atCursor, if_neg fits, if_pos block, takeReserving_none noBlock]

end

/-! ### CLIP.DATA (R36, R39) -/

/-- A chunk of 1 to 512 bytes passes the check of its length (R194). -/
theorem chunk_allowed {chunk : List Byte} (nonempty : 1 ≤ chunk.length) (fits : chunk.length ≤ 512) :
    ¬ (chunk = [] ∨ Config.largestChunk < chunk.length) :=
  fun e => e.elim (List.ne_nil_of_length_pos nonempty) (Nat.not_lt.2 fits)

section
variable {id : Byte} {offset : BitVec 32} {chunk : List Byte} {s : State}

theorem serveClipData_starting (nonempty : 1 ≤ chunk.length) (fits : chunk.length ≤ 512) (h : s.store.state = .starting) :
    serveClipData id offset chunk s = answer s .starting (le32 0 ++ le16 0) := by
  simp only [serveClipData, if_neg (chunk_allowed nonempty fits), if_pos h]

theorem serveClipData_badField (nonempty : 1 ≤ chunk.length) (fits : chunk.length ≤ 512) (h : s.store.state ≠ .starting) :
    serveClipData 0 offset chunk s = answer s .badField (le32 0 ++ le16 0) := by
  have unnamed : readClip 0 = none := oneBased_none (.inl rfl)
  simp only [serveClipData, if_neg (chunk_allowed nonempty fits), if_neg h, unnamed]

theorem serveClipData_named {t : State} {c : ClipId} {st : Status} (nonempty : 1 ≤ chunk.length) (fits : chunk.length ≤ 512)
    (h : s.store.state ≠ .starting) (named : id.toNat = c.val + 1) (taken : takeChunk c offset.toNat chunk s = (t, st)) :
    serveClipData id offset chunk s = answer t st (cursorAndRoom c t) := by
  simp only [serveClipData, if_neg (chunk_allowed nonempty fits), if_neg h, readClip, oneBased_eq named, taken]

end

/-- Settles O29: each outcome by the lemma about takeChunk that decides it. -/
theorem clipDataAndReservation : Obligations.ClipDataAndReservation := by
  refine ⟨fun tag id offset chunk s takes nonempty fits => ?_, fun s c x b clip found => ?_⟩
  · have answered {t : State} {st : Status} {fields : List Byte}
        (e : serveClipData id offset chunk (hunt s) = answer t st fields) :
        exec (.clipData tag id offset chunk) s = .next (reply 33 tag st fields t) :=
      request_answer (serve := serveClipData id offset chunk) takes e
    refine ⟨fun h => answered (serveClipData_starting nonempty fits h), fun h id0 => ?_, fun c h named => ?_⟩
    · subst id0; exact answered (serveClipData_badField nonempty fits h)
    · have taken {t : State} {st : Status} {cursor room : Nat} (e : takeChunk c offset.toNat chunk (hunt s) = (t, st))
          (fields : cursorAndRoom c t = le32 cursor ++ le16 room) :
          exec (.clipData tag id offset chunk) s = .next (reply 33 tag st (le32 cursor ++ le16 room) t) :=
        answered ((serveClipData_named (s := hunt s) nonempty fits h named e).trans (by rw [fields]))
      refine ⟨fun absent => taken (takeChunk_absent absent) (cursorAndRoom_none absent), fun x clip => ?_⟩
      have refused {st : Status} (e : takeChunk c offset.toNat chunk (hunt s) = (hunt s, st)) :=
        taken e (cursorAndRoom_some (s := hunt s) clip)
      refine ⟨fun failed => refused (takeChunk_failed clip failed), fun notFailed notOpen =>
        refused (takeChunk_wrongState clip notFailed notOpen), fun opened => ⟨fun atCursor room noBlock => ?_,
        fun atCursor room block => ⟨fun b places found => ?_, fun noFree => ?_⟩, fun before => ?_, fun beyond elsewhere => ?_,
        fun atCursor noRoom => ?_⟩⟩
      · have e := taken (takeChunk_joins (s := hunt s) clip opened nonempty atCursor room noBlock) (cursorAndRoom_acceptChunk clip)
        rw [acceptChunk_some (s := hunt s) clip] at e
        exact e
      · have clip' := reserveBlock_clip (s := hunt s) (b := b) clip
        have fields := cursorAndRoom_acceptChunk (chunk := chunk) clip'
        rw [bufferedBytes_eq, reserveBlock_buffer] at fields
        have e := taken (takeChunk_reserves (s := hunt s) clip opened nonempty atCursor room block places found) fields
        rw [acceptChunk_some clip', reserveBlock_buffer] at e
        exact e
      · exact refused (takeChunk_noSpace clip opened nonempty atCursor room block noFree)
      · exact refused (takeChunk_already clip opened before)
      · exact refused (takeChunk_offset clip opened beyond elsewhere)
      · exact refused (takeChunk_full clip opened nonempty atCursor noRoom)
  · obtain ⟨free, first⟩ := findFree_first found
    refine ⟨free, fun k before => first k before, ?_, fun d other => ?_, reserveBlock_clip clip, ?_⟩
    · rw [reserveBlock_block clip, if_pos rfl]
    · rw [reserveBlock_block clip, if_neg other]
    · rw [reserveBlock_some clip]

/-! ### CLIP.READ (R47, R48) -/

section
variable {tag : Byte} {c : ClipId} {offset length : Nat} {taken payload : List Byte} {s : State}

/-- A page that holds the rest of the span ends the read. -/
theorem readPage_last (page : payload.length = 2048) (more : taken.length < length)
    (holds : (offset + taken.length) % 2048 + (length - taken.length) ≤ 2048) :
    readPage tag c offset length taken payload s = sendReply 37 tag
      (0 :: (taken ++ (payload.drop ((offset + taken.length) % 2048)).take (length - taken.length))) s := by
  unfold readPage
  have bytes : min (length - taken.length) (2048 - (offset + taken.length) % 2048) = length - taken.length := by omega
  simp only [Config.pageBytes, field, bytes]
  rw [if_pos (by simp [page]; omega)]
  rfl

/-- A page that does not hold the rest of the span gives its bytes up to its end, and the next page is read. -/
theorem readPage_next {x : Clip} {place : BlockNo × PageNo} (page : payload.length = 2048) (more : taken.length < length)
    (beyond : 2048 < (offset + taken.length) % 2048 + (length - taken.length)) (clip : s.clip c = some x)
    (found : x.placeOf (offset + taken.length + (2048 - (offset + taken.length) % 2048)) = some place) :
    readPage tag c offset length taken payload s = { s with
      store.readback := some place
      link.owed := .held (.clipRead tag c offset length (taken ++ payload.drop ((offset + taken.length) % 2048))) } := by
  have inPage : (offset + taken.length) % 2048 < 2048 := Nat.mod_lt _ (by decide)
  have bytes : field payload ((offset + taken.length) % 2048)
      (min (length - taken.length) (2048 - (offset + taken.length) % 2048)) = payload.drop ((offset + taken.length) % 2048) :=
    List.take_of_length_le (by simp only [List.length_drop, page]; omega)
  have reached : offset + (taken ++ payload.drop ((offset + taken.length) % 2048)).length =
      offset + taken.length + (2048 - (offset + taken.length) % 2048) := by
    simp only [List.length_append, List.length_drop, page]; omega
  unfold readPage
  simp only [Config.pageBytes, bytes]
  rw [if_neg (by simp only [List.length_append, List.length_drop, page]; omega), reached, clip]
  simp only [Option.bind_some, found]

theorem readbackDone_held {good : Bool} {b : BlockNo} {p : PageNo} (port : s.store.port = .readback b p)
    (owed : s.link.owed = .held (.clipRead tag c offset length taken)) :
    readbackDone good s = arbitrate (if good then
        readPage tag c offset length taken (s.flash.read (pageAddress b p)).payload (s.setPort .idle)
      else sendReply 37 tag [17] (setFlag .storeFault (s.setPort .idle))) := by
  simp only [readbackDone, port, owed]
  rfl

end

/-- Settles O32. -/
theorem clipReadIsHeldThenAnswered : Obligations.ClipReadIsHeldThenAnswered := by
  refine ⟨fun tag id offset length s takes => ?_, fun tag c offset length taken b p s live wf port owed more => ?_⟩
  · have answered {t : State} {st : Status} (e : serveClipRead tag id offset length (hunt s) = answerOnly t st) :
        exec (.clipRead tag id offset length) s = .next (reply 37 tag st [] t) :=
      request_answer (serve := serveClipRead tag id offset length) takes e
    refine ⟨fun h => answered (clipRequest_starting h), fun h id0 => ?_, fun c h named => ?_⟩
    · subst id0; exact answered (clipRequest_badField h)
    · have refused {t : State} {st : Status} := fun e =>
        answered (t := t) (st := st) ((clipRequest_named (s := hunt s) h named).trans e)
      have zero : length = 0 ↔ length.toNat = 0 := ⟨fun e => by rw [e]; rfl, fun e => BitVec.eq_of_toNat_eq e⟩
      refine ⟨fun absent => refused (by simp [absent]), fun x clip => ⟨fun ready nonempty short inside place found => ?_,
        fun ready out => ?_, fun notReady => ?_⟩⟩
      · have fits : ¬ (length = 0 ∨ Config.largestChunk < length.toNat ∨ x.accepted < offset.toNat + length.toNat) := by
          rw [zero]; simp only [Config.largestChunk]; omega
        refine request_held (serve := serveClipRead tag id offset length) takes
          ((clipRequest_named (s := hunt s) h named).trans ?_)
        simp only [clip_hunt, clip, ready, found, if_neg fits]
        rfl
      · have fault : length = 0 ∨ Config.largestChunk < length.toNat ∨ x.accepted < offset.toNat + length.toNat := by
          rw [zero]; simp only [Config.largestChunk]; omega
        exact refused (by simp only [clip_hunt, clip, ready, if_pos fault]; rfl)
      · exact refused (by simp only [clip_hunt, clip, if_pos notReady])
  · have payload := Memory.read_payload_length wf (pageAddress b p)
    have done (good : Bool) : exec (.clipReadReadbackComplete good) s = .next (readbackDone good s) := event_taken live
    simp only [readbackDone_held port owed] at done
    refine ⟨fun holds => ?_, fun beyond x place clip found => ?_, done false⟩
    · rw [done, if_pos rfl, readPage_last payload more holds]; rfl
    · rw [done, if_pos rfl, readPage_next (s := s.setPort .idle) payload more beyond clip found]; rfl

end Sys2Proof.Machine
end

section
/-! SUPPORT. The completion of a fetch, the test for a further one, and the request that arrives (R77 to R79, R13, R14). -/

namespace Sys2Proof.Machine

theorem fetchKept_iff {x : Voice} {f : Fetch} : fetchKept x f = true ↔ x.state ≠ .idle ∧ f.start = x.start ∧ f.keep = true := by
  simp [fetchKept, and_assoc]

theorem fetchOutcome_kept {v : VoiceId} {s : State} {f : Fetch} (good : Bool) (payload : List Byte)
    (hf : (s.voice v).fetch = some f) (kept : fetchKept (s.voice v) f = true) :
    fetchOutcome v good payload s = fetchTest v (s.setVoice v ((s.voice v).withPage f good payload)) := by
  simp only [fetchOutcome, hf, if_pos kept]

theorem fetchOutcome_discarded {v : VoiceId} {s : State} {f : Fetch} (good : Bool) (payload : List Byte)
    (hf : (s.voice v).fetch = some f) (discarded : ¬ fetchKept (s.voice v) f = true) :
    fetchOutcome v good payload s = fetchTest v (s.setVoice v { s.voice v with fetch := none }) := by
  simp only [fetchOutcome, hf, if_neg discarded]

/-- What a completed fetch does before it reaches the voice (R17). -/
theorem fetchDone_fetch {s : State} {v : VoiceId} {b : BlockNo} {p : PageNo} (good : Bool) (port : s.store.port = .fetch v b p) :
    fetchDone good s = arbitrate (fetchOutcome v good (s.flash.read (pageAddress b p)).payload
      (if good = true then s.setPort .idle else setFlag .storeFault (s.setPort .idle))) := by
  simp only [fetchDone, port]

theorem fetchTest_unwanted {v : VoiceId} {s : State} (h : (s.voice v).wantsFetch = false) : fetchTest v s = s := by
  simp [fetchTest, h]

theorem fetchTest_wanted {v : VoiceId} {s : State} (h : (s.voice v).wantsFetch = true) :
    fetchTest v s = arbitrateArrival (s.setVoice v (s.voice v).withRequest) := by
  simp [fetchTest, h]

/-- The page requested, and the fetch point past it (R77). -/
theorem withRequest_some {x : Voice} {a : ClipAnswer} {b : BlockNo} (answer : x.answer = some a)
    (block : a.blocks[x.fetchPage / 16]? = some b) :
    x.withRequest =
      { x with
        fetch := some
          { block := b, blockPage := Fin.ofNat 16 x.fetchPage, page := x.fetchPage
            pass := x.fetchPass, start := x.start, keep := true, granted := false }
        fetchPage := if x.fetchPage + 1 < (a.samples * a.format.size + 2047) / 2048 then x.fetchPage + 1 else 0
        fetchPass := if x.fetchPage + 1 < (a.samples * a.format.size + 2047) / 2048 then x.fetchPass else x.fetchPass + 1 } := by
  have pages : a.pages = (a.samples * a.format.size + 2047) / 2048 := rfl
  simp only [Voice.withRequest, answer, Config.pagesPerBlock, block, pages]
  split <;> rfl

/-- A request takes no account of the erase queue (R14). -/
theorem grantRequest_eq_arbitrate {s : State} (idle : s.store.port = .idle) :
    grantRequest s = { arbitrate { s with store.eraseQueue := [] } with store.eraseQueue := s.store.eraseQueue } := by
  have noErase : arbitrate { s with store.eraseQueue := [] } = { grantRequest s with store.eraseQueue := [] } := by
    rw [← grantRequest_queue]
    have queue : (grantRequest { s with store.eraseQueue := [] }).store.eraseQueue = [] := by rw [grantRequest_queue]
    have arrival : arbitrateArrival { s with store.eraseQueue := [] } = grantRequest { s with store.eraseQueue := [] } :=
      arbitrateArrival_idle idle
    simp only [arbitrate, arrival, queue, ite_self]
  have queue : (grantRequest s).store.eraseQueue = s.store.eraseQueue := by
    have h := (engineStep_arbitrateArrival s).store
    rw [arbitrateArrival_idle idle] at h
    have same := congrArg Store.eraseQueue h
    exact same
  rw [noErase, ← queue]

/-- Settles O25: a completed fetch by the voice it was for, the test by the voice record, the arrival by the port. -/
theorem fetchIsKeptOrDiscarded : Obligations.FetchIsKeptOrDiscarded := by
  unfold Obligations.FetchIsKeptOrDiscarded
  refine ⟨fun good s v b p f live port hf => ?_, fun v s certain iff => ?_, fun s => ⟨arbitrateArrival_busy, ?_⟩⟩
  · have done : exec (.fetchComplete good) s = .next (fetchDone good s) := event_taken live
    rw [fetchDone_fetch good port] at done
    rw [done]
    have voice : (if good = true then s.setPort .idle else setFlag .storeFault (s.setPort .idle)).voice v = s.voice v := by
      split <;> rfl
    refine ⟨fun kept => ?_, fun discarded => ?_⟩
    · rw [fetchOutcome_kept _ _ (by rw [voice]; exact hf) (by rw [voice]; exact fetchKept_iff.2 kept), voice]
      simp [Voice.withPage]
    · rw [fetchOutcome_discarded _ _ (by rw [voice]; exact hf) (by rw [voice]; exact mt fetchKept_iff.1 discarded), voice]
  · have wanted : (s.voice v).wantsFetch = true ↔
        (s.voice v).state ≠ .idle ∧ (s.voice v).fetch = none ∧ (s.voice v).buffer.length < 2 ∧ certain := by
      have sure : (s.voice v).certain = true ↔ certain := (certain_iff _).trans iff.symm
      rw [wantsFetch_iff, sure]
    refine ⟨fun no => fetchTest_unwanted (Bool.eq_false_iff.2 fun yes => ?_), fun a b active free room sure answer block => ?_⟩
    · obtain ⟨active, free, room, sure⟩ := wanted.1 yes
      rcases no with idle | fetching | full | unsure
      · exact active idle
      · exact fetching free
      · omega
      · exact unsure sure
    · rw [fetchTest_wanted (wanted.2 ⟨active, free, room, sure⟩), withRequest_some answer block]
  · by_cases idle : s.store.port = .idle
    · rw [arbitrateArrival_idle idle, grantRequest_eq_arbitrate idle]
    · rw [arbitrateArrival_busy idle, arbitrate_busy (s := { s with store.eraseQueue := [] }) idle]

end Sys2Proof.Machine
end

section
/-! SUPPORT. The completion of the scan: the last block recorded, the store rebuilt, and what the clips, the blocks and the load counter
then hold (R9, R167, R171 to R174). -/

namespace Sys2Proof.Machine

/-! ### Recording the classification of a block (R167) -/

/-- The candidate a classification adds to the scan's list. -/
def Classified.found : Classified → List Candidate
  | .candidate x => [x]
  | .free => []
  | .stale _ => []

theorem recordBlock_frame (b : BlockNo) (k : Classified) (s : State) : ∃ bs, recordBlock b k s =
    { s with store.blocks := bs, store.scan.candidates := s.store.scan.candidates ++ k.found } := by
  cases k with
  | free => exact ⟨_, by simp only [Classified.found, List.append_nil]; rfl⟩
  | stale n => exact ⟨_, by simp only [Classified.found, List.append_nil]; rfl⟩
  | candidate x => exact ⟨_, rfl⟩

theorem recordBlock_block_other {b d : BlockNo} (k : Classified) (s : State) (h : d ≠ b) : (recordBlock b k s).block d = s.block d := by
  cases k with
  | free => exact (block_setBlock ..).trans (if_neg h)
  | stale n => exact (block_setBlock ..).trans (if_neg h)
  | candidate x => rfl

theorem recordBlock_free (b : BlockNo) (s : State) : (recordBlock b .free s).block b = Block.free :=
  (block_setBlock ..).trans (if_pos rfl)

theorem recordBlock_stale (b : BlockNo) (n : Nat) (s : State) : (recordBlock b (.stale n) s).block b = Block.staleWith n :=
  (block_setBlock ..).trans (if_pos rfl)

/-- What the tables hold once every block is classified: the conditions under which the store is rebuilt. -/
structure AllClassified (s : State) : Prop where
  distinct : (s.store.scan.candidates.map (·.block)).Nodup
  unclassified : ∀ x ∈ s.store.scan.candidates, (s.block x.block).state = .unclassified
  notQueued : ∀ b, (s.block b).eraseQueued = false
  rest : ∀ b, (∀ x ∈ s.store.scan.candidates, x.block ≠ b) → (s.block b).state = .free ∨ (s.block b).state = .stale
  queue : s.store.eraseQueue = []
  absent : ∀ c, s.clip c = none

/-- What the scan's tables hold while it reads the last page. -/
theorem ScanConsistent.lastRead {s : State} (tables : ScanConsistent s) (starting : s.store.state = .starting)
    (port : s.store.port = .scanRead 2047 15) :
    s.store.eraseQueue = [] ∧ (∀ c, s.clip c = none) ∧ (∀ d, (s.block d).eraseQueued = false) ∧
    (∀ d, (s.block d).state = .unclassified ∨ (s.block d).state = .free ∨ (s.block d).state = .stale) ∧
    (∀ d, (s.block d).state = .unclassified ↔ d = 2047 ∨ ∃ x ∈ s.store.scan.candidates, x.block = d) ∧
    (s.store.scan.candidates.map (·.block)).Nodup ∧ (∀ x ∈ s.store.scan.candidates, x.block ≠ 2047) ∧
    (s.store.scan.greatest.map (·.1)).Pairwise (· < ·) ∧ (∀ q ∈ s.store.scan.greatest, q.1 < 255 ∧ q.2 ≤ 4294967295) := by
  obtain ⟨b, p, atPort, queue, _, _, absent, notQueued, states, unclassified, rising, below, _, sorted, bounded⟩ := tables starting
  rw [port] at atPort
  cases atPort
  refine ⟨queue, absent, notQueued, states, fun d => ?_, rising.imp Fin.ne_of_lt, fun x hx => Fin.ne_of_lt (below x hx), sorted,
    bounded⟩
  have greatest : (2047 : BlockNo) ≤ d ↔ d = 2047 := by
    have := d.isLt
    rw [Fin.le_def, Fin.ext_iff]
    show 2047 ≤ d.val ↔ d.val = 2047
    omega
  rw [unclassified, greatest]

/-- The last block's record leaves every block FREE, STALE or a candidate. -/
theorem ScanConsistent.allClassified {s : State} (tables : ScanConsistent s) (starting : s.store.state = .starting)
    (port : s.store.port = .scanRead 2047 15) (g : Table Nat) {k : Classified} (own : ∀ x, k = .candidate x → x.block = 2047) :
    AllClassified (recordBlock 2047 k { s with store.scan.greatest := g, store.scan.pages := [] }) := by
  obtain ⟨queue, absent, notQueued, states, unclassified, distinct, below, _, _⟩ := tables.lastRead starting port
  have last : (s.block 2047).state = .unclassified := (unclassified 2047).2 (.inl rfl)
  have rest (d : BlockNo) (hd : d ≠ 2047) (unfound : ∀ x ∈ s.store.scan.candidates, x.block ≠ d) :
      (s.block d).state = .free ∨ (s.block d).state = .stale :=
    (states d).resolve_left fun h => ((unclassified d).1 h).elim hd fun ⟨x, hx, e⟩ => unfound x hx e
  have recorded (y : Block) (classified : y.state = .free ∨ y.state = .stale) (fresh : y.eraseQueued = false) :
      AllClassified (({ s with store.scan.greatest := g, store.scan.pages := [] } : State).setBlock 2047 y) := by
    refine ⟨distinct, fun x hx => ?_, fun b => ?_, fun b unfound => ?_, queue, absent⟩
    · rw [block_setBlock, if_neg (below x hx)]
      exact (unclassified _).2 (.inr ⟨x, hx, rfl⟩)
    · rw [block_setBlock]
      split
      · exact fresh
      · exact notQueued b
    · rw [block_setBlock]
      split
      · exact classified
      · next hb => exact rest b hb unfound
  cases k with
  | free => exact recorded Block.free (.inl rfl) rfl
  | stale n => exact recorded (Block.staleWith n) (.inr rfl) rfl
  | candidate x =>
    have at2047 := own x rfl
    refine ⟨?_, fun y hy => ?_, notQueued, fun b unfound => ?_, queue, absent⟩
    · show ((s.store.scan.candidates ++ [x]).map (·.block)).Nodup
      rw [List.map_append, List.nodup_append]
      refine ⟨distinct, by simp, fun b hb c hc => ?_⟩
      obtain ⟨y, hy, rfl⟩ := List.mem_map.1 hb
      rw [List.map_singleton, List.mem_singleton] at hc
      rw [hc, at2047]
      exact below y hy
    · rcases List.mem_append.1 hy with hy | hy
      · exact (unclassified _).2 (.inr ⟨y, hy, rfl⟩)
      · rw [List.mem_singleton.1 hy, at2047]; exact last
    · exact rest b (fun e => unfound x (List.mem_append_right _ (List.mem_singleton.2 rfl)) (at2047.trans e.symm))
        fun y hy => unfound y (List.mem_append_left _ hy)

/-! ### The load chosen for a clip (R172, R173) -/

theorem latestLoad_eq (s : State) (c : ClipId) : latestLoad s c =
    s.store.scan.candidates.filter fun x => decide (x.clip = c) && decide (x.load = s.store.scan.greatest.read 0 c.val) := by
  simp only [latestLoad, Bool.decide_and]

/-- The record of a clip whose latest load is complete (R52, R173). -/
theorem chosenLoad_of_complete {s : State} {c : ClipId} {l : List Candidate} {h : Header} {n : Nat}
    (complete : LoadComplete (latestLoad s c) l h n) : chosenLoad s c = some (l,
      { state := .ready, format := h.format, rate := h.rate, protect := h.protect, name := h.name
        load := s.store.scan.greatest.read 0 c.val, places := l.map fun x => some x.block, accepted := n * h.format.size
        programmed := n * h.format.size, samples := some n }) := by
  obtain ⟨perm, _, _, _, ⟨first, head, _⟩, _⟩ := id complete
  have latest : first ∈ latestLoad s c := perm.mem_iff.1 (List.mem_of_mem_head? head)
  have load : first.load = s.store.scan.greatest.read 0 c.val := by
    rw [latestLoad_eq, List.mem_filter, Bool.and_eq_true, decide_eq_true_eq, decide_eq_true_eq] at latest
    exact latest.2.2
  exact (completeLoad_iff _ _ _).2 ⟨h, n, complete, first, head, by rw [load]⟩

theorem complete_of_chosenLoad {s : State} {c : ClipId} {l : List Candidate} {x : Clip} (chosen : chosenLoad s c = some (l, x)) :
    ∃ h n, LoadComplete (latestLoad s c) l h n := by
  obtain ⟨h, n, complete, _⟩ := (completeLoad_iff _ _ _).1 chosen
  exact ⟨h, n, complete⟩

theorem chosenLoad_none {s : State} {c : ClipId} (incomplete : ∀ l h n, ¬ LoadComplete (latestLoad s c) l h n) :
    chosenLoad s c = none := by
  cases chosen : chosenLoad s c with
  | none => rfl
  | some r =>
    obtain ⟨h, n, complete⟩ := complete_of_chosenLoad chosen
    exact absurd complete (incomplete _ _ _)

/-! ### The load counter (R9, R12, R174) -/

theorem scannedCounter_of_zero {t : Table Nat} (sorted : (t.map (·.1)).Pairwise (· < ·)) (bound : ∀ q ∈ t, q.1 < 255)
    (zero : ∀ c : ClipId, t.read 0 c.val = 0) : scannedCounter (greatestLoad t) = some 1 := by
  have noLoad : greatestLoad t = 0 := (greatestLoad_spec sorted bound).2.elim id fun ⟨c, e⟩ => e.symm.trans (zero c)
  rw [noLoad]
  rfl

theorem scannedCounter_of_greatest {t : Table Nat} (sorted : (t.map (·.1)).Pairwise (· < ·)) (bound : ∀ q ∈ t, q.1 < 255)
    {c : ClipId} (nonzero : t.read 0 c.val ≠ 0) (greatest : ∀ d : ClipId, t.read 0 d.val ≤ t.read 0 c.val) :
    scannedCounter (greatestLoad t) = if t.read 0 c.val < 4294967295 then some (t.read 0 c.val + 1) else none := by
  obtain ⟨upper, attained⟩ := greatestLoad_spec sorted bound
  have this : greatestLoad t = t.read 0 c.val := by
    have atLeast := upper c
    rcases attained with e | ⟨d, e⟩
    · omega
    · have atMost := greatest d
      omega
  rw [this]
  exact if_neg nonzero

/-! ### The block table after the rebuild (R171 to R174) -/

/-- No block stays unclassified, and the scan retires none. -/
theorem rebuilt_states {w t : State}
    (found : ∀ x ∈ w.store.scan.candidates,
      ((∃ l y, chosenLoad w x.clip = some (l, y) ∧ x ∈ l) → t.block x.block = x.owned) ∧
      ((∀ l y, chosenLoad w x.clip = some (l, y) → x ∉ l) →
        t.block x.block = { Block.staleWith x.pages with eraseQueued := true }))
    (others : ∀ b, (∀ x ∈ w.store.scan.candidates, x.block ≠ b) →
      ((w.block b).state = .free ∧ t.block b = w.block b) ∨
      ((w.block b).state = .stale ∧ t.block b = { w.block b with eraseQueued := true })) (b : BlockNo) :
    (t.block b).state ≠ .retired ∧ (t.block b).state ≠ .unclassified := by
  by_cases candidate : ∃ x ∈ w.store.scan.candidates, x.block = b
  · obtain ⟨x, hx, rfl⟩ := candidate
    by_cases taken : ∃ l y, chosenLoad w x.clip = some (l, y) ∧ x ∈ l
    · rw [(found x hx).1 taken]; simp [Candidate.owned]
    · rw [(found x hx).2 fun l y chosen mem => taken ⟨l, y, chosen, mem⟩]; simp [Block.staleWith]
  · rcases others b fun x hx e => candidate ⟨x, hx, e⟩ with ⟨free, same⟩ | ⟨stale, same⟩
    · rw [same, free]; simp
    · rw [same]; simp [stale]

/-- Settles O27: the last block recorded leaves every block classified, and the rebuild of the store from there is `rebuildStore_spec`. -/
theorem scanCompletes : Obligations.ScanCompletes := by
  unfold Obligations.ScanCompletes
  intro tagGood payloadGood s live starting port tables c last candidates greatest latest
  let w := recordBlock 2047 last { s with store.scan.greatest := noteLoad c s.store.scan.greatest, store.scan.pages := [] }
  obtain ⟨_, _, _, _, _, _, below, sorted, bounded⟩ := tables.lastRead starting port
  obtain ⟨sorted', bounded'⟩ :=
    noteLoad_sorted (g := tagGood) (p := payloadGood) (x := s.flash.read (pageAddress 2047 15)) sorted bounded
  have bound' : ∀ q ∈ noteLoad c s.store.scan.greatest, q.1 < 255 := fun q hq => (bounded' q hq).1
  have all : AllClassified w := tables.allClassified starting port _ fun x hx => classify_block hx
  obtain ⟨bs, frame⟩ := recordBlock_frame 2047 last
    { s with store.scan.greatest := noteLoad c s.store.scan.greatest, store.scan.pages := [] }
  have candidatesEq : candidates = w.store.scan.candidates := by
    have scan := congrArg (fun t => t.store.scan.candidates) frame
    refine Eq.trans ?_ scan.symm
    show s.store.scan.candidates ++ _ = s.store.scan.candidates ++ last.found
    cases last <;> rfl
  have greatestEq : w.store.scan.greatest = noteLoad c s.store.scan.greatest := congrArg (fun t => t.store.scan.greatest) frame
  have latestEq (k : ClipId) : latest k = latestLoad w k := by
    rw [latestLoad_eq, ← candidatesEq, greatestEq]
  obtain ⟨⟨bs', cs, rebuilt⟩, clips, found, others⟩ :=
    rebuildStore_spec all.distinct all.unclassified all.notQueued all.rest all.queue all.absent
  have lastOther (h : last.found = []) : ∀ x ∈ w.store.scan.candidates, x.block ≠ 2047 := by
    have scan : w.store.scan.candidates = s.store.scan.candidates ++ last.found := congrArg (fun t => t.store.scan.candidates) frame
    rw [scan, h, List.append_nil]
    exact below
  have state := rebuilt_states found others
  refine ⟨rebuildStore w, ?_, ?_, fun k => ⟨fun l h n complete => ?_, fun incomplete => ?_⟩,
    fun x hx => ⟨fun l h n complete taken => ?_, fun left => ?_⟩, fun b hb unfound => ?_, fun free => ?_, fun n stale => ?_,
    state, ?_, fun zero => ?_, fun k nonzero most => ?_⟩
  · have done : exec (.scanReadComplete tagGood payloadGood) s = .next (scanDone tagGood payloadGood s) := event_taken live
    have override : (rebuildStore w).inputs.overrideResult = s.inputs.overrideResult :=
      (congrArg (fun t => t.inputs.overrideResult) rebuilt).trans (congrArg (fun t => t.inputs.overrideResult) frame)
    rw [done, scanDone_last port, nextBlock_last, completeScan, pendingOverride, override]
  · have clipsKept := congrArg State.clips rebuilt
    have blocksKept := congrArg (fun t => t.store.blocks) rebuilt
    have queueKept := congrArg (fun t => t.store.eraseQueue) rebuilt
    have counterKept := congrArg (fun t => t.store.loadCounter) rebuilt
    dsimp only at clipsKept blocksKept queueKept counterKept
    rw [clipsKept, blocksKept, queueKept, counterKept]
    refine rebuilt.trans ?_
    have recorded : w = _ := frame
    rw [recorded]
    rfl
  · rw [latestEq] at complete
    rw [clips, chosenLoad_of_complete complete, greatestEq]
    rfl
  · rw [clips, chosenLoad_none fun l h n => by rw [← latestEq]; exact incomplete l h n]
    rfl
  · rw [latestEq] at complete
    exact (found x (candidatesEq ▸ hx)).1 ⟨l, _, chosenLoad_of_complete complete, taken⟩
  · refine (found x (candidatesEq ▸ hx)).2 fun l y chosen => ?_
    obtain ⟨h, n, complete⟩ := complete_of_chosenLoad chosen
    exact left l h n (by rw [latestEq]; exact complete)
  · have same : w.block b = s.block b := recordBlock_block_other _ _ hb
    have := others b (candidatesEq ▸ unfound)
    rwa [same] at this
  · have entry : w.block 2047 = Block.free := by
      show (recordBlock 2047 last _).block 2047 = _
      rw [free, recordBlock_free]
    have := others 2047 (lastOther (by rw [free]; rfl))
    rw [entry] at this
    exact this.elim And.right fun h => nomatch h.1
  · have entry : w.block 2047 = Block.staleWith n := by
      show (recordBlock 2047 last _).block 2047 = _
      rw [stale, recordBlock_stale]
    have := others 2047 (lastOther (by rw [stale]; rfl))
    rw [entry] at this
    exact this.elim (fun h => nomatch h.1) And.right
  · have queued := congrArg (fun t => t.store.eraseQueue) rebuilt
    dsimp only at queued
    rw [queued, allBlocks]
  · have counter : (rebuildStore w).store.loadCounter = _ := congrArg (fun t => t.store.loadCounter) rebuilt
    rw [counter, greatestEq]
    exact scannedCounter_of_zero sorted' bound' zero
  · have counter : (rebuildStore w).store.loadCounter = _ := congrArg (fun t => t.store.loadCounter) rebuilt
    rw [counter, greatestEq]
    exact scannedCounter_of_greatest sorted' bound' nonzero most

end Sys2Proof.Machine
end

section
/-! SUPPORT. The encodings read back: numbers of one, two and four bytes, texts, page tags, start orders and steps (R2, R54, R190, R191,
R196, R200). -/

namespace Sys2Proof.Machine

/-! ### Fields (R190, R191) -/

theorem toNat_byteOf {n : Nat} (h : n ≤ 255) : (byteOf n).toNat = n := by
  simp only [byteOf, BitVec.toNat_ofNat]
  omega

theorem fromLe_le16_of_lt {n : Nat} (h : n < 65536) : fromLe (le16 n) = n := by
  simp only [le16, fromLe, byteOf, BitVec.toNat_ofNat]
  omega

theorem fromLe_le32_of_lt {n : Nat} (h : n < 4294967296) : fromLe (le32 n) = n := by
  simp only [le32, fromLe, byteOf, BitVec.toNat_ofNat]
  omega

theorem oneBased_numberByte {n : Nat} (i : Fin n) (h : n ≤ 255) : oneBased n (numberByte i).toNat = some i :=
  oneBased_eq (toNat_byteOf (by omega))

theorem textField_eq {text : List Byte} (h : text.length ≤ 16) : textField text = text ++ List.replicate (16 - text.length) 0 := by
  rw [textField, List.take_append, List.take_of_length_le h, List.take_replicate, Nat.min_eq_left (Nat.sub_le _ _)]

theorem textField_length (text : List Byte) : (textField text).length = 16 := by
  simp [textField]

theorem readText_textField {text : List Byte} (short : text.length ≤ 16) (plain : text.all printable = true) :
    readText (textField text) = some text := by
  refine (readText_eq_some (textField_length text)).2 ⟨short, fun b hb => ?_, textField_eq short⟩
  have := List.all_eq_true.1 plain b hb
  simpa [printable] using this

/-! ### Page tags (R2, R170, R200) -/

theorem Tag.inRange_iff {t : Tag} : t.inRange = true ↔
    (1 ≤ t.load ∧ t.load ≤ Config.greatestNumber) ∧ t.sequence ≤ 511 ∧ (∀ n, t.final = some n → 1 ≤ n ∧ n ≤ 16777216) ∧
    ∀ h, t.header = some h → h.name.length ≤ 16 ∧ h.name.all printable = true := by
  obtain ⟨clip, load, sequence, page, final, header⟩ := t
  cases final <;> cases header <;>
    simp only [Tag.inRange, Bool.and_eq_true, decide_eq_true_eq, Option.some.injEq, forall_eq',
      reduceCtorEq, false_implies, implies_true, and_true, true_and, and_assoc]

/-- The 20 bytes of a tag's header field. -/
def headerBytes : Option Header → List Byte
  | none => List.replicate 20 0
  | some h => [1, h.format.code, h.rate.code, yesNo h.protect] ++ textField h.name

theorem Tag.bytes_eq (t : Tag) : t.bytes =
    numberByte t.clip :: le32 t.load ++ le16 t.sequence ++ [byteOf t.page.val, yesNo t.final.isSome] ++ le32 (t.final.getD 0)
      ++ headerBytes t.header := by
  unfold Tag.bytes headerBytes
  cases t.header <;> rfl

theorem headerBytes_length (h : Option Header) : (headerBytes h).length = 20 := by
  cases h with
  | none => rfl
  | some h => simp [headerBytes, textField_length]

theorem Tag.bytes_length (t : Tag) : t.bytes.length = 33 := by
  simp [Tag.bytes_eq, headerBytes_length, le32, le16]

theorem readFinal_bytes {t : Tag} (range : ∀ n, t.final = some n → 1 ≤ n ∧ n ≤ 16777216) : readFinal t.bytes = some t.final := by
  have flag : t.bytes.getD 8 0 = yesNo t.final.isSome := by rw [Tag.bytes_eq]; rfl
  have count : field t.bytes 9 4 = le32 (t.final.getD 0) := by rw [Tag.bytes_eq]; rfl
  simp only [readFinal, flag, count, readYesNo_yesNo, Option.bind_eq_bind, Option.bind_some]
  cases hf : t.final with
  | none => rfl
  | some n =>
    have n_range := range n hf
    have n_read : fromLe (le32 n) = n := fromLe_le32_of_lt (by omega)
    simp [n_read, n_range]

theorem readHeader_bytes {t : Tag} (range : ∀ h, t.header = some h → h.name.length ≤ 16 ∧ h.name.all printable = true) :
    readHeader t.bytes = some t.header := by
  have bytes := Tag.bytes_eq t
  cases hh : t.header with
  | none =>
    have absent : t.bytes.getD 13 0 = 0 := by rw [bytes, hh]; rfl
    have no : readYesNo 0 = some false := rfl
    simp only [readHeader, absent, no, Option.bind_eq_bind, Option.bind_some, Bool.false_eq_true, if_false]
  | some h =>
    obtain ⟨short, plain⟩ := range h hh
    have present : t.bytes.getD 13 0 = 1 := by rw [bytes, hh]; rfl
    have format : t.bytes.getD 14 0 = h.format.code := by rw [bytes, hh]; rfl
    have rate : t.bytes.getD 15 0 = h.rate.code := by rw [bytes, hh]; rfl
    have protect : t.bytes.getD 16 0 = yesNo h.protect := by rw [bytes, hh]; rfl
    have name : field t.bytes 17 16 = textField h.name := by
      rw [bytes, hh]
      exact List.take_of_length_le (Nat.le_of_eq (textField_length h.name))
    have yes : readYesNo 1 = some true := rfl
    simp only [readHeader, present, format, rate, protect, name, yes, readFormat_code, readRate_code, readYesNo_yesNo,
      readText_textField short plain, Option.bind_eq_bind, Option.bind_some, if_true]

theorem readTag_bytes {t : Tag} (inRange : t.inRange = true) : readTag t.bytes = some t := by
  obtain ⟨load_range, sequence_range, final_range, header_range⟩ := Tag.inRange_iff.1 inRange
  have clip : t.bytes.getD 0 0 = numberByte t.clip := by rw [Tag.bytes_eq]; rfl
  have load : field t.bytes 1 4 = le32 t.load := by rw [Tag.bytes_eq]; rfl
  have sequence : field t.bytes 5 2 = le16 t.sequence := by rw [Tag.bytes_eq]; rfl
  have page : t.bytes.getD 7 0 = byteOf t.page.val := by rw [Tag.bytes_eq]; rfl
  have clip_read : readClip (numberByte t.clip) = some t.clip := oneBased_numberByte t.clip (by omega)
  have page_read : below 16 (byteOf t.page.val).toNat = some t.page := below_eq (toNat_byteOf (by omega))
  have load_read : fromLe (le32 t.load) = t.load := fromLe_le32_of_lt (Nat.lt_succ_of_le load_range.2)
  have sequence_read : fromLe (le16 t.sequence) = t.sequence := fromLe_le16_of_lt (by omega)
  simp only [readTag, clip, load, sequence, page, clip_read, page_read, load_read, sequence_read, readFinal_bytes final_range,
    readHeader_bytes header_range, Tag.bytes_length, load_range, sequence_range, Option.bind_eq_bind, Option.bind_some, and_self, if_true]

/-! ### Start orders and steps (R54, R196) -/

theorem readOrder_bytes {o : StartOrder} (zones : o.zones ≠ 0) (priority : o.priority ≤ 14) (wait : o.wait ≤ 255) :
    readOrder (orderAt o.bytes 0) = some o := by
  have raw : orderAt o.bytes 0 =
      { program := numberByte o.program, zones := o.zones, priority := byteOf o.priority, wait := byteOf o.wait
        partialOpt := yesNo o.partialOpt, suspendable := yesNo o.suspendable } := rfl
  have program : readProgram (numberByte o.program) = some o.program := oneBased_numberByte o.program (by omega)
  have priority_read : (byteOf o.priority).toNat = o.priority := toNat_byteOf (by omega)
  have accepted : o.zones ≠ 0 ∧ o.priority ≤ 14 := ⟨zones, priority⟩
  simp only [raw, readOrder, program, readYesNo_yesNo, priority_read, toNat_byteOf wait, Option.bind_eq_bind, Option.bind_some,
    if_pos accepted]

theorem toNat_word_le16 {n : Nat} (h : n < 65536) : (BitVec.ofNat 16 (fromLe (le16 n))).toNat = n := by
  rw [fromLe_le16_of_lt h, BitVec.toNat_ofNat]
  omega

theorem readStep_play (c : ClipId) {n : Nat} (atLeast : 1 ≤ n) (atMost : n ≤ 15) :
    readStep (stepAt (Step.play c n).bytes 0) = some (.play c n) := by
  have raw : stepAt (Step.play c n).bytes 0 = { kind := 1, clip := numberByte c, count := byteOf n, limit := 0, gap := 0 } := rfl
  have clip : readClip (numberByte c) = some c := oneBased_numberByte c (by omega)
  have count : (byteOf n).toNat = n := toNat_byteOf (by omega)
  simp [raw, readStep, clip, count, atLeast, atMost]

theorem readStep_hold (c : ClipId) {n : Nat} (atMost : n ≤ 3600) : readStep (stepAt (Step.hold c n).bytes 0) = some (.hold c n) := by
  have raw : stepAt (Step.hold c n).bytes 0 =
      { kind := 2, clip := numberByte c, count := 0, limit := BitVec.ofNat 16 (fromLe (le16 n)), gap := 0 } := rfl
  have clip : readClip (numberByte c) = some c := oneBased_numberByte c (by omega)
  have limit : (BitVec.ofNat 16 (fromLe (le16 n))).toNat = n := toNat_word_le16 (by omega)
  generalize BitVec.ofNat 16 (fromLe (le16 n)) = w at raw limit
  simp [raw, readStep, clip, limit, atMost]

theorem readStep_gap {n : Nat} (atLeast : 1 ≤ n) (atMost : n ≤ 600) : readStep (stepAt (Step.gap n).bytes 0) = some (.gap n) := by
  have raw : stepAt (Step.gap n).bytes 0 =
      { kind := 3, clip := 0, count := 0, limit := 0, gap := BitVec.ofNat 16 (fromLe (le16 n)) } := rfl
  have gap : (BitVec.ofNat 16 (fromLe (le16 n))).toNat = n := toNat_word_le16 (by omega)
  generalize BitVec.ofNat 16 (fromLe (le16 n)) = w at raw gap
  simp [raw, readStep, gap, atLeast, atMost]

theorem readStep_walk (c : ClipId) : readStep (stepAt (Step.walk c).bytes 0) = some (.walk c) := by
  have raw : stepAt (Step.walk c).bytes 0 = { kind := 4, clip := numberByte c, count := 0, limit := 0, gap := 0 } := rfl
  have clip : readClip (numberByte c) = some c := oneBased_numberByte c (by omega)
  simp [raw, readStep, clip]

/-- Settles O56: tags, orders and steps by the lemmas above, the tables of codes by their values. -/
theorem encodingsReadBack : Obligations.EncodingsReadBack := by
  unfold Obligations.EncodingsReadBack
  refine ⟨fun t => readTag_bytes, fun o => readOrder_bytes, fun p range => ?_, rfl, fun v => rfl, rfl, rfl, rfl, rfl, rfl, rfl, rfl, rfl,
    rfl, rfl, rfl, rfl, rfl, rfl, rfl⟩
  cases p with
  | play c n => exact readStep_play c range.1 range.2
  | hold c n => exact readStep_hold c range
  | gap n => exact readStep_gap range.1 range.2
  | walk c => exact readStep_walk c

end Sys2Proof.Machine
end

section
/-! SUPPORT. The fields of the replies that report the state, part by part in the layouts of chapter 10 (R23, R49, R50, R63, R96, R115,
R143, R157, R196, R198, R201), and the requests that read them. -/

namespace Sys2Proof.Machine

/-! ### Optional parts: start orders, steps, times, origins (R190, R192, R196, R198) -/

theorem orderBytes_eq (o : Option StartOrder) : orderBytes o = startOrderLayout o := by
  cases o <;> rfl

theorem stepBytes_eq (p : Option Step) : stepBytes p = stepLayout p := by
  rcases p with _ | _ | _ | _ | _ <;> rfl

theorem timeBytes_eq (t : Option ClockTime) : timeBytes t = timeLayout t := by
  cases t <;> rfl

theorem originBytes_eq (o : Origin) : originBytes o = originLayout o := by
  cases o <;> rfl

/-! ### STORE.STATUS (R23) -/

theorem countBlocks_eq (p : BlockState → Bool) (s : State) :
    countBlocks p s = ((List.finRange 2048).filter fun b => p (s.block b).state).length := by
  rw [countBlocks, List.countP_eq_length_filter]

theorem isFree_eq (x : BlockState) : x.isFree = decide (x = .free) := by
  cases x <;> rfl

theorem storeStatusFields_eq (s : State) : storeStatusFields s = storeStatusLayout s := by
  have free : (fun b : BlockNo => (s.block b).state.isFree) = fun b => decide ((s.block b).state = .free) :=
    funext fun b => isFree_eq _
  simp only [storeStatusFields, storeStatusLayout, countBlocks_eq, free]
  generalize List.finRange 2048 = blocks
  cases s.store.loadCounter <;> rfl

theorem storeStatusLayout_hunt (s : State) : storeStatusLayout (hunt s) = storeStatusLayout s := by
  simp only [storeStatusLayout, block_hunt]
  generalize List.finRange 2048 = blocks
  rfl

/-! ### CLIP.INFO and CLIP.LIST (R49, R50) -/

theorem heldBlocks_length (x : Clip) : x.heldBlocks.length = (x.places.filter fun p => p.isSome).length := by
  rw [Clip.heldBlocks, List.length_filterMap_eq_countP, List.countP_eq_length_filter]
  rfl

theorem clipInfoFields_eq (x : Clip) : clipInfoFields x = clipInfoLayout x := by
  simp only [clipInfoFields, clipInfoLayout, heldBlocks_length, textField]
  cases x.samples <;> rfl

/-- The next id is just above the last entry where clips lie beyond it, else 0. -/
theorem clipListNext_eq (found : List (ClipId × Clip)) (n : Nat) :
    (match found.drop n, (found.take n).getLast? with
      | _ :: _, some (c, _) => byteOf (c.val + 2)
      | _, _ => 0) =
    if n < found.length then
      match (found.take n).getLast? with
      | some (c, _) => byteOf (c.val + 2)
      | none => 0
    else 0 := by
  by_cases more : n < found.length
  · rw [if_pos more, List.drop_eq_getElem_cons more]
    rcases (found.take n).getLast? with _ | ⟨c, x⟩ <;> rfl
  · rw [if_neg more, List.drop_eq_nil_of_le (Nat.le_of_not_lt more)]

theorem clipListEntry_eq (p : ClipId × Clip) : numberByte p.1 :: p.2.state.code :: le32 (p.2.samples.getD 0) =
    [byteOf (p.1.val + 1), p.2.state.code] ++ le32 (match p.2.samples with
      | some n => n
      | none => 0) := by
  cases p.2.samples <;> rfl

theorem clipListFields_eq {c : ClipId} {s : State} {found : List (ClipId × Clip)} (hf : clipsFrom c s = found) :
    clipListFields c s = clipListLayout found := by
  have entries := funext clipListEntry_eq
  simp only [clipListFields, hf, Config.clipListEntries, entries]
  exact congrArg (· :: _) (clipListNext_eq found 64)

/-! ### PROG.READ (R63) -/

theorem usesProgram_eq (p : ProgramId) (s : State) (v : VoiceId) : usesProgram p s v =
    (decide ((s.voice v).state ≠ .idle) &&
      if v = 6 then decide ((s.voice 6).stepProgram = some p) || decide (s.inputs.overrideProgram = some p)
      else match (s.voice v).order with
        | some o => decide (o.program = p)
        | none => false) := by
  by_cases override : v = 6
  · subst override; rfl
  · cases order : (s.voice v).order <;> simp [usesProgram, overrideVoice, override, order]

theorem progReadFields_eq (p : ProgramId) (x : Program) (s : State) : progReadFields p x s = progReadLayout p x s := by
  have steps : Step.bytes = fun q => stepLayout (some q) := funext fun q => stepBytes_eq (some q)
  have users : usesProgram p s = _ := funext (usesProgram_eq p s)
  simp only [progReadFields, progReadLayout, steps, users, allVoices, List.append_assoc] <;> rfl

/-! ### VOICE.STATUS (R96, R198) -/

theorem controlFlags_eq (release holdEnd stop : Bool) : flagBit release 0 ||| flagBit holdEnd 1 ||| flagBit stop 2 =
    (if release then 1 else 0) + (if holdEnd then 2 else 0) + (if stop then 4 else 0) := by
  cases release <;> cases holdEnd <;> cases stop <;> decide

theorem faultFlags_eq (f : FaultFlags) :
    flagBit f.underrun 0 ||| flagBit f.readError 1 ||| flagBit f.clipMissing 2 ||| flagBit f.starved 3 =
      (if f.underrun then 1 else 0) + (if f.readError then 2 else 0) + (if f.clipMissing then 4 else 0)
        + (if f.starved then 8 else 0) := by
  obtain ⟨starved, clipMissing, readError, underrun⟩ := f
  cases starved <;> cases clipMissing <;> cases readError <;> cases underrun <;> decide

/-- The gravest fault flag that is set (R93). -/
theorem faultCode_eq (f : FaultFlags) : f.code.code =
    if f.starved then 4 else if f.clipMissing then 3 else if f.readError then 2 else if f.underrun then 1 else 0 := by
  obtain ⟨starved, clipMissing, readError, underrun⟩ := f
  cases starved <;> cases clipMissing <;> cases readError <;> cases underrun <;> rfl

theorem positionBytes_eq (x : Voice) : positionBytes x = match x.answer with
    | some a =>
      let n := x.position * a.format.size
      le16 (n / 32768) ++ [byteOf (n % 32768 / 2048)] ++ le16 (n % 2048 / a.format.size)
    | none => [0, 0, 0, 0, 0] := by
  unfold positionBytes
  cases x.answer <;> rfl

theorem timerBytes_eq (x : Voice) : timerBytes x = match x.state with
    | .idle => [0, 0, 0, 0, 0]
    | .prepared => [1] ++ le32 x.discardTimer
    | .waiting => [2] ++ le32 x.waitTimer
    | .active | .suspended => match x.step with
      | some (.gap _) => [3] ++ le32 x.gapTimer
      | some (.hold _ _) => match x.holdTimer with
        | some n => [4] ++ le32 n
        | none => [0, 0, 0, 0, 0]
      | _ => [0, 0, 0, 0, 0] := by
  unfold timerBytes
  cases x.state
  case active | suspended =>
    rcases x.step with _ | (_ | _ | _ | _)
    case some.hold => cases x.holdTimer <;> rfl
    all_goals rfl
  all_goals rfl

theorem endRecordBytes_eq (r : Option EndRecord) : endRecordBytes r = match r with
    | some r =>
      [1, r.cause.code, r.fault.code,
        match r.program with
        | some p => byteOf (p.val + 1)
        | none => 0,
        byteOf r.step] ++ originLayout r.origin ++ le32 r.start ++ timeLayout r.time
    | none => [0, 0, 0, 0, 0, 0, 0, 0, 0, 0, 0, 0, 0, 0, 0, 0] := by
  cases r with
  | none => rfl
  | some r =>
    simp only [endRecordBytes, originBytes_eq, timeBytes_eq]
    cases r.program <;> rfl

theorem voiceStatusFields_eq (v : VoiceId) (s : State) : voiceStatusFields v s = voiceStatusLayout (s.voice v) (s.heldSet v) := by
  simp only [voiceStatusFields, faultFlags_eq]
  simp only [voiceStatusLayout, originBytes_eq, orderBytes_eq, stepBytes_eq, positionBytes_eq, timerBytes_eq, endRecordBytes_eq,
    controlFlags_eq, faultCode_eq] <;> rfl

/-! ### ZONE.STATUS (R115, R118) -/

/-- The effective level, by the holder of the zone. -/
theorem effectiveLevel_eq (s : State) (z : ZoneId) : byteOf (effectiveLevel s z) = match (s.zone z).holder with
    | some (v, _) => if s.inputs.latch = true ∧ v = 6 then byteOf s.inputs.overrideLevel else byteOf (s.zone z).level
    | none => byteOf (s.zone z).level := by
  unfold effectiveLevel State.holds
  rcases (s.zone z).holder with _ | ⟨v, p⟩
  · simp
  · have same : (s.inputs.latch = true ∧ decide (v = 6) = true) ↔ (s.inputs.latch = true ∧ v = 6) := by rw [decide_eq_true_iff]
    show byteOf (if s.inputs.latch = true ∧ decide (v = 6) = true then s.inputs.overrideLevel else (s.zone z).level) =
      if s.inputs.latch = true ∧ v = 6 then byteOf s.inputs.overrideLevel else byteOf (s.zone z).level
    by_cases overridden : s.inputs.latch = true ∧ v = 6
    · rw [if_pos overridden, if_pos (same.2 overridden)]
    · rw [if_neg overridden, if_neg (mt same.1 overridden)]

theorem zoneEntry_eq (s : State) (z : ZoneId) : zoneEntry s z =
    (match (s.zone z).holder with
      | some (v, p) => [byteOf v.val] ++ le32 (s.voice v).start ++ [byteOf p]
      | none => [255, 0, 0, 0, 0, 0])
    ++ [byteOf (s.zone z).level, yesNo (s.zone z).enabled,
        match (s.zone z).holder with
        | some (v, _) => if s.inputs.latch = true ∧ v = 6 then byteOf s.inputs.overrideLevel else byteOf (s.zone z).level
        | none => byteOf (s.zone z).level] := by
  simp only [zoneEntry, effectiveLevel_eq, holderBytes]
  cases (s.zone z).holder <;> rfl

theorem zoneStatusFields_eq (s : State) : zoneStatusFields s = zoneStatusLayout s := by
  have zones : zoneEntry s = _ := funext (zoneEntry_eq s)
  simp only [zoneStatusFields, zoneStatusLayout, zones, allZones, List.append_assoc] <;> rfl

/-! ### CUE.READ (R143, R196) -/

theorem cueRead_eq (x : CueEntry) (c : Cue) : x.bytes ++ yesNo c.done :: c.outcome.bytes = cueReadLayout x c := by
  obtain ⟨entry, done, outcome⟩ := c
  cases outcome <;> rfl

/-! ### TRIG.STATUS (R157, R199) -/

theorem actionBytes_eq (a : TriggerAction) : a.bytes = match a with
    | .none => [0, 0] ++ startOrderLayout none ++ [0, 0]
    | .start e o => [1, e.code] ++ startOrderLayout (some o) ++ [0, 0]
    | .follow o => [2, 0] ++ startOrderLayout (some o) ++ [0, 0]
    | .stop e p => [3, e.code] ++ startOrderLayout none ++ [byteOf p, 0]
    | .release e p => [4, e.code] ++ startOrderLayout none ++ [0, byteOf (p.val + 1)]
    | .mark e => [5, e.code] ++ startOrderLayout none ++ [0, 0] := by
  cases a <;> rfl

theorem trigStatusFields_eq (s : State) : trigStatusFields s = trigStatusLayout s := by
  have entry (i : TriggerId) : trigEntry s i = [levelCode (s.input (i.castLE (by decide))).level] ++ (s.trigger i).action.bytes
      ++ [yesNo (s.trigger i).log] ++ le32 (s.trigger i).lastStart := by
    simp only [trigEntry, List.append_assoc]
    rfl
  have entries : trigEntry s = _ := funext entry
  simp only [trigStatusFields, trigStatusLayout, entries, actionBytes_eq, allTriggers] <;> rfl

/-! ### The requests -/

theorem programRequest_badField {program : Byte} {s : State} {serve : ProgramId → Program → Served}
    (h : program.toNat = 0 ∨ 32 < program.toNat) : programRequest program s serve = answerOnly s .badField := by
  simp only [programRequest, readProgram, oneBased_none h]

theorem programRequest_notFound {program : Byte} {s : State} {serve : ProgramId → Program → Served} {p : ProgramId}
    (named : program.toNat = p.val + 1) (absent : s.program p = none) :
    programRequest program s serve = answerOnly s .notFound := by
  simp only [programRequest, readProgram, oneBased_eq named, absent]

theorem programRequest_found {program : Byte} {s : State} {serve : ProgramId → Program → Served} {p : ProgramId} {x : Program}
    (named : program.toNat = p.val + 1) (present : s.program p = some x) : programRequest program s serve = serve p x := by
  simp only [programRequest, readProgram, oneBased_eq named, present]

theorem heldCue_badField {cue : Byte} {s : State} {serve : CueId → CueEntry → Served}
    (h : cue.toNat = 0 ∨ 96 < cue.toNat) : heldCue cue s serve = answerOnly s .badField := by
  simp only [heldCue, cueRequest, readCue, oneBased_none h]

theorem heldCue_notFound {cue : Byte} {s : State} {serve : CueId → CueEntry → Served} {c : CueId}
    (named : cue.toNat = c.val + 1) (empty : (s.cue c).entry = none) : heldCue cue s serve = answerOnly s .notFound := by
  simp only [heldCue, cueRequest, readCue, oneBased_eq named, empty]

theorem heldCue_found {cue : Byte} {s : State} {serve : CueId → CueEntry → Served} {c : CueId} {x : CueEntry}
    (named : cue.toNat = c.val + 1) (entry : (s.cue c).entry = some x) : heldCue cue s serve = serve c x := by
  simp only [heldCue, cueRequest, readCue, oneBased_eq named, entry]

theorem serveVoiceStatus_none {voice : Byte} {s : State} (h : 6 < voice.toNat) :
    serveVoiceStatus voice s = answerOnly s .badField := by
  simp only [serveVoiceStatus, below_none (Nat.succ_le_of_lt h)]

theorem serveVoiceStatus_some {voice : Byte} {s : State} {v : VoiceId} {held : SetByte} (named : voice.toNat = v.val)
    (zones : ∀ z, hasZone held z = s.holds v z) :
    serveVoiceStatus voice s = answer s .ok (voiceStatusLayout (s.voice v) held) := by
  have set : s.heldSet v = held := setByte_ext fun z => (hasZone_heldSet s v z).trans (zones z).symm
  simp only [serveVoiceStatus, below_eq named, voiceStatusFields_eq, set]

/-- Settles O14: each request is taken and answered by its block, whose fields are those of the layout. -/
theorem readingRequestsAnswer : Obligations.ReadingRequestsAnswer := by
  unfold Obligations.ReadingRequestsAnswer
  intro tag s takes
  refine ⟨?_, fun b => ⟨fun h => ⟨?_, ?_⟩, fun h id0 => ⟨?_, ?_⟩, fun c h named => ⟨fun absent => ?_, fun x clip => ?_,
    fun found rising all => ?_⟩, fun bad => ?_, fun p named => ⟨fun absent => ?_, fun x present => ?_⟩, fun bad => ?_,
    fun v held named zones => ?_, fun bad => ?_, fun c named => ⟨fun empty => ?_, fun x entry => ?_⟩⟩, ?_, ?_⟩
  · refine request_answer (serve := serveStoreStatus) takes ?_
    rw [serveStoreStatus, storeStatusFields_eq, storeStatusLayout_hunt]
  · exact request_answer (serve := serveClipInfo b) takes (clipRequest_starting (s := hunt s) h)
  · exact request_answer (serve := serveClipList b) takes (clipRequest_starting (s := hunt s) h)
  · subst id0
    exact request_answer (serve := serveClipInfo 0) takes (clipRequest_badField (s := hunt s) h)
  · subst id0
    exact request_answer (serve := serveClipList 0) takes (clipRequest_badField (s := hunt s) h)
  · refine request_answer (serve := serveClipInfo b) takes ((clipRequest_named (s := hunt s) h named).trans ?_)
    simp only [clip_hunt, absent] <;> rfl
  · refine request_answer (serve := serveClipInfo b) takes ((clipRequest_named (s := hunt s) h named).trans ?_)
    simp only [clip_hunt, clip, clipInfoFields_eq]
  · refine request_answer (serve := serveClipList b) takes ((clipRequest_named (s := hunt s) h named).trans ?_)
    rw [clipListFields_eq (clipsFrom_eq (s := hunt s) rising all)]
  · exact request_answer (serve := serveProgRead b) takes (programRequest_badField bad)
  · exact request_answer (serve := serveProgRead b) takes (programRequest_notFound (s := hunt s) named absent)
  · refine request_answer (serve := serveProgRead b) takes ((programRequest_found (s := hunt s) named present).trans ?_)
    rw [progReadFields_eq]
    rfl
  · exact request_answer (serve := serveVoiceStatus b) takes (serveVoiceStatus_none bad)
  · exact request_answer (serve := serveVoiceStatus b) takes (serveVoiceStatus_some (s := hunt s) named zones)
  · exact request_answer (serve := serveCueRead b) takes (heldCue_badField bad)
  · exact request_answer (serve := serveCueRead b) takes (heldCue_notFound (s := hunt s) named empty)
  · refine request_answer (serve := serveCueRead b) takes ((heldCue_found (s := hunt s) named entry).trans ?_)
    rw [cueRead_eq]
    rfl
  · refine request_answer (serve := serveZoneStatus) takes ?_
    rw [serveZoneStatus, zoneStatusFields_eq]
    rfl
  · refine request_answer (serve := serveTrigStatus) takes ?_
    rw [serveTrigStatus, trigStatusFields_eq]
    rfl

end Sys2Proof.Machine
end

section
/-! SUPPORT. The rows that are timed by frames, and the pass ends, step ends and step starts that follow a frame (R51, R59, R75, R76,
R80 to R84, R86, R87, R89). -/

namespace Sys2Proof.Machine

/-! ### The part of a voice with an answer of the Clip Map (R80, R81, R84) -/

/-- A yield, the count of the hold timer, and what the yield leaves to do. -/
theorem voicePart_answered {v : VoiceId} {s : State} {a : ClipAnswer} (active : (s.voice v).state = .active)
    (running : (s.voice v).paused = false) (noGap : ∀ g, (s.voice v).step ≠ some (.gap g)) (answer : (s.voice v).answer = some a) :
    (voicePart v s).1 =
      afterYield offers v ((clipFrame v a s).1.setVoice v ((clipFrame v a s).1.voice v).holdCounted) (clipFrame v a s).2 := by
  have part : takesPart v s = true := by simp [takesPart, active, running]
  cases step : (s.voice v).step with
  | none => simp only [voicePart, part, if_true, step, answer, holdCount_eq]
  | some p =>
    cases p with
    | gap g => exact absurd step (noGap g)
    | play _ _ | hold _ _ | walk _ => simp only [voicePart, part, if_true, step, answer, holdCount_eq]

/-- The frame of an underrun that reaches 1600 frames: its first frame set the event flag, so this one sets none. -/
theorem underrunFrame_starves {v : VoiceId} {s : State} (long : 1599 ≤ (s.voice v).underRun) :
    underrunFrame v s =
      (s.setVoice v { s.voice v with
        underRun := (s.voice v).underRun + 1
        underTotal := if (s.voice v).underTotal < 4294967295 then (s.voice v).underTotal + 1 else (s.voice v).underTotal
        faults := { (s.voice v).faults with underrun := true } }, .starve) := by
  have notFirst : (s.voice v).underRun ≠ 0 := by omega
  rw [underrunFrame_eq, if_neg notFirst, if_pos (Nat.succ_le_succ long)]

/-- The part in which a voice starves (R81). -/
theorem voicePart_starves {v : VoiceId} {s : State} {a : ClipAnswer} (active : (s.voice v).state = .active)
    (running : (s.voice v).paused = false) (noGap : ∀ g, (s.voice v).step ≠ some (.gap g)) (answer : (s.voice v).answer = some a)
    (passStarted : (s.voice v).leadIn = false) (missing : (s.voice v).sampleAtPosition = none) (long : 1599 ≤ (s.voice v).underRun) :
    (voicePart v s).1 = endVoice offers v .fault (s.setVoice v ({ s.voice v with
      underRun := (s.voice v).underRun + 1
      underTotal := if (s.voice v).underTotal < 4294967295 then (s.voice v).underTotal + 1 else (s.voice v).underTotal
      faults := { (s.voice v).faults with underrun := true, starved := true } } : Voice).holdCounted) := by
  rw [voicePart_answered active running noGap answer, clipFrame_underrun passStarted missing, underrunFrame_starves long]
  simp only [afterYield, starveVoice, setVoice_setVoice, voice_setVoice, if_true, Voice.holdCounted]

/-- The test of STARVED holds in the frame event in which the voice starves (log entry 16). -/
theorem starves_of {x : Voice} {a : ClipAnswer} (answer : x.answer = some a) (passStarted : x.leadIn = false)
    (missing : x.sampleAtPosition = none) (long : 1599 ≤ x.underRun) : x.starves = true := by
  simp only [Voice.starves, answer, passStarted, missing, Config.starvedFrames]
  simpa using long

theorem gapExpires_of {x : Voice} {g : Nat} (step : x.step = some (.gap g)) (last : x.gapTimer ≤ 1) : x.gapExpires = true := by
  simpa only [Voice.gapExpires, step, decide_eq_true_eq] using last

theorem holdExpires_of {x : Voice} {c : ClipId} {limit : Nat} (step : x.step = some (.hold c limit)) (last : x.holdTimer = some 1) :
    x.holdExpires = true := by
  simp only [Voice.holdExpires, step, last, decide_true]

/-- The last count of a hold timer (R84). -/
theorem holdCounted_last {x : Voice} {endMark release : Bool} (last : x.holdTimer = some 1) (hasEnd : x.holdEndMark = endMark)
    (hasRelease : x.releaseMark = release) :
    x.holdCounted = { x with holdTimer := some 0, holdEndMark := endMark || !release } := by
  subst hasEnd hasRelease
  simp only [Voice.holdCounted, last, Option.map_some, decide_true, Bool.true_and, Nat.sub_self]

/-- The part in which a hold timer runs out: the mark is set before what the yield leaves to do (R84; log entry 10). -/
theorem voicePart_holdExpires {v : VoiceId} {s : State} {a : ClipAnswer} {c : ClipId} {limit : Nat}
    (active : (s.voice v).state = .active) (running : (s.voice v).paused = false) (step : (s.voice v).step = some (.hold c limit))
    (last : (s.voice v).holdTimer = some 1) (answer : (s.voice v).answer = some a) :
    (voicePart v s).1 = afterYield offers v ((clipFrame v a s).1.setVoice v { (clipFrame v a s).1.voice v with
      holdTimer := some 0, holdEndMark := (s.voice v).holdEndMark || !(s.voice v).releaseMark }) (clipFrame v a s).2 := by
  obtain ⟨timer, endMark, releaseMark⟩ := clipFrame_marks v a s
  rw [voicePart_answered active running (by simp [step]) answer, holdCounted_last (timer.trans last) endMark releaseMark]

/-! ### Pass ends (R82, R83, R87) -/

/-- The voice with a pass more counted (R82). -/
def Voice.passCounted (x : Voice) : Voice :=
  { x with passCount := if x.passCount < 65535 then x.passCount + 1 else x.passCount }

section
variable {v : VoiceId} {s : State} (o : Offers)

/-- A pass end over the voice with the pass counted. -/
theorem passEnd_eq : passEnd o v s =
    (let t := s.setVoice v (s.voice v).passCounted
     if (s.voice v).stopAfterPass = true then endVoice o v .stopped t
     else match (s.voice v).step with
      | some (.play _ n) => if (s.voice v).passCounted.passCount < n then nextPass v t else stepEnd o v t
      | some (.hold _ _) => if (s.voice v).releaseMark = true ∨ (s.voice v).holdEndMark = true then stepEnd o v t else nextPass v t
      | some (.walk _) =>
        match (s.voice v).walkZone with
        | none => stepEnd o v t
        | some z =>
          match nextWalkZone v z t with
          | some y => fetchTest v (t.setVoice v { t.voice v with
              walkZone := some y, walked := (t.voice v).walked ||| oneZone y, position := 0, secondPhase := false, fetchPage := 0
              fetchPass := 0, leadIn := true })
          | none => stepEnd o v t
      | some (.gap _) => t
      | none => t) := by
  rfl

/-- The next pass of a voice whose record has just been written (R82). -/
theorem nextPass_setVoice (x : Voice) :
    nextPass v (s.setVoice v x) = fetchTest v (s.setVoice v { x with
      position := 0, secondPhase := false, fetchPass := x.fetchPass - 1
      buffer := x.buffer.map fun p => { p with pass := p.pass - 1 }
      fetch := x.fetch.map fun f => { f with pass := f.pass - 1 } }) := by
  simp only [nextPass, voice_setVoice, if_true, setVoice_setVoice]

theorem passEnd_stopped (stop : (s.voice v).stopAfterPass = true) :
    passEnd o v s = endVoice o v .stopped (s.setVoice v (s.voice v).passCounted) := by
  simp only [passEnd_eq, stop, if_true]

theorem passEnd_play {c : ClipId} {n : Nat} (goesOn : (s.voice v).stopAfterPass = false) (step : (s.voice v).step = some (.play c n)) :
    passEnd o v s = if (s.voice v).passCounted.passCount < n then nextPass v (s.setVoice v (s.voice v).passCounted)
      else stepEnd o v (s.setVoice v (s.voice v).passCounted) := by
  simp only [passEnd_eq, goesOn, Bool.false_eq_true, if_false, step]

theorem passEnd_hold {c : ClipId} {limit : Nat} (goesOn : (s.voice v).stopAfterPass = false)
    (step : (s.voice v).step = some (.hold c limit)) :
    passEnd o v s = if (s.voice v).releaseMark = true ∨ (s.voice v).holdEndMark = true then
        stepEnd o v (s.setVoice v (s.voice v).passCounted)
      else nextPass v (s.setVoice v (s.voice v).passCounted) := by
  simp only [passEnd_eq, goesOn, Bool.false_eq_true, if_false, step]

/-- A voice record that is written moves no zone. -/
theorem nextWalkZone_setVoice (z : ZoneId) (x : Voice) : nextWalkZone v z (s.setVoice v x) = nextWalkZone v z s := rfl

theorem passEnd_walk_moves {c : ClipId} {z y : ZoneId} (goesOn : (s.voice v).stopAfterPass = false)
    (step : (s.voice v).step = some (.walk c)) (zone : (s.voice v).walkZone = some z) (next : nextWalkZone v z s = some y) :
    passEnd o v s = fetchTest v (s.setVoice v { (s.voice v).passCounted with
      walkZone := some y, walked := (s.voice v).passCounted.walked ||| oneZone y, position := 0, secondPhase := false, fetchPage := 0
      fetchPass := 0, leadIn := true }) := by
  simp only [passEnd_eq, goesOn, Bool.false_eq_true, if_false, step, zone, nextWalkZone_setVoice, next, setVoice_setVoice,
    voice_setVoice, if_true]

theorem passEnd_walk_ends {c : ClipId} {z : ZoneId} (goesOn : (s.voice v).stopAfterPass = false)
    (step : (s.voice v).step = some (.walk c)) (zone : (s.voice v).walkZone = some z) (top : nextWalkZone v z s = none) :
    passEnd o v s = stepEnd o v (s.setVoice v (s.voice v).passCounted) := by
  simp only [passEnd_eq, goesOn, Bool.false_eq_true, if_false, step, zone, nextWalkZone_setVoice, top]

/-! ### Step ends (R76) -/

theorem stepEnd_stopped (stop : (s.voice v).stopAfterPass = true) : stepEnd o v s = endVoice o v .stopped s := if_pos stop

theorem stepEnd_next (goesOn : (s.voice v).stopAfterPass = false) :
    stepEnd o v s = stepStart o v (s.setVoice v { s.voice v with stepIndex := (s.voice v).stepIndex + 1 }) := by
  simp only [stepEnd, goesOn, Bool.false_eq_true, if_false]

/-! ### Step starts (R59, R76) -/

theorem askedProgram_general {p : ProgramId} (general : v ≠ 6) (order : ∃ q, (s.voice v).order = some q ∧ q.program = p) :
    askedProgram v s = some p := by
  obtain ⟨q, order, program⟩ := order
  have notOverride : v ≠ overrideVoice := general
  simp only [askedProgram, if_neg notOverride, order, Option.map_some, program]

theorem askedProgram_override {p : ProgramId} {prog : Program} (present : s.program p = some prog)
    (asked : s.inputs.overrideProgram = some p ∨
      ((s.inputs.overrideProgram = none ∨ ∃ q, s.inputs.overrideProgram = some q ∧ s.program q = none) ∧
        (s.voice 6).stepProgram = some p)) : askedProgram 6 s = some p := by
  have override : (6 : VoiceId) = overrideVoice := rfl
  rcases asked with set | ⟨unset | ⟨q, set, empty⟩, latched⟩
  · simp [askedProgram, if_pos override, set, present]
  · simp [askedProgram, if_pos override, unset, latched]
  · simp [askedProgram, if_pos override, set, empty, latched]

/-- A step start with the program it reads given. -/
theorem stepStart_reads {p : ProgramId} {prog : Program} {first : Step} {rest : List Step} (asked : askedProgram v s = some p)
    (present : s.program p = some prog) (steps : prog.steps = first :: rest) :
    stepStart o v s = match prog.steps[(s.voice v).stepIndex]? with
      | some q => latchStep o v (s.voice v).stepIndex q (s.setVoice v { s.voice v with stepProgram := some p })
      | none =>
        if prog.cycle = true ∨ v = 6 then latchStep o v 0 first (s.setVoice v { s.voice v with stepProgram := some p })
        else endVoice o v .completed (s.setVoice v { s.voice v with stepProgram := some p }) := by
  have head : prog.steps[0]? = some first := by rw [steps]; rfl
  simp only [stepStart, asked, present, head]
  cases prog.steps[(s.voice v).stepIndex]? <;> rfl

/-! ### The latching of a step (R51, R75, R86) -/

@[simp] theorem latching_state (x : Voice) (n : Nat) (p : Step) (a : Option ClipAnswer) : (x.latching n p a).state = x.state := rfl
@[simp] theorem latching_step (x : Voice) (n : Nat) (p : Step) (a : Option ClipAnswer) : (x.latching n p a).step = some p := rfl
@[simp] theorem latching_walkZone (x : Voice) (n : Nat) (p : Step) (a : Option ClipAnswer) : (x.latching n p a).walkZone = none := rfl
@[simp] theorem latching_walked (x : Voice) (n : Nat) (p : Step) (a : Option ClipAnswer) : (x.latching n p a).walked = 0 := rfl

theorem latchStep_noClip {p : Step} (n : Nat) (noClip : p.clip? = none) :
    latchStep o v n p s = s.setVoice v ((s.voice v).latching n p none) := by
  simp only [latchStep, noClip, latching_eq]

theorem latchStep_answered {p : Step} {c : ClipId} {a : ClipAnswer} (n : Nat) (clip : p.clip? = some c)
    (answer : s.clipAnswer c = some a) :
    latchStep o v n p s = fetchTest v (chooseWalkZone v (s.setVoice v ((s.voice v).latching n p (some a)))) := by
  simp only [latchStep, clip, answer, latching_eq]

theorem latchStep_missing {p : Step} {c : ClipId} (n : Nat) (clip : p.clip? = some c) (noAnswer : s.clipAnswer c = none) :
    latchStep o v n p s = endVoice o v .fault (s.setVoice v { s.voice v with
      stepIndex := n, faults := { (s.voice v).faults with clipMissing := true } }) := by
  simp only [latchStep, clip, noAnswer]

end

/-- The walk zone of an ACTIVE voice that has just latched a WALK step. -/
theorem chooseWalkZone_latched {v : VoiceId} {s : State} {c : ClipId} {a : ClipAnswer} {z : ZoneId} (n : Nat)
    (active : (s.voice v).state = .active) (held : s.holds v z = true) (least : ∀ w, w < z → s.holds v w = false) :
    chooseWalkZone v (s.setVoice v ((s.voice v).latching n (.walk c) (some a))) =
      s.setVoice v { (s.voice v).latching n (.walk c) (some a) with walkZone := some z, walked := oneZone z } := by
  have chosen := chooseWalkZone_some (v := v) (s := s.setVoice v ((s.voice v).latching n (.walk c) (some a))) (c := c) (z := z)
    (by simpa using active) (by simp) (by simp) held least
  rw [chosen]
  simp

/-- Without a WALK step, an ACTIVE voice and a zone held, none is chosen. -/
theorem chooseWalkZone_not_latched {v : VoiceId} {s : State} {p : Step} {c : ClipId} {a : ClipAnswer} (n : Nat) (clip : p.clip? = some c)
    (no : p ≠ .walk c ∨ (s.voice v).state ≠ .active ∨ ∀ z, s.holds v z = false) :
    chooseWalkZone v (s.setVoice v ((s.voice v).latching n p (some a))) = s.setVoice v ((s.voice v).latching n p (some a)) := by
  refine chooseWalkZone_not ?_
  rcases no with notWalk | inactive | nothing
  · refine .inr (.inl fun d step => notWalk ?_)
    have walk : p = .walk d := by simpa using step
    subst walk
    exact congrArg Step.walk (Option.some.inj clip)
  · exact .inl (by simpa using inactive)
  · exact .inr (.inr (.inr nothing))

/-! ### The statement -/

/-- Settles O55: the rows by the test at the voice's turn and the voice's part in the frame, the ends and starts by their own equations. -/
theorem frameTimedRows : Obligations.FrameTimedRows := by
  unfold Obligations.FrameTimedRows
  refine ⟨fun v s live bus => ⟨atTurn_first, fun active running => ⟨?starved, ?gap, ?hold⟩⟩, fun o v s => ⟨⟨?stopped, ?passes⟩,
    stepEnd_stopped o, stepEnd_next o, ?starts, ?latch⟩⟩
  case starved =>
    intro a answer noGap passStarted missing long
    exact ⟨frameRow live bus active running (starves_of answer passStarted missing long),
      partLeaves_of (voicePart_starves active running noGap answer passStarted missing long)⟩
  case gap =>
    intro g step last
    exact ⟨frameRow live bus active running (gapExpires_of step last),
      partLeaves_of (congrArg Prod.fst ((voicePart_gap active running step).2 last))⟩
  case hold =>
    intro c limit step last
    refine ⟨frameRow live bus active running (holdExpires_of step last), fun a answer => ?_⟩
    have part := voicePart_holdExpires active running step last answer
    refine ⟨fun left => partLeaves_of ?_, fun left => partLeaves_of ?_, fun left => partLeaves_of ?_, fun leadIn => partLeaves_of ?_⟩
    · rw [part, left]; rfl
    · rw [part, left]; rfl
    · rw [part, left]; rfl
    · rw [part, clipFrame_leadIn leadIn]
      simp [afterYield]
  case stopped => exact passEnd_stopped o
  case passes =>
    intro goesOn
    refine ⟨fun c n step => ?_, fun c limit step => ?_, fun c z step zone => ⟨fun y above held least => ?_, fun top => ?_⟩⟩
    · exact ⟨fun more => ((passEnd_play o goesOn step).trans (if_pos more)).trans (nextPass_setVoice _),
        fun done => (passEnd_play o goesOn step).trans (if_neg (Nat.not_lt.2 done))⟩
    · exact ⟨fun marked => (passEnd_hold o goesOn step).trans (if_pos marked), fun noRelease noEnd =>
        ((passEnd_hold o goesOn step).trans (if_neg (not_or.2 ⟨Bool.eq_false_iff.1 noRelease, Bool.eq_false_iff.1 noEnd⟩))).trans
          (nextPass_setVoice _)⟩
    · exact passEnd_walk_moves o goesOn step zone (nextWalkZone_some above held least)
    · exact passEnd_walk_ends o goesOn step zone (nextWalkZone_none top)
  case starts =>
    intro p prog first rest present steps general override
    have asked : askedProgram v s = some p := by
      by_cases isOverride : v = 6
      · subst isOverride
        exact askedProgram_override present (override rfl)
      · exact askedProgram_general isOverride (general isOverride)
    rw [stepStart_reads o asked present steps]
    refine ⟨fun q found => ?_, fun beyond again => ?_, fun beyond once notOverride => ?_⟩
    · rw [found]
    · rw [List.getElem?_eq_none beyond]
      exact if_pos again
    · rw [List.getElem?_eq_none beyond]
      exact if_neg (by simp [once, notOverride])
  case latch =>
    intro n p
    refine ⟨latchStep_noClip o n, fun c x clip found ready => ⟨fun z walk active held least => ?_, fun no => ?_⟩,
      fun c clip notReady => ?_⟩
    · subst walk
      exact (latchStep_answered o n clip (clipAnswer_ready found ready)).trans
        (congrArg (fetchTest v) (chooseWalkZone_latched n active held least))
    · exact (latchStep_answered o n clip (clipAnswer_ready found ready)).trans
        (congrArg (fetchTest v) (chooseWalkZone_not_latched n clip no))
    · exact latchStep_missing o n clip (clipAnswer_notReady notReady)

end Sys2Proof.Machine
end

section
/-! SUPPORT. The program requests that change a record: which step records are faulty (R54, R57), and the checks of PROG.WRITE and of
PROG.DELETE in their order (R56 to R58, R61, R62). -/

namespace Sys2Proof.Machine

/-! ### Faulty step records (R54, R57) -/

/-- Every byte but 0 is a clip id. -/
theorem readClip_eq_none {b : Byte} : readClip b = none ↔ b = 0 := by
  have range := b.isLt
  have zero : b = 0 ↔ b.toNat = 0 := BitVec.toNat_inj.symm
  rw [readClip, oneBased_eq_none, zero]
  omega

/-- A record of a kind with a clip is faulty when its clip id is 0 or a field fails its check. -/
theorem readClip_checked_eq_none {b : Byte} {P : Prop} [Decidable P] {step : ClipId → Step} :
    ((readClip b).bind fun c => if P then some (step c) else none) = none ↔ ¬ (b ≠ 0 ∧ P) := by
  rw [Ne, ← readClip_eq_none]
  cases readClip b <;> simp

theorem readStep_play_eq_none {r : RawStep} (kind : r.kind = 1) : readStep r = none ↔
    ¬ (r.clip ≠ 0 ∧ 1 ≤ r.count.toNat ∧ r.count.toNat ≤ 15 ∧ r.limit = 0 ∧ r.gap = 0) := by
  rw [readStep, if_pos kind]
  exact readClip_checked_eq_none

theorem readStep_hold_eq_none {r : RawStep} (kind : r.kind = 2) : readStep r = none ↔
    ¬ (r.clip ≠ 0 ∧ r.limit.toNat ≤ 3600 ∧ r.count = 0 ∧ r.gap = 0) := by
  rw [readStep, if_neg (by rw [kind]; decide), if_pos kind]
  exact readClip_checked_eq_none

theorem readStep_gap_eq_none {r : RawStep} (kind : r.kind = 3) : readStep r = none ↔
    ¬ (1 ≤ r.gap.toNat ∧ r.gap.toNat ≤ 600 ∧ r.clip = 0 ∧ r.count = 0 ∧ r.limit = 0) := by
  rw [readStep, if_neg (by rw [kind]; decide), if_neg (by rw [kind]; decide), if_pos kind]
  exact ite_eq_right_iff.trans (by simp)

theorem readStep_walk_eq_none {r : RawStep} (kind : r.kind = 4) : readStep r = none ↔
    ¬ (r.clip ≠ 0 ∧ r.count = 0 ∧ r.limit = 0 ∧ r.gap = 0) := by
  rw [readStep, if_neg (by rw [kind]; decide), if_neg (by rw [kind]; decide), if_neg (by rw [kind]; decide), if_pos kind]
  exact readClip_checked_eq_none

theorem readStep_unknownKind {r : RawStep} (notPlay : r.kind ≠ 1) (notHold : r.kind ≠ 2) (notGap : r.kind ≠ 3)
    (notWalk : r.kind ≠ 4) : readStep r = none := by
  rw [readStep, if_neg notPlay, if_neg notHold, if_neg notGap, if_neg notWalk]

/-- A step record is in range when it is one of the four kinds with that kind's fields in range and the others 0 (R54, R57). -/
theorem readStep_eq_none {r : RawStep} : readStep r = none ↔
    ¬ ((r.kind = 1 ∧ r.clip ≠ 0 ∧ 1 ≤ r.count.toNat ∧ r.count.toNat ≤ 15 ∧ r.limit = 0 ∧ r.gap = 0) ∨
       (r.kind = 2 ∧ r.clip ≠ 0 ∧ r.count = 0 ∧ r.limit.toNat ≤ 3600 ∧ r.gap = 0) ∨
       (r.kind = 3 ∧ r.clip = 0 ∧ r.count = 0 ∧ r.limit = 0 ∧ 1 ≤ r.gap.toNat ∧ r.gap.toNat ≤ 600) ∨
       (r.kind = 4 ∧ r.clip ≠ 0 ∧ r.count = 0 ∧ r.limit = 0 ∧ r.gap = 0)) := by
  by_cases play : r.kind = 1
  · simp [readStep_play_eq_none play, play]
  by_cases hold : r.kind = 2
  · rw [readStep_hold_eq_none hold]
    simp [hold, and_left_comm]
  by_cases gap : r.kind = 3
  · rw [readStep_gap_eq_none gap]
    simp [gap, and_assoc, and_comm, and_left_comm]
  by_cases walk : r.kind = 4
  · simp [readStep_walk_eq_none walk, walk]
  · refine iff_of_true (readStep_unknownKind play hold gap walk) ?_
    rintro (⟨kind, -⟩ | ⟨kind, -⟩ | ⟨kind, -⟩ | ⟨kind, -⟩)
    · exact play kind
    · exact hold kind
    · exact gap kind
    · exact walk kind

/-! ### The first faulty record (R57) -/

/-- The records before the first faulty one count its position. -/
theorem firstFaulty_append {good later : List RawStep} {bad : RawStep} (inRange : ∀ r ∈ good, readStep r ≠ none)
    (faulty : readStep bad = none) : firstFaulty (good ++ bad :: later) = some good.length := by
  induction good with
  | nil => simp [firstFaulty, faulty]
  | cons r rs ih =>
    obtain ⟨head, tail⟩ := List.forall_mem_cons.1 inRange
    simp [firstFaulty, head, ih tail]

theorem firstFaulty_eq_none {raw : List RawStep} (inRange : ∀ r ∈ raw, readStep r ≠ none) : firstFaulty raw = none := by
  induction raw with
  | nil => rfl
  | cons r rs ih =>
    obtain ⟨head, tail⟩ := List.forall_mem_cons.1 inRange
    simp [firstFaulty, head, ih tail]

theorem readStep_ne_none_of_map {raw : List RawStep} {steps : List Step} (read : raw.map readStep = steps.map some) :
    ∀ r ∈ raw, readStep r ≠ none := by
  intro r listed faulty
  have absent : none ∈ steps.map some := read ▸ faulty ▸ List.mem_map_of_mem listed
  simp at absent

theorem filterMap_readStep {raw : List RawStep} {steps : List Step} (read : raw.map readStep = steps.map some) :
    raw.filterMap readStep = steps := by
  calc raw.filterMap readStep = (raw.map readStep).filterMap id := by rw [List.filterMap_map]; rfl
    _ = (steps.map some).filterMap id := by rw [read]
    _ = steps := by rw [List.filterMap_map]; exact List.filterMap_some

/-! ### PROG.WRITE (R57, R58) -/

section
variable {program cycle count : Byte} {raw : List RawStep} {s : State} {p : ProgramId} {c : Bool}

theorem records_allowed (fits : raw.length ≤ 12) : ¬ Config.stepsPerProgram < raw.length := Nat.not_lt.2 fits

theorem count_allowed (atLeast : 1 ≤ count.toNat) (atMost : count.toNat ≤ 12) :
    ¬ (count = 0 ∨ Config.stepsPerProgram < count.toNat) := by
  rintro (rfl | above)
  · exact absurd atLeast (by decide)
  · exact Nat.not_lt.2 atMost above

theorem serveProgWrite_tooLong (long : 12 < raw.length) : serveProgWrite program cycle count raw s = answerOnly s .badLength :=
  if_pos long

theorem serveProgWrite_unnamed (fits : raw.length ≤ 12) (bad : program.toNat = 0 ∨ 32 < program.toNat) :
    serveProgWrite program cycle count raw s = answer s .badField [255] := by
  rw [serveProgWrite, if_neg (records_allowed fits), readProgram, oneBased_none bad]
  rfl

theorem serveProgWrite_badCycle (fits : raw.length ≤ 12) (named : program.toNat = p.val + 1) (bad : 1 < cycle.toNat) :
    serveProgWrite program cycle count raw s = answer s .badField [255] := by
  rw [serveProgWrite, if_neg (records_allowed fits), readProgram, oneBased_eq named, readYesNo_eq_none.2 bad]
  rfl

theorem serveProgWrite_badCount (fits : raw.length ≤ 12) (named : program.toNat = p.val + 1) (yesOrNo : readYesNo cycle = some c)
    (bad : count.toNat = 0 ∨ 12 < count.toNat) : serveProgWrite program cycle count raw s = answer s .badField [255] := by
  have refused : count = 0 ∨ Config.stepsPerProgram < count.toNat := bad.imp_left fun zero => BitVec.eq_of_toNat_eq zero
  rw [serveProgWrite, if_neg (records_allowed fits), readProgram, oneBased_eq named, yesOrNo]
  exact if_pos refused

theorem serveProgWrite_miscounted (fits : raw.length ≤ 12) (named : program.toNat = p.val + 1) (yesOrNo : readYesNo cycle = some c)
    (atLeast : 1 ≤ count.toNat) (atMost : count.toNat ≤ 12) (differs : count.toNat ≠ raw.length) :
    serveProgWrite program cycle count raw s = answerOnly s .badLength := by
  rw [serveProgWrite, if_neg (records_allowed fits), readProgram, oneBased_eq named, yesOrNo]
  exact (if_neg (count_allowed atLeast atMost)).trans (if_pos differs.symm)

theorem serveProgWrite_faulty {n : Nat} (nonempty : 1 ≤ raw.length) (fits : raw.length ≤ 12) (named : program.toNat = p.val + 1)
    (yesOrNo : readYesNo cycle = some c) (counts : count.toNat = raw.length) (first : firstFaulty raw = some n) :
    serveProgWrite program cycle count raw s = answer s .badField [byteOf n] := by
  have allowed := count_allowed (Nat.le_trans nonempty (Nat.le_of_eq counts.symm)) (Nat.le_trans (Nat.le_of_eq counts) fits)
  simp only [serveProgWrite, if_neg (records_allowed fits), readProgram, oneBased_eq named, yesOrNo, if_neg allowed,
    if_neg (Decidable.not_not.2 counts.symm), first, badProgram, Option.getD_some]

theorem serveProgWrite_accepted {steps : List Step} (nonempty : 1 ≤ raw.length) (fits : raw.length ≤ 12)
    (named : program.toNat = p.val + 1) (yesOrNo : readYesNo cycle = some c) (counts : count.toNat = raw.length)
    (read : raw.map readStep = steps.map some) :
    serveProgWrite program cycle count raw s = answerOnly (s.setProgram p (some { cycle := c, steps := steps })) .ok := by
  have allowed := count_allowed (Nat.le_trans nonempty (Nat.le_of_eq counts.symm)) (Nat.le_trans (Nat.le_of_eq counts) fits)
  have first := firstFaulty_eq_none (readStep_ne_none_of_map read)
  simp only [serveProgWrite, if_neg (records_allowed fits), readProgram, oneBased_eq named, yesOrNo, if_neg allowed,
    if_neg (Decidable.not_not.2 counts.symm), first, filterMap_readStep read]

/-! ### PROG.DELETE (R61, R62) -/

theorem serveProgDelete_inUse {x : Program} (named : program.toNat = p.val + 1) (present : s.program p = some x)
    (used : ∃ v, usesProgram p s v = true) : serveProgDelete program s = answerOnly s .inUse := by
  obtain ⟨v, uses⟩ := used
  have anyUses : allVoices.any (usesProgram p s) = true := List.any_eq_true.2 ⟨v, mem_allVoices v, uses⟩
  exact (programRequest_found named present).trans (if_pos anyUses)

theorem serveProgDelete_ok {x : Program} (named : program.toNat = p.val + 1) (present : s.program p = some x)
    (unused : ∀ v, usesProgram p s v = false) : serveProgDelete program s = answerOnly (s.setProgram p none) .ok := by
  have noneUses : allVoices.any (usesProgram p s) = false := List.any_eq_false.2 fun v _ => Bool.eq_false_iff.1 (unused v)
  exact (programRequest_found named present).trans (if_neg (Bool.eq_false_iff.1 noneUses))

end

/-! ### The statement -/

/-- Settles O33: the faulty records by readStep_eq_none, each refusal and effect by the check of the request that decides it. -/
theorem programWriteAndDelete : Obligations.ProgramWriteAndDelete := by
  unfold Obligations.ProgramWriteAndDelete
  intro tag id cycle count raw s takes
  have written {t : State} {st : Status} {fields : List Byte}
      (e : serveProgWrite id cycle count raw (hunt s) = answer t st fields) :
      exec (.progWrite tag id cycle count raw) s = .next (reply 48 tag st fields t) :=
    request_answer (serve := serveProgWrite id cycle count raw) takes e
  have deleted {t : State} {st : Status} (e : serveProgDelete id (hunt s) = answerOnly t st) :
      exec (.progDelete tag id) s = .next (reply 50 tag st [] t) :=
    request_answer (serve := serveProgDelete id) takes e
  have inRange (yesOrNo : cycle.toNat ≤ 1) : ∃ c, readYesNo cycle = some c :=
    Option.ne_none_iff_exists'.1 (mt readYesNo_eq_none.1 (Nat.not_lt.2 yesOrNo))
  refine ⟨fun bad => ⟨deleted (programRequest_badField bad), fun fits => written (serveProgWrite_unnamed fits bad)⟩,
    fun long => written (serveProgWrite_tooLong long), fun r => readStep_eq_none, fun p named => ⟨?badCycle, ?badCount, ?miscounted,
      fun c yesOrNo nonempty fits counts => ⟨?accepted, ?faulty⟩, ?notFound, ?inUse, ?empties⟩⟩
  case badCycle => exact fun fits bad => written (serveProgWrite_badCycle fits named bad)
  case badCount =>
    intro fits yesOrNo bad
    obtain ⟨c, cycles⟩ := inRange yesOrNo
    exact written (serveProgWrite_badCount fits named cycles bad)
  case miscounted =>
    intro fits yesOrNo atLeast atMost differs
    obtain ⟨c, cycles⟩ := inRange yesOrNo
    exact written (serveProgWrite_miscounted fits named cycles atLeast atMost differs)
  case accepted =>
    intro steps read
    exact written (serveProgWrite_accepted nonempty fits named (readYesNo_eq_some.2 yesOrNo) counts read)
  case faulty =>
    intro good later bad split good_inRange faulty
    have first : firstFaulty raw = some good.length := split ▸ firstFaulty_append good_inRange faulty
    exact written (serveProgWrite_faulty nonempty fits named (readYesNo_eq_some.2 yesOrNo) counts first)
  case notFound => exact fun absent => deleted (programRequest_notFound (s := hunt s) named absent)
  case inUse =>
    intro present used
    obtain ⟨x, record⟩ := Option.ne_none_iff_exists'.1 present
    exact deleted (serveProgDelete_inUse (s := hunt s) named record used)
  case empties =>
    intro present unused
    obtain ⟨x, record⟩ := Option.ne_none_iff_exists'.1 present
    exact deleted (serveProgDelete_ok (s := hunt s) named record unused)

end Sys2Proof.Machine
end

section
/-! SUPPORT. The bounds that every step keeps: on the trigger FIFO, the link counts, the levels, the clock, the start number counter
and the disabled zones (R67, R99, R122, R155, R158, R183). The store leaves all of that alone, the engine keeps the bounds by what an
EngineStep is, and the few operations that write a bounded field are looked at one by one. -/

namespace Sys2Proof.Machine

/-- What the bounds speak of. -/
def boundedParts (s : State) : List FifoEntry × Nat × Nat × Nat × ClockTime × Nat × Vector Zone 8 :=
  (s.inputs.fifo, s.link.linkErrors, s.link.overruns, s.inputs.overrideLevel, s.schedule.clock.time, s.engine.nextStart,
    s.arbiter.zones)

/-- The six bounds together. -/
def Bounded (s : State) : Prop :=
  FifoBounded s ∧ LinkCountsBounded s ∧ LevelsBounded s ∧ ClockBounded s ∧ CounterBounded s ∧ DisabledFree s

/-- The bounds depend on their parts alone. -/
theorem Bounded.congr {s t : State} (h : Bounded s) (same : boundedParts t = boundedParts s) : Bounded t := by
  simp only [boundedParts, Prod.mk.injEq] at same
  obtain ⟨fifo, errors, overruns, level, time, counter, zones⟩ := same
  simpa only [Bounded, FifoBounded, LinkCountsBounded, LevelsBounded, ClockBounded, CounterBounded, DisabledFree, State.zone,
    fifo, errors, overruns, level, time, counter, zones] using h

/-- A step of the engine keeps the bounds. -/
theorem EngineStep.bounded {s t : State} (e : EngineStep s t) (h : Bounded s) : Bounded t := by
  obtain ⟨fifo, ⟨errors, overruns⟩, ⟨levels, override⟩, clock, counter, free⟩ := h
  refine ⟨?_, ⟨?_, ?_⟩, ⟨fun z => ?_, ?_⟩, ?_, e.counter counter, e.disabledFree free⟩
  · unfold FifoBounded; rw [e.inputs]; exact fifo
  · rw [e.linkErrors]; exact errors
  · rw [e.overruns]; exact overruns
  · rw [e.level]; exact levels z
  · rw [e.inputs]; exact override
  · unfold ClockBounded; rw [e.schedule]; exact clock

/-! ### What leaves the bounded parts as they are: the flash port, the store and the clips -/

section
variable (s : State)

@[simp] theorem boundedParts_setFlag (f : EventFlag) : boundedParts (setFlag f s) = boundedParts s := rfl
@[simp] theorem boundedParts_clearFlags : boundedParts (clearFlags s) = boundedParts s := rfl
@[simp] theorem boundedParts_setMask (m : BitVec 20) : boundedParts (setMask m s) = boundedParts s := rfl
@[simp] theorem boundedParts_hunt : boundedParts (hunt s) = boundedParts s := rfl
@[simp] theorem boundedParts_setBlock (b : BlockNo) (x : Block) : boundedParts (s.setBlock b x) = boundedParts s := rfl
@[simp] theorem boundedParts_setPort (p : Port) : boundedParts (s.setPort p) = boundedParts s := rfl
@[simp] theorem boundedParts_setClip (c : ClipId) (x : Option Clip) : boundedParts (s.setClip c x) = boundedParts s := rfl
@[simp] theorem boundedParts_setProgram (p : ProgramId) (x : Option Program) : boundedParts (s.setProgram p x) = boundedParts s := rfl
@[simp] theorem boundedParts_setVoice (v : VoiceId) (x : Voice) : boundedParts (s.setVoice v x) = boundedParts s := rfl
@[simp] theorem boundedParts_setCue (c : CueId) (x : Cue) : boundedParts (s.setCue c x) = boundedParts s := rfl
@[simp] theorem boundedParts_setInput (i : InputId) (x : Input) : boundedParts (s.setInput i x) = boundedParts s := rfl
@[simp] theorem boundedParts_setTrigger (i : TriggerId) (x : TriggerEntry) : boundedParts (s.setTrigger i x) = boundedParts s := rfl
@[simp] theorem boundedParts_store (x : Store) : boundedParts { s with store := x } = boundedParts s := rfl
@[simp] theorem boundedParts_sendReply (kind tag : Byte) (bytes : List Byte) :
    boundedParts (sendReply kind tag bytes s) = boundedParts s := rfl

@[simp] theorem boundedParts_owe (kind tag : Byte) (r : Bool) (v : Served) :
    boundedParts (owe kind tag r v) = boundedParts v.state := by
  unfold owe; split <;> rfl

theorem FetchStep.boundedParts {s t : State} (e : FetchStep s t) : boundedParts t = boundedParts s := by rw [e.rest]; rfl

@[simp] theorem boundedParts_arbitrate : boundedParts (arbitrate s) = boundedParts s := (fetchStep_arbitrate s).boundedParts

theorem boundedParts_foldl {α : Type} {f : State → α → State} (h : ∀ s a, boundedParts (f s a) = boundedParts s) (l : List α) :
    boundedParts (l.foldl f s) = boundedParts s :=
  foldl_keeps (fun t => boundedParts t = boundedParts s) f (fun t a e => (h t a).trans e) l s rfl

@[simp] theorem boundedParts_queueErase (b : BlockNo) : boundedParts (queueErase b s) = boundedParts s := by
  obtain ⟨⟨bs, e⟩, -⟩ := queueErase_step b s
  rw [e]; rfl

@[simp] theorem boundedParts_releaseBlock (c : ClipId) (b : BlockNo) : boundedParts (releaseBlock c b s) = boundedParts s := by
  unfold releaseBlock
  split
  · dsimp only; split <;> rfl
  · exact boundedParts_queueErase s b

@[simp] theorem boundedParts_reserveBlock (c : ClipId) (b : BlockNo) : boundedParts (reserveBlock c b s) = boundedParts s := by
  unfold reserveBlock; split <;> rfl

@[simp] theorem boundedParts_eraseClip (c : ClipId) : boundedParts (eraseClip c s) = boundedParts s := by
  unfold eraseClip
  split
  · split <;> rfl
  · rfl

@[simp] theorem boundedParts_formatBlock (b : BlockNo) : boundedParts (formatBlock b s) = boundedParts s := by
  obtain ⟨⟨bs, cs, e⟩, -⟩ := formatBlock_step b s
  rw [e]; rfl

@[simp] theorem boundedParts_formatEnd : boundedParts (formatEnd s) = boundedParts s := by
  unfold formatEnd; split <;> rfl

theorem boundedParts_formatLists (clips : List ClipId) (blocks : List BlockNo) :
    boundedParts (formatLists clips blocks s) = boundedParts s := by
  unfold formatLists
  rw [boundedParts_formatEnd]
  exact (boundedParts_foldl _ boundedParts_formatBlock blocks).trans (boundedParts_foldl _ boundedParts_eraseClip clips)

@[simp] theorem boundedParts_acceptChunk (c : ClipId) (chunk : List Byte) :
    boundedParts (acceptChunk c chunk s) = boundedParts s := by
  unfold acceptChunk; split <;> simp

@[simp] theorem boundedParts_takeChunk (c : ClipId) (offset : Nat) (chunk : List Byte) :
    boundedParts (takeChunk c offset chunk s).1 = boundedParts s := by
  unfold takeChunk
  repeat' split
  all_goals simp

@[simp] theorem boundedParts_abortEnd (c : ClipId) : boundedParts (abortEnd c s) = boundedParts s := by
  unfold abortEnd
  split
  · rfl
  · split <;> rfl

@[simp] theorem boundedParts_readPage (tag : Byte) (c : ClipId) (offset length : Nat) (taken payload : List Byte) :
    boundedParts (readPage tag c offset length taken payload s) = boundedParts s := by
  unfold readPage
  dsimp only
  split
  · rfl
  · split <;> rfl

theorem boundedParts_readbackDone (good : Bool) : boundedParts (readbackDone good s) = boundedParts s := by
  unfold readbackDone
  split
  · cases good <;> simp
  · rfl

theorem boundedParts_inspectDone (good : Bool) : boundedParts (inspectDone good s) = boundedParts s := by
  unfold inspectDone
  split
  · dsimp only; split <;> simp
  · rfl

@[simp] theorem boundedParts_programOutcome (verified : Bool) (j : ProgramJob) :
    boundedParts (programOutcome verified j s) = boundedParts s := by
  have reported (x : Clip) : boundedParts (programReport j x s) = boundedParts s := by
    unfold programReport; dsimp only; split <;> rfl
  unfold programOutcome
  split
  · rfl
  · split <;> cases verified <;> simp [failureReport, reported]

theorem boundedParts_programDone (verified : Bool) : boundedParts (programDone verified s) = boundedParts s := by
  unfold programDone
  split
  · cases verified <;> simp only [boundedParts_arbitrate, boundedParts_programOutcome] <;> rfl
  · rfl

@[simp] theorem boundedParts_leaveClip (b : BlockNo) (c : ClipId) : boundedParts (leaveClip b c s) = boundedParts s := by
  unfold leaveClip
  split
  · rfl
  · dsimp only; split <;> rfl

@[simp] theorem boundedParts_eraseFlash (verified : Bool) (b : BlockNo) :
    boundedParts (eraseFlash verified b s) = boundedParts s := by
  unfold eraseFlash; split <;> rfl

theorem boundedParts_eraseDone (verified : Bool) : boundedParts (eraseDone verified s) = boundedParts s := by
  unfold eraseDone
  split
  · dsimp only
    rw [boundedParts_arbitrate, boundedParts_formatEnd]
    split <;> cases verified <;> simp
  · rfl

@[simp] theorem boundedParts_rebuildStore : boundedParts (rebuildStore s) = boundedParts s := by
  have owned (s : State) (x : Candidate) : boundedParts (ownCandidate x s) = boundedParts s := rfl
  have rebuilt (s : State) (c : ClipId) : boundedParts (rebuildClip c s) = boundedParts s := by
    unfold rebuildClip
    split
    · exact boundedParts_foldl s owned _
    · rfl
  have left (s : State) (x : Candidate) : boundedParts (leaveCandidate x s) = boundedParts s := by
    unfold leaveCandidate; split <;> rfl
  simp only [rebuildStore, boundedParts_setFlag, boundedParts_store]
  rw [boundedParts_foldl _ boundedParts_queueErase, boundedParts_foldl _ left, boundedParts_foldl _ rebuilt]

@[simp] theorem boundedParts_recordBlock (b : BlockNo) (c : Classified) : boundedParts (recordBlock b c s) = boundedParts s := by
  cases c <;> rfl

end

/-! ### The store requests and the clip requests -/

section
variable (s : State)

theorem boundedParts_clipRequest {clip : Byte} {s : State} {serve : ClipId → Served}
    (hs : ∀ c, boundedParts (serve c).state = boundedParts s) : boundedParts (clipRequest clip s serve).state = boundedParts s := by
  unfold clipRequest
  repeat' split
  · rfl
  · rfl
  · exact hs _

theorem boundedParts_programRequest {program : Byte} {s : State} {serve : ProgramId → Program → Served}
    (hs : ∀ p x, boundedParts (serve p x).state = boundedParts s) :
    boundedParts (programRequest program s serve).state = boundedParts s := by
  unfold programRequest
  repeat' split
  · rfl
  · rfl
  · exact hs _ _

theorem boundedParts_cueRequest {cue : Byte} {s : State} {serve : CueId → Served}
    (hs : ∀ c, boundedParts (serve c).state = boundedParts s) : boundedParts (cueRequest cue s serve).state = boundedParts s := by
  unfold cueRequest
  split
  · rfl
  · exact hs _

theorem boundedParts_heldCue {cue : Byte} {s : State} {serve : CueId → CueEntry → Served}
    (hs : ∀ c x, boundedParts (serve c x).state = boundedParts s) : boundedParts (heldCue cue s serve).state = boundedParts s := by
  refine boundedParts_cueRequest fun c => ?_
  split
  · rfl
  · exact hs _ _

theorem boundedParts_serveEventsMask (mask : BitVec 24) : boundedParts (serveEventsMask mask s).state = boundedParts s := by
  unfold serveEventsMask; split <;> rfl

theorem boundedParts_serveStoreConfig (b : Byte) : boundedParts (serveStoreConfig b s).state = boundedParts s := by
  unfold serveStoreConfig
  repeat' split
  all_goals simp

theorem boundedParts_serveStoreInspect (tag : Byte) (b : BitVec 16) (p : Byte) :
    boundedParts (serveStoreInspect tag b p s).state = boundedParts s := by
  unfold serveStoreInspect
  repeat' split
  all_goals simp

theorem boundedParts_serveStoreFormat : boundedParts (serveStoreFormat s).state = boundedParts s := by
  unfold serveStoreFormat
  repeat' split
  all_goals simp [formatStore_eq, boundedParts_formatLists]

theorem boundedParts_serveClipOpen (clip format rate protect : Byte) (name : Vector Byte 16) :
    boundedParts (serveClipOpen clip format rate protect name s).state = boundedParts s := by
  refine boundedParts_clipRequest fun c => ?_
  repeat' split
  all_goals rfl

theorem boundedParts_serveClipData (clip : Byte) (offset : BitVec 32) (chunk : List Byte) :
    boundedParts (serveClipData clip offset chunk s).state = boundedParts s := by
  unfold serveClipData
  repeat' split
  all_goals simp

theorem boundedParts_serveClipClose (clip : Byte) : boundedParts (serveClipClose clip s).state = boundedParts s := by
  refine boundedParts_clipRequest fun c => ?_
  repeat' split
  all_goals simp

theorem boundedParts_serveClipAbort (clip : Byte) : boundedParts (serveClipAbort clip s).state = boundedParts s := by
  refine boundedParts_clipRequest fun c => ?_
  repeat' split
  all_goals simp [boundedParts_foldl _ fun s b => boundedParts_releaseBlock s c b]

theorem boundedParts_serveClipErase (clip : Byte) : boundedParts (serveClipErase clip s).state = boundedParts s := by
  refine boundedParts_clipRequest fun c => ?_
  repeat' split
  all_goals simp [boundedParts_foldl _ boundedParts_queueErase]

theorem boundedParts_serveClipRead (tag clip : Byte) (offset : BitVec 32) (length : BitVec 16) :
    boundedParts (serveClipRead tag clip offset length s).state = boundedParts s := by
  refine boundedParts_clipRequest fun c => ?_
  repeat' split
  all_goals simp

theorem boundedParts_serveClipInfo (clip : Byte) : boundedParts (serveClipInfo clip s).state = boundedParts s := by
  refine boundedParts_clipRequest fun c => ?_
  split <;> rfl

/-! ### The other requests that write no bounded part -/

theorem boundedParts_serveProgWrite (program cycle count : Byte) (steps : List RawStep) :
    boundedParts (serveProgWrite program cycle count steps s).state = boundedParts s := by
  unfold serveProgWrite
  repeat' split
  all_goals rfl

theorem boundedParts_serveProgDelete (program : Byte) : boundedParts (serveProgDelete program s).state = boundedParts s := by
  refine boundedParts_programRequest fun p x => ?_
  split <;> rfl

theorem boundedParts_servePaused (paused : Bool) (n : BitVec 32) : boundedParts (servePaused paused n s).state = boundedParts s := by
  unfold servePaused
  split
  · rfl
  · dsimp only; split <;> rfl

theorem boundedParts_serveVoiceRelease (n : BitVec 32) : boundedParts (serveVoiceRelease n s).state = boundedParts s := by
  unfold serveVoiceRelease
  split
  · rfl
  · dsimp only
    repeat' split
    all_goals rfl

theorem boundedParts_serveVoiceStatus (voice : Byte) : boundedParts (serveVoiceStatus voice s).state = boundedParts s := by
  unfold serveVoiceStatus; split <;> rfl

theorem boundedParts_serveVoiceConfig (mode : Byte) : boundedParts (serveVoiceConfig mode s).state = boundedParts s := by
  unfold serveVoiceConfig; split <;> rfl

theorem boundedParts_serveClockStart : boundedParts (serveClockStart s).state = boundedParts s := by
  unfold serveClockStart; split <;> rfl

theorem boundedParts_serveCueWrite (cue : Byte) (r : RawCue) : boundedParts (serveCueWrite cue r s).state = boundedParts s := by
  refine boundedParts_cueRequest fun c => ?_
  split <;> rfl

theorem boundedParts_serveCueEnable (cue : Byte) : boundedParts (serveCueEnable cue s).state = boundedParts s := by
  refine boundedParts_heldCue fun c x => ?_
  split <;> rfl

theorem boundedParts_serveCueDisable (cue : Byte) : boundedParts (serveCueDisable cue s).state = boundedParts s := by
  refine boundedParts_heldCue fun c x => ?_
  split <;> rfl

theorem boundedParts_serveTrigSet (input : Byte) (r : RawTrigger) : boundedParts (serveTrigSet input r s).state = boundedParts s := by
  unfold serveTrigSet; split <;> rfl

end

/-! ### What writes a bounded part -/

section
variable {s : State}

theorem bounded_afterReset : Bounded (afterReset s) := by
  refine ⟨Nat.zero_le _, ⟨Nat.zero_le _, Nat.zero_le _⟩, ⟨fun z => ?_, Nat.zero_le _⟩, ?_,
    ⟨Nat.le_refl 1, show 1 ≤ 4294967295 by decide⟩, fun z hz => ?_⟩
  · rw [zone_afterReset]; exact Nat.zero_le _
  · exact ⟨Nat.zero_le _, Nat.zero_le _, Nat.zero_le _, Nat.zero_le _, Nat.zero_le _⟩
  · rw [zone_afterReset] at hz; cases hz

/-- A link count stays at 65 535 (R183). -/
theorem riseTo_le {greatest n : Nat} (h : n ≤ greatest) : riseTo greatest n ≤ greatest := by
  unfold riseTo; split <;> omega

theorem Bounded.countOverrun (h : Bounded s) :
    Bounded (hunt { s with link.overruns := riseTo Config.greatestCount s.link.overruns }) := by
  obtain ⟨fifo, ⟨errors, overruns⟩, rest⟩ := h
  exact ⟨fifo, ⟨errors, riseTo_le overruns⟩, rest⟩

theorem Bounded.dropFrame (h : Bounded s) : Bounded (dropFrame s) := by
  obtain ⟨fifo, ⟨errors, overruns⟩, rest⟩ := h
  exact ⟨fifo, ⟨riseTo_le errors, overruns⟩, rest⟩

/-- A time in range is written to the clock (R122). -/
theorem Bounded.setClock {c : Clock} (h : Bounded s) (inRange : c.time.inRange) : Bounded (setClock c s) := by
  obtain ⟨fifo, counts, levels, -, rest⟩ := h
  exact ⟨fifo, counts, levels, inRange, rest⟩

theorem Bounded.clock (h : Bounded s) : s.schedule.clock.time.inRange := by
  obtain ⟨-, -, -, clock, -⟩ := h
  exact clock

theorem nextSecond_inRange {t : ClockTime} (h : t.inRange) : t.nextSecond.inRange := by
  unfold ClockTime.inRange ClockTime.nextSecond at *
  repeat' split
  all_goals simp only; omega

/-- A zone record is replaced: its level in range, no holder where it is disabled (R99). -/
theorem Bounded.setZone {z : ZoneId} {x : Zone} (h : Bounded s) (level : x.level ≤ 31)
    (free : x.enabled = false → x.holder = none) : Bounded (s.setZone z x) := by
  obtain ⟨fifo, counts, ⟨levels, override⟩, clock, counter, disabled⟩ := h
  refine ⟨fifo, counts, ⟨fun w => ?_, override⟩, clock, counter, fun w => ?_⟩
  · rw [zone_setZone]
    split
    · exact level
    · exact levels w
  · rw [zone_setZone]
    split
    · exact free
    · exact disabled w

theorem Bounded.zone (h : Bounded s) (z : ZoneId) :
    (s.zone z).level ≤ 31 ∧ ((s.zone z).enabled = false → (s.zone z).holder = none) := by
  obtain ⟨-, -, ⟨levels, -⟩, -, -, disabled⟩ := h
  exact ⟨levels z, disabled z⟩

/-! ### The clock and the schedule -/

theorem Bounded.clearDoneMarks (h : Bounded s) : Bounded (clearDoneMarks s) := h.congr rfl

theorem Bounded.fireCue (h : Bounded s) (c : CueId) (x : CueEntry) : Bounded (fireCue c x s) :=
  ((engineStep_startVoice _ _ s).bounded h).congr rfl

theorem Bounded.enterSecond (h : Bounded s) : Bounded (enterSecond s) := by
  unfold Machine.enterSecond
  refine foldl_keeps Bounded _ (fun t c ht => ?_) _ s h
  split
  · exact ht.fireCue c _
  · exact ht

theorem Bounded.advanceSecond (h : Bounded s) : Bounded (advanceSecond s) := by
  have moved : Bounded (setTime s.schedule.clock.time.nextSecond s) := h.setClock (nextSecond_inRange h.clock)
  unfold Machine.advanceSecond
  dsimp only
  split
  · exact moved.clearDoneMarks.enterSecond
  · exact moved.enterSecond

theorem Bounded.tenth (h : Bounded s) : Bounded (tenth s) := by
  obtain ⟨weekday, hour, minute, second, tenth⟩ := h.clock
  unfold Machine.tenth
  dsimp only
  split
  · next below => exact h.setClock ⟨weekday, hour, minute, second, below⟩
  · exact h.advanceSecond.congr (by simp)

theorem Bounded.minuteMark (h : Bounded s) : Bounded (minuteMark s).1 := by
  have forward (n : Nat) : Bounded (Nat.repeat Machine.advanceSecond n s) := by
    induction n with
    | zero => exact h
    | succ n ih => exact ih.advanceSecond
  obtain ⟨weekday, hour, minute, -, -⟩ := h.clock
  unfold Machine.minuteMark
  split
  · exact h
  · exact h.setClock h.clock
  · dsimp only
    split
    · exact h.setClock ⟨weekday, hour, minute, Nat.zero_le _, Nat.zero_le _⟩
    · exact forward _

theorem readTime_inRange {weekday hour minute second tenth : Byte} {t : ClockTime}
    (h : readTime weekday hour minute second tenth = some t) : t.inRange := by
  unfold readTime at h
  split at h
  · next ok => cases h; exact ok
  · cases h

theorem Bounded.loadClock {t : ClockTime} (h : Bounded s) (inRange : t.inRange) (st : ClockState) : Bounded (loadClock t st s) := by
  unfold Machine.loadClock
  dsimp only
  split
  · exact (h.clearDoneMarks.setClock inRange).congr rfl
  · exact (h.setClock inRange).congr rfl

/-! ### Edges and the override -/

theorem Bounded.endVoice (h : Bounded s) (v : VoiceId) (cause : EndCause) : Bounded (endVoice offers v cause s) :=
  (engineStep_endVoice offersStep_offers v cause s).bounded h

theorem Bounded.startOverride (h : Bounded s) : Bounded (startOverride s) := by
  obtain ⟨t, r, step, e⟩ := startOverride_step s
  rw [e]; exact (step.bounded h).congr rfl

theorem Bounded.appendEntry (h : Bounded s) (x : FifoEntry) : Bounded (appendEntry x s) := by
  unfold Machine.appendEntry
  split
  · next room =>
    obtain ⟨-, rest⟩ := h
    have fits : (s.inputs.fifo ++ [x]).length ≤ 16 := by
      rw [List.length_append]
      exact room
    have appended : Bounded { s with inputs.fifo := s.inputs.fifo ++ [x] } := ⟨fits, rest⟩
    dsimp only
    split
    · exact appended.congr (by simp)
    · exact appended
  · exact h.congr rfl

theorem Bounded.carryOut (h : Bounded s) (i : TriggerId) (e : Edge) : Bounded (carryOut i e s).state := by
  have started (o : StartOrder) : Bounded (triggerStart i o s).state := ((engineStep_startVoice _ _ s).bounded h).congr rfl
  unfold Machine.carryOut
  split
  · exact started _
  · exact started _
  · unfold followStop
    dsimp only
    split
    · exact (h.endVoice _ _).congr rfl
    · exact h.congr rfl
  · exact foldl_keeps Bounded _ (fun t v ht => ht.endVoice v .stopped) _ s h
  · exact foldl_keeps Bounded _ (fun t v ht => ht.congr (boundedParts_setVoice t v _)) _ s h
  · exact h.minuteMark
  · exact h

theorem Bounded.takeEdge (h : Bounded s) (i : TriggerId) (e : Edge) : Bounded (takeEdge i e s) := by
  unfold Machine.takeEdge
  dsimp only
  split
  · exact (h.carryOut i e).appendEntry _
  · exact h.carryOut i e

theorem Bounded.overrideEdge (h : Bounded s) (e : Edge) : Bounded (overrideEdge e s) := by
  cases e with
  | opening => exact h.congr rfl
  | close =>
    have latched : Bounded (runBus (setFlag .overrideOn { s with inputs.latch := true })) := h.congr rfl
    show Bounded (askOverride _)
    unfold askOverride
    split
    · exact latched
    · split
      · exact latched.congr rfl
      · exact latched.startOverride

theorem Bounded.settle (h : Bounded s) (i : InputId) : Bounded (settle i s) := by
  have leveled (x : Input) : Bounded (s.setInput i x) := h.congr rfl
  unfold Machine.settle inputEdge
  dsimp only
  refine Bounded.congr ?_ (boundedParts_arbitrate _)
  split
  · exact (leveled _).takeEdge _ _
  · exact (leveled _).overrideEdge _

theorem Bounded.clearOverride (h : Bounded s) : Bounded (clearOverride s) :=
  (offersStep_offers _ _).bounded ((h.endVoice overrideVoice .stopped).congr rfl)

/-! ### Zones (R112 to R114) -/

theorem Bounded.disableZone (h : Bounded s) (z : ZoneId) : Bounded (disableZone z s) := by
  have disabled := h.setZone (z := z) (x := { s.zone z with enabled := false, holder := none }) (h.zone z).1 fun _ => rfl
  unfold Machine.disableZone
  dsimp only
  split
  · exact disabled
  · exact (engineStep_loseSome offersStep_offers _ _).bounded
      ((engineStep_loseLast offersStep_offers _ _).bounded ((engineStep_wantAlso _ _ _).bounded disabled))

theorem Bounded.enableZone (h : Bounded s) (z : ZoneId) : Bounded (enableZone z s) :=
  (offersStep_offers _ _).bounded (h.setZone (h.zone z).1 fun on => nomatch on)

theorem Bounded.setLevel {level : Nat} (h : Bounded s) (inRange : level ≤ 31) (z : ZoneId) (enabled : Bool) :
    Bounded (setLevel z level enabled s) := by
  have leveled := h.setZone (z := z) (x := { s.zone z with level := level }) inRange (h.zone z).2
  unfold Machine.setLevel
  refine Bounded.congr ?_ (boundedParts_arbitrate _)
  dsimp only
  split
  · exact leveled.disableZone z
  · exact leveled.enableZone z
  · exact leveled
  · exact leveled

theorem Bounded.haltBus (h : Bounded s) : Bounded (haltBus (forceVoices s)) := by
  have forced : Bounded (forceVoices s) :=
    foldl_keeps Bounded _ (fun t v ht => (engineStep_endVoice offersStep_noOffers v .forced t).bounded ht) _ s h
  generalize forceVoices s = u at forced
  exact forced.congr rfl

/-! ### The requests that reach the engine or write a bounded part -/

theorem Bounded.serveVoiceStart (h : Bounded s) (o : RawOrder) : Bounded (serveVoiceStart o s).state := by
  have started := (engineStep_startVoice .link (readOrder o) s).bounded h
  unfold Machine.serveVoiceStart
  split <;> next e => rw [e] at started; exact started.congr (by simp)

theorem Bounded.serveVoicePrepare (h : Bounded s) (o : RawOrder) : Bounded (serveVoicePrepare o s).state := by
  unfold Machine.serveVoicePrepare
  split
  · exact h
  · next o v _ => exact ((engineStep_allocate v .link o s).bounded h).congr (by simp)

theorem Bounded.goVoice (h : Bounded s) (v : VoiceId) : Bounded (goVoice v s).1 := by
  have claimed (o : StartOrder) := (engineStep_claimZones offersStep_offers v o s).bounded h
  unfold Machine.goVoice
  split
  · exact h
  · split
    · exact h
    · split
      · exact h
      · split
        · exact h
        · next o _ =>
          have c := claimed o
          split <;> next e => rw [e] at c; exact c.congr (by simp)

theorem Bounded.serveVoiceGo (h : Bounded s) (n : BitVec 32) : Bounded (serveVoiceGo n s).state := by
  unfold Machine.serveVoiceGo
  split
  · exact h
  · exact h.goVoice _

theorem Bounded.serveVoiceStop (h : Bounded s) (n : BitVec 32) (mode : Byte) : Bounded (serveVoiceStop n mode s).state := by
  have stopped (m : StopMode) (v : VoiceId) : Bounded (stopVoice m v s) := by
    unfold stopVoice
    dsimp only
    split
    · exact h.congr rfl
    · exact (h.endVoice v .stopped).congr (by simp)
  unfold Machine.serveVoiceStop
  split
  · exact h
  · split
    · exact h
    · exact stopped _ _

theorem Bounded.serveZoneSet (h : Bounded s) (zone level enabled : Byte) : Bounded (serveZoneSet zone level enabled s).state := by
  unfold Machine.serveZoneSet
  split
  · next z l e _ _ _ =>
    split
    · exact h
    · exact h.setLevel (by omega) z e
  · exact h

theorem Bounded.serveOutputHalt (h : Bounded s) (force : Byte) : Bounded (serveOutputHalt force s).state := by
  unfold Machine.serveOutputHalt
  repeat' split
  · exact h
  · exact h
  · exact h
  · exact h.haltBus.congr (by simp)

theorem Bounded.serveClockSet (h : Bounded s) (weekday hour minute second tenth start : Byte) :
    Bounded (serveClockSet weekday hour minute second tenth start s).state := by
  unfold Machine.serveClockSet
  split
  · next read _ => exact h.loadClock (readTime_inRange read) _
  · exact h

theorem Bounded.serveTrigRead (h : Bounded s) : Bounded (serveTrigRead s).state := by
  obtain ⟨-, rest⟩ := h
  exact ⟨Nat.zero_le _, rest⟩

theorem Bounded.serveOverrideSet (h : Bounded s) (program level : Byte) : Bounded (serveOverrideSet program level s).state := by
  unfold Machine.serveOverrideSet
  split
  · next p l _ _ =>
    obtain ⟨fifo, counts, ⟨levels, -⟩, rest⟩ := h
    exact ⟨fifo, counts, ⟨levels, Nat.le_of_lt_succ l.isLt⟩, rest⟩
  · exact h

theorem Bounded.serveOverrideClear (h : Bounded s) : Bounded (serveOverrideClear s).state := by
  unfold Machine.serveOverrideClear
  repeat' split
  · exact h
  · exact h
  · exact h.clearOverride.congr (by simp)

/-! ### The completions of fetches and of the scan, and the frame event -/

theorem Bounded.fetchDone (h : Bounded s) (good : Bool) : Bounded (fetchDone good s) := by
  cases port : s.store.port with
  | fetch v b p => exact (engineStep_fetchDone good port).bounded (h.congr (by simp))
  | _ => simpa [Machine.fetchDone, port] using h

theorem Bounded.completeScan (h : Bounded s) : Bounded (completeScan s) := by
  have rebuilt : Bounded (rebuildStore s) := h.congr (by simp)
  refine Bounded.congr ?_ ((boundedParts_arbitrate _).trans (boundedParts_setPort _ _))
  unfold pendingOverride
  split
  · exact rebuilt.startOverride
  · exact rebuilt

theorem Bounded.scanDone (h : Bounded s) (g p : Bool) : Bounded (scanDone g p s) := by
  unfold Machine.scanDone
  split
  · dsimp only
    split
    · exact h.congr rfl
    · unfold nextBlock
      split
      · exact h.congr (by simp)
      · exact Bounded.completeScan (h.congr (by simp))
  · exact h

theorem Bounded.frame (h : Bounded s) : Bounded (frame s) := by
  obtain ⟨t, out, toParts, toFrame⟩ := frame_step s
  exact toFrame.bounded ((toParts.bounded h).congr rfl)

end

/-! ### The commands -/

section
variable {s t : State}

theorem Bounded.event {f : State → State} (hs : Bounded s) (h : event f s = .next t) (hf : Bounded s → Bounded (f s)) :
    Bounded t := by
  cases h
  split
  · exact hs
  · exact hf hs

theorem Bounded.eventWhen {g : State → Bool} {f : State → State} (hs : Bounded s) (h : eventWhen g f s = .next t)
    (hf : Bounded s → Bounded (f s)) : Bounded t := by
  refine hs.event h fun hs => ?_
  split
  · exact hf hs
  · exact hs

theorem Bounded.requestFrame {kind tag : Byte} {r : Bool} {serve : State → Served} (hs : Bounded s)
    (served : ∀ u, Bounded u → Bounded (serve u).state) : Bounded (requestFrame kind tag r serve s) := by
  unfold Machine.requestFrame
  split
  · exact hs.countOverrun
  · exact (served (hunt s) (hs.congr rfl)).congr (by simp)

theorem Bounded.request {kind tag : Byte} {serve : State → Served} (hs : Bounded s) (h : request kind tag serve s = .next t)
    (served : ∀ u, Bounded u → Bounded (serve u).state) : Bounded t :=
  hs.event h fun hs => hs.requestFrame served

/-- A request that leaves the bounded parts as they are. -/
theorem Bounded.requestSame {kind tag : Byte} {serve : State → Served} (hs : Bounded s)
    (h : Machine.request kind tag serve s = .next t)
    (same : ∀ u, boundedParts (serve u).state = boundedParts u) : Bounded t :=
  hs.request h fun u hu => hu.congr (same u)

/-- Every request keeps the bounds. -/
theorem Bounded.execRequest {i : Instr} (hs : Bounded s) (h : execRequest i s = .next t) : Bounded t := by
  cases i with
  | ident tag => exact hs.requestSame h fun _ => rfl
  | report tag => exact hs.requestSame h fun _ => rfl
  | eventsMask tag mask => exact hs.requestSame h fun u => boundedParts_serveEventsMask u _
  | restart tag => exact hs.event h fun hs => hs.requestFrame fun _ hu => hu
  | storeStatus tag => exact hs.requestSame h fun _ => rfl
  | storeConfig tag b => exact hs.requestSame h fun u => boundedParts_serveStoreConfig u _
  | storeInspect tag b p => exact hs.requestSame h fun u => boundedParts_serveStoreInspect u _ _ _
  | storeFormat tag => exact hs.requestSame h boundedParts_serveStoreFormat
  | clipOpen tag clip format rate protect name => exact hs.requestSame h fun u => boundedParts_serveClipOpen u _ _ _ _ _
  | clipData tag clip offset chunk => exact hs.requestSame h fun u => boundedParts_serveClipData u _ _ _
  | clipClose tag clip => exact hs.requestSame h fun u => boundedParts_serveClipClose u _
  | clipAbort tag clip => exact hs.requestSame h fun u => boundedParts_serveClipAbort u _
  | clipErase tag clip => exact hs.requestSame h fun u => boundedParts_serveClipErase u _
  | clipRead tag clip offset length => exact hs.requestSame h fun u => boundedParts_serveClipRead u _ _ _ _
  | clipInfo tag clip => exact hs.requestSame h fun u => boundedParts_serveClipInfo u _
  | clipList tag first => exact hs.requestSame h fun _ => boundedParts_clipRequest fun _ => rfl
  | progWrite tag program cycle count steps => exact hs.requestSame h fun u => boundedParts_serveProgWrite u _ _ _ _
  | progRead tag program => exact hs.requestSame h fun _ => boundedParts_programRequest fun _ _ => rfl
  | progDelete tag program => exact hs.requestSame h fun u => boundedParts_serveProgDelete u _
  | voiceStart tag o => exact hs.request h fun _ hu => hu.serveVoiceStart _
  | voicePrepare tag o => exact hs.request h fun _ hu => hu.serveVoicePrepare _
  | voiceGo tag n => exact hs.request h fun _ hu => hu.serveVoiceGo _
  | voiceStop tag n mode => exact hs.request h fun _ hu => hu.serveVoiceStop _ _
  | voicePause tag n => exact hs.requestSame h fun u => boundedParts_servePaused u _ _
  | voiceResume tag n => exact hs.requestSame h fun u => boundedParts_servePaused u _ _
  | voiceRelease tag n => exact hs.requestSame h fun u => boundedParts_serveVoiceRelease u _
  | voiceStatus tag voice => exact hs.requestSame h fun u => boundedParts_serveVoiceStatus u _
  | voiceConfig tag mode => exact hs.requestSame h fun u => boundedParts_serveVoiceConfig u _
  | zoneSet tag zone level enabled => exact hs.request h fun _ hu => hu.serveZoneSet _ _ _
  | zoneStatus tag => exact hs.requestSame h fun _ => rfl
  | outputHalt tag force => exact hs.request h fun _ hu => hu.serveOutputHalt _
  | outputRun tag => exact hs.requestSame h fun _ => rfl
  | clockSet tag weekday hour minute second tenth start => exact hs.request h fun _ hu => hu.serveClockSet _ _ _ _ _ _
  | clockStart tag => exact hs.requestSame h boundedParts_serveClockStart
  | clockRead tag => exact hs.requestSame h fun _ => rfl
  | cueWrite tag cue record => exact hs.requestSame h fun u => boundedParts_serveCueWrite u _ _
  | cueRead tag cue => exact hs.requestSame h fun _ => boundedParts_heldCue fun _ _ => rfl
  | cueEnable tag cue => exact hs.requestSame h fun u => boundedParts_serveCueEnable u _
  | cueDisable tag cue => exact hs.requestSame h fun u => boundedParts_serveCueDisable u _
  | cueDelete tag cue => exact hs.requestSame h fun _ => boundedParts_heldCue fun _ _ => rfl
  | trigSet tag input entry => exact hs.requestSame h fun u => boundedParts_serveTrigSet u _ _
  | trigRead tag => exact hs.request h fun _ hu => hu.serveTrigRead
  | trigStatus tag => exact hs.requestSame h fun _ => rfl
  | overrideSet tag program level => exact hs.request h fun _ hu => hu.serveOverrideSet _ _
  | overrideClear tag => exact hs.request h fun _ hu => hu.serveOverrideClear
  | overrideStatus tag => exact hs.requestSame h fun _ => rfl
  | _ => cases h; exact hs

theorem Bounded.execFrameComplete {f : Frame} (hs : Bounded s) (h : execFrameComplete f s = .next t) : Bounded t := by
  unfold Machine.execFrameComplete takeFrame at h
  split at h
  · split at h
    · exact hs.requestSame h fun _ => rfl
    · exact hs.requestSame h fun _ => rfl
    · exact hs.execRequest h
  · cases h; exact hs

/-- Every command keeps the bounds. -/
theorem Bounded.exec {c : Instr} (hs : Bounded s) (h : exec c s = .next t) : Bounded t := by
  have asked : Machine.execRequest c s = .next t → Bounded t := hs.execRequest
  cases c with
  | reset => cases h; exact bounded_afterReset
  | resetAsserted => cases h; exact hs.congr rfl
  | frameComplete f => exact hs.execFrameComplete h
  | frameCrcError f => exact hs.eventWhen (show execFrameCrcError f s = _ from h) Bounded.dropFrame
  | frameLengthDrop n => exact hs.eventWhen (show execFrameLengthDrop n s = _ from h) Bounded.dropFrame
  | linkTimeout | byteError => exact hs.eventWhen h Bounded.dropFrame
  | overrun f => exact hs.eventWhen (show execOverrun f s = _ from h) Bounded.countOverrun
  | startByte => exact hs.eventWhen (show execStartByte s = _ from h) fun hs => hs.congr rfl
  | replySent =>
    refine hs.event h fun hs => ?_
    unfold replyGone
    split
    · exact bounded_afterReset
    · exact hs.congr rfl
    · exact hs
    · exact hs
  | fetchComplete good => exact hs.event h fun hs => hs.fetchDone good
  | clipReadReadbackComplete good => exact hs.event h fun hs => hs.congr (boundedParts_readbackDone s good)
  | inspectReadbackComplete good => exact hs.event h fun hs => hs.congr (boundedParts_inspectDone s good)
  | pageProgramComplete v => exact hs.event h fun hs => hs.congr (boundedParts_programDone s v)
  | blockEraseComplete v => exact hs.event h fun hs => hs.congr (boundedParts_eraseDone s v)
  | scanReadComplete g p => exact hs.event h fun hs => hs.scanDone g p
  | frameEvent | starved v | gapTimerExpiry v | holdTimerExpiry v => exact hs.eventWhen h Bounded.frame
  | discardTimerExpiry v =>
    exact hs.eventWhen (show execDiscardTimerExpiry v s = _ from h) fun hs => (hs.endVoice v .discarded).congr (by simp)
  | waitTimerExpiry v =>
    exact hs.eventWhen (show execWaitTimerExpiry v s = _ from h) fun hs => (hs.endVoice v .waitExpired).congr (by simp)
  | tenthEvent => exact hs.eventWhen (show execTenthEvent s = _ from h) Bounded.tenth
  | pinChange i level =>
    cases h
    split
    · exact hs
    · exact hs.congr rfl
  | settleTimerExpiry i => exact hs.eventWhen h fun hs => hs.settle i
  | _ => exact asked h

/-- Settles O59: a step is a command, which keeps the bounds, or a second of the timers, which leaves what they speak of alone. -/
theorem stepsKeepTheBounds : Obligations.StepsKeepTheBounds := by
  intro s t hs h
  show Bounded t
  unfold step at h
  split at h
  · cases h
    refine Bounded.congr hs ?_
    unfold idleStep
    split
    · rfl
    · exact boundedParts_foldl s (fun t v => boundedParts_setVoice t v _) _
  · next c rest _ =>
    have queued : Bounded { s with pending := rest } := Bounded.congr hs rfl
    exact queued.exec h

end

end Sys2Proof.Machine
end

section
/-! SUPPORT. A second of the timers, and the requests and expiries that stop, pause, release and end a voice (R72, R85, R91, R92, R106). -/

namespace Sys2Proof.Machine

/-! ### A second of the discard and wait timers (log entry 13) -/

theorem step_empty {s : State} (empty : s.pending = []) : step s = .next (idleStep s) := by
  unfold step; rw [empty]

theorem idleStep_held {s : State} (held : s.inReset = true) : idleStep s = s := if_pos held

theorem idleStep_live {s : State} (live : s.inReset = false) :
    idleStep s = allVoices.foldl (fun s v => s.setVoice v (s.voice v).afterSecond) s := by
  unfold idleStep; rw [live]; rfl

theorem voice_idleStep {s : State} (live : s.inReset = false) (v : VoiceId) : (idleStep s).voice v = (s.voice v).afterSecond := by
  rw [idleStep_live live, voice_foldl_setVoice Voice.afterSecond allVoices (by decide) s v, if_pos (mem_allVoices v)]

theorem afterSecond_prepared {x : Voice} (h : x.state = .prepared) : x.afterSecond =
    { x with discardTimer := if 1 < x.discardTimer then x.discardTimer - 1 else x.discardTimer } := by
  unfold Voice.afterSecond; rw [h]

theorem afterSecond_waiting {x : Voice} (h : x.state = .waiting) : x.afterSecond =
    { x with waitTimer := if 1 < x.waitTimer then x.waitTimer - 1 else x.waitTimer } := by
  unfold Voice.afterSecond; rw [h]

theorem afterSecond_untimed {x : Voice} (notPrepared : x.state ≠ .prepared) (notWaiting : x.state ≠ .waiting) : x.afterSecond = x := by
  unfold Voice.afterSecond
  split
  · exact absurd ‹_› notPrepared
  · exact absurd ‹_› notWaiting
  · rfl
  · rfl
  · rfl

/-- Settles O2: the fold over the voices, read voice by voice. -/
theorem emptyQueueLetsASecondPass : Obligations.EmptyQueueLetsASecondPass := by
  intro s empty
  refine ⟨fun held => ?_, fun live => ⟨idleStep s, step_empty empty, ?_, fun v => ?_⟩⟩
  · rw [step_empty empty, idleStep_held held]
  · obtain ⟨voices, e⟩ := foldl_setVoice_only Voice.afterSecond allVoices s
    rw [idleStep_live live, e]
  · rw [voice_idleStep live]
    exact ⟨afterSecond_prepared, afterSecond_waiting, afterSecond_untimed⟩

/-! ### VOICE.STOP and the expiries (R72, R91, R106) -/

section
variable {n : BitVec 32} {v : VoiceId} {s : State}

theorem namedVoice_hunt (named : liveVoice s n.toNat = some v) (general : v ≠ 6) : namedVoice n (hunt s) = .ok v :=
  namedVoice_live (s := hunt s) named general

theorem stopVoice_now (v : VoiceId) (s : State) : stopVoice .now v s = arbitrate (endVoice offers v .stopped s) := by
  simp [stopVoice]

theorem stopVoice_afterPass {p : Step} {c : ClipId} (active : (s.voice v).state = .active) (step : (s.voice v).step = some p)
    (clip : p.clip? = some c) : stopVoice .afterPass v s = s.setVoice v { s.voice v with stopAfterPass := true } := by
  simp [stopVoice, active, step, clip]

theorem stopVoice_atOnce (noPass : (s.voice v).state ≠ .active ∨ ∀ p c, (s.voice v).step = some p → p.clip? ≠ some c) :
    stopVoice .afterPass v s = arbitrate (endVoice offers v .stopped s) := by
  refine if_neg ?_
  rintro ⟨-, active, inClip⟩
  obtain ⟨c, clip⟩ := Option.isSome_iff_exists.1 inClip
  obtain ⟨p, step, clip⟩ := Option.bind_eq_some_iff.1 clip
  exact noPass.elim (fun notActive => notActive active) fun noClip => noClip p c step clip

theorem serveVoiceStop_named {mode : Byte} {m : StopMode} (named : liveVoice s n.toNat = some v) (general : v ≠ 6)
    (read : readStopMode mode = some m) : serveVoiceStop n mode (hunt s) = answerOnly (stopVoice m v (hunt s)) .ok := by
  simp only [serveVoiceStop, read, namedVoice_hunt named general]

theorem exec_discardTimerExpiry : exec (.discardTimerExpiry v) s =
    eventWhen (fun s => decide ((s.voice v).state = .prepared)) (fun s => arbitrate (endVoice offers v .discarded s)) s := rfl

theorem exec_waitTimerExpiry : exec (.waitTimerExpiry v) s =
    eventWhen (fun s => decide ((s.voice v).state = .waiting)) (fun s => arbitrate (endVoice offers v .waitExpired s)) s := rfl

end

/-- Settles O38: the modes of VOICE.STOP by the state and the step, the expiries by the state they wait in. -/
theorem stopsAndExpiriesEndVoices : Obligations.StopsAndExpiriesEndVoices := by
  refine ⟨fun tag n v s takes named general => ⟨?_, fun active ⟨p, c, step, clip⟩ => ?_, fun noPass => ?_⟩,
    fun v s live => ⟨fun prepared => ?_, fun waiting => ?_, fun notPrepared => ?_, fun notWaiting => ?_⟩⟩
  · exact request_answer takes ((serveVoiceStop_named named general rfl).trans (by rw [stopVoice_now]; rfl))
  · exact request_answer takes ((serveVoiceStop_named named general rfl).trans
      (by rw [stopVoice_afterPass (s := hunt s) active step clip]; rfl))
  · exact request_answer takes ((serveVoiceStop_named named general rfl).trans
      (by rw [stopVoice_atOnce (s := hunt s) noPass]; rfl))
  · rw [exec_discardTimerExpiry]; exact eventWhen_taken live (decide_eq_true prepared)
  · rw [exec_waitTimerExpiry]; exact eventWhen_taken live (decide_eq_true waiting)
  · rw [exec_discardTimerExpiry]; exact eventWhen_not (decide_eq_false notPrepared)
  · rw [exec_waitTimerExpiry]; exact eventWhen_not (decide_eq_false notWaiting)

/-! ### VOICE.PAUSE, VOICE.RESUME and VOICE.RELEASE (R85, R92) -/

section
variable {n : BitVec 32} {v : VoiceId} {s : State}

theorem started_of_playing {x : VoiceState} (playing : x = .active ∨ x = .suspended) : ¬ (x = .prepared ∨ x = .waiting) := by
  rcases playing with rfl | rfl <;> decide

theorem servePaused_ok (paused : Bool) (named : liveVoice s n.toNat = some v) (general : v ≠ 6)
    (playing : (s.voice v).state = .active ∨ (s.voice v).state = .suspended) :
    servePaused paused n (hunt s) = answerOnly ((hunt s).setVoice v { s.voice v with paused := paused }) .ok := by
  simp only [servePaused, namedVoice_hunt named general]
  exact if_neg (started_of_playing playing)

theorem servePaused_wrongState (paused : Bool) (named : liveVoice s n.toNat = some v) (general : v ≠ 6)
    (unstarted : (s.voice v).state = .prepared ∨ (s.voice v).state = .waiting) :
    servePaused paused n (hunt s) = answerOnly (hunt s) .wrongState := by
  simp only [servePaused, namedVoice_hunt named general]
  exact if_pos unstarted

theorem inHold_of {x : Voice} {c : ClipId} {limit : Nat} (step : x.step = some (.hold c limit)) : x.inHold = true := by
  simp [Voice.inHold, step]

theorem inHold_not {x : Voice} (other : ∀ c limit, x.step ≠ some (.hold c limit)) : x.inHold = false := by
  unfold Voice.inHold
  split
  · exact absurd ‹_› (other _ _)
  · rfl

/-- VOICE.RELEASE of a voice that is ACTIVE or SUSPENDED: its checks in their order (R85). -/
theorem serveVoiceRelease_playing (named : liveVoice s n.toNat = some v) (general : v ≠ 6)
    (playing : (s.voice v).state = .active ∨ (s.voice v).state = .suspended) :
    serveVoiceRelease n (hunt s) =
      if (s.voice v).inHold = false then answerOnly (hunt s) .notHolding
      else if (s.voice v).releaseMark ∨ (s.voice v).holdEndMark then answerOnly (hunt s) .tooLate
      else answerOnly ((hunt s).setVoice v { s.voice v with releaseMark := true }) .ok := by
  simp only [serveVoiceRelease, namedVoice_hunt named general]
  exact if_neg (started_of_playing playing)

theorem serveVoiceRelease_wrongState (named : liveVoice s n.toNat = some v) (general : v ≠ 6)
    (unstarted : (s.voice v).state = .prepared ∨ (s.voice v).state = .waiting) :
    serveVoiceRelease n (hunt s) = answerOnly (hunt s) .wrongState := by
  simp only [serveVoiceRelease, namedVoice_hunt named general]
  exact if_pos unstarted

end

/-- Settles O40: the checks of each request, by the state, the step and the marks of the voice. -/
theorem pauseResumeRelease : Obligations.PauseResumeRelease := by
  intro tag n v s takes named general
  refine ⟨fun playing => ?_, fun unstarted => ?_⟩
  · have release := serveVoiceRelease_playing named general playing
    refine ⟨request_answer takes (servePaused_ok true named general playing),
      request_answer takes (servePaused_ok false named general playing), fun c limit step noRelease noEnd => ?_,
      fun c limit step marked => ?_, fun other => ?_⟩
    · exact request_answer takes (by rw [release, inHold_of step, noRelease, noEnd]; rfl)
    · exact request_answer takes (by rw [release, inHold_of step, if_neg (by decide), if_pos marked]; rfl)
    · exact request_answer takes (by rw [release, inHold_not other, if_pos rfl]; rfl)
  · exact ⟨request_answer takes (servePaused_wrongState true named general unstarted),
      request_answer takes (servePaused_wrongState false named general unstarted),
      request_answer takes (serveVoiceRelease_wrongState named general unstarted)⟩

end Sys2Proof.Machine
end

section
/-! SUPPORT. The end of a voice (R93 to R95, R108), the losses of zones (R79, R88, R90, R107) and the offers of zones (R109, R110). -/

namespace Sys2Proof.Machine

/-! ### The end of a voice (R94, R95) -/

/-- What an end of a voice leaves before the zones it frees are offered. -/
def ended (v : VoiceId) (cause : EndCause) (s : State) : State :=
  freeZones v (setFlag (.voiceEnd v) (leaveWaiting v
    (s.setVoice v { (s.voice v).cleared with endRecord := some (endRecordOf (s.voice v) cause s.clockTime) })))

section
variable {o : Offers} {v w : VoiceId} {cause : EndCause} {s : State}

theorem endVoice_alive (alive : (s.voice v).state ≠ .idle) : endVoice o v cause s = o (s.heldSet v) (ended v cause s) := by
  unfold endVoice; dsimp only; rw [if_neg alive]; rfl

theorem ended_frame : ended v cause s = { s with
    engine.voices := (ended v cause s).engine.voices, arbiter.zones := (ended v cause s).arbiter.zones
    arbiter.waiting := s.arbiter.waiting.filter (· ≠ v), link := (setFlag (.voiceEnd v) s).link } := by
  have freed := (freeZones_step v (setFlag (.voiceEnd v) (leaveWaiting v
    (s.setVoice v { (s.voice v).cleared with endRecord := some (endRecordOf (s.voice v) cause s.clockTime) })))).1
  unfold ended
  generalize freeZones v (setFlag (.voiceEnd v) (leaveWaiting v
    (s.setVoice v { (s.voice v).cleared with endRecord := some (endRecordOf (s.voice v) cause s.clockTime) }))) = u at freed
  generalize u.arbiter.zones = zones at freed
  rw [freed]
  rfl

theorem voice_ended : (ended v cause s).voice w =
    if w = v then { (s.voice v).cleared with endRecord := some (endRecordOf (s.voice v) cause s.clockTime) } else s.voice w := by
  unfold ended
  rw [(freeZones_step v _).1]
  exact voice_setVoice s v w _

theorem zone_ended (z : ZoneId) :
    (ended v cause s).zone z = if s.holds v z = true then { s.zone z with holder := none } else s.zone z :=
  (freeZones_step v _).2 z

end

/-- Settles O39: an end is `ended`, read field by field, and then the offers. -/
theorem endOfAVoice : Obligations.EndOfAVoice := by
  intro o v cause s
  refine ⟨endVoice_idle, fun alive =>
    ⟨ended v cause s, endRecordOf (s.voice v) cause s.clockTime, endVoice_alive alive, ended_frame, ?_, rfl, rfl, rfl, rfl, rfl, rfl,
      fun p asked => ?_, fun unread => ?_, fun noFetch => ?_, fun f fetch pending => ?_, fun f fetch granted => ?_, zone_ended,
      fun w other => by rw [voice_ended, if_neg other]⟩⟩
  · rw [voice_ended, if_pos rfl]; rfl
  · simp only [endRecordOf, asked]
  · simp only [endRecordOf, unread]
  · rw [voice_ended, if_pos rfl]; simp [Voice.cleared, noFetch, withdrawFetch]
  · rw [voice_ended, if_pos rfl]; simp [Voice.cleared, fetch, withdrawFetch, pending]
  · rw [voice_ended, if_pos rfl]; simp [Voice.cleared, fetch, withdrawFetch, granted]

/-! ### Losses of zones (R88, R90, R107) -/

section
variable {o : Offers} {v : VoiceId} {s : State} {order : StartOrder}

theorem loseLast_suspends (active : (s.voice v).state = .active) (ordered : (s.voice v).order = some order) (bare : s.heldSet v = 0)
    (suspendable : order.suspendable = true) : loseLast o v s = s.setVoice v { s.voice v with state := .suspended } := by
  simp [loseLast, active, bare, ordered, suspendable]

theorem loseLast_ends (active : (s.voice v).state = .active) (ordered : (s.voice v).order = some order) (bare : s.heldSet v = 0)
    (unsuspendable : order.suspendable = false) : loseLast o v s = endVoice o v .preempted s := by
  simp [loseLast, active, bare, ordered, unsuspendable]

theorem loseLast_holding (holding : s.heldSet v ≠ 0) : loseLast o v s = s := if_neg fun h => holding h.2

theorem walkZoneLost_iff : walkZoneLost v s = true ↔
    ∃ c z, (s.voice v).step = some (.walk c) ∧ (s.voice v).walkZone = some z ∧ s.holds v z = false := by
  have inWalk : (s.voice v).inWalk = true ↔ ∃ c, (s.voice v).step = some (.walk c) := by
    unfold Voice.inWalk
    rcases (s.voice v).step with _ | (_ | _ | _ | _) <;> simp
  unfold walkZoneLost
  cases (s.voice v).walkZone with
  | none => simp
  | some z => simp [inWalk]

theorem loseSome_unmoved (kept : (s.voice v).state ≠ .active ∨ walkZoneLost v s = false) : loseSome o v s = s := by
  refine if_neg ?_
  rintro ⟨active, lost⟩
  exact kept.elim (fun notActive => notActive active) fun h => by rw [h] at lost; cases lost

section
variable {c : ClipId} {z : ZoneId}

theorem loseSome_walks (active : (s.voice v).state = .active) (step : (s.voice v).step = some (.walk c))
    (walkZone : (s.voice v).walkZone = some z) (lost : s.holds v z = false) : loseSome o v s = walkMove o v s :=
  if_pos ⟨active, walkZoneLost_iff.2 ⟨c, z, step, walkZone, lost⟩⟩

theorem walkMove_moves {y : ZoneId} (walkZone : (s.voice v).walkZone = some z) (next : nextWalkZone v z s = some y) :
    walkMove o v s = fetchTest v (s.setVoice v { s.voice v with
      walkZone := some y, walked := (s.voice v).walked ||| oneZone y, buffer := [], fetch := flushed (s.voice v).fetch
      position := 0, secondPhase := false, fetchPage := 0, fetchPass := 0, leadIn := true }) := by
  simp only [walkMove, walkZone, next, flushed_eq]
  rfl

theorem walkMove_ends (walkZone : (s.voice v).walkZone = some z) (top : nextWalkZone v z s = none) :
    walkMove o v s = stepEnd o v s := by
  simp only [walkMove, walkZone, top]

end
end

/-! ### Offers of zones (R109, R110) -/

section
variable {o : Offers} {s : State} {z : ZoneId} {v : VoiceId} {vs : List VoiceId} {order : StartOrder}

theorem offerZone_skipped (closed : s.inputs.latch = true ∨ (s.zone z).holder ≠ none ∨ (s.zone z).enabled = false) :
    offerZone o z s = s := if_pos closed

theorem offerZone_open (latch : s.inputs.latch = false) (free : (s.zone z).holder = none) (enabled : (s.zone z).enabled = true) :
    offerZone o z s = tryClaimants o z (claimants s z) s := by
  simp [offerZone, latch, free, enabled]

theorem offerZone_unclaimed (unclaimed : ∀ v, isClaimant s z v = false) : offerZone o z s = s := by
  have nobody : claimants s z = [] := List.eq_nil_iff_forall_not_mem.2 fun v hv => by
    have := (claimants_spec s z).1 v |>.1 hv
    rw [unclaimed v] at this; cases this
  unfold offerZone
  split
  · rfl
  · rw [nobody]; rfl

/-- The claimants stand by priority, highest first, then by start number, lowest first (R110). -/
theorem claimants_ordered (s : State) (z : ZoneId) :
    (claimants s z).Pairwise fun v w => ∀ p q, (s.voice v).order = some p → (s.voice w).order = some q →
      q.priority < p.priority ∨ (q.priority = p.priority ∧ (s.voice v).start ≤ (s.voice w).start) := by
  obtain ⟨-, -, sorted⟩ := claimants_spec s z
  refine sorted.imp fun behind p q hp hq => ?_
  rw [← Bool.not_eq_true, standsBefore_iff hq hp] at behind
  omega

theorem tryClaimants_granted {zs : SetByte} (ordered : (s.voice v).order = some order) (waiting : (s.voice v).state = .waiting)
    (granted : evaluateClaim order s = some zs) : tryClaimants o z (v :: vs) s = grantClaim o v order zs s := by
  simp [tryClaimants, waiting, ordered, granted]

theorem tryClaimants_passed (ordered : (s.voice v).order = some order) (waiting : (s.voice v).state = .waiting)
    (refused : evaluateClaim order s = none) : tryClaimants o z (v :: vs) s = tryClaimants o z vs s := by
  simp [tryClaimants, waiting, ordered, refused]

/-- An ACTIVE or SUSPENDED voice holds the zone it takes, at its own priority, wants it no more, and is ACTIVE (R110). -/
def withOffered (v : VoiceId) (z : ZoneId) (priority : Nat) (s : State) : State :=
  (s.setZone z { s.zone z with holder := some (v, priority) }).setVoice v
    { s.voice v with state := .active, wanted := dropZone (s.voice v).wanted z }

theorem takeOffered_eq (ordered : (s.voice v).order = some order) : takeOffered o v z s =
    if (s.voice v).state = .suspended ∧ walkZoneLost v (withOffered v z order.priority s) then
      walkMove o v (withOffered v z order.priority s)
    else withOffered v z order.priority s := by
  have own : order.priority = (s.voice v).order.elim 0 (·.priority) := by rw [ordered]; rfl
  rw [own]
  rfl

theorem tryClaimants_active (ordered : (s.voice v).order = some order) (active : (s.voice v).state = .active) :
    tryClaimants o z (v :: vs) s = withOffered v z order.priority s := by
  have taken : tryClaimants o z (v :: vs) s = takeOffered o v z s := if_neg (by rw [active]; decide)
  rw [taken, takeOffered_eq ordered]
  exact if_neg fun h => by rw [active] at h; cases h.1

theorem tryClaimants_suspended (ordered : (s.voice v).order = some order) (suspended : (s.voice v).state = .suspended) :
    tryClaimants o z (v :: vs) s = loseSome o v (withOffered v z order.priority s) := by
  have taken : tryClaimants o z (v :: vs) s = takeOffered o v z s := if_neg (by rw [suspended]; decide)
  have active : ((withOffered v z order.priority s).voice v).state = .active := by simp [withOffered]
  rw [taken, takeOffered_eq ordered, loseSome]
  simp only [suspended, active, true_and]

end

/-- Settles O42: the losses and the offers, each by its own lemma. -/
theorem lossesAndOffersOfZones : Obligations.LossesAndOffersOfZones := by
  intro o s
  refine ⟨fun v order active ordered => ⟨loseLast_suspends active ordered, loseLast_ends active ordered, loseLast_holding⟩,
    fun v => ⟨fun untouched => ?_, fun c z active step walkZone lost => ⟨fun y above held least => ?_, fun top => ?_⟩⟩,
    fun z => ⟨offerZone_skipped, offerZone_unclaimed, offerZone_open, fun v => ?_, ?_, claimants_ordered s z, rfl,
      fun v vs order ordered => ⟨fun waiting => ⟨fun zs => tryClaimants_granted ordered waiting, tryClaimants_passed ordered waiting⟩,
        tryClaimants_active ordered, tryClaimants_suspended ordered⟩⟩,
    fun zs => ⟨rfl, rfl, fun n => rfl⟩⟩
  · refine loseSome_unmoved (untouched.imp_right fun kept => ?_)
    rw [← Bool.not_eq_true, walkZoneLost_iff]
    rintro ⟨c, z, step, walkZone, lost⟩
    rcases kept with noWalk | noZone | ⟨y, sameZone, held⟩
    · exact noWalk c step
    · rw [noZone] at walkZone; cases walkZone
    · rw [walkZone] at sameZone; cases sameZone; rw [held] at lost; cases lost
  · rw [loseSome_walks active step walkZone lost]
    exact walkMove_moves walkZone (nextWalkZone_some above held least)
  · rw [loseSome_walks active step walkZone lost]
    exact walkMove_ends walkZone (nextWalkZone_none top)
  · obtain ⟨members, -, -⟩ := claimants_spec s z
    rw [members, isClaimant_iff]
  · obtain ⟨-, nodup, -⟩ := claimants_spec s z
    exact nodup

end Sys2Proof.Machine
end

section
/-! SUPPORT. The firing of cues (R128 to R130), the actions of trigger entries (R149 to R154) and the minute mark (R134 to R136). -/

namespace Sys2Proof.Machine

/-! ### Cues that fire (R128 to R130) -/

theorem firedState_eq (x : CueEntry) : firedState x = { x with state := if x.rept = .once then .spent else x.state } := by
  obtain ⟨state, hour, minute, second, days, rept, order⟩ := x
  cases rept with
  | once => rfl
  | weekly => rfl

/-- Settles O48: a firing by what it writes, a second by the list of its due cues. -/
theorem firingRecordsTheOutcome : Obligations.FiringRecordsTheOutcome := by
  intro s
  refine ⟨fun c x => ?_, ?_⟩
  · obtain ⟨cues, clock, flag, engine⟩ := fireCue_step c x s
    have own := cues c
    rw [if_pos rfl] at own
    refine ⟨fun d other => by rw [cues d, if_neg other], by rw [own], by rw [own, firedState_eq], fun v n st started => ?_,
      fun st refused => ?_, ⟨fun v n st started => ?_, fun st refused => ?_⟩, clock, engine⟩
    · rw [started] at own flag
      exact ⟨by rw [own]; rfl, flag⟩
    · rw [refused] at own flag
      exact ⟨by rw [own]; rfl, flag⟩
    · have rest := fireCue_rest c x s
      rwa [started] at rest
    · have rest := fireCue_rest c x s
      rwa [refused] at rest
  · intro isDue
    have dueIff (d : CueId) : (s.cue d).due s.schedule.clock.time = true ↔ isDue d := due_iff _ _
    refine ⟨fun noneDue => ?_, fun c x entry due only => ?_, fun l sorted listed => ?_⟩
    · refine enterSecond_fires (l := []) List.Pairwise.nil fun c x => ?_
      rw [dueIff]
      exact ⟨fun listed => absurd listed List.not_mem_nil, fun ⟨_, due⟩ => absurd due (noneDue c)⟩
    · refine enterSecond_fires (l := [(c, x)]) (List.pairwise_singleton _ _) fun d y => ?_
      rw [dueIff, List.mem_singleton, Prod.mk.injEq]
      constructor
      · rintro ⟨rfl, rfl⟩
        exact ⟨entry, due⟩
      · rintro ⟨entryOfD, dueD⟩
        obtain rfl := only d dueD
        exact ⟨rfl, Option.some.inj (entryOfD.symm.trans entry)⟩
    · exact enterSecond_fires sorted fun c x => by rw [dueIff]; exact listed c x

/-! ### The actions of a trigger entry (R149 to R154) -/

section
variable {i : TriggerId} {e : Edge} {s : State}

theorem carryOut_none {a : TriggerAction} (action : (s.trigger i).action = a) (idle : actionAt a e = .none) :
    carryOut i e s = { state := s, result := .ok, start := 0 } := by
  unfold carryOut
  rw [action, idle]
  cases a <;> rfl

theorem carryOut_start {o : StartOrder}
    (action : (s.trigger i).action = .start e o ∨ ((s.trigger i).action = .follow o ∧ e = .close)) :
    carryOut i e s = triggerStart i o s := by
  unfold carryOut
  rcases action with action | ⟨action, rfl⟩
  · rw [action]; simp only [actionAt, if_true]
  · rw [action]; rfl

theorem carryOut_followStop {o : StartOrder} (action : (s.trigger i).action = .follow o) :
    carryOut i .opening s = followStop i s := by
  unfold carryOut; rw [action]; rfl

theorem carryOut_stop {p : Nat} (action : (s.trigger i).action = .stop e p) :
    carryOut i e s = { state := triggerStop p s, result := .ok, start := 0 } := by
  unfold carryOut; rw [action]; simp only [actionAt, if_true]

theorem carryOut_release {p : ProgramId} (action : (s.trigger i).action = .release e p) :
    carryOut i e s = { state := triggerRelease p s, result := .ok, start := 0 } := by
  unfold carryOut; rw [action]; simp only [actionAt, if_true]

theorem carryOut_mark (action : (s.trigger i).action = .mark e) :
    carryOut i e s = { state := (minuteMark s).1, result := (minuteMark s).2, start := 0 } := by
  unfold carryOut; rw [action]; simp only [actionAt, if_true]

theorem followStop_stale (gone : (s.trigger i).lastStart = 0 ∨ liveVoice s (s.trigger i).lastStart = none) :
    followStop i s = { state := setLastStart i 0 s, result := .stale, start := (s.trigger i).lastStart } := by
  have nobody : followedVoice i s = none := by
    unfold followedVoice
    dsimp only
    split
    · rfl
    · next started => exact gone.resolve_left started
  simp only [followStop, nobody]

theorem followStop_stops {v : VoiceId} (started : (s.trigger i).lastStart ≠ 0)
    (live : liveVoice s (s.trigger i).lastStart = some v) :
    followStop i s = { state := setLastStart i 0 (endVoice offers v .stopped s), result := .ok, start := (s.trigger i).lastStart } := by
  have found : followedVoice i s = some v := by
    unfold followedVoice
    dsimp only
    rw [if_neg started, live]
  simp only [followStop, found]

theorem triggerStop_eq (p : Nat) (s : State) : triggerStop p s = generalVoices.foldl
    (fun u v => if stopReaches p s v = true then endVoice offers v .stopped u else u) s := List.foldl_filter

theorem mem_generalVoices (v : VoiceId) : v ∈ generalVoices ↔ v ≠ 6 := by revert v; decide

/-- A RELEASE action sets the release mark of the voices it reaches, and changes nothing else (R153). -/
theorem triggerRelease_step (p : ProgramId) (s : State) :
    (∃ voices, triggerRelease p s = { s with engine.voices := voices }) ∧
    ∀ v, (triggerRelease p s).voice v =
      if v ≠ 6 ∧ releaseReaches p s v = true then { s.voice v with releaseMark := true } else s.voice v := by
  have nodup : (generalVoices.filter (releaseReaches p s)).Nodup := List.Pairwise.filter _ (by decide)
  refine ⟨foldl_setVoice_only (fun x => { x with releaseMark := true }) _ s, fun v => ?_⟩
  have released := voice_foldl_setVoice (fun x => { x with releaseMark := true }) _ nodup s v
  simp only [List.mem_filter, mem_generalVoices] at released
  exact released

end

/-! ### The minute mark (R134 to R136) -/

section
variable {s : State}

theorem minuteMark_unset (unset : s.schedule.clock.state = .unset) : minuteMark s = (s, .wrongState) := by
  unfold minuteMark; rw [unset]

theorem minuteMark_held (held : s.schedule.clock.state = .held) :
    minuteMark s = ({ s with schedule.clock.state := .running }, .ok) := by
  unfold minuteMark; rw [held]; rfl

theorem minuteMark_back (running : s.schedule.clock.state = .running) (early : s.schedule.clock.time.second < 30) :
    minuteMark s = ({ s with schedule.clock.time.second := 0, schedule.clock.time.tenth := 0 }, .ok) := by
  unfold minuteMark
  rw [running]
  dsimp only
  rw [if_pos early]
  rfl

theorem minuteMark_forward (running : s.schedule.clock.state = .running) (late : 30 ≤ s.schedule.clock.time.second) :
    minuteMark s = (roundForward s, .ok) := by
  unfold minuteMark
  rw [running]
  dsimp only
  rw [if_neg (Nat.not_lt.2 late)]

theorem atDayEnd_iff {t : ClockTime} : t.atDayEnd = true ↔ t.hour = 23 ∧ t.minute = 59 ∧ t.second = 59 := by
  simp [ClockTime.atDayEnd, and_assoc]

theorem roundForward_state (s : State) : (roundForward s).schedule.clock.state = s.schedule.clock.state := by
  have seconds (n : Nat) : (Nat.repeat advanceSecond n s).schedule.clock.state = s.schedule.clock.state := by
    induction n with
    | zero => rfl
    | succ n ih => rw [repeat_succ, advanceSecond_clock]; exact ih
  exact seconds _

end

/-- Settles O52: the actions by what the entry asks for at its edge, the minute mark by the state and the second of the clock. -/
theorem edgesCarryOutTheirAction : Obligations.EdgesCarryOutTheirAction := by
  intro s
  refine ⟨fun i e => ⟨fun a action idle => ?_, fun o action => ?_, ?_, fun p action => ?_, fun p action => ?_, fun action => ?_⟩,
    minuteMark_unset, minuteMark_held, minuteMark_back, ?_⟩
  · rw [carryOut_none action idle]
    exact ⟨rfl, rfl, rfl⟩
  · rw [carryOut_start action]
    exact ⟨rfl, rfl, rfl⟩
  · rintro o action rfl
    rw [carryOut_followStop action]
    refine ⟨?_, fun gone => ?_, fun v started live => ?_⟩
    · unfold followStop; dsimp only; split <;> rfl
    · rw [followStop_stale gone]
      exact ⟨rfl, rfl⟩
    · rw [followStop_stops started live]
      exact ⟨rfl, rfl⟩
  · rw [carryOut_stop action, triggerStop_eq]
    exact ⟨rfl, rfl, rfl⟩
  · obtain ⟨⟨voices, frame⟩, released⟩ := triggerRelease_step p s
    rw [carryOut_release action]
    exact ⟨rfl, rfl, by rw [frame], released⟩
  · rw [carryOut_mark action]
    exact ⟨rfl, rfl, rfl⟩
  · intro midnight following second running late inRange
    have secondIs : second = advanceSecond := by
      funext u
      have dayEnd : u.schedule.clock.time.atDayEnd = true ↔ midnight u.schedule.clock.time := atDayEnd_iff
      show enterSecond (if midnight u.schedule.clock.time then _ else _) = enterSecond (if u.schedule.clock.time.atDayEnd then _ else _)
      simp only [dayEnd]
      rfl
    rw [minuteMark_forward running late, secondIs]
    refine ⟨rfl, (roundForward_state s).trans running, fun w h m sec tenth time weekday hour minute => ?_⟩
    have atMost : sec ≤ 59 := by rw [time] at inRange; exact inRange
    rw [roundForward_time time atMost weekday]

end Sys2Proof.Machine
end

section
/-! SUPPORT. The frame event: the slots of its frame (R116 to R118), and the parts of the voices in it (R80, R81, R84, R86, R89). -/

namespace Sys2Proof.Machine

/-! ### The slots (R116 to R118) -/

section
variable {s : State} {yields : VoiceId → Option Yield} {z : ZoneId} {v : VoiceId} {p : Nat}

theorem slotValue_free (free : (s.zone z).holder = none) : slotValue s yields z = 0 := by
  simp only [slotValue, free]

theorem slotValue_noPart (held : (s.zone z).holder = some (v, p)) (noPart : yields v = none) : slotValue s yields z = 0 := by
  simp only [slotValue, held, noPart]

theorem slotValue_yield {y : Yield} (held : (s.zone z).holder = some (v, p)) (yielded : yields v = some y) :
    slotValue s yields z = if y.only = none ∨ y.only = some z then scale y.value (effectiveLevel s z) else 0 := by
  simp only [slotValue, held, yielded]

theorem scale_silent (value : Int) : scale value 31 = 0 := by
  simp [scale, multiplier]

/-- A zone at effective level 31 is silent, whoever holds it (R118). -/
theorem slotValue_silent (silent : effectiveLevel s z = 31) : slotValue s yields z = 0 := by
  unfold slotValue
  repeat' split
  · rfl
  · rfl
  · rw [silent, scale_silent]
  · rfl

theorem formSlots_get (s : State) (yields : List (VoiceId × Yield)) (z : ZoneId) :
    (formSlots s yields)[z] = BitVec.ofInt 24 (slotValue s (yieldOf yields) z) := by
  simp [formSlots]

end

/-! ### A voice's part (R80, R81, R84, R86, R89) -/

section
variable {s : State} {v : VoiceId}

theorem voicePart_absent (absent : (s.voice v).state ≠ .active ∨ (s.voice v).paused = true) : voicePart v s = (s, none) := by
  have noPart : takesPart v s = false := by
    unfold takesPart
    rcases absent with notActive | paused
    · rw [decide_eq_false notActive]; rfl
    · rw [paused]; exact Bool.and_false _
  unfold voicePart
  rw [noPart]
  rfl

/-- The one zone that the yield of a voice in a step is for: the walk zone in a WALK step, none in any other (R86). -/
def Voice.zoneIn (x : Voice) (p : Step) : Option ZoneId :=
  match p with
  | .walk _ => x.walkZone
  | .play _ _ => none
  | .hold _ _ => none
  | .gap _ => none

theorem zoneIn_eq {x : Voice} {p : Step} (step : x.step = some p) : x.zoneIn p = if x.inWalk then x.walkZone else none := by
  unfold Voice.inWalk
  rw [step]
  cases p <;> rfl

/-- The count of the hold timer that follows every yield of a clip step (R84). -/
def afterCount (v : VoiceId) (t : State) : State := t.setVoice v (t.voice v).holdCounted

/-- An ACTIVE voice that is not paused, in a clip step that the Clip Map has answered, with the zone its yield is for (R80, R86). -/
structure PlaysClip (v : VoiceId) (a : ClipAnswer) (only : Option ZoneId) (s : State) : Prop where
  active : (s.voice v).state = .active
  unpaused : (s.voice v).paused = false
  step : ∃ p c, (s.voice v).step = some p ∧ p.clip? = some c
  answer : (s.voice v).answer = some a
  only : only = if (s.voice v).inWalk then (s.voice v).walkZone else none

section
variable {a : ClipAnswer} {only : Option ZoneId} (plays : PlaysClip v a only s)
include plays

/-- The part of a voice in a clip step, from what its yield leaves (R80). -/
theorem PlaysClip.part {t : State} {r : AfterYield} (yielded : clipFrame v a s = (t, r)) :
    voicePart v s =
      (afterYield offers v (afterCount v t) r, some { value := widen a.format (t.voice v).lastSample, only := only }) := by
  obtain ⟨p, c, step, clip⟩ := plays.step
  rw [voicePart_clip plays.active plays.unpaused step clip plays.answer plays.only, yielded]
  rfl

theorem PlaysClip.leadIn (lead : (s.voice v).leadIn = true) :
    voicePart v s = (afterCount v (s.setVoice v { s.voice v with lastSample := 0 }), some { value := 0, only := only }) := by
  rw [plays.part (clipFrame_leadIn lead), voice_setVoice, if_pos rfl, widen_zero]
  rfl

theorem PlaysClip.firstYield {value : Int} (sounding : (s.voice v).leadIn = false)
    (sample : (s.voice v).sampleAtPosition = some value) (slow : a.rate = .khz8) (first : (s.voice v).secondPhase = false) :
    voicePart v s = (afterCount v (s.setVoice v { s.voice v with secondPhase := true, lastSample := value, underRun := 0 }),
      some { value := widen a.format value, only := only }) := by
  rw [plays.part ((clipFrame_sample sounding sample).trans (bufferFrame_first slow first)), voice_setVoice, if_pos rfl]
  rfl

theorem PlaysClip.lastYield {value : Int} (sounding : (s.voice v).leadIn = false)
    (sample : (s.voice v).sampleAtPosition = some value) (last : a.rate = .khz16 ∨ (s.voice v).secondPhase = true) :
    (let y : Option Yield := some { value := widen a.format value, only := only }
     let n := (s.voice v).position + 1
     let x : Voice := { s.voice v with position := n, secondPhase := false, lastSample := value, underRun := 0 }
     let consumed := fetchTest v (s.setVoice v { x with buffer := x.buffer.drop 1 })
     (n % (2048 / a.format.size) ≠ 0 → n < a.samples → voicePart v s = (afterCount v (s.setVoice v x), y)) ∧
     (n % (2048 / a.format.size) = 0 → n < a.samples → voicePart v s = (afterCount v consumed, y)) ∧
     (a.samples ≤ n → voicePart v s = (passEnd offers v (afterCount v consumed), y))) := by
  intro y n x consumed
  obtain ⟨within, pageEnd, clipEnd⟩ := bufferFrame_last (v := v) (a := a) (s := s) (value := value) last
  have sampled := clipFrame_sample (a := a) sounding sample
  have yielded : (consumed.voice v).lastSample = value := by
    rw [lastSample_fetchTest, voice_setVoice, if_pos rfl]
  refine ⟨fun inPage more => ?_, fun pastPage more => ?_, fun pastClip => ?_⟩
  · rw [plays.part (sampled.trans (within inPage more)), voice_setVoice, if_pos rfl]
    rfl
  · rw [plays.part (sampled.trans (pageEnd pastPage more)), yielded]
    rfl
  · rw [plays.part (sampled.trans (clipEnd pastClip)), yielded]
    rfl

theorem PlaysClip.underrun (sounding : (s.voice v).leadIn = false) (dry : (s.voice v).sampleAtPosition = none)
    (short : (s.voice v).underRun + 1 < 1600) :
    (let t := s.setVoice v { s.voice v with
        underRun := (s.voice v).underRun + 1
        underTotal := if (s.voice v).underTotal < 4294967295 then (s.voice v).underTotal + 1 else (s.voice v).underTotal
        faults := { (s.voice v).faults with underrun := true } }
     let u := if (s.voice v).underRun = 0 then setFlag .underrun t else t
     voicePart v s = (afterCount v u, some { value := widen a.format (s.voice v).lastSample, only := only })) := by
  intro t u
  have yielded : clipFrame v a s = (u, .nothing) := by
    rw [clipFrame_underrun sounding dry, underrunFrame_eq, if_neg (Nat.not_le.2 short)]
  have again : (u.voice v).lastSample = (s.voice v).lastSample := by
    have own : u.voice v = t.voice v := by
      show State.voice (if _ then _ else _) v = _
      split <;> rfl
    rw [own, voice_setVoice, if_pos rfl]
  rw [plays.part yielded, again]
  rfl

end
end

/-! ### The parts one after another (R80) -/

theorem takeParts_absent {v : VoiceId} {vs : List VoiceId} {s u : State} (part : voicePart v s = (u, none)) :
    takeParts (v :: vs) s = takeParts vs u := by
  simp only [takeParts, part]

theorem takeParts_yield {v : VoiceId} {vs : List VoiceId} {s u : State} {y : Yield} (part : voicePart v s = (u, some y)) :
    takeParts (v :: vs) s = ((takeParts vs u).1, (v, y) :: (takeParts vs u).2) := by
  simp only [takeParts, part]

theorem yieldOf_cons (w v : VoiceId) (y : Yield) (l : List (VoiceId × Yield)) :
    yieldOf ((w, y) :: l) v = if w = v then some y else yieldOf l v := by
  unfold yieldOf
  rw [List.find?_cons]
  by_cases same : w = v
  · simp [same]
  · simp [same]

theorem exec_frameEvent (s : State) : exec .frameEvent s = eventWhen busRuns frame s := rfl

theorem frame_eq (s : State) : frame s = arbitrate { (takeParts allVoices s).1 with
    arbiter.output := some (formSlots (takeParts allVoices s).1 (takeParts allVoices s).2) } := rfl

/-- Settles O54: the slots by the holder of their zone, a voice's part by its step and its buffer. -/
theorem frameEventSendsAFrame : Obligations.FrameEventSendsAFrame := by
  refine ⟨fun s live => ⟨fun halted => ?_, fun running => ?_⟩,
    fun v s => ⟨voicePart_absent, fun g active unpaused step => voicePart_gap active unpaused step,
      fun a p c only active unpaused step clip answer forZone => ?_⟩,
    rfl, fun s => ⟨rfl, fun v vs u => ⟨takeParts_absent, fun y => takeParts_yield⟩⟩, fun v => ⟨rfl, fun w y l => yieldOf_cons w v y l⟩⟩
  · have notRunning : busRuns s = false := by unfold busRuns; rw [halted]; rfl
    rw [exec_frameEvent]; exact eventWhen_not notRunning
  · intro u yields
    refine ⟨formSlots u yields, ?_, engineStep_takeParts allVoices s, fun z => ?_⟩
    · rw [exec_frameEvent, eventWhen_taken live (decide_eq_true running), frame_eq]
    rw [formSlots_get]
    refine ⟨fun free => ?_, fun v p held => ⟨fun noPart => ?_, fun silent => ?_, fun y yielded here => ?_, fun y w yielded walk other => ?_⟩⟩
    · rw [slotValue_free free]; rfl
    · rw [slotValue_noPart held noPart]; rfl
    · rw [slotValue_silent silent]; rfl
    · rw [slotValue_yield held yielded, if_pos here]; rfl
    · have elsewhere : ¬ (y.only = none ∨ y.only = some z) := by
        rw [walk]
        rintro (none | same)
        · cases none
        · exact other (Option.some.inj same)
      rw [slotValue_yield held yielded, if_neg elsewhere]; rfl
  · have plays : PlaysClip v a only s := ⟨active, unpaused, ⟨p, c, step, clip⟩, answer, forZone.trans (zoneIn_eq step)⟩
    exact ⟨plays.leadIn, fun value sounding sample => ⟨plays.firstYield sounding sample, plays.lastYield sounding sample⟩, plays.underrun⟩

end Sys2Proof.Machine
end

section
/-! SUPPORT. When a start order is out of range (R69), and the refusals of the voice requests (R68, R69, R197). -/

namespace Sys2Proof.Machine

/-! ### The fields of a start order (check 3 of R69) -/

section
variable {raw : RawOrder}

theorem readProgram_eq_none {b : Byte} : readProgram b = none ↔ b.toNat = 0 ∨ 32 < b.toNat := oneBased_eq_none

theorem readProgram_eq_some {b : Byte} {p : ProgramId} (h : b.toNat = p.val + 1) : readProgram b = some p := by
  rw [readProgram, h]; exact oneBased_eq rfl

/-- A start order whose program and options are in range is read when it asks for a zone at a priority up to 14. -/
theorem readOrder_of {p : ProgramId} {partialOpt suspendable : Bool} (program : readProgram raw.program = some p)
    (readPartial : readYesNo raw.partialOpt = some partialOpt) (readSuspendable : readYesNo raw.suspendable = some suspendable) :
    readOrder raw = if raw.zones ≠ 0 ∧ raw.priority.toNat ≤ 14 then
      some { program := p, zones := raw.zones, priority := raw.priority.toNat, wait := raw.wait.toNat, partialOpt, suspendable }
    else none := by
  unfold readOrder
  rw [program, readPartial, readSuspendable]
  rfl

theorem readOrder_eq_none : readOrder raw = none ↔ raw.program.toNat = 0 ∨ 32 < raw.program.toNat ∨ raw.zones = 0 ∨
    14 < raw.priority.toNat ∨ 1 < raw.partialOpt.toNat ∨ 1 < raw.suspendable.toNat := by
  rw [← readYesNo_eq_none, ← readYesNo_eq_none, ← or_assoc, ← readProgram_eq_none]
  cases program : readProgram raw.program with
  | none => simp [readOrder, program]
  | some p =>
    cases readPartial : readYesNo raw.partialOpt with
    | none => simp [readOrder, program, readPartial]
    | some a =>
      cases readSuspendable : readYesNo raw.suspendable with
      | none => simp [readOrder, program, readPartial, readSuspendable]
      | some b =>
        rw [readOrder_of program readPartial readSuspendable]
        simp only [reduceCtorEq, false_or, or_false, ite_eq_right_iff, imp_false, ne_eq]
        rw [Decidable.not_and_iff_not_or_not, Decidable.not_not, Nat.not_le]

end

/-! ### The checks of a start order, one by one (R69) -/

section
variable {order : Option StartOrder} {o : StartOrder} {prog : Program} {first : Step} {rest : List Step} {claims : Bool} {s : State}

theorem startChecks_starting (starting : s.store.state = .starting) : startChecks order claims s = .error .starting := if_pos starting

theorem startChecks_formatting (formatting : s.store.state = .formatting) : startChecks order claims s = .error .busy := by
  simp [startChecks, formatting]

theorem startChecks_latched (service : s.store.state = .service) (latch : s.inputs.latch = true) :
    startChecks order claims s = .error .locked := by
  simp [startChecks, service, latch]

section
variable (service : s.store.state = .service) (latch : s.inputs.latch = false)
include service latch

theorem startChecks_badField : startChecks none claims s = .error .badField := by
  simp [startChecks, service, latch]

theorem startChecks_notFound (undefined : s.program o.program = none) : startChecks (some o) claims s = .error .notFound := by
  simp [startChecks, service, latch, undefined]

section
variable (defined : s.program o.program = some prog) (steps : prog.steps = first :: rest)
include defined steps

theorem startChecks_notReady {c : ClipId} (clip : first.clip? = some c) (unready : s.clipReady c = false) :
    startChecks (some o) claims s = .error .notReady := by
  have stepUnready : stepClipReady s prog.steps.head? = false := by
    simp [stepClipReady, steps, clip, unready]
  simp [startChecks, service, latch, defined, stepUnready]

/-- The checks of a start order whose first step is READY: an IDLE voice, and a running bus where it claims. -/
theorem startChecks_ready (ready : ∀ c, first.clip? = some c → s.clipReady c = true) :
    startChecks (some o) claims s = match idleVoice s with
      | none => .error .noVoice
      | some v => if claims ∧ s.arbiter.bus = .halted then .error .wrongState else .ok (o, v) := by
  have stepReady : ¬ stepClipReady s prog.steps.head? = false := by
    cases clip : first.clip? with
    | none => simp [stepClipReady, steps, clip]
    | some c => simp [stepClipReady, steps, clip, ready c clip]
  simp only [startChecks, service, latch, defined, stepReady]
  rfl

end
end

theorem idleVoice_eq_none : idleVoice s = none ↔ ∀ v, v ≠ 6 → (s.voice v).state ≠ .idle := by
  simp [idleVoice, mem_generalVoices]

end

/-- The refusals of a start order in the order of its checks, `no` being a refusal whether it claims or not, and `halted` the one of
an order that claims (R69). -/
theorem startRefusals {order : Option StartOrder} {s : State} {no : Status → Prop} {halted : Prop}
    (refused : ∀ st, st ≠ .noZone → (∀ claims, startChecks order claims s = .error st) → no st)
    (onHalt : startChecks order true s = .error .wrongState → halted) :
    (s.store.state = .starting → no .starting) ∧ (s.store.state = .formatting → no .busy) ∧
    (s.store.state = .service → s.inputs.latch = true → no .locked) ∧
    (s.store.state = .service → s.inputs.latch = false →
      (order = none → no .badField) ∧
      (∀ o, order = some o →
        (s.program o.program = none → no .notFound) ∧
        (∀ prog first rest, s.program o.program = some prog → prog.steps = first :: rest →
          (∀ c, first.clip? = some c → s.clipReady c = false → no .notReady) ∧
          ((∀ c, first.clip? = some c → s.clipReady c = true) →
            ((∀ v, v ≠ 6 → (s.voice v).state ≠ .idle) → no .noVoice) ∧
            ((∃ v, v ≠ 6 ∧ (s.voice v).state = .idle) → s.arbiter.bus = .halted → halted))))) := by
  refine ⟨fun h => refused _ (by decide) fun _ => startChecks_starting h,
    fun h => refused _ (by decide) fun _ => startChecks_formatting h,
    fun service latch => refused _ (by decide) fun _ => startChecks_latched service latch, fun service latch => ⟨?_, ?_⟩⟩
  · rintro rfl
    exact refused _ (by decide) fun _ => startChecks_badField service latch
  rintro o rfl
  refine ⟨fun h => refused _ (by decide) fun _ => startChecks_notFound service latch h, fun prog first rest defined steps =>
    ⟨fun c clip unready => refused _ (by decide) fun _ => startChecks_notReady service latch defined steps clip unready,
      fun ready => ⟨fun busy => refused _ (by decide) fun claims => ?_, ?_⟩⟩⟩
  · rw [startChecks_ready service latch defined steps ready, idleVoice_eq_none.2 busy]
  · rintro ⟨v, general, idle⟩ bus
    apply onHalt
    rw [startChecks_ready service latch defined steps ready]
    cases found : idleVoice s with
    | none => exact absurd idle (idleVoice_eq_none.1 found v general)
    | some w => exact if_pos ⟨rfl, bus⟩

/-! ### The requests refused (R68, R69, R197) -/

section
variable {tag : Byte} {st : Status} {s : State}

theorem startVoice_refused {origin : Origin} {order : Option StartOrder} (refused : startChecks order true s = .error st) :
    startVoice origin order s = (s, .refused st) := by
  simp only [startVoice, refused]

theorem exec_voiceStart_refused {raw : RawOrder} (takes : Takes s) (notNoZone : st ≠ .noZone)
    (refused : startChecks (readOrder raw) true s = .error st) :
    exec (.voiceStart tag raw) s = .next (reply 64 tag st [255, 0, 0, 0, 0, 0] (hunt s)) := by
  have served : serveVoiceStart raw (hunt s) = answer (hunt s) st (startFields (.refused st)) := by
    unfold serveVoiceStart
    rw [startVoice_refused (s := hunt s) refused]
    split
    · next h => cases h; exact absurd rfl notNoZone
    · next h => cases h; rfl
    · next h => cases h
  exact request_answer takes served

theorem exec_voicePrepare_refused {raw : RawOrder} (takes : Takes s)
    (refused : startChecks (readOrder raw) false s = .error st) :
    exec (.voicePrepare tag raw) s = .next (reply 65 tag st [255, 0, 0, 0, 0, 0] (hunt s)) := by
  have refused : startChecks (readOrder raw) false (hunt s) = .error st := refused
  have served : serveVoicePrepare raw (hunt s) = answer (hunt s) st (startFields (.refused st)) := by
    simp only [serveVoicePrepare, refused]
  exact request_answer takes served

section
variable {n : BitVec 32} {mode : Byte}

theorem namedVoice_stale (nobody : liveVoice s n.toNat = none) : namedVoice n s = .error .stale := by
  simp only [namedVoice, nobody]

theorem namedVoice_override (named : liveVoice s n.toNat = some 6) : namedVoice n s = .error .locked := by
  simp only [namedVoice, named]; rfl

theorem namedState_none (nobody : liveVoice s n.toNat = none) : namedState n s = 0 := by
  simp only [namedState, nobody]; rfl

theorem namedState_some {v : VoiceId} (named : liveVoice s n.toNat = some v) : namedState n s = (s.voice v).state.code := by
  simp only [namedState, named]

theorem readStopMode_some (known : mode = 1 ∨ mode = 2) : ∃ m, readStopMode mode = some m := by
  rcases known with rfl | rfl
  · exact ⟨.now, rfl⟩
  · exact ⟨.afterPass, rfl⟩

theorem readStopMode_none (notNow : mode ≠ 1) (notAfter : mode ≠ 2) : readStopMode mode = none := by
  rw [readStopMode, if_neg notNow, if_neg notAfter]

/-- The five requests that name a voice by its start number are refused alike (R68). -/
theorem exec_named_refused (takes : Takes s) (refused : namedVoice n s = .error st) :
    exec (.voiceGo tag n) s = .next (reply 66 tag st [namedState n s] (hunt s)) ∧
    (mode = 1 ∨ mode = 2 → exec (.voiceStop tag n mode) s = .next (reply 67 tag st [] (hunt s))) ∧
    exec (.voicePause tag n) s = .next (reply 68 tag st [] (hunt s)) ∧
    exec (.voiceResume tag n) s = .next (reply 69 tag st [] (hunt s)) ∧
    exec (.voiceRelease tag n) s = .next (reply 70 tag st [] (hunt s)) := by
  have refused : namedVoice n (hunt s) = .error st := refused
  have go : serveVoiceGo n (hunt s) = answer (hunt s) st [namedState n s] := by
    simp only [serveVoiceGo, refused]; rfl
  have paused (b : Bool) : servePaused b n (hunt s) = answerOnly (hunt s) st := by simp only [servePaused, refused]
  have release : serveVoiceRelease n (hunt s) = answerOnly (hunt s) st := by simp only [serveVoiceRelease, refused]
  refine ⟨request_answer takes go, fun known => ?_, request_answer takes (paused true), request_answer takes (paused false),
    request_answer takes release⟩
  obtain ⟨m, read⟩ := readStopMode_some known
  have stop : serveVoiceStop n mode (hunt s) = answerOnly (hunt s) st := by simp only [serveVoiceStop, read, refused]
  exact request_answer takes stop

theorem exec_voiceStop_badField (takes : Takes s) (notNow : mode ≠ 1) (notAfter : mode ≠ 2) :
    exec (.voiceStop tag n mode) s = .next (reply 67 tag .badField [] (hunt s)) := by
  have served : serveVoiceStop n mode (hunt s) = answerOnly (hunt s) .badField := by
    simp only [serveVoiceStop, readStopMode_none notNow notAfter]
  exact request_answer takes served

end
end

/-- Settles O36: each refusal from the check that fails first. -/
theorem refusedVoiceRequestsChangeNothing : Obligations.RefusedVoiceRequestsChangeNothing := by
  refine ⟨fun raw => ⟨readOrder_eq_none, fun p partialOpt suspendable program zones priority readPartial readSuspendable => ?_⟩,
    fun origin order s => ?_, fun tag s takes => ⟨fun raw => ?_, fun n mode => ⟨fun nobody => ?_, fun named => ?_, ?_⟩⟩⟩
  · rw [readOrder_of (readProgram_eq_some program) (by rw [readPartial, readYesNo_yesNo])
      (by rw [readSuspendable, readYesNo_yesNo]), if_pos ⟨zones, priority⟩]
  · exact startRefusals (fun st _ refused => startVoice_refused (refused true)) startVoice_refused
  · intro no
    exact startRefusals (no := no)
      (fun st notNoZone refused => ⟨exec_voiceStart_refused takes notNoZone (refused true), exec_voicePrepare_refused takes (refused false)⟩)
      (exec_voiceStart_refused takes (by decide))
  · rw [← namedState_none nobody]
    exact exec_named_refused takes (namedVoice_stale nobody)
  · rw [← namedState_some named]
    exact exec_named_refused takes (namedVoice_override named)
  · exact exec_voiceStop_badField takes

end Sys2Proof.Machine
end

section
/-! SUPPORT. What an allocation leaves of a voice, and what a grant and a queuing of its claim make of it, up to the grant decision at the
end of the request (R70, R101 to R107): VOICE.PREPARE (R72) and VOICE.GO (R73). -/

namespace Sys2Proof.Machine

/-! ### The same but for a granted fetch -/

theorem SameButFetch.of_eq {s t : State} {w : VoiceId} (same : t.voice w = s.voice w) : SameButFetch s t w := by
  unfold SameButFetch; rw [same]

theorem SameButFetch.trans {s t u : State} {w : VoiceId} (a : SameButFetch s t w) (b : SameButFetch t u w) : SameButFetch s u w := by
  unfold SameButFetch at a b ⊢
  rw [a] at b; exact b

section
variable {s t : State} (e : FetchStep s t)
include e

theorem FetchStep.link : t.link = s.link := by rw [e.rest]
theorem FetchStep.arbiter : t.arbiter = s.arbiter := by rw [e.rest]
theorem FetchStep.nextStart : t.engine.nextStart = s.engine.nextStart := by rw [e.rest]
theorem FetchStep.zone (z : ZoneId) : t.zone z = s.zone z := by rw [State.zone, e.arbiter]; rfl
theorem FetchStep.holds (v : VoiceId) (z : ZoneId) : t.holds v z = s.holds v z := holds_congr v (e.zone z)
theorem FetchStep.sameButFetch (w : VoiceId) : SameButFetch s t w := e.voice w

end

/-! ### A voice allocated (R70, R75) -/

section
variable {v : VoiceId} {origin : Origin} {o : StartOrder} {first : Step} {s a : State} (alloc : Allocated v origin o first s a)
include alloc

namespace Allocated

theorem voice_state : (a.voice v).state = .prepared := by rw [alloc.voice]; rfl
theorem voice_start : (a.voice v).start = issuedNumber s := by rw [alloc.voice]; rfl
theorem voice_origin : (a.voice v).origin = origin := by rw [alloc.voice]; rfl
theorem voice_order : (a.voice v).order = some o := by rw [alloc.voice]; rfl
theorem voice_stepIndex : (a.voice v).stepIndex = 0 := by rw [alloc.voice]; rfl
theorem voice_step : (a.voice v).step = some first := by rw [alloc.voice]; rfl
theorem voice_walkZone : (a.voice v).walkZone = none := by rw [alloc.voice]; rfl
theorem voice_walked : (a.voice v).walked = 0 := by rw [alloc.voice]; rfl
theorem voice_discardTimer : (a.voice v).discardTimer = 0 := by rw [alloc.voice]; rfl
theorem voice_endRecord : (a.voice v).endRecord = (s.voice v).endRecord := by rw [alloc.voice]; rfl

theorem zone (z : ZoneId) : a.zone z = s.zone z := by rw [State.zone, alloc.arbiter]; rfl

theorem holds (w : VoiceId) (z : ZoneId) : a.holds w z = s.holds w z := holds_congr w (alloc.zone z)

theorem evaluateClaim (q : StartOrder) : Machine.evaluateClaim q a = Machine.evaluateClaim q s := evaluateClaim_congr alloc.arbiter

end Allocated
end

/-! ### A claim that is granted zones without a holder (R104) -/

/-- The walk zone chosen by a grant stands when nothing of the voice or of the zones changes. -/
theorem WalkZoneChosen.congr {v : VoiceId} {s t u : State} (chosen : WalkZoneChosen v s t) (holds : ∀ z, u.holds v z = t.holds v z)
    (walkZone : (u.voice v).walkZone = (t.voice v).walkZone) (walked : (u.voice v).walked = (t.voice v).walked) :
    WalkZoneChosen v s u := by
  unfold WalkZoneChosen at chosen ⊢
  simp only [holds, walkZone, walked]
  exact chosen

/-- What a grant of zones without a holder, and the grant decision after it, make of a state. -/
structure GrantedFree (v : VoiceId) (o : StartOrder) (zs : SetByte) (s u : State) : Prop where
  engine : EngineStep s u
  link : u.link = s.link
  nextStart : u.engine.nextStart = s.engine.nextStart
  waiting : u.arbiter.waiting = s.arbiter.waiting.filter (· ≠ v)
  zone : ∀ z, u.zone z = if hasZone zs z = true then { s.zone z with holder := some (v, o.priority) } else s.zone z
  voice : u.voice v = { s.voice v with
    state := .active, wanted := o.zones &&& ~~~ zs, discardTimer := 0, waitTimer := 0
    walkZone := (u.voice v).walkZone, walked := (u.voice v).walked, fetch := (u.voice v).fetch }
  walk : WalkZoneChosen v s u
  others : ∀ w, w ≠ v → SameButFetch s u w

theorem grantedFree {v : VoiceId} {o : StartOrder} {zs : SetByte} {s : State} (granted : evaluateClaim o s = some zs)
    (free : ∀ z, hasZone zs z = true → (s.zone z).holder = none) :
    GrantedFree v o zs s (arbitrate (grantClaim offers v o zs s)) := by
  have engine := engineStep_grantClaim offersStep_offers v o zs s (evaluateClaim_enabled granted)
  obtain ⟨u, told, frame, zone, voice, walk, others⟩ := grantClaim_spec offers v o zs s
  rw [losersOf_free free, tellLosers_nil] at told
  rw [told] at engine ⊢
  have decided := fetchStep_arbitrate u
  have own := decided.voice v
  refine { engine := engine.trans (engineStep_arbitrate u), link := ?_, nextStart := ?_, waiting := ?_
           zone := fun z => (decided.zone z).trans (zone z), voice := ?_
           walk := walk.congr (decided.holds v) (by rw [own]) (by rw [own]), others := fun w other => ?_ }
  · rw [decided.link, frame]
  · rw [decided.nextStart, frame]
  · rw [decided.arbiter, frame]
  · rw [own, voice]
  · obtain ⟨same, wanted⟩ := others w other
    have noneLost : (u.voice w).wanted = (s.voice w).wanted := setByte_ext fun z => by
      rw [wanted z]
      cases claimed : hasZone zs z with
      | false => simp
      | true => simp [State.holds, free z claimed]
    exact SameButFetch.trans (.of_eq (by rw [same, noneLost])) (decided.sameButFetch w)

/-! ### A claim that is queued (R101, R105, R106) -/

/-- Where a voice joins a waiting list depends on that list and on the orders and start numbers of the other voices. -/
theorem JoinsWaiting.congr {v : VoiceId} {p n : Nat} {s t : State} {l : List VoiceId} (joins : JoinsWaiting v p n s l)
    (waiting : t.arbiter.waiting = s.arbiter.waiting)
    (others : ∀ w, w ≠ v → (t.voice w).order = (s.voice w).order ∧ (t.voice w).start = (s.voice w).start) : JoinsWaiting v p n t l := by
  obtain ⟨before, after, split, placed, earlier, later⟩ := joins
  refine ⟨before, after, waiting.trans split, placed, fun w member other q order => ?_, fun w member other q order => ?_⟩
  · obtain ⟨sameOrder, sameStart⟩ := others w other
    rw [sameStart]
    exact earlier w member other q (sameOrder ▸ order)
  · obtain ⟨sameOrder, sameStart⟩ := others w other
    rw [sameStart]
    exact later w member other q (sameOrder ▸ order)

/-- What the queuing of a claim, and the grant decision after it, make of a state. -/
structure Queued (v : VoiceId) (o : StartOrder) (s u : State) : Prop where
  engine : EngineStep s u
  link : u.link = s.link
  nextStart : u.engine.nextStart = s.engine.nextStart
  joins : JoinsWaiting v o.priority (s.voice v).start s u.arbiter.waiting
  zone : ∀ z, u.zone z = s.zone z
  voice : u.voice v = { s.voice v with state := .waiting, discardTimer := 0, waitTimer := o.wait, fetch := (u.voice v).fetch }
  others : ∀ w, w ≠ v → SameButFetch s u w

theorem queued {v : VoiceId} {o : StartOrder} {s : State} (order : (s.voice v).order = some o) :
    Queued v o s (arbitrate (queueClaim v o s)) := by
  have engine := engineStep_queueClaim v o s
  obtain ⟨frame, voice, others, joins⟩ := queueClaim_step v o s
  generalize queueClaim v o s = u at engine frame voice others joins ⊢
  have decided := fetchStep_arbitrate u
  refine { engine := engine.trans (engineStep_arbitrate u), link := ?_, nextStart := ?_, joins := ?_
           zone := fun z => (decided.zone z).trans (by rw [frame]; rfl), voice := by rw [decided.voice v, voice]
           others := fun w other => (SameButFetch.of_eq (others w other)).trans (decided.sameButFetch w) }
  · rw [decided.link, frame]
  · rw [decided.nextStart, frame]
  · rw [decided.arbiter]; exact joins order

/-! ### VOICE.PREPARE (R72) -/

section
variable {tag : Byte} {raw : RawOrder} {o : StartOrder} {v : VoiceId} {s : State}

/-- A voice that VOICE.PREPARE leaves, before the grant decision. -/
def prepared (v : VoiceId) (s : State) : State :=
  s.setVoice v { s.voice v with discardTimer := s.engine.discardMode.seconds }

theorem serveVoicePrepare_checked (passed : startChecks (readOrder raw) false s = .ok (o, v)) :
    serveVoicePrepare raw s =
      (let u := prepared v (allocate v .link o s)
       answer (arbitrate u) .ok (startFields (.started v (u.voice v).start .prepared))) := by
  simp only [serveVoicePrepare, passed]; rfl

end

/-- Settles O35: the allocation, the discard timer, and the grant decision. -/
theorem voicePrepareClaimsNothing : Obligations.VoicePrepareClaimsNothing := by
  intro tag raw o prog first rest v s takes service latch read defined steps ready idle
  have general := (idleVoice_general idle).1
  have alloc : Allocated v .link o first (hunt s) (allocate v .link o (hunt s)) :=
    allocated (fun h => absurd h general) defined steps ready
  have passed : startChecks (readOrder raw) false (hunt s) = .ok (o, v) := by
    rw [read]
    exact startChecks_pass (s := hunt s) service latch (fun h => by cases h) defined steps ready idle
  have served := serveVoicePrepare_checked passed
  generalize allocate v .link o (hunt s) = a at alloc served
  have decided := fetchStep_arbitrate (prepared v a)
  have own : (prepared v a).voice v = { a.voice v with discardTimer := a.engine.discardMode.seconds } := by
    rw [prepared, voice_setVoice, if_pos rfl]
  have mode : a.engine.discardMode = s.engine.discardMode := alloc.engine.discardMode
  have start : ((prepared v a).voice v).start = issuedNumber s := by rw [own]; exact alloc.voice_start
  have voice := decided.voice v
  rw [own, mode] at voice
  dsimp only at served
  rw [start] at served
  refine ⟨_, request_answer takes served, alloc.engine.trans ((engineStep_setVoice _ _ _).trans (engineStep_arbitrate _)), ?_, ?_,
    ?_, ?_, ?_, ?_, ?_, ?_, ?_, ?_, ?_, fun w other => ?_, a, alloc, voice⟩
  · rw [decided.link]; exact alloc.link
  · rw [decided.arbiter]; exact alloc.arbiter
  · rw [voice]; exact alloc.voice_state
  · rw [voice]; exact alloc.voice_start
  · rw [voice]; exact alloc.voice_origin
  · rw [voice]; exact alloc.voice_order
  · rw [voice]; exact alloc.voice_stepIndex
  · rw [voice]; exact alloc.voice_step
  · rw [voice]; rfl
  · rw [voice]; exact alloc.voice_endRecord
  · rw [decided.nextStart]; exact alloc.counter
  · have kept : SameButFetch a (prepared v a) w := .of_eq (by rw [prepared, voice_setVoice, if_neg other])
    exact (alloc.others w other).trans (kept.trans (decided.sameButFetch w))

/-! ### VOICE.GO (R73) -/

section
variable {tag : Byte} {n : BitVec 32} {v : VoiceId} {s t : State} {st : Status}

/-- VOICE.GO of a general voice answers with the state in which it leaves the voice (R73, R197). -/
theorem exec_voiceGo (takes : Takes s) (named : liveVoice s n.toNat = some v) (general : v ≠ 6) (went : goVoice v (hunt s) = (t, st)) :
    exec (.voiceGo tag n) s = .next (reply 66 tag st [(t.voice v).state.code] t) := by
  have served : serveVoiceGo n (hunt s) = answer t st [(t.voice v).state.code] := by
    simp only [serveVoiceGo, namedVoice_hunt named general, went]
  exact request_answer takes served

theorem goVoice_latched (latch : s.inputs.latch = true) : goVoice v s = (s, .locked) := if_pos latch

theorem goVoice_wrongState (latch : s.inputs.latch = false) (wrong : (s.voice v).state ≠ .prepared ∨ s.arbiter.bus = .halted) :
    goVoice v s = (s, .wrongState) := by
  unfold goVoice
  rw [latch, if_neg (by decide)]
  by_cases notPrepared : (s.voice v).state ≠ .prepared
  · exact if_pos notPrepared
  · rw [if_neg notPrepared]
    exact if_pos (wrong.resolve_left notPrepared)

end

/-- Settles O37: the checks, then the claim by its outcome; the last part is the grant, its losers and their notices. -/
theorem voiceGoClaims : Obligations.VoiceGoClaims := by
  refine ⟨fun tag n v s takes named general => ⟨fun latch => ?_, fun latch wrong => ?_⟩,
    fun tag n v o s takes named general latch prepared running order => ?_, fun f v o zs s => ?_⟩
  · exact exec_voiceGo takes named general (goVoice_latched (s := hunt s) latch)
  · exact exec_voiceGo takes named general (goVoice_wrongState (s := hunt s) latch wrong)
  · have claims := goVoice_claims (s := hunt s) latch prepared running order
    have evaluated : evaluateClaim o (hunt s) = evaluateClaim o s := evaluateClaim_congr rfl
    rw [evaluated] at claims
    refine ⟨fun zs granted => ?_, fun refused long => ?_, fun refused short => ?_⟩
    · rw [granted] at claims
      have reply := exec_voiceGo (tag := tag) takes named general claims
      refine ⟨reply, fun free => ?_⟩
      have grant : GrantedFree v o zs (hunt s) _ := grantedFree (evaluated.trans granted) free
      have active : ((arbitrate (grantClaim offers v o zs (hunt s))).voice v).state = .active := by rw [grant.voice]
      rw [active] at reply
      exact ⟨_, reply, grant.engine, grant.link, grant.voice, grant.walk, grant.nextStart, grant.waiting, grant.zone, grant.others⟩
    · rw [refused] at claims
      have claims := claims.trans (if_pos long)
      have queue : Queued v o (hunt s) _ := queued order
      have waiting : ((arbitrate (queueClaim v o (hunt s))).voice v).state = .waiting := by rw [queue.voice]
      have reply := exec_voiceGo (tag := tag) takes named general claims
      rw [waiting] at reply
      exact ⟨_, reply, queue.engine, queue.link, queue.voice, queue.nextStart, queue.joins, queue.zone, queue.others⟩
    · rw [refused] at claims
      have claims := claims.trans (if_neg (by omega))
      have reply := exec_voiceGo (tag := tag) takes named general claims
      have still : ((hunt s).voice v).state = .prepared := prepared
      rw [still] at reply
      exact reply
  · obtain ⟨u, told, frame, zone, voice, walk, others⟩ := grantClaim_spec f v o zs s
    obtain ⟨ascending, member⟩ := losersOf_spec v zs s
    refine ⟨u, _, losersOf v zs s, _, told, rfl, fun _ _ => rfl, fun z => ?_, ascending, member, frame, zone, voice, walk, others⟩
    simp [freedBetween, Option.isSome_iff_ne_none]

end Sys2Proof.Machine
end

section
/-! SUPPORT. A start that claims at once: the outcomes of its claim, from any source and on VOICE.START (R69 to R71, R86, R100 to R106). -/

namespace Sys2Proof.Machine

/-! ### The voice of a refused claim (R71) -/

/-- The voice of an allocation, returned to IDLE: of its new context a granted fetch stands, and the end record of its previous life. -/
theorem Allocated.returned {v : VoiceId} {origin : Origin} {o : StartOrder} {first : Step} {s a : State}
    (alloc : Allocated v origin o first s a) : returnToIdle v a =
      a.setVoice v { Voice.reset with fetch := flushed (a.voice v).fetch, endRecord := (s.voice v).endRecord } := by
  unfold returnToIdle
  rw [flushed_eq]
  congr 1
  generalize withdrawn : withdrawFetch (a.voice v).fetch = f
  unfold Voice.cleared
  rw [withdrawn, alloc.voice]
  rfl

theorem flushed_some {f : Option Fetch} {g : Fetch} (h : flushed f = some g) : g.granted = true ∧ g.keep = false := by
  unfold flushed at h
  split at h
  · next f =>
    split at h
    · next granted => cases h; exact ⟨granted, rfl⟩
    · cases h
  · cases h

/-- A fetch left after a flush or an end is not pending. -/
theorem fetchPending_flushed {x : Voice} {f : Option Fetch} (h : x.fetch = flushed f) : x.fetchPending = false := by
  unfold Voice.fetchPending
  rw [h]
  split
  · next g left => rw [(flushed_some left).1]; rfl
  · rfl

/-- What the return of an allocated voice to IDLE, and the grant decision after it, make of a state. -/
structure Returned (v : VoiceId) (s u : State) : Prop where
  engine : EngineStep s u
  link : u.link = s.link
  arbiter : u.arbiter = s.arbiter
  nextStart : u.engine.nextStart = numberAfter (issuedNumber s)
  voice : u.voice v = { Voice.reset with fetch := (u.voice v).fetch, endRecord := (s.voice v).endRecord }
  fetch : ∀ f, (u.voice v).fetch = some f → f.granted = true ∧ f.keep = false
  others : ∀ w, w ≠ v → SameButFetch s u w

theorem Allocated.returnedAfter {v : VoiceId} {origin : Origin} {o : StartOrder} {first : Step} {s a : State}
    (alloc : Allocated v origin o first s a) : Returned v s (arbitrate (returnToIdle v a)) := by
  have decided := fetchStep_arbitrate (returnToIdle v a)
  have own : (returnToIdle v a).voice v =
      { Voice.reset with fetch := flushed (a.voice v).fetch, endRecord := (s.voice v).endRecord } := by
    rw [alloc.returned, voice_setVoice, if_pos rfl]
  have kept : ((arbitrate (returnToIdle v a)).voice v).fetch = flushed (a.voice v).fetch := by
    rw [arbitrate_fetch (fetchPending_flushed (by rw [own])), own]
  refine { engine := alloc.engine.trans ((engineStep_returnToIdle v a).trans (engineStep_arbitrate _))
           link := decided.link.trans alloc.link, arbiter := decided.arbiter.trans alloc.arbiter
           nextStart := decided.nextStart.trans alloc.counter
           voice := by rw [decided.voice v, own], fetch := fun f h => flushed_some (kept.symm.trans h), others := fun w other => ?_ }
  have same : SameButFetch a (returnToIdle v a) w := .of_eq (by rw [returnToIdle, voice_setVoice, if_neg other])
  exact (alloc.others w other).trans (same.trans (decided.sameButFetch w))

/-! ### The outcomes of a start (R71, R101) -/

/-- A start order that passes its checks: granted, queued or refused, as its claim is. -/
theorem startVoice_outcomes {origin : Origin} {o : StartOrder} {prog : Program} {first : Step} {rest : List Step} {v : VoiceId}
    {s : State} (service : s.store.state = .service) (latch : s.inputs.latch = false) (running : s.arbiter.bus = .running)
    (defined : s.program o.program = some prog) (steps : prog.steps = first :: rest)
    (ready : ∀ c, first.clip? = some c → s.clipReady c = true) (idle : idleVoice s = some v) :
    ∃ a, Allocated v origin o first s a ∧
      (∀ zs, evaluateClaim o s = some zs →
        startVoice origin (some o) s = (grantClaim offers v o zs a, .started v (issuedNumber s) .active)) ∧
      (evaluateClaim o s = none → 0 < o.wait →
        startVoice origin (some o) s = (queueClaim v o a, .started v (issuedNumber s) .waiting)) ∧
      (evaluateClaim o s = none → o.wait = 0 → startVoice origin (some o) s = (returnToIdle v a, .refused .noZone)) := by
  have general := (idleVoice_general idle).1
  have alloc : Allocated v origin o first s (allocate v origin o s) := allocated (fun h => absurd h general) defined steps ready
  have started := startVoice_checked (origin := origin)
    (startChecks_pass (claims := true) service latch (fun _ => running) defined steps ready idle)
  generalize allocate v origin o s = a at alloc started
  dsimp only at started
  rw [alloc.evaluateClaim, alloc.voice_start] at started
  refine ⟨a, alloc, fun zs granted => ?_, fun refused long => ?_, fun refused short => ?_⟩
  · rw [started, granted]
  · rw [started, refused]; exact if_pos long
  · rw [started, refused]; exact if_neg (by omega)

section
variable {tag : Byte} {raw : RawOrder} {s t : State}

theorem exec_voiceStart_started {v : VoiceId} {n : Nat} {st : VoiceState} (takes : Takes s)
    (started : startVoice .link (readOrder raw) (hunt s) = (t, .started v n st)) :
    exec (.voiceStart tag raw) s = .next (reply 64 tag .ok (byteOf v.val :: le32 n ++ [st.code]) (arbitrate t)) := by
  have served : serveVoiceStart raw (hunt s) = answer (arbitrate t) .ok (startFields (.started v n st)) := by
    simp only [serveVoiceStart, started]
  exact request_answer takes served

theorem exec_voiceStart_noZone (takes : Takes s) (refused : startVoice .link (readOrder raw) (hunt s) = (t, .refused .noZone)) :
    exec (.voiceStart tag raw) s = .next (reply 64 tag .noZone [255, 0, 0, 0, 0, 0] (arbitrate t)) := by
  have served : serveVoiceStart raw (hunt s) = answer (arbitrate t) .noZone (startFields (.refused .noZone)) := by
    simp only [serveVoiceStart, refused]
  exact request_answer takes served

end

/-- The discard timer of an allocated voice does not run, so its claim has nothing of it to stop (R106). -/
theorem Allocated.voice_waiting {v : VoiceId} {origin : Origin} {o : StartOrder} {first : Step} {s a : State}
    (alloc : Allocated v origin o first s a) {n : Nat} {f : Option Fetch} :
    { a.voice v with state := .waiting, discardTimer := 0, waitTimer := n, fetch := f } =
      { a.voice v with state := .waiting, waitTimer := n, fetch := f } := by
  rw [← alloc.voice_discardTimer]

theorem zones_and_not_self (zs : SetByte) : zs &&& ~~~ zs = 0 := by simp

/-- Settles O34: a start by the outcome of its claim, and VOICE.START from it with the grant decision. -/
theorem voiceStartTakesFreeZones : Obligations.VoiceStartTakesFreeZones := by
  refine ⟨fun tag raw o prog first rest v s takes service latch running read defined steps ready idle => ?_,
    fun origin o prog first rest v s service latch running defined steps ready idle => ?_⟩
  · obtain ⟨a, alloc, onGrant, onQueue, onRefusal⟩ :=
      startVoice_outcomes (s := hunt s) (origin := .link) service latch running defined steps ready idle
    have evaluated : evaluateClaim o (hunt s) = evaluateClaim o s := evaluateClaim_congr rfl
    rw [evaluated, ← read] at onGrant onQueue onRefusal
    have granted (zs : SetByte) (claim : evaluateClaim o s = some zs) := exec_voiceStart_started (tag := tag) takes (onGrant zs claim)
    refine ⟨fun free => ?_, fun zs claim => ⟨a, alloc, granted zs claim⟩, fun refused long => ?_, fun refused short => ?_⟩
    · have claim := evaluateClaim_free (readOrder_zones read) free
      have grant : GrantedFree v o o.zones a _ := grantedFree ((alloc.evaluateClaim o).trans (evaluated.trans claim))
        fun z asked => (alloc.zone z).symm ▸ (free z asked).2
      obtain ⟨walks, stands⟩ := grant.walk
      rw [alloc.voice_step, alloc.voice_walkZone, alloc.voice_walked] at walks stands
      refine ⟨_, granted o.zones claim, alloc.engine.trans grant.engine, grant.link.trans alloc.link, ?_, ?_, ?_, ?_, ?_, ?_, ?_, ?_,
        fun notWalk => stands (.inl fun c same => notWalk c (Option.some.inj same)), fun c z walk held least => ?_,
        grant.nextStart.trans alloc.counter, ?_, fun z => ?_, fun w other => (alloc.others w other).trans (grant.others w other)⟩
      · rw [grant.voice]
      · rw [grant.voice]; exact alloc.voice_start
      · rw [grant.voice]; exact alloc.voice_origin
      · rw [grant.voice]; exact alloc.voice_order
      · rw [grant.voice]; exact zones_and_not_self o.zones
      · rw [grant.voice]; exact alloc.voice_stepIndex
      · rw [grant.voice]; exact alloc.voice_step
      · rw [grant.voice]; exact alloc.voice_endRecord
      · obtain ⟨walkZone, walked⟩ := walks ⟨c, congrArg some walk⟩ rfl z held least
        exact ⟨walkZone, walked.trans (BitVec.zero_or)⟩
      · rw [grant.waiting, alloc.arbiter]; rfl
      · rw [grant.zone, alloc.zone]; rfl
    · have queue : Queued v o a _ := queued alloc.voice_order
      refine ⟨a, _, alloc, exec_voiceStart_started takes (onQueue refused long), alloc.engine.trans queue.engine,
        queue.link.trans alloc.link, queue.voice.trans alloc.voice_waiting, queue.nextStart.trans alloc.counter, ?_,
        fun z => (queue.zone z).trans (alloc.zone z), fun w other => (alloc.others w other).trans (queue.others w other)⟩
      have joins := queue.joins
      rw [alloc.voice_start] at joins
      exact joins.congr (by rw [alloc.arbiter]; rfl) fun w other => by rw [alloc.others w other]; exact ⟨rfl, rfl⟩
    · have back := alloc.returnedAfter
      exact ⟨_, exec_voiceStart_noZone takes (onRefusal refused short), back.engine, back.link, back.arbiter, back.voice, back.fetch,
        back.nextStart, back.others⟩
  · obtain ⟨a, alloc, onGrant, onQueue, onRefusal⟩ :=
      startVoice_outcomes (origin := origin) service latch running defined steps ready idle
    refine ⟨a, alloc, onGrant, fun refused long => ?_, fun refused short => by rw [onRefusal refused short, alloc.returned]⟩
    obtain ⟨frame, voice, others, joins⟩ := queueClaim_step v o a
    refine ⟨_, onQueue refused long, frame, voice.trans alloc.voice_waiting, ?_, others⟩
    have joins := joins alloc.voice_order
    rw [alloc.voice_start] at joins
    exact joins.congr (by rw [alloc.arbiter]) fun w other => by rw [alloc.others w other]; exact ⟨rfl, rfl⟩

end Sys2Proof.Machine
end

section
/-! SUPPORT. The contact inputs: a pin, its settle timer and the edge of it (R145, R146); the start of V6 and the losers of its claim
(R74, R90, R107, R159 to R161). -/

namespace Sys2Proof.Machine

/-! ### A pin and its settle timer (R145, R146) -/

section
variable {i : InputId} {l : Level} {s : State}

theorem exec_pinChange : exec (.pinChange i l) s =
    .next (if (s.input i).pin = l then s else s.setInput i ((s.input i).atPin s.inReset l)) := rfl

theorem exec_pinChange_same (same : (s.input i).pin = l) : exec (.pinChange i l) s = .next s := by
  rw [exec_pinChange, if_pos same]

theorem exec_pinChange_moved (moved : (s.input i).pin ≠ l) :
    exec (.pinChange i l) s = .next (s.setInput i ((s.input i).atPin s.inReset l)) := by
  rw [exec_pinChange, if_neg moved]

theorem exec_settleTimerExpiry : exec (.settleTimerExpiry i) s = eventWhen (isSettling i) (settle i) s := rfl

theorem isSettling_iff : isSettling i s = true ↔ (s.input i).settling = true ∧ (s.input i).pin ≠ (s.input i).level := by
  simp [isSettling]

theorem inputEdge_override (e : Edge) (s : State) : inputEdge 8 e s = overrideEdge e s := by
  simp only [inputEdge, below_none (n := 8) (m := (8 : InputId).val) (by decide)]

theorem inputEdge_trigger {n : TriggerId} (same : n.val = i.val) (e : Edge) (s : State) : inputEdge i e s = takeEdge n e s := by
  simp only [inputEdge, below_eq same.symm]

end

/-! ### The close edge of OVR (R159, R160) -/

section
variable {s : State}

/-- What a close edge of OVR leaves before it asks for V6: the latch and OVERRIDE_ON set, the bus running (R159). -/
def overrideLatched (s : State) : State := setFlag .overrideOn { s with inputs.latch := true, arbiter.bus := .running }

theorem overrideEdge_close (s : State) : overrideEdge .close s = askOverride (overrideLatched s) := rfl

theorem askOverride_alive (alive : (s.voice 6).state ≠ .idle) : askOverride s = s := if_pos alive

theorem askOverride_starting (idle : (s.voice 6).state = .idle) (starting : s.store.state = .starting) :
    askOverride s = { s with inputs.overrideResult := .pending } :=
  (if_neg fun alive => alive idle).trans (if_pos starting)

theorem askOverride_starts (idle : (s.voice 6).state = .idle) (scanned : s.store.state ≠ .starting) : askOverride s = startOverride s :=
  (if_neg fun alive => alive idle).trans (if_neg scanned)

end

/-! ### The start of V6 (R74) -/

section
variable {p : ProgramId} {prog : Program} {first : Step} {rest : List Step} {s a : State}

theorem startOverride_noProgram (noProgram : overrideStartProgram s = none) :
    startOverride s = { s with inputs.overrideResult := .noProgram } := by
  simp only [startOverride, noProgram]

theorem overrideStartProgram_undefined
    (undefined : s.inputs.overrideProgram = none ∨ ∃ p, s.inputs.overrideProgram = some p ∧ s.program p = none) :
    overrideStartProgram s = none := by
  rcases undefined with unset | ⟨p, set, undefined⟩
  · simp only [overrideStartProgram, unset]
  · simp only [overrideStartProgram, set, undefined]

section
variable (set : s.inputs.overrideProgram = some p) (defined : s.program p = some prog) (steps : prog.steps = first :: rest)
include set defined steps

theorem overrideStartProgram_unready {c : ClipId} (clip : first.clip? = some c) (unready : s.clipReady c = false) :
    overrideStartProgram s = none := by
  simp [overrideStartProgram, set, defined, steps, stepClipReady, clip, unready]

theorem overrideStartProgram_ready (ready : ∀ c, first.clip? = some c → s.clipReady c = true) : overrideStartProgram s = some p := by
  cases clip : first.clip? with
  | none => simp [overrideStartProgram, set, defined, steps, stepClipReady, clip]
  | some c => simp [overrideStartProgram, set, defined, steps, stepClipReady, clip, ready c clip]

end

/-- With an override program that can start, V6 is allocated and its claim is granted or refused; it is never queued (R74). -/
theorem startOverride_claims (program : overrideStartProgram s = some p) :
    startOverride s =
      (let o := overrideOrder p s
       let a := allocate 6 .override o s
       match evaluateClaim o a with
       | some zs => { grantClaim offers 6 o zs a with inputs.overrideResult := .started }
       | none => { returnToIdle 6 a with inputs.overrideResult := .noZone }) := by
  simp only [startOverride, program, overrideVoice, claimZones]
  cases evaluateClaim (overrideOrder p s) (allocate 6 .override (overrideOrder p s) s) with
  | some zs => rfl
  | none => rfl

/-! ### The claim of V6 (R74, R103) -/

theorem overrideOrder_claimSet : claimSet (overrideOrder p s) s = s.enabledSet := BitVec.and_self

/-- Without an enabled zone the claim of V6 is refused. -/
theorem overrideClaim_refused (noneEnabled : s.enabledSet = 0) : evaluateClaim (overrideOrder p s) s = none := by
  have none : grantableSet (overrideOrder p s) s = 0 := setByte_ext fun z => by
    rw [grantableSet_has, overrideOrder_claimSet, noneEnabled, hasZone_zero, Bool.false_and]
  unfold evaluateClaim
  exact if_pos none

/-- The claim of V6 is granted every enabled zone, from holders of lower priority too. -/
theorem overrideClaim_granted (someEnabled : s.enabledSet ≠ 0) (lower : ∀ z w q, (s.zone z).holder = some (w, q) → q < 15) :
    evaluateClaim (overrideOrder p s) s = some s.enabledSet := by
  have grantableAll (z : ZoneId) : grantable 15 s z = true := by
    unfold grantable
    split
    · rfl
    · next w q held => exact decide_eq_true (lower z w q held)
  have all : grantableSet (overrideOrder p s) s = s.enabledSet := setByte_ext fun z => by
    rw [grantableSet_has, overrideOrder_claimSet]
    show (_ && grantable 15 s z) = _
    rw [grantableAll z, Bool.and_true]
  unfold evaluateClaim
  rw [all, overrideOrder_claimSet]
  dsimp only
  rw [if_neg someEnabled, if_pos rfl]
  exact if_neg Bool.false_ne_true

/-! ### What its grant makes of the holders (R90, R107, R109) -/

/-- What the grant of every enabled zone to V6, allocated in `a`, makes of the state `s` in which it starts, while the latch is set. -/
structure OverrideGranted (s a u : State) : Prop where
  engine : EngineStep s u
  voice : u.voice 6 = { a.voice 6 with
    state := .active, wanted := 0, discardTimer := 0, waitTimer := 0
    walkZone := (u.voice 6).walkZone, walked := (u.voice 6).walked, fetch := (u.voice 6).fetch }
  walk : WalkZoneChosen 6 a u
  zone : ∀ z, u.zone z = if (s.zone z).enabled = true then { s.zone z with holder := some (6, 15) } else s.zone z
  losers : ∀ w q, w ≠ 6 → (s.voice w).state = .active → (s.voice w).order = some q → (∃ z, s.holds w z = true) →
    (q.suspendable = true →
      u.voice w = { s.voice w with state := .suspended, wanted := (u.voice w).wanted, fetch := (u.voice w).fetch } ∧
      ∀ z, hasZone (u.voice w).wanted z = (hasZone (s.voice w).wanted z || s.holds w z)) ∧
    (q.suspendable = false →
      (u.voice w).state = .idle ∧ u.flagSet (.voiceEnd w) = true ∧
      ∃ r, (u.voice w).endRecord = some r ∧ r.cause = .preempted ∧ r.start = (s.voice w).start)
  others : ∀ w, w ≠ 6 → (∀ z, s.holds w z = false) → SameButFetch s u w

/-- Each enabled zone is V6's by the time its holders are told, so they hold none, and with the latch set none is offered. -/
theorem overrideGranted (alloc : Allocated 6 .override (overrideOrder p s) first s a)
    (claim : evaluateClaim (overrideOrder p s) s = some s.enabledSet) (latch : s.inputs.latch = true) (free : DisabledFree s) :
    OverrideGranted s a (grantClaim offers 6 (overrideOrder p s) s.enabledSet a) := by
  have engine := engineStep_grantClaim offersStep_offers 6 (overrideOrder p s) s.enabledSet a
    (evaluateClaim_enabled ((alloc.evaluateClaim _).trans claim))
  obtain ⟨u, told, frame, zone, voice, walk, others⟩ := grantClaim_spec offers 6 (overrideOrder p s) s.enabledSet a
  obtain ⟨ascending, member⟩ := losersOf_spec 6 s.enabledSet a
  generalize losersOf 6 s.enabledSet a = losers at told ascending member
  have heldEnabled {w : VoiceId} {z : ZoneId} (held : s.holds w z = true) : (s.zone z).enabled = true := by
    cases enabled : (s.zone z).enabled with
    | true => rfl
    | false => rw [State.holds, free z enabled] at held; cases held
  have zone (z : ZoneId) : u.zone z = if (s.zone z).enabled = true then { s.zone z with holder := some (6, 15) } else s.zone z := by
    rw [zone, enabledSet_has, alloc.zone]; rfl
  have loses (w : VoiceId) : w ∈ losers ↔ w ≠ 6 ∧ ∃ z, s.holds w z = true := by
    simp only [member, enabledSet_has, alloc.holds]
    exact and_congr_right fun _ => exists_congr fun z => and_iff_right_of_imp heldEnabled
  have bare (w : VoiceId) (loser : w ∈ losers) (z : ZoneId) : u.holds w z = false := by
    have other : ¬ 6 = w := fun same => ((loses w).1 loser).1 same.symm
    unfold State.holds
    rw [zone]
    cases enabled : (s.zone z).enabled with
    | true => simp [other]
    | false => simp [free z enabled]
  have latched : u.inputs.latch = true := by rw [frame]; exact (congrArg _ alloc.engine.inputs).trans latch
  obtain ⟨-, zoneTold, unmoved, act⟩ := tellLosers_latched losers (ascending.imp Fin.ne_of_lt) u latched bare
  rw [← told] at zoneTold unmoved act
  have wantedIn {w : VoiceId} (other : w ≠ 6) (z : ZoneId) :
      hasZone (u.voice w).wanted z = (hasZone (s.voice w).wanted z || s.holds w z) := by
    rw [(others w other).2 z, enabledSet_has, alloc.holds, alloc.others w other]
    cases held : s.holds w z with
    | true => rw [heldEnabled held, Bool.and_true]
    | false => rw [Bool.and_false]
  have before {w : VoiceId} (other : w ≠ 6) :
      u.voice w = { s.voice w with wanted := (u.voice w).wanted, fetch := (u.voice w).fetch } := by
    rw [(others w other).1, alloc.others w other]
  have own := unmoved 6 fun loser => ((loses 6).1 loser).1 rfl
  refine { engine := alloc.engine.trans engine, voice := ?_, zone := fun z => (zoneTold z).trans (zone z)
           walk := walk.congr (fun z => holds_congr 6 (zoneTold z)) (by rw [own]) (by rw [own])
           losers := fun w q other active order holding => ?_, others := fun w other holding => ?_ }
  · rw [own, voice]
    simp only [zones_and_not_self, overrideOrder]
  · have same := before other
    obtain ⟨suspends, ends⟩ := act w ((loses w).2 ⟨other, holding⟩) q (by rw [same]; exact active) (by rw [same]; exact order)
    refine ⟨fun suspendable => ?_, fun unsuspendable => ?_⟩
    · rw [suspends suspendable]
      exact ⟨by rw [same], wantedIn other⟩
    · obtain ⟨idle, flag, r, record, cause, start⟩ := ends unsuspendable
      exact ⟨idle, flag, r, record, cause, start.trans (by rw [same])⟩
  · have kept : (u.voice w).wanted = (s.voice w).wanted := setByte_ext fun z => by
      rw [wantedIn other, holding z, Bool.or_false]
    have bystander : w ∉ losers := fun loser => by
      obtain ⟨-, z, held⟩ := (loses w).1 loser
      rw [holding z] at held; cases held
    unfold SameButFetch
    rw [unmoved w bystander, before other, kept]

end

/-- Settles O51: the pin, its timer and its edge; then the start of V6 by its program and its zones. -/
theorem pinsSettleIntoEdges : Obligations.PinsSettleIntoEdges := by
  refine ⟨fun i l s => ⟨exec_pinChange_same, fun moved live => ?_, fun moved held => ?_⟩,
    fun i s live => ⟨fun settling away => ?_, fun still => ?_⟩,
    fun s => ⟨rfl,
      ⟨askOverride_alive (s := overrideLatched s), askOverride_starting (s := overrideLatched s),
        askOverride_starts (s := overrideLatched s)⟩,
      fun undefined => startOverride_noProgram (overrideStartProgram_undefined undefined),
      fun p prog first rest enabled set defined steps isEnabled =>
        ⟨fun c clip unready => startOverride_noProgram (overrideStartProgram_unready set defined steps clip unready), fun ready => ?_⟩⟩⟩
  · rw [exec_pinChange_moved moved, live]; rfl
  · rw [exec_pinChange_moved moved, held]; rfl
  · intro u e
    have taken : exec (.settleTimerExpiry i) s = .next (arbitrate (inputEdge i e u)) :=
      eventWhen_taken live (isSettling_iff.2 ⟨settling, away⟩)
    refine ⟨?_, fun n same => ?_⟩
    · rintro rfl; rw [taken, inputEdge_override]
    · rw [taken, inputEdge_trigger same]
  · rw [exec_settleTimerExpiry, eventWhen_not (by rw [isSettling, still]; rfl)]
  · obtain rfl : enabled = s.enabledSet := setByte_ext fun z => by rw [isEnabled, enabledSet_has]
    intro o
    have alloc : Allocated 6 .override o first s (allocate 6 .override o s) := allocated (fun _ => set) defined steps ready
    have started := startOverride_claims (overrideStartProgram_ready set defined steps ready)
    dsimp only at started
    rw [show overrideOrder p s = o from rfl] at started
    generalize allocate 6 .override o s = a at alloc started
    rw [alloc.evaluateClaim] at started
    refine ⟨a, alloc, fun noneEnabled => ?_, fun someEnabled lower => ?_, fun someEnabled lower latch free => ?_⟩
    · have refused : evaluateClaim o s = none := overrideClaim_refused noneEnabled
      rw [started, refused, alloc.returned]
    · have claim : evaluateClaim o s = some s.enabledSet := overrideClaim_granted someEnabled lower
      rw [started, claim]
    · have claim : evaluateClaim o s = some s.enabledSet := overrideClaim_granted someEnabled lower
      rw [started, claim]
      have grant := overrideGranted alloc claim latch free
      exact ⟨_, rfl, grant.engine, grant.voice, grant.walk, grant.zone, grant.losers, grant.others⟩

end Sys2Proof.Machine
end

section
/-! SUPPORT. The evaluation of a claim (R100 to R102), ZONE.SET (R112 to R114), and the halting and running of the zone bus (R119,
R120). -/

namespace Sys2Proof.Machine

/-! ### The evaluation of a claim (R100 to R102) -/

section
variable {o : StartOrder} {s : State}

theorem setByte_ne_zero {zs : SetByte} : zs ≠ 0 ↔ ∃ z, hasZone zs z = true := by
  refine ⟨fun nonzero => Decidable.byContradiction fun nowhere => nonzero (setByte_ext fun z => ?_), ?_⟩
  · rw [hasZone_zero]
    exact Bool.eq_false_iff.2 fun has => nowhere ⟨z, has⟩
  · rintro ⟨z, has⟩ rfl
    rw [hasZone_zero] at has
    cases has

theorem grantable_iff {priority : Nat} {z : ZoneId} : grantable priority s z = true ↔
    (s.zone z).holder = none ∨ ∃ w p, (s.zone z).holder = some (w, p) ∧ p < priority := by
  unfold grantable
  cases (s.zone z).holder with
  | none => exact iff_of_true rfl (.inl rfl)
  | some held =>
    obtain ⟨w, p⟩ := held
    refine ⟨fun lower => .inr ⟨w, p, rfl, of_decide_eq_true lower⟩, ?_⟩
    rintro (free | ⟨_, _, same, lower⟩)
    · cases free
    · cases same
      exact decide_eq_true lower

/-- A claim is granted the grantable zones of its claim set: some of them when it is partial, the whole claim set otherwise. -/
theorem evaluateClaim_eq : evaluateClaim o s =
    if grantableSet o s ≠ 0 ∧ (o.partialOpt = true ∨ grantableSet o s = claimSet o s) then some (grantableSet o s) else none := by
  unfold evaluateClaim
  dsimp only
  by_cases empty : grantableSet o s = 0
  · rw [if_pos empty, if_neg fun granted => granted.1 empty]
  · rw [if_neg empty]
    cases o.partialOpt with
    | true => exact (if_pos ⟨empty, .inl rfl⟩).symm
    | false =>
      by_cases whole : grantableSet o s = claimSet o s
      · exact (if_pos whole).trans (if_pos ⟨empty, .inr whole⟩).symm
      · exact (if_neg whole).trans (if_neg fun granted => whole (granted.2.resolve_left Bool.false_ne_true)).symm

theorem evaluateClaim_some {zs : SetByte} (granted : evaluateClaim o s = some zs) : grantableSet o s = zs := by
  rw [evaluateClaim_eq, Option.ite_none_right_eq_some] at granted
  exact Option.some.inj granted.2

theorem evaluateClaim_ne_none : evaluateClaim o s ≠ none ↔
    grantableSet o s ≠ 0 ∧ (o.partialOpt = true ∨ grantableSet o s = claimSet o s) := by
  rw [evaluateClaim_eq]
  split
  · next granted => exact iff_of_true (Option.some_ne_none _) granted
  · next refused => exact iff_of_false (fun granted => granted rfl) refused

theorem grantableSet_eq_claimSet : grantableSet o s = claimSet o s ↔
    ∀ z, hasZone (claimSet o s) z = true → grantable o.priority s z = true := by
  refine ⟨fun same z claimed => ?_, fun all => setByte_ext fun z => ?_⟩
  · have has := grantableSet_has o s z
    rw [same, claimed, Bool.true_and] at has
    exact has.symm
  · rw [grantableSet_has]
    cases claimed : hasZone (claimSet o s) z with
    | false => rfl
    | true => rw [all z claimed]; rfl

end

/-- Settles O41: a claim by the grantable zones of its claim set, all of them or some. -/
theorem claimsAreEvaluated : Obligations.ClaimsAreEvaluated := by
  intro o s claimed free isClaimed isFree
  have claims (z : ZoneId) : hasZone (claimSet o s) z = true ↔ claimed z := by rw [claimSet_has, isClaimed, Bool.and_eq_true]
  have frees (z : ZoneId) : grantable o.priority s z = true ↔ free z := by rw [grantable_iff, isFree]
  have takes (z : ZoneId) : hasZone (grantableSet o s) z = true ↔ claimed z ∧ free z := by
    rw [grantableSet_has, Bool.and_eq_true, claims, frees]
  have someGrantable : grantableSet o s ≠ 0 ↔ ∃ z, claimed z ∧ free z := by simp only [setByte_ne_zero, takes]
  have allGrantable : grantableSet o s = claimSet o s ↔ ∀ z, claimed z → free z := by
    simp only [grantableSet_eq_claimSet, claims, frees]
  refine ⟨fun zs granted z => ?_, fun whole => ?_, fun isPartial => ?_⟩
  · rw [← evaluateClaim_some granted, takes]
  · rw [evaluateClaim_ne_none, someGrantable, allGrantable, whole, or_iff_right Bool.false_ne_true]
    exact and_congr_left fun all => exists_congr fun z => and_iff_left_of_imp (all z)
  · rw [evaluateClaim_ne_none, someGrantable, and_iff_left (.inl isPartial)]

/-! ### ZONE.SET (R112 to R114) -/

section
variable {z : ZoneId} {s : State}

@[simp] theorem setZone_setZone (s : State) (z : ZoneId) (x y : Zone) : (s.setZone z x).setZone z y = s.setZone z y := by
  simp only [State.setZone, Vector.set_set]

theorem zone_setZone_same (s : State) (z : ZoneId) (x : Zone) : (s.setZone z x).zone z = x := by simp

theorem setLevel_same {level : Nat} {e : Bool} (same : e = (s.zone z).enabled) :
    setLevel z level e s = arbitrate (s.setZone z { s.zone z with level := level }) := by
  unfold setLevel
  rw [← same]
  cases e <;> rfl

theorem setLevel_disables {level : Nat} (enabled : (s.zone z).enabled = true) :
    setLevel z level false s = arbitrate (disableZone z (s.setZone z { s.zone z with level := level })) := by
  unfold setLevel
  rw [enabled]

theorem setLevel_enables {level : Nat} (disabled : (s.zone z).enabled = false) :
    setLevel z level true s =
      arbitrate (offers (oneZone z) (s.setZone z { holder := (s.zone z).holder, level := level, enabled := true })) := by
  unfold setLevel enableZone
  rw [disabled]
  dsimp only
  rw [zone_setZone_same, setZone_setZone]

theorem disableZone_free (free : (s.zone z).holder = none) :
    disableZone z s = s.setZone z { s.zone z with holder := none, enabled := false } := by
  unfold disableZone
  dsimp only
  rw [free]

theorem disableZone_held {v : VoiceId} {p : Nat} (held : (s.zone z).holder = some (v, p)) :
    disableZone z s = loseSome offers v (loseLast offers v
      ((s.setZone z { s.zone z with holder := none, enabled := false }).setVoice v
        { s.voice v with wanted := (s.voice v).wanted ||| oneZone z })) := by
  unfold disableZone
  dsimp only
  rw [held]
  rfl

variable {tag zb lb eb : Byte} {e : Bool}

theorem readYesNo_some {b : Byte} (inRange : b.toNat ≤ 1) : ∃ e, readYesNo b = some e :=
  Option.ne_none_iff_exists'.1 fun none => absurd (readYesNo_eq_none.1 none) (Nat.not_lt.2 inRange)

/-- ZONE.SET whose fields are in range, and which the latch does not refuse. -/
theorem exec_zoneSet_ok (takes : Takes s) (named : zb.toNat = z.val) (level : lb.toNat ≤ 31) (yesOrNo : eb = yesNo e)
    (latch : s.inputs.latch = false) :
    exec (.zoneSet tag zb lb eb) s = .next (reply 80 tag .ok [] (setLevel z lb.toNat e (hunt s))) := by
  have served : serveZoneSet zb lb eb (hunt s) = answerOnly (setLevel z lb.toNat e (hunt s)) .ok := by
    unfold serveZoneSet
    rw [below_eq named, below_eq (i := ⟨lb.toNat, by omega⟩) rfl, readYesNo_eq_some.2 yesOrNo]
    exact if_neg (Bool.eq_false_iff.1 latch)
  exact request_answer takes served

theorem exec_zoneSet_locked (takes : Takes s) (zone : zb.toNat ≤ 7) (level : lb.toNat ≤ 31) (yesOrNo : eb.toNat ≤ 1)
    (latch : s.inputs.latch = true) : exec (.zoneSet tag zb lb eb) s = .next (reply 80 tag .locked [] (hunt s)) := by
  obtain ⟨e, read⟩ := readYesNo_some yesOrNo
  have served : serveZoneSet zb lb eb (hunt s) = answerOnly (hunt s) .locked := by
    unfold serveZoneSet
    rw [below_eq (i := ⟨zb.toNat, by omega⟩) rfl, below_eq (i := ⟨lb.toNat, by omega⟩) rfl, read]
    exact if_pos latch
  exact request_answer takes served

theorem exec_zoneSet_badField (takes : Takes s) (out : 7 < zb.toNat ∨ 31 < lb.toNat ∨ 1 < eb.toNat) :
    exec (.zoneSet tag zb lb eb) s = .next (reply 80 tag .badField [] (hunt s)) := by
  have served : serveZoneSet zb lb eb (hunt s) = answerOnly (hunt s) .badField := by
    unfold serveZoneSet
    split
    · next zone level yesOrNo =>
      rcases out with out | out | out
      · rw [below_none (by omega)] at zone; cases zone
      · rw [below_none (by omega)] at level; cases level
      · rw [readYesNo_eq_none.2 out] at yesOrNo; cases yesOrNo
    · rfl
  exact request_answer takes served

end

/-- Settles O43: the fields by their ranges, the accepted request by the enabled field as it stands and as it is set. -/
theorem zoneSetSetsLevelAndEnabled : Obligations.ZoneSetSetsLevelAndEnabled := by
  intro tag zb lb eb z e s takes
  refine ⟨fun named level yesOrNo latch => ?_, exec_zoneSet_locked takes, exec_zoneSet_badField takes⟩
  have accepted : exec (.zoneSet tag zb lb eb) s = _ := exec_zoneSet_ok takes named level yesOrNo latch
  refine ⟨fun same => ?_, fun no enabled => ⟨fun free => ?_, fun v p held => ?_⟩, fun yes disabled => ?_⟩
  · rw [accepted, setLevel_same (s := hunt s) same]; rfl
  · rw [accepted, no, setLevel_disables (s := hunt s) enabled, disableZone_free (by simpa using free), zone_setZone_same,
      setZone_setZone]
  · rw [accepted, no, setLevel_disables (s := hunt s) enabled, disableZone_held (v := v) (p := p) (by simpa using held),
      zone_setZone_same, setZone_setZone]
    rfl
  · rw [accepted, yes, setLevel_enables (s := hunt s) disabled]; rfl

/-! ### The ends that are not offered (R94, R108, R119) -/

/-- The context of a voice after an end (R94); an IDLE voice has none. -/
def Voice.afterEnd (x : Voice) (cause : EndCause) (time : Option ClockTime) : Voice :=
  if x.state = .idle then x else { x.cleared with endRecord := some (endRecordOf x cause time) }

/-- Voices end one after another, and the zones they free are not offered. -/
def endVoices (vs : List VoiceId) (cause : EndCause) (s : State) : State := vs.foldl (fun s v => endVoice noOffers v cause s) s

theorem forceVoices_eq (s : State) : forceVoices s = endVoices generalVoices .forced s := rfl

section
variable {v w : VoiceId} {vs : List VoiceId} {cause : EndCause} {s t : State} {z : ZoneId}

theorem afterEnd_state (x : Voice) (time : Option ClockTime) : (x.afterEnd cause time).state = .idle := by
  unfold Voice.afterEnd
  split
  · next idle => exact idle
  · rfl

theorem afterEnd_idle {x : Voice} {time : Option ClockTime} (idle : x.state = .idle) : x.afterEnd cause time = x := if_pos idle

theorem afterEnd_record {x : Voice} {time : Option ClockTime} (alive : x.state ≠ .idle) :
    (x.afterEnd cause time).endRecord = some (endRecordOf x cause time) := by
  unfold Voice.afterEnd
  rw [if_neg alive]

theorem EngineStep.keepsFlag (step : EngineStep s t) {f : EventFlag} (set : s.flagSet f = true) : t.flagSet f = true := by
  unfold State.flagSet at set ⊢
  rw [← step.flags, BitVec.getLsbD_and, Bool.and_eq_true] at set
  exact set.2

theorem engineStep_endVoices (vs : List VoiceId) (cause : EndCause) (s : State) : EngineStep s (endVoices vs cause s) :=
  EngineStep.foldl _ (fun s v => engineStep_endVoice offersStep_noOffers v cause s) vs s

theorem voice_endVoice : (endVoice noOffers v cause s).voice w =
    if w = v then (s.voice v).afterEnd cause s.clockTime else s.voice w := by
  by_cases idle : (s.voice v).state = .idle
  · rw [endVoice_idle idle, afterEnd_idle idle]
    split
    · next same => rw [same]
    · rfl
  · rw [endVoice_alive idle, noOffers, voice_ended, Voice.afterEnd, if_neg idle]

theorem voice_endVoice_other (other : w ≠ v) : (endVoice noOffers v cause s).voice w = s.voice w := by
  rw [voice_endVoice, if_neg other]

theorem zone_endVoice : (endVoice noOffers v cause s).zone z =
    if (s.voice v).state ≠ .idle ∧ s.holds v z = true then { s.zone z with holder := none } else s.zone z := by
  by_cases idle : (s.voice v).state = .idle
  · rw [endVoice_idle idle, if_neg fun freed => freed.1 idle]
  · rw [endVoice_alive idle, noOffers, zone_ended]
    simp only [idle, ne_eq, not_false_eq_true, true_and]

theorem flagSet_endVoice (alive : (s.voice v).state ≠ .idle) : (endVoice noOffers v cause s).flagSet (.voiceEnd v) = true := by
  have link : (ended v cause s).link = (setFlag (.voiceEnd v) s).link := by rw [ended_frame]
  rw [endVoice_alive alive, noOffers, State.flagSet, link]
  exact (flagSet_setFlag _ _ s).trans (by simp)

theorem clockTime_endVoice : (endVoice noOffers v cause s).clockTime = s.clockTime := by
  unfold State.clockTime
  rw [(engineStep_endVoice offersStep_noOffers v cause s).schedule]

theorem endVoices_idle (idle : ∀ v ∈ vs, (s.voice v).state = .idle) : endVoices vs cause s = s := by
  induction vs with
  | nil => rfl
  | cons v vs ih =>
    show endVoices vs cause (endVoice noOffers v cause s) = s
    rw [endVoice_idle (idle v List.mem_cons_self)]
    exact ih fun w later => idle w (List.mem_cons_of_mem v later)

theorem voice_endVoices (nodup : vs.Nodup) : (endVoices vs cause s).voice w =
    if w ∈ vs then (s.voice w).afterEnd cause s.clockTime else s.voice w := by
  induction vs generalizing s with
  | nil => rfl
  | cons v vs ih =>
    obtain ⟨fresh, nodup⟩ := List.nodup_cons.1 nodup
    show (endVoices vs cause (endVoice noOffers v cause s)).voice w = _
    rw [ih nodup, voice_endVoice, clockTime_endVoice]
    by_cases same : w = v
    · subst same
      simp [fresh]
    · simp [same]

theorem flagSet_endVoices (nodup : vs.Nodup) (ends : v ∈ vs) (alive : (s.voice v).state ≠ .idle) :
    (endVoices vs cause s).flagSet (.voiceEnd v) = true := by
  induction vs generalizing s with
  | nil => cases ends
  | cons a vs ih =>
    obtain ⟨fresh, nodup⟩ := List.nodup_cons.1 nodup
    show (endVoices vs cause (endVoice noOffers a cause s)).flagSet (.voiceEnd v) = true
    rcases List.mem_cons.1 ends with rfl | later
    · exact (engineStep_endVoices vs cause _).keepsFlag (flagSet_endVoice alive)
    · exact ih nodup later (by rw [voice_endVoice_other (ne_of_mem_of_not_mem later fresh)]; exact alive)

/-- A zone without a holder stays free. -/
theorem holder_endVoices_free (free : (s.zone z).holder = none) : ((endVoices vs cause s).zone z).holder = none := by
  induction vs generalizing s with
  | nil => exact free
  | cons v vs ih =>
    refine ih (s := endVoice noOffers v cause s) ?_
    rw [zone_endVoice]
    split
    · rfl
    · exact free

theorem holds_of_holder {p : Nat} (held : (s.zone z).holder = some (v, p)) : s.holds v z = true := by
  simp [State.holds, held]

/-- A voice that ends frees its zones, whoever ends before it and after it. -/
theorem holder_endVoices_ended {p : Nat} (nodup : vs.Nodup) (ends : v ∈ vs) (alive : (s.voice v).state ≠ .idle)
    (held : (s.zone z).holder = some (v, p)) : ((endVoices vs cause s).zone z).holder = none := by
  induction vs generalizing s with
  | nil => cases ends
  | cons a vs ih =>
    obtain ⟨fresh, nodup⟩ := List.nodup_cons.1 nodup
    show ((endVoices vs cause (endVoice noOffers a cause s)).zone z).holder = none
    rcases List.mem_cons.1 ends with rfl | later
    · apply holder_endVoices_free
      rw [zone_endVoice, if_pos ⟨alive, holds_of_holder held⟩]
    · have other : v ≠ a := ne_of_mem_of_not_mem later fresh
      refine ih nodup later (by rw [voice_endVoice_other other]; exact alive) ?_
      have notHeld : ¬ s.holds a z = true := by simp [State.holds, held, other]
      rw [zone_endVoice, if_neg fun freed => notHeld freed.2]
      exact held

end

/-! ### OUTPUT.HALT and OUTPUT.RUN (R119, R120) -/

theorem nodup_generalVoices : generalVoices.Nodup := by decide

section
variable {tag f : Byte} {s : State}

theorem generalIdle_iff : generalIdle s = true ↔ ∀ v, v ≠ 6 → (s.voice v).state = .idle := by
  simp only [generalIdle, List.all_eq_true, mem_generalVoices, decide_eq_true_eq]

theorem forceVoices_idle (idle : ∀ v, v ≠ 6 → (s.voice v).state = .idle) : forceVoices s = s :=
  endVoices_idle fun v general => idle v ((mem_generalVoices v).1 general)

/-- OUTPUT.HALT that neither the latch nor a general voice refuses. -/
theorem exec_outputHalt_ok (takes : Takes s) (latch : s.inputs.latch = false) {e : Bool}
    (granted : e = true ∨ ∀ v, v ≠ 6 → (s.voice v).state = .idle) :
    exec (.outputHalt tag (yesNo e)) s = .next (reply 82 tag .ok [] (arbitrate (haltBus (forceVoices (hunt s))))) := by
  have served : serveOutputHalt (yesNo e) (hunt s) = answerOnly (arbitrate (haltBus (forceVoices (hunt s)))) .ok := by
    have unlatched : ¬ (hunt s).inputs.latch = true := Bool.eq_false_iff.1 latch
    unfold serveOutputHalt
    rw [readYesNo_yesNo]
    dsimp only
    rw [if_neg unlatched, if_neg]
    rintro ⟨playing, rfl⟩
    exact Bool.eq_false_iff.1 playing (generalIdle_iff.2 (granted.resolve_left Bool.false_ne_true))
  exact request_answer takes served

theorem exec_outputHalt_busy (takes : Takes s) (latch : s.inputs.latch = false) (playing : ∃ v, v ≠ 6 ∧ (s.voice v).state ≠ .idle) :
    exec (.outputHalt tag 0) s = .next (reply 82 tag .busy [] (hunt s)) := by
  have served : serveOutputHalt 0 (hunt s) = answerOnly (hunt s) .busy := by
    have unlatched : ¬ (hunt s).inputs.latch = true := Bool.eq_false_iff.1 latch
    have notIdle : generalIdle (hunt s) = false := Bool.eq_false_iff.2 fun idle => by
      obtain ⟨v, general, alive⟩ := playing
      exact alive (generalIdle_iff.1 idle v general)
    exact (if_neg unlatched).trans (if_pos ⟨notIdle, rfl⟩)
  exact request_answer takes served

theorem exec_outputHalt_locked (takes : Takes s) (latch : s.inputs.latch = true) (yesOrNo : f.toNat ≤ 1) :
    exec (.outputHalt tag f) s = .next (reply 82 tag .locked [] (hunt s)) := by
  obtain ⟨e, read⟩ := readYesNo_some yesOrNo
  have served : serveOutputHalt f (hunt s) = answerOnly (hunt s) .locked := by
    unfold serveOutputHalt
    rw [read]
    exact if_pos latch
  exact request_answer takes served

theorem exec_outputHalt_badField (takes : Takes s) (out : 1 < f.toNat) :
    exec (.outputHalt tag f) s = .next (reply 82 tag .badField [] (hunt s)) := by
  have served : serveOutputHalt f (hunt s) = answerOnly (hunt s) .badField := by
    unfold serveOutputHalt
    rw [readYesNo_eq_none.2 out]
  exact request_answer takes served

theorem exec_outputRun (takes : Takes s) :
    exec (.outputRun tag) s = .next (reply 83 tag .ok [] { hunt s with arbiter.bus := .running }) :=
  request_answer (serve := serveOutputRun) takes rfl

end

/-- Settles O44: the requests by their checks, then the ends that force makes, read voice by voice and zone by zone. -/
theorem busHaltsAndRuns : Obligations.BusHaltsAndRuns := by
  intro tag s
  have voice (v : VoiceId) : (forceVoices s).voice v =
      if v ∈ generalVoices then (s.voice v).afterEnd .forced s.clockTime else s.voice v := voice_endVoices nodup_generalVoices
  refine ⟨fun takes => ⟨fun latch idle => ?_, fun latch => exec_outputHalt_ok (e := true) takes latch (.inl rfl),
      exec_outputHalt_busy takes, fun latch _ => exec_outputHalt_locked takes latch, fun _ => exec_outputHalt_badField takes,
      exec_outputRun takes⟩,
    engineStep_endVoices generalVoices .forced s, ?_, fun v other => ?_, fun z v p held other alive => ?_,
    fun z => holder_endVoices_free, forceVoices_waiting s, fun general => ?_⟩
  · have halted := exec_outputHalt_ok (tag := tag) (e := false) takes latch (.inr idle)
    rw [forceVoices_idle (s := hunt s) idle] at halted
    exact halted
  · rw [voice, if_neg (by decide)]
  · have ends : v ∈ generalVoices := (mem_generalVoices v).2 other
    rw [voice, if_pos ends]
    exact ⟨afterEnd_state _ _, afterEnd_idle,
      fun alive => ⟨flagSet_endVoices nodup_generalVoices ends alive, _, afterEnd_record alive, rfl⟩⟩
  · exact holder_endVoices_ended nodup_generalVoices ((mem_generalVoices v).2 other) alive held
  · rw [forceVoices_waiting, List.filter_eq_nil_iff]
    intro v waits
    obtain ⟨other, alive⟩ := general v waits
    simp [other, alive]

end Sys2Proof.Machine
end

section
/-! SUPPORT. The day clock as its tenth events advance it (R123, R124), the requests that set, start and read it (R131 to R133) and
OVERRIDE.STATUS (R164), and the requests that change a cue record (R126, R128, R137 to R142). -/

namespace Sys2Proof.Machine

/-! ### The second after a time (R123, R124) -/

section
variable {t : ClockTime}

theorem nextSecond_inMinute (second : t.second < 59) : t.nextSecond = { t with second := t.second + 1, tenth := 0 } := if_pos second

theorem nextSecond_inHour (second : t.second = 59) (minute : t.minute < 59) :
    t.nextSecond = { t with minute := t.minute + 1, second := 0, tenth := 0 } :=
  (if_neg (by omega)).trans (if_pos minute)

theorem nextSecond_inDay (second : t.second = 59) (minute : t.minute = 59) (hour : t.hour < 23) :
    t.nextSecond = { t with hour := t.hour + 1, minute := 0, second := 0, tenth := 0 } :=
  (if_neg (by omega)).trans ((if_neg (by omega)).trans (if_pos hour))

theorem nextSecond_midnight (dayEnd : t.atDayEnd = true) (weekday : t.weekday ≤ 6) :
    t.nextSecond = { weekday := (t.weekday + 1) % 7, hour := 0, minute := 0, second := 0, tenth := 0 } := by
  obtain ⟨hour, minute, second⟩ := atDayEnd_iff.1 dayEnd
  have following : (if t.weekday < 6 then t.weekday + 1 else 0) = (t.weekday + 1) % 7 := by split <;> omega
  rw [ClockTime.nextSecond, if_neg (by omega), if_neg (by omega), if_neg (by omega), following]

end

/-! ### A tenth event (R123, R124) -/

section
variable {s : State}

/-- Before the last second of the day, the second after the clock's own is entered and no done mark is cleared. -/
theorem advanceSecond_sameDay (before : ¬ s.schedule.clock.time.atDayEnd = true) :
    advanceSecond s = enterSecond (setTime s.schedule.clock.time.nextSecond s) := by
  rw [advanceSecond, if_neg before]

theorem advanceSecond_midnight (dayEnd : s.schedule.clock.time.atDayEnd = true) :
    advanceSecond s = enterSecond (clearDoneMarks (setTime s.schedule.clock.time.nextSecond s)) := by
  rw [advanceSecond, if_pos dayEnd]

theorem exec_tenthEvent_still (still : s.schedule.clock.state ≠ .running) : exec .tenthEvent s = .next s :=
  eventWhen_not (g := fun s => s.schedule.clock.state = .running) (f := tenth) (decide_eq_false still)

theorem exec_tenthEvent_running (released : s.inReset = false) (running : s.schedule.clock.state = .running) :
    exec .tenthEvent s = .next (tenth s) :=
  eventWhen_taken (g := fun s => s.schedule.clock.state = .running) released (decide_eq_true running)

theorem tenth_inSecond (below : s.schedule.clock.time.tenth < 9) :
    tenth s = { s with schedule.clock.time.tenth := s.schedule.clock.time.tenth + 1 } := if_pos below

theorem tenth_secondEnd (last : s.schedule.clock.time.tenth = 9) : tenth s = arbitrate (advanceSecond s) := if_neg (by omega)

end

/-- Settles O47: the tenth by the clock's state and tenth, the second entered by the field of the time that it moves. -/
theorem tenthEventAdvancesTheClock : Obligations.TenthEventAdvancesTheClock := by
  intro s released
  refine ⟨exec_tenthEvent_still, fun running below => ?_, fun w h m sec clock => ?_⟩
  · rw [exec_tenthEvent_running released running, tenth_inSecond below]
  · have entered : exec .tenthEvent s = .next (arbitrate (advanceSecond s)) := by
      rw [exec_tenthEvent_running released (by rw [clock]), tenth_secondEnd (by rw [clock])]
    have dayEnd : s.schedule.clock.time.atDayEnd = true ↔ h = 23 ∧ m = 59 ∧ sec = 59 := by rw [atDayEnd_iff, clock]
    refine ⟨fun second => ?_, fun second minute => ?_, fun second minute hour => ?_, fun second minute hour weekday => ?_⟩
    · rw [entered, advanceSecond_sameDay (mt dayEnd.1 (by omega)), clock, nextSecond_inMinute second]
    · rw [entered, advanceSecond_sameDay (mt dayEnd.1 (by omega)), clock, nextSecond_inHour second minute]
    · rw [entered, advanceSecond_sameDay (mt dayEnd.1 (by omega)), clock, nextSecond_inDay second minute hour]
    · have midnight := dayEnd.2 ⟨hour, minute, second⟩
      rw [entered, advanceSecond_midnight midnight, nextSecond_midnight midnight (by rw [clock]; exact weekday), clock]

/-! ### The tests of a cue (R128) -/

theorem timeTest_eq (x : CueEntry) (t : ClockTime) : x.timeTest t = decide (x.hour < t.hour ∨ (x.hour = t.hour ∧
    (x.minute < t.minute ∨ (x.minute = t.minute ∧ x.second ≤ t.second)))) := by
  simp only [CueEntry.timeTest, Bool.decide_or, Bool.decide_and]

theorem presentDay_eq (x : CueEntry) (c : Clock) : presentDay x c =
    (decide (c.state ≠ .unset) && x.days.getLsbD c.time.weekday && decide (x.hour < c.time.hour ∨ (x.hour = c.time.hour ∧
      (x.minute < c.time.minute ∨ (x.minute = c.time.minute ∧ x.second ≤ c.time.second))))) := by
  rw [presentDay, timeTest_eq, CueEntry.dayTest]

theorem passes_iff {c : Cue} {x : CueEntry} {t : ClockTime} (entry : c.entry = some x) : c.passes t = true ↔
    x.state = .armed ∧ x.days.getLsbD t.weekday = true ∧ c.done = false ∧ (x.hour < t.hour ∨ (x.hour = t.hour ∧
      (x.minute < t.minute ∨ (x.minute = t.minute ∧ x.second ≤ t.second)))) := by
  rw [Cue.passes, entry]
  simp only [timeTest_eq, CueEntry.dayTest, Bool.and_eq_true, decide_eq_true_eq, Bool.not_eq_true', and_assoc, and_left_comm,
    and_comm]

/-- A cue after step 3 of R131, in words. -/
theorem afterSet_eq (t : ClockTime) (c : Cue) : c.afterSet t = match c.entry with
    | some x =>
      if x.state = .armed ∧ x.days.getLsbD t.weekday = true ∧ c.done = false ∧ (x.hour < t.hour ∨ (x.hour = t.hour ∧
          (x.minute < t.minute ∨ (x.minute = t.minute ∧ x.second ≤ t.second)))) then
        { c with done := true, outcome := .passed t }
      else c
    | none => c := by
  cases entry : c.entry with
  | none => rw [Cue.afterSet, Cue.passes, entry]; rfl
  | some x => simp only [Cue.afterSet, passes_iff entry, entry]

/-! ### CLOCK.SET (R131) -/

/-- A table whose entries are all changed alike reads changed, where what an unlisted key reads as does not change. -/
theorem Table.read_map {α : Type} {f : α → α} {d : α} (fixed : f d = d) (t : Table α) (k : Nat) :
    Table.read d (t.map fun p => (p.1, f p.2)) k = f (t.read d k) := by
  induction t with
  | nil => exact fixed.symm
  | cons p t ih =>
    obtain ⟨j, x⟩ := p
    simp only [List.map_cons, Table.read, ih]
    split <;> rfl

theorem cue_clearDoneMarks (s : State) (c : CueId) : (clearDoneMarks s).cue c = { s.cue c with done := false } :=
  Table.read_map (f := fun x : Cue => { x with done := false }) rfl _ _

section
variable {t : ClockTime} {st : ClockState} {s : State}

theorem loadClock_rest : loadClock t st s = { s with schedule := (loadClock t st s).schedule } := by
  unfold loadClock
  dsimp only
  split <;> rfl

theorem loadClock_clock : (loadClock t st s).schedule.clock = { state := st, time := t } := rfl

theorem cue_loadClock (c : CueId) : (loadClock t st s).cue c =
    Cue.afterSet t (if s.schedule.clock.state = .unset ∨ t.weekday ≠ s.schedule.clock.time.weekday
      then { s.cue c with done := false } else s.cue c) := by
  refine (Table.read_map (f := Cue.afterSet t) rfl _ _).trans (congrArg _ ?_)
  split
  · exact cue_clearDoneMarks s c
  · rfl

variable {tag wd h m sec tenth start : Byte}

theorem readStartMode_some (known : start = 1 ∨ start = 2) : readStartMode start = some (if start = 1 then .running else .held) := by
  rcases known with rfl | rfl <;> rfl

/-- CLOCK.SET whose fields are in range. -/
theorem exec_clockSet_ok (takes : Takes s)
    (inRange : wd.toNat ≤ 6 ∧ h.toNat ≤ 23 ∧ m.toNat ≤ 59 ∧ sec.toNat ≤ 59 ∧ tenth.toNat ≤ 9) (known : start = 1 ∨ start = 2) :
    exec (.clockSet tag wd h m sec tenth start) s = .next (reply 96 tag .ok [] (loadClock
      { weekday := wd.toNat, hour := h.toNat, minute := m.toNat, second := sec.toNat, tenth := tenth.toNat }
      (if start = 1 then .running else .held) (hunt s))) := by
  have served : serveClockSet wd h m sec tenth start (hunt s) = answerOnly (loadClock
      { weekday := wd.toNat, hour := h.toNat, minute := m.toNat, second := sec.toNat, tenth := tenth.toNat }
      (if start = 1 then .running else .held) (hunt s)) .ok := by
    rw [serveClockSet, readTime, if_pos inRange, readStartMode_some known]
  exact request_answer takes served

theorem exec_clockSet_badField (takes : Takes s) (out : 6 < wd.toNat ∨ 23 < h.toNat ∨ 59 < m.toNat ∨ 59 < sec.toNat ∨
    9 < tenth.toNat ∨ (start ≠ 1 ∧ start ≠ 2)) :
    exec (.clockSet tag wd h m sec tenth start) s = .next (reply 96 tag .badField [] (hunt s)) := by
  have served : serveClockSet wd h m sec tenth start (hunt s) = answerOnly (hunt s) .badField := by
    unfold serveClockSet
    split
    · next time mode =>
      have inRange : wd.toNat ≤ 6 ∧ h.toNat ≤ 23 ∧ m.toNat ≤ 59 ∧ sec.toNat ≤ 59 ∧ tenth.toNat ≤ 9 :=
        Decidable.byContradiction fun outside => by
          rw [readTime, if_neg outside] at time
          cases time
      obtain ⟨notNow, notHold⟩ : start ≠ 1 ∧ start ≠ 2 := by
        rcases out with out | out | out | out | out | unknown
        iterate 5 omega
        exact unknown
      rw [readStartMode, if_neg notNow, if_neg notHold] at mode
      cases mode
    · rfl
  exact request_answer takes served

/-! ### CLOCK.START (R132) -/

theorem exec_clockStart_held (takes : Takes s) (held : s.schedule.clock.state = .held) :
    exec (.clockStart tag) s = .next (reply 97 tag .ok [] { hunt s with schedule.clock.state := .running }) :=
  request_answer (serve := serveClockStart) takes (if_pos held)

theorem exec_clockStart_wrongState (takes : Takes s) (other : s.schedule.clock.state ≠ .held) :
    exec (.clockStart tag) s = .next (reply 97 tag .wrongState [] (hunt s)) :=
  request_answer (serve := serveClockStart) takes (if_neg other)

end

/-- Settles O45: the requests by their checks, then what an accepted CLOCK.SET leaves: the rest of the state, the clock and each cue. -/
theorem clockSetAndStart : Obligations.ClockSetAndStart := by
  refine ⟨fun tag wd h m sec tenth start s takes => ⟨fun wdR hR mR secR tenthR known => ?_, exec_clockSet_badField takes⟩,
    fun tag s takes => ⟨exec_clockStart_held takes, exec_clockStart_wrongState takes⟩⟩
  refine ⟨_, exec_clockSet_ok takes ⟨wdR, hR, mR, secR, tenthR⟩ known, ?_, ?_, loadClock_clock, fun c => ?_⟩
  · rw [loadClock_rest]; rfl
  · rw [loadClock_rest]; rfl
  · exact (cue_loadClock c).trans (afterSet_eq _ _)

/-! ### CLOCK.READ and OVERRIDE.STATUS (R133, R164) -/

/-- Settles O15: CLOCK.READ by the clock's state, OVERRIDE.STATUS by whether an override program is set. -/
theorem clockAndOverrideAreRead : Obligations.ClockAndOverrideAreRead := by
  intro tag s takes
  refine ⟨request_answer (serve := serveClockRead) takes ?_, request_answer (serve := serveOverrideStatus) takes ?_⟩
  · rw [serveClockRead, clockFields, hunt_schedule]
    cases s.schedule.clock.state with
    | unset => rfl
    | held => rfl
    | running => rfl
  · rw [serveOverrideStatus, overrideStatusFields, hunt_inputs]
    cases s.inputs.overrideProgram with
    | none => rfl
    | some p => rfl

/-! ### The fields of a cue record (R126, R138) -/

/-- A field whose values are 1 and 2. -/
theorem oneOrTwo_eq_none {α : Type} {b : Byte} {x y : α} :
    (if b = 1 then some x else if b = 2 then some y else none) = none ↔ b ≠ 1 ∧ b ≠ 2 := by
  split
  · next one => exact iff_of_false (Option.some_ne_none x) fun neither => neither.1 one
  · next notOne =>
    split
    · next two => exact iff_of_false (Option.some_ne_none y) fun neither => neither.2 two
    · next notTwo => exact iff_of_true rfl ⟨notOne, notTwo⟩

theorem readRepeat_eq_none {b : Byte} : readRepeat b = none ↔ b ≠ 1 ∧ b ≠ 2 := oneOrTwo_eq_none

theorem readInitialState_eq_none {b : Byte} : readInitialState b = none ↔ b ≠ 1 ∧ b ≠ 2 := oneOrTwo_eq_none

theorem readRepeat_code (r : Repeat) : readRepeat r.code = some r := by cases r <;> rfl

/-- A set of weekdays has no bit above 6. -/
theorem daysInRange_iff {days : SetByte} : days.msb = false ↔ days.toNat ≤ 127 := by
  rw [BitVec.msb_eq_false_iff_two_mul_lt]
  omega

section
variable {raw : RawCue}

/-- A cue record whose repeat, initial state and start order are in range is read when its time and its days are. -/
theorem readCueEntry_of {rept : Repeat} {state : CueState} {o : StartOrder} (readRept : readRepeat raw.rept = some rept)
    (readState : readInitialState raw.state = some state) (order : readOrder raw.order = some o) :
    readCueEntry raw = if raw.hour.toNat ≤ 23 ∧ raw.minute.toNat ≤ 59 ∧ raw.second.toNat ≤ 59 ∧ raw.days ≠ 0 ∧ raw.days.toNat ≤ 127
      then some
        { state, hour := raw.hour.toNat, minute := raw.minute.toNat, second := raw.second.toNat, days := raw.days, rept, order := o }
      else none := by
  simp only [← daysInRange_iff]
  unfold readCueEntry
  rw [readRept, readState, order]
  rfl

theorem readCueEntry_eq_none : readCueEntry raw = none ↔ 23 < raw.hour.toNat ∨ 59 < raw.minute.toNat ∨ 59 < raw.second.toNat ∨
    raw.days = 0 ∨ 127 < raw.days.toNat ∨ (raw.rept ≠ 1 ∧ raw.rept ≠ 2) ∨ (raw.state ≠ 1 ∧ raw.state ≠ 2) ∨
    readOrder raw.order = none := by
  rw [← readRepeat_eq_none, ← readInitialState_eq_none]
  cases readRept : readRepeat raw.rept with
  | none => simp [readCueEntry, readRept]
  | some rept =>
    cases readState : readInitialState raw.state with
    | none => simp [readCueEntry, readRept, readState]
    | some state =>
      cases order : readOrder raw.order with
      | none => simp [readCueEntry, readRept, readState, order]
      | some o =>
        rw [readCueEntry_of readRept readState order]
        simp only [reduceCtorEq, or_false, ite_eq_right_iff, imp_false]
        bv_omega

end

/-! ### The requests that change a cue (R137 to R142) -/

theorem cueRequest_badField {cue : Byte} {s : State} {serve : CueId → Served} (out : cue.toNat = 0 ∨ 96 < cue.toNat) :
    cueRequest cue s serve = answerOnly s .badField := by
  rw [cueRequest, readCue, oneBased_none out]

theorem cueRequest_named {cue : Byte} {s : State} {serve : CueId → Served} {c : CueId} (named : cue.toNat = c.val + 1) :
    cueRequest cue s serve = serve c := by
  rw [cueRequest, readCue, oneBased_eq named]

section
variable {tag id : Byte} {c : CueId} {raw : RawCue} {x : CueEntry} {s : State}

theorem exec_cueWrite_ok (takes : Takes s) (named : id.toNat = c.val + 1) (read : readCueEntry raw = some x) :
    exec (.cueWrite tag id raw) s = .next (reply 112 tag .ok []
      ((hunt s).setCue c { entry := some x, done := presentDay x s.schedule.clock, outcome := .none })) := by
  refine request_answer (serve := serveCueWrite id raw) takes ((cueRequest_named named).trans ?_)
  rw [read]; rfl

theorem exec_cueWrite_badField (takes : Takes s) (named : id.toNat = c.val + 1) (out : readCueEntry raw = none) :
    exec (.cueWrite tag id raw) s = .next (reply 112 tag .badField [] (hunt s)) := by
  refine request_answer (serve := serveCueWrite id raw) takes ((cueRequest_named named).trans ?_)
  rw [out]; rfl

theorem exec_cueEnable_armed (takes : Takes s) (named : id.toNat = c.val + 1) (entry : (s.cue c).entry = some x)
    (armed : x.state = .armed) : exec (.cueEnable tag id) s = .next (reply 114 tag .ok [] (hunt s)) := by
  refine request_answer (serve := serveCueEnable id) takes ((heldCue_found (s := hunt s) named entry).trans ?_)
  rw [armed]; rfl

theorem exec_cueEnable_arms (takes : Takes s) (named : id.toNat = c.val + 1) (entry : (s.cue c).entry = some x)
    (off : x.state = .disabled ∨ x.state = .spent) :
    exec (.cueEnable tag id) s = .next (reply 114 tag .ok [] ((hunt s).setCue c
      { s.cue c with entry := some { x with state := .armed }, done := presentDay x s.schedule.clock })) := by
  refine request_answer (serve := serveCueEnable id) takes ((heldCue_found (s := hunt s) named entry).trans ?_)
  rcases off with off | off
  · rw [off]; rfl
  · rw [off]; rfl

theorem exec_cueDisable_armed (takes : Takes s) (named : id.toNat = c.val + 1) (entry : (s.cue c).entry = some x)
    (armed : x.state = .armed) :
    exec (.cueDisable tag id) s = .next (reply 115 tag .ok []
      ((hunt s).setCue c { s.cue c with entry := some { x with state := .disabled } })) := by
  refine request_answer (serve := serveCueDisable id) takes ((heldCue_found (s := hunt s) named entry).trans ?_)
  rw [armed]; rfl

theorem exec_cueDisable_spent (takes : Takes s) (named : id.toNat = c.val + 1) (entry : (s.cue c).entry = some x)
    (spent : x.state = .spent) : exec (.cueDisable tag id) s = .next (reply 115 tag .wrongState [] (hunt s)) := by
  refine request_answer (serve := serveCueDisable id) takes ((heldCue_found (s := hunt s) named entry).trans ?_)
  rw [spent]; rfl

theorem exec_cueDisable_disabled (takes : Takes s) (named : id.toNat = c.val + 1) (entry : (s.cue c).entry = some x)
    (disabled : x.state = .disabled) : exec (.cueDisable tag id) s = .next (reply 115 tag .ok [] (hunt s)) := by
  refine request_answer (serve := serveCueDisable id) takes ((heldCue_found (s := hunt s) named entry).trans ?_)
  rw [disabled]; rfl

theorem exec_cueDelete_ok (takes : Takes s) (named : id.toNat = c.val + 1) (entry : (s.cue c).entry = some x) :
    exec (.cueDelete tag id) s = .next (reply 116 tag .ok [] ((hunt s).setCue c { entry := none, done := false, outcome := .none })) :=
  request_answer (serve := serveCueDelete id) takes (heldCue_found (s := hunt s) named entry)

end

/-- Settles O46: the cue number, the fields of a record, then each request by the state of the cue it names. -/
theorem cueRequestsChangeOneRecord : Obligations.CueRequestsChangeOneRecord := by
  refine ⟨fun tag id s takes out => ⟨fun raw => ?_, ?_, ?_, ?_⟩, fun raw => ⟨readCueEntry_eq_none, ?_⟩,
    fun tag id c s takes named => ?_⟩
  · exact request_answer (serve := serveCueWrite id raw) takes (cueRequest_badField out)
  · exact request_answer (serve := serveCueEnable id) takes (heldCue_badField out)
  · exact request_answer (serve := serveCueDisable id) takes (heldCue_badField out)
  · exact request_answer (serve := serveCueDelete id) takes (heldCue_badField out)
  · intro o rept state hour minute second days daysInRange order reptCode stateCode
    have readRept : readRepeat raw.rept = some rept := by rw [reptCode]; exact readRepeat_code rept
    have readState : readInitialState raw.state = some state := by
      rcases stateCode with ⟨code, rfl⟩ | ⟨code, rfl⟩
      · rw [code]; rfl
      · rw [code]; rfl
    rw [readCueEntry_of readRept readState order, if_pos ⟨hour, minute, second, days, daysInRange⟩]
  · intro present
    have test (x : CueEntry) : presentDay x s.schedule.clock = present x := presentDay_eq x s.schedule.clock
    refine ⟨fun raw x read => ?_, fun raw out => exec_cueWrite_badField takes named out, fun empty => ⟨?_, ?_, ?_⟩,
      fun x entry => ⟨fun armed => ⟨?_, ?_⟩, fun off => ?_, ?_, ?_, ?_⟩⟩
    · rw [← test]; exact exec_cueWrite_ok takes named read
    · exact request_answer (serve := serveCueEnable id) takes (heldCue_notFound (s := hunt s) named empty)
    · exact request_answer (serve := serveCueDisable id) takes (heldCue_notFound (s := hunt s) named empty)
    · exact request_answer (serve := serveCueDelete id) takes (heldCue_notFound (s := hunt s) named empty)
    · exact exec_cueEnable_armed takes named entry armed
    · exact exec_cueDisable_armed takes named entry armed
    · rw [← test]; exact exec_cueEnable_arms takes named entry off
    · exact exec_cueDisable_spent takes named entry
    · exact exec_cueDisable_disabled takes named entry
    · exact exec_cueDelete_ok takes named entry

end Sys2Proof.Machine
end

section
/-! SUPPORT. The trigger entries and the trigger FIFO: TRIG.SET and the fields of its entry, TRIG.READ (R148, R156, R199), the logging
of an edge (R149, R155); the requests OVERRIDE.SET and OVERRIDE.CLEAR (R158, R163). -/

namespace Sys2Proof.Machine

/-! ### The fields of a trigger entry (R148, R199) -/

theorem readEdge_code (e : Edge) : readEdge e.code = some e := by cases e <;> rfl

theorem readEdge_eq_none {b : Byte} : readEdge b = none ↔ b ≠ 1 ∧ b ≠ 2 := oneOrTwo_eq_none

section
variable {raw : RawTrigger}

theorem readAction_none (code : raw.action = 0) : readAction raw = some .none := if_pos code

theorem readAction_start (code : raw.action = 1) :
    readAction raw = (readEdge raw.edge).bind fun e => (readOrder raw.order).map (.start e) := by
  unfold readAction; rw [code]; simp only [Option.map_eq_bind]; rfl

theorem readAction_follow (code : raw.action = 2) : readAction raw = (readOrder raw.order).map .follow := by
  unfold readAction; rw [code, Option.map_eq_bind]; rfl

theorem readAction_stop (code : raw.action = 3) : readAction raw = (readEdge raw.edge).bind fun e =>
    if raw.stopPriority.toNat ≤ 14 then some (.stop e raw.stopPriority.toNat) else none := by
  unfold readAction; rw [code]; rfl

theorem readAction_release (code : raw.action = 4) : readAction raw =
    (readEdge raw.edge).bind fun e => (readProgram raw.releaseProgram).map (.release e) := by
  unfold readAction; rw [code]; simp only [Option.map_eq_bind]; rfl

theorem readAction_mark (code : raw.action = 5) : readAction raw = (readEdge raw.edge).map .mark := by
  unfold readAction; rw [code, Option.map_eq_bind]; rfl

theorem readAction_above (above : 5 < raw.action.toNat) : readAction raw = none := by
  have other (b : Byte) (low : b.toNat ≤ 5) : raw.action ≠ b := fun code => Nat.not_lt.2 low (code ▸ above)
  unfold readAction
  rw [if_neg (other 0 (by decide)), if_neg (other 1 (by decide)), if_neg (other 2 (by decide)), if_neg (other 3 (by decide)),
    if_neg (other 4 (by decide)), if_neg (other 5 (by decide))]

theorem actionCode_cases (b : Byte) : b = 0 ∨ b = 1 ∨ b = 2 ∨ b = 3 ∨ b = 4 ∨ b = 5 ∨ 5 < b.toNat := by bv_omega

/-- A field is judged only where the action uses it. -/
theorem readAction_eq_none : readAction raw = none ↔
    5 < raw.action.toNat ∨ (raw.action ∈ ([1, 3, 4, 5] : List Byte) ∧ raw.edge ≠ 1 ∧ raw.edge ≠ 2) ∨
    (raw.action ∈ ([1, 2] : List Byte) ∧ readOrder raw.order = none) ∨ (raw.action = 3 ∧ 14 < raw.stopPriority.toNat) ∨
    (raw.action = 4 ∧ (raw.releaseProgram.toNat = 0 ∨ 32 < raw.releaseProgram.toNat)) := by
  rw [← readEdge_eq_none, ← readProgram_eq_none]
  rcases actionCode_cases raw.action with code | code | code | code | code | code | above
  · simp [readAction_none code, code]
  · rw [readAction_start code]
    cases readEdge raw.edge <;> simp [code]
  · simp [readAction_follow code, code]
  · rw [readAction_stop code]
    cases readEdge raw.edge <;> simp [code]
  · rw [readAction_release code]
    cases readEdge raw.edge <;> simp [code]
  · simp [readAction_mark code, code]
  · exact iff_of_true (readAction_above above) (.inl above)

end

/-! ### TRIG.SET and TRIG.READ (R148, R156) -/

theorem fifoBytes_eq (x : FifoEntry) : x.bytes = fifoLayout x := by
  unfold FifoEntry.bytes
  rw [timeBytes_eq]; rfl

section
variable {tag ib : Byte} {raw : RawTrigger} {s : State}

theorem exec_trigSet_ok {i : TriggerId} {a : TriggerAction} {log : Bool} (takes : Takes s) (named : ib.toNat = i.val)
    (read : readAction raw = some a) (yesOrNo : raw.log = yesNo log) :
    exec (.trigSet tag ib raw) s = .next (reply 128 tag .ok []
      ((hunt s).setTrigger i { action := a, log := log, lastStart := (s.trigger i).lastStart })) := by
  refine request_answer (serve := serveTrigSet ib raw) takes ?_
  rw [serveTrigSet, below_eq named, read, readYesNo_eq_some.2 yesOrNo]
  rfl

theorem exec_trigSet_badField (takes : Takes s) (out : 7 < ib.toNat ∨ readAction raw = none ∨ 1 < raw.log.toNat) :
    exec (.trigSet tag ib raw) s = .next (reply 128 tag .badField [] (hunt s)) := by
  have served : serveTrigSet ib raw (hunt s) = answerOnly (hunt s) .badField := by
    unfold serveTrigSet
    split
    · next input action yesOrNo =>
      rcases out with out | out | out
      · rw [below_none (by omega)] at input; cases input
      · rw [out] at action; cases action
      · rw [readYesNo_eq_none.2 out] at yesOrNo; cases yesOrNo
    · rfl
  exact request_answer takes served

theorem trigReadFields_eq (s : State) : trigReadFields s =
    yesNo s.inputs.overflow :: byteOf s.inputs.fifo.length :: (s.inputs.fifo.map fifoLayout).flatten := by
  rw [trigReadFields, List.map_congr_left fun x _ => fifoBytes_eq x]

theorem exec_trigRead (takes : Takes s) : exec (.trigRead tag) s = .next (reply 129 tag .ok
    (yesNo s.inputs.overflow :: byteOf s.inputs.fifo.length :: (s.inputs.fifo.map fifoLayout).flatten)
    { hunt s with inputs.fifo := [], inputs.overflow := false }) := by
  refine request_answer (serve := serveTrigRead) takes ?_
  rw [serveTrigRead, trigReadFields_eq]
  rfl

end

/-- Settles O49: TRIG.SET by whether its fields are in range, TRIG.READ, then the fields by the action's code. -/
theorem triggerRequests : Obligations.TriggerRequests := by
  intro tag s takes
  refine ⟨fun ib raw i a log => exec_trigSet_ok takes, fun ib raw => exec_trigSet_badField takes, exec_trigRead takes,
    fun raw => ⟨readAction_eq_none, readAction_none, fun e edge => ?_, fun o code order => ?_⟩⟩
  · have onEdge : readEdge raw.edge = some e := (congrArg readEdge edge).trans (readEdge_code e)
    refine ⟨fun o code order => ?_, fun code inRange => ?_, fun p code program => ?_, fun code => ?_⟩
    · rw [readAction_start code, onEdge, order]; rfl
    · rw [readAction_stop code, onEdge]; exact if_pos inRange
    · rw [readAction_release code, onEdge, readProgram_eq_some program]; rfl
    · rw [readAction_mark code, onEdge]; rfl
  · rw [readAction_follow code, order]; rfl

/-! ### A logged edge (R149, R155) -/

section
variable {x : FifoEntry} {s : State}

theorem appendEntry_empty (empty : s.inputs.fifo = []) :
    appendEntry x s = setFlag .trigger { s with inputs.fifo := [x] } := by
  unfold appendEntry
  simp [empty, Config.triggerFifoEntries]

theorem appendEntry_tail (held : s.inputs.fifo ≠ []) (room : s.inputs.fifo.length < 16) :
    appendEntry x s = { s with inputs.fifo := s.inputs.fifo ++ [x] } := (if_pos room).trans (if_neg held)

theorem appendEntry_full (full : 16 ≤ s.inputs.fifo.length) :
    appendEntry x s = setFlag .triggerOverflow { s with inputs.overflow := true } := if_neg (Nat.not_lt.2 full)

theorem clockTime_eq : s.clockTime = if s.schedule.clock.state = .unset then none else some s.schedule.clock.time := by
  unfold State.clockTime
  cases s.schedule.clock.state <;> rfl

variable {i : TriggerId} {e : Edge}

theorem takeEdge_unlogged (unlogged : (s.trigger i).log = false) : takeEdge i e s = (carryOut i e s).state :=
  if_neg (Bool.eq_false_iff.1 unlogged)

theorem takeEdge_logged (logged : (s.trigger i).log = true) : takeEdge i e s = appendEntry
    { input := i, edge := e, time := (carryOut i e s).state.clockTime, action := actionAt (s.trigger i).action e
      result := (carryOut i e s).result, start := (carryOut i e s).start } (carryOut i e s).state := if_pos logged

end

/-- Settles O53: an entry by the length of the FIFO, an edge by the log flag of its entry. -/
theorem loggedEdgesJoinTheFifo : Obligations.LoggedEdgesJoinTheFifo := by
  refine ⟨fun x s => ⟨appendEntry_empty, appendEntry_tail, appendEntry_full⟩, fun i e s => ⟨takeEdge_unlogged, fun logged => ?_⟩⟩
  rw [takeEdge_logged logged, clockTime_eq]

/-! ### OVERRIDE.SET (R158) -/

theorem readOverrideProgram_some {pb : Byte} {p : ProgramId} (named : pb.toNat = p.val + 1) :
    readOverrideProgram pb = some (some p) := by
  have notZero : pb ≠ 0 := by bv_omega
  rw [readOverrideProgram, if_neg notZero, readProgram_eq_some named]
  rfl

theorem readOverrideProgram_none {pb : Byte} (out : 32 < pb.toNat) : readOverrideProgram pb = none := by
  have notZero : pb ≠ 0 := by bv_omega
  rw [readOverrideProgram, if_neg notZero, readProgram_eq_none.2 (.inr out)]
  rfl

section
variable {tag pb lb : Byte} {s : State}

theorem exec_overrideSet_ok {program : Option ProgramId} (takes : Takes s) (read : readOverrideProgram pb = some program)
    (level : lb.toNat ≤ 31) : exec (.overrideSet tag pb lb) s = .next (reply 144 tag .ok []
      { hunt s with inputs.overrideProgram := program, inputs.overrideLevel := lb.toNat }) := by
  refine request_answer (serve := serveOverrideSet pb lb) takes ?_
  rw [serveOverrideSet, read, below_eq (i := ⟨lb.toNat, by omega⟩) rfl]
  rfl

theorem exec_overrideSet_badField (takes : Takes s) (out : 32 < pb.toNat ∨ 31 < lb.toNat) :
    exec (.overrideSet tag pb lb) s = .next (reply 144 tag .badField [] (hunt s)) := by
  have served : serveOverrideSet pb lb (hunt s) = answerOnly (hunt s) .badField := by
    unfold serveOverrideSet
    split
    · next program level =>
      rcases out with out | out
      · rw [readOverrideProgram_none out] at program; cases program
      · rw [below_none (by omega)] at level; cases level
    · rfl
  exact request_answer takes served

/-! ### OVERRIDE.CLEAR (R163) -/

theorem exec_overrideClear_lineActive (takes : Takes s) (closed : (s.input 8).level = .closed) :
    exec (.overrideClear tag) s = .next (reply 145 tag .lineActive [] (hunt s)) :=
  request_answer (serve := serveOverrideClear) takes (if_pos closed)

theorem serveOverrideClear_opened (opened : (s.input 8).level = .opened) : serveOverrideClear s =
    if s.inputs.latch = false then answerOnly s .wrongState else answerOnly (arbitrate (clearOverride s)) .ok :=
  if_neg fun closed => Level.noConfusion (opened.symm.trans closed)

theorem exec_overrideClear_wrongState (takes : Takes s) (opened : (s.input 8).level = .opened) (clear : s.inputs.latch = false) :
    exec (.overrideClear tag) s = .next (reply 145 tag .wrongState [] (hunt s)) :=
  request_answer (serve := serveOverrideClear) takes ((serveOverrideClear_opened (s := hunt s) opened).trans (if_pos clear))

theorem exec_overrideClear_ok (takes : Takes s) (opened : (s.input 8).level = .opened) (latch : s.inputs.latch = true) :
    exec (.overrideClear tag) s = .next (reply 145 tag .ok [] (arbitrate (clearOverride (hunt s)))) :=
  request_answer (serve := serveOverrideClear) takes
    ((serveOverrideClear_opened (s := hunt s) opened).trans (if_neg (Bool.ne_false_iff.2 latch)))

end

/-- Settles O50: OVERRIDE.SET by its fields, OVERRIDE.CLEAR by the level of OVR, then by the latch. -/
theorem overrideRequests : Obligations.OverrideRequests := by
  intro tag s takes
  refine ⟨fun pb lb level => ⟨fun zero => ?_, fun p named => ?_⟩, fun pb lb => exec_overrideSet_badField takes,
    exec_overrideClear_lineActive takes, exec_overrideClear_wrongState takes, exec_overrideClear_ok takes⟩
  · exact exec_overrideSet_ok takes (if_pos zero) level
  · exact exec_overrideSet_ok takes (readOverrideProgram_some named) level

end Sys2Proof.Machine
end

section
/-! SUPPORT. That every command keeps what the tables hold during the scan (ScanConsistent: R26, R52, R167). While the scan runs it
holds the flash port, so that the engine leaves the store alone, the requests of the store and of clips are refused (R168), and no
other operation completes; once it has ended, only a reset begins another. -/

namespace Sys2Proof.Machine

/-! ### After the scan no operation on the store begins it again -/

theorem EngineStep.storeState {s t : State} (e : EngineStep s t) : t.store.state = s.store.state := by
  rw [← e.store]

section
variable (s : State)

@[simp] theorem arbitrate_storeState : (arbitrate s).store.state = s.store.state := (engineStep_arbitrate s).storeState

theorem foldl_storeState {α : Type} {f : State → α → State} (h : ∀ s a, (f s a).store.state = s.store.state) (l : List α) :
    (l.foldl f s).store.state = s.store.state :=
  foldl_keeps (fun t => t.store.state = s.store.state) f (fun t a e => (h t a).trans e) l s rfl

@[simp] theorem queueErase_storeState (b : BlockNo) : (queueErase b s).store.state = s.store.state := by
  obtain ⟨⟨bs, e⟩, -⟩ := queueErase_step b s
  rw [e]

@[simp] theorem releaseBlock_storeState (c : ClipId) (b : BlockNo) : (releaseBlock c b s).store.state = s.store.state := by
  unfold releaseBlock
  split
  · dsimp only; split <;> rfl
  · exact queueErase_storeState s b

@[simp] theorem reserveBlock_storeState (c : ClipId) (b : BlockNo) : (reserveBlock c b s).store.state = s.store.state := by
  unfold reserveBlock; split <;> rfl

@[simp] theorem eraseClip_storeState (c : ClipId) : (eraseClip c s).store.state = s.store.state := by
  unfold eraseClip
  split
  · split <;> rfl
  · rfl

@[simp] theorem acceptChunk_storeState (c : ClipId) (chunk : List Byte) :
    (acceptChunk c chunk s).store.state = s.store.state := by
  unfold acceptChunk; split <;> simp

@[simp] theorem takeChunk_storeState (c : ClipId) (offset : Nat) (chunk : List Byte) :
    (takeChunk c offset chunk s).1.store.state = s.store.state := by
  unfold takeChunk
  repeat' split
  all_goals simp

@[simp] theorem abortEnd_storeState (c : ClipId) : (abortEnd c s).store.state = s.store.state := by
  unfold abortEnd
  split
  · rfl
  · split <;> rfl

@[simp] theorem readPage_storeState (tag : Byte) (c : ClipId) (offset length : Nat) (taken payload : List Byte) :
    (readPage tag c offset length taken payload s).store.state = s.store.state := by
  unfold readPage
  dsimp only
  split
  · rfl
  · split <;> rfl

theorem readbackDone_storeState (good : Bool) : (readbackDone good s).store.state = s.store.state := by
  unfold readbackDone
  split
  · cases good
    · exact arbitrate_storeState _
    · exact (arbitrate_storeState _).trans (readPage_storeState ..)
  · rfl

theorem inspectDone_storeState (good : Bool) : (inspectDone good s).store.state = s.store.state := by
  unfold inspectDone
  split
  · refine (arbitrate_storeState _).trans ?_
    split <;> rfl
  · rfl

theorem fetchDone_storeState (good : Bool) : (fetchDone good s).store.state = s.store.state := by
  cases port : s.store.port with
  | fetch v b p => exact (engineStep_fetchDone good port).storeState
  | _ => simp [fetchDone, port]

@[simp] theorem programOutcome_storeState (verified : Bool) (j : ProgramJob) :
    (programOutcome verified j s).store.state = s.store.state := by
  have reported (x : Clip) : (programReport j x s).store.state = s.store.state := by
    unfold programReport; dsimp only; split <;> rfl
  unfold programOutcome
  split
  · rfl
  · split <;> cases verified <;> simp [failureReport, reported]

theorem programDone_storeState (verified : Bool) : (programDone verified s).store.state = s.store.state := by
  unfold programDone
  split
  · cases verified <;> simp [programFlash, countProgram]
  · rfl

@[simp] theorem leaveClip_storeState (b : BlockNo) (c : ClipId) : (leaveClip b c s).store.state = s.store.state := by
  unfold leaveClip
  split
  · rfl
  · dsimp only; split <;> rfl

end

/-- The end of a format is SERVICE, never STARTING (R22). -/
theorem formatEnd_scanned {s : State} (scanned : s.store.state ≠ .starting) : (formatEnd s).store.state ≠ .starting := by
  unfold formatEnd
  split
  · exact fun e => nomatch e
  · exact scanned

theorem formatLists_scanned (clips : List ClipId) (blocks : List BlockNo) (s : State) :
    (formatLists clips blocks s).store.state ≠ .starting := formatEnd_scanned fun e => nomatch e

theorem eraseDone_scanned {verified : Bool} {s : State} (scanned : s.store.state ≠ .starting) :
    (eraseDone verified s).store.state ≠ .starting := by
  unfold eraseDone
  split
  · dsimp only
    rw [arbitrate_storeState]
    refine formatEnd_scanned ?_
    split <;> cases verified <;> simpa [eraseFlash] using scanned
  · exact scanned

/-! ### The store requests and the clip requests: refused while STARTING (R168) -/

/-- The tables are kept by what changes nothing while the scan runs, and begins no other when it has ended. -/
theorem ScanConsistent.unlessStarting {s t : State} (h : ScanConsistent s) (starting : s.store.state = .starting → t = s)
    (scanned : s.store.state ≠ .starting → t.store.state ≠ .starting) : ScanConsistent t := by
  by_cases scan : s.store.state = .starting
  · rw [starting scan]; exact h
  · exact scanConsistent_of_service (scanned scan)

section
variable {s : State}

/-- What a refusal while STARTING leaves is the state as it was. -/
theorem ScanConsistent.refused {v : Served} (h : ScanConsistent s)
    (starting : s.store.state = .starting → v = answerOnly s .starting)
    (scanned : s.store.state ≠ .starting → v.state.store.state ≠ .starting) : ScanConsistent v.state :=
  h.unlessStarting (fun scan => by rw [starting scan]; rfl) scanned

theorem ScanConsistent.serveStoreConfig (h : ScanConsistent s) (b : Byte) : ScanConsistent (serveStoreConfig b s).state := by
  refine h.refused serveStoreConfig_starting fun scanned => ?_
  unfold Machine.serveStoreConfig
  repeat' split
  all_goals simpa using scanned

theorem ScanConsistent.serveStoreInspect (h : ScanConsistent s) (tag : Byte) (b : BitVec 16) (p : Byte) :
    ScanConsistent (serveStoreInspect tag b p s).state := by
  refine h.refused serveStoreInspect_starting fun scanned => ?_
  unfold Machine.serveStoreInspect
  repeat' split
  all_goals simpa using scanned

theorem ScanConsistent.serveStoreFormat (h : ScanConsistent s) : ScanConsistent (serveStoreFormat s).state := by
  refine h.refused serveStoreFormat_starting fun scanned => ?_
  unfold Machine.serveStoreFormat
  repeat' split
  · exact scanned
  · exact scanned
  · exact scanned
  · exact scanned
  · rw [formatStore_eq, answerOnly_state, arbitrate_storeState]
    exact formatLists_scanned _ _ s

/-- A clip request keeps the tables when, after the scan, it leaves the state of the store as it is. -/
theorem ScanConsistent.clipRequest {clip : Byte} {serve : ClipId → Served} (h : ScanConsistent s)
    (served : ∀ c, (serve c).state.store.state = s.store.state) : ScanConsistent (clipRequest clip s serve).state := by
  refine h.refused clipRequest_starting fun scanned => ?_
  unfold Machine.clipRequest
  repeat' split
  · exact scanned
  · exact scanned
  · rw [served]; exact scanned

theorem ScanConsistent.serveClipOpen (h : ScanConsistent s) (clip format rate protect : Byte) (name : Vector Byte 16) :
    ScanConsistent (serveClipOpen clip format rate protect name s).state := by
  refine h.clipRequest fun c => ?_
  repeat' split
  all_goals rfl

theorem ScanConsistent.serveClipData (h : ScanConsistent s) (clip : Byte) (offset : BitVec 32) (chunk : List Byte) :
    ScanConsistent (serveClipData clip offset chunk s).state := by
  unfold Machine.serveClipData
  split
  · exact h
  · split
    · exact h
    · next scanned =>
      split
      · exact h
      · exact scanConsistent_of_service (by rwa [answer_state, takeChunk_storeState])

theorem ScanConsistent.serveClipClose (h : ScanConsistent s) (clip : Byte) : ScanConsistent (serveClipClose clip s).state := by
  refine h.clipRequest fun c => ?_
  repeat' split
  all_goals simp

theorem ScanConsistent.serveClipAbort (h : ScanConsistent s) (clip : Byte) : ScanConsistent (serveClipAbort clip s).state := by
  refine h.clipRequest fun c => ?_
  repeat' split
  all_goals simp [foldl_storeState _ fun s b => releaseBlock_storeState s c b]

theorem ScanConsistent.serveClipErase (h : ScanConsistent s) (clip : Byte) : ScanConsistent (serveClipErase clip s).state := by
  refine h.clipRequest fun c => ?_
  repeat' split
  all_goals simp [foldl_storeState _ queueErase_storeState]

theorem ScanConsistent.serveClipRead (h : ScanConsistent s) (tag clip : Byte) (offset : BitVec 32) (length : BitVec 16) :
    ScanConsistent (serveClipRead tag clip offset length s).state := by
  refine h.clipRequest fun c => ?_
  repeat' split
  all_goals simp

theorem ScanConsistent.serveClipInfo (h : ScanConsistent s) (clip : Byte) : ScanConsistent (serveClipInfo clip s).state := by
  refine h.clipRequest fun c => ?_
  split <;> rfl

/-! ### The completions: while the scan runs, the port holds its read and no other operation (R13, R167) -/

/-- A completion of another operation keeps the tables when it changes nothing while the port holds a read of the scan. -/
theorem ScanConsistent.completion {t : State} (h : ScanConsistent s)
    (reading : ∀ b p, s.store.port = .scanRead b p → t = s)
    (scanned : s.store.state ≠ .starting → t.store.state ≠ .starting) : ScanConsistent t := by
  refine h.unlessStarting (fun scan => ?_) scanned
  obtain ⟨b, p, port, -⟩ := h scan
  exact reading b p port

theorem ScanConsistent.fetchDone (h : ScanConsistent s) (good : Bool) : ScanConsistent (fetchDone good s) :=
  h.completion (fun b p port => by simp only [Machine.fetchDone, port]) fun scanned => by rwa [fetchDone_storeState]

theorem ScanConsistent.readbackDone (h : ScanConsistent s) (good : Bool) : ScanConsistent (readbackDone good s) :=
  h.completion (fun b p port => by simp only [Machine.readbackDone, port]) fun scanned => by rwa [readbackDone_storeState]

theorem ScanConsistent.inspectDone (h : ScanConsistent s) (good : Bool) : ScanConsistent (inspectDone good s) :=
  h.completion (fun b p port => by simp only [Machine.inspectDone, port]) fun scanned => by rwa [inspectDone_storeState]

theorem ScanConsistent.programDone (h : ScanConsistent s) (verified : Bool) : ScanConsistent (programDone verified s) :=
  h.completion (fun b p port => by simp only [Machine.programDone, port]) fun scanned => by rwa [programDone_storeState]

theorem ScanConsistent.eraseDone (h : ScanConsistent s) (verified : Bool) : ScanConsistent (eraseDone verified s) :=
  h.completion (fun b p port => by simp only [Machine.eraseDone, port]) eraseDone_scanned

/-! ### The engine, the clock and the schedule -/

theorem ScanConsistent.arbitrate (h : ScanConsistent s) : ScanConsistent (arbitrate s) := (engineStep_arbitrate s).scanConsistent h

theorem ScanConsistent.endVoice (h : ScanConsistent s) (v : VoiceId) (cause : EndCause) :
    ScanConsistent (endVoice offers v cause s) :=
  (engineStep_endVoice offersStep_offers v cause s).scanConsistent h

theorem ScanConsistent.startVoice (h : ScanConsistent s) (origin : Origin) (o : Option StartOrder) :
    ScanConsistent (startVoice origin o s).1 :=
  (engineStep_startVoice origin o s).scanConsistent h

theorem ScanConsistent.startOverride (h : ScanConsistent s) : ScanConsistent (startOverride s) := by
  obtain ⟨t, r, step, e⟩ := startOverride_step s
  rw [e]
  exact (step.scanConsistent h).congr rfl rfl

theorem ScanConsistent.frame (h : ScanConsistent s) : ScanConsistent (frame s) := by
  obtain ⟨t, out, toParts, toFrame⟩ := frame_step s
  exact toFrame.scanConsistent ((toParts.scanConsistent h).congr rfl rfl)

theorem ScanConsistent.enterSecond (h : ScanConsistent s) : ScanConsistent (enterSecond s) := by
  unfold Machine.enterSecond
  refine foldl_keeps ScanConsistent _ (fun t c ht => ?_) _ s h
  split
  · exact (ht.startVoice _ _).congr rfl rfl
  · exact ht

theorem ScanConsistent.advanceSecond (h : ScanConsistent s) : ScanConsistent (advanceSecond s) := by
  refine ScanConsistent.enterSecond ?_
  split <;> exact h.congr rfl rfl

theorem ScanConsistent.tenth (h : ScanConsistent s) : ScanConsistent (tenth s) := by
  unfold Machine.tenth
  dsimp only
  split
  · exact h.congr rfl rfl
  · exact h.advanceSecond.arbitrate

theorem ScanConsistent.minuteMark (h : ScanConsistent s) : ScanConsistent (minuteMark s).1 := by
  have forward (n : Nat) : ScanConsistent (Nat.repeat Machine.advanceSecond n s) := by
    induction n with
    | zero => exact h
    | succ n ih => exact ih.advanceSecond
  unfold Machine.minuteMark
  split
  · exact h
  · exact h.congr rfl rfl
  · dsimp only
    split
    · exact h.congr rfl rfl
    · exact forward _

/-! ### Edges, the override, zones and the bus -/

theorem ScanConsistent.carryOut (h : ScanConsistent s) (i : TriggerId) (e : Edge) : ScanConsistent (carryOut i e s).state := by
  unfold Machine.carryOut
  split
  · exact (h.startVoice _ _).congr rfl rfl
  · exact (h.startVoice _ _).congr rfl rfl
  · unfold followStop
    dsimp only
    split
    · exact (h.endVoice _ _).congr rfl rfl
    · exact h.congr rfl rfl
  · exact foldl_keeps ScanConsistent _ (fun t v ht => ht.endVoice v .stopped) _ s h
  · exact foldl_keeps ScanConsistent _ (fun t v ht => (engineStep_setVoice t v _).scanConsistent ht) _ s h
  · exact h.minuteMark
  · exact h

theorem ScanConsistent.appendEntry (h : ScanConsistent s) (x : FifoEntry) : ScanConsistent (appendEntry x s) := by
  unfold Machine.appendEntry
  dsimp only
  repeat' split
  all_goals exact h.congr rfl rfl

theorem ScanConsistent.inputEdge (h : ScanConsistent s) (i : InputId) (e : Edge) : ScanConsistent (inputEdge i e s) := by
  unfold Machine.inputEdge
  split
  · unfold takeEdge
    dsimp only
    split
    · exact (h.carryOut _ e).appendEntry _
    · exact h.carryOut _ e
  · cases e with
    | opening => exact h.congr rfl rfl
    | close =>
      rw [overrideEdge_close]
      have latched : ScanConsistent (overrideLatched s) := h.congr rfl rfl
      unfold askOverride
      repeat' split
      · exact latched
      · exact latched.congr rfl rfl
      · exact latched.startOverride

theorem ScanConsistent.settle (h : ScanConsistent s) (i : InputId) : ScanConsistent (settle i s) := by
  have leveled (x : Input) : ScanConsistent (s.setInput i x) := h.congr rfl rfl
  exact ((leveled _).inputEdge i _).arbitrate

theorem ScanConsistent.clearOverride (h : ScanConsistent s) : ScanConsistent (clearOverride s) :=
  (offersStep_offers _ _).scanConsistent ((h.endVoice overrideVoice .stopped).congr rfl rfl)

theorem ScanConsistent.disableZone (h : ScanConsistent s) (z : ZoneId) : ScanConsistent (disableZone z s) := by
  have disabled : ScanConsistent (s.setZone z { s.zone z with enabled := false, holder := none }) := h.congr rfl rfl
  unfold Machine.disableZone
  dsimp only
  split
  · exact disabled
  · exact ((engineStep_wantAlso _ _ _).trans ((engineStep_loseLast offersStep_offers _ _).trans
      (engineStep_loseSome offersStep_offers _ _))).scanConsistent disabled

theorem ScanConsistent.setLevel (h : ScanConsistent s) (z : ZoneId) (level : Nat) (enabled : Bool) :
    ScanConsistent (setLevel z level enabled s) := by
  have leveled : ScanConsistent (s.setZone z { s.zone z with level := level }) := h.congr rfl rfl
  refine ScanConsistent.arbitrate ?_
  split
  · exact leveled.disableZone z
  · exact (offersStep_offers _ _).scanConsistent (leveled.congr rfl rfl)
  · exact leveled
  · exact leveled

theorem ScanConsistent.forceVoices (h : ScanConsistent s) : ScanConsistent (forceVoices s) :=
  foldl_keeps ScanConsistent _
    (fun t v ht => (engineStep_endVoice offersStep_noOffers v .forced t).scanConsistent ht) _ s h

theorem ScanConsistent.haltBus (h : ScanConsistent s) : ScanConsistent (haltBus s) := h.congr rfl rfl

/-! ### The requests to the engine and to the tables of the host -/

theorem ScanConsistent.programRequest {program : Byte} {serve : ProgramId → Program → Served} (h : ScanConsistent s)
    (served : ∀ p x, ScanConsistent (serve p x).state) : ScanConsistent (programRequest program s serve).state := by
  unfold Machine.programRequest
  repeat' split
  · exact h
  · exact h
  · exact served _ _

theorem ScanConsistent.cueRequest {cue : Byte} {serve : CueId → Served} (h : ScanConsistent s)
    (served : ∀ c, ScanConsistent (serve c).state) : ScanConsistent (cueRequest cue s serve).state := by
  unfold Machine.cueRequest
  split
  · exact h
  · exact served _

theorem ScanConsistent.heldCue {cue : Byte} {serve : CueId → CueEntry → Served} (h : ScanConsistent s)
    (served : ∀ c x, ScanConsistent (serve c x).state) : ScanConsistent (heldCue cue s serve).state := by
  refine h.cueRequest fun c => ?_
  split
  · exact h
  · exact served _ _

theorem ScanConsistent.serveEventsMask (h : ScanConsistent s) (mask : BitVec 24) :
    ScanConsistent (serveEventsMask mask s).state := by
  unfold Machine.serveEventsMask
  split <;> exact h.congr rfl rfl

theorem ScanConsistent.serveProgWrite (h : ScanConsistent s) (program cycle count : Byte) (steps : List RawStep) :
    ScanConsistent (serveProgWrite program cycle count steps s).state := by
  unfold Machine.serveProgWrite
  repeat' split
  all_goals exact h.congr rfl rfl

theorem ScanConsistent.serveProgDelete (h : ScanConsistent s) (program : Byte) :
    ScanConsistent (serveProgDelete program s).state := by
  refine h.programRequest fun p x => ?_
  split <;> exact h.congr rfl rfl

theorem ScanConsistent.serveVoiceStart (h : ScanConsistent s) (o : RawOrder) : ScanConsistent (serveVoiceStart o s).state := by
  have started := h.startVoice .link (readOrder o)
  unfold Machine.serveVoiceStart
  split
  · next e => rw [e] at started; exact started.arbitrate
  · next e => rw [e] at started; exact started
  · next e => rw [e] at started; exact started.arbitrate

theorem ScanConsistent.serveVoicePrepare (h : ScanConsistent s) (o : RawOrder) : ScanConsistent (serveVoicePrepare o s).state := by
  unfold Machine.serveVoicePrepare
  split
  · exact h
  · next o v _ =>
    exact (((engineStep_allocate v .link o s).trans (engineStep_setVoice _ v _)).scanConsistent h).arbitrate

theorem ScanConsistent.goVoice (h : ScanConsistent s) (v : VoiceId) : ScanConsistent (goVoice v s).1 := by
  have claimed (o : StartOrder) := (engineStep_claimZones offersStep_offers v o s).scanConsistent h
  unfold Machine.goVoice
  repeat' split
  · exact h
  · exact h
  · exact h
  · exact h
  · next o _ _ _ e => have c := claimed o; rw [e] at c; exact c.arbitrate
  · next o _ _ _ e => have c := claimed o; rw [e] at c; exact c.arbitrate
  · next o _ _ _ e => have c := claimed o; rw [e] at c; exact c

theorem ScanConsistent.serveVoiceGo (h : ScanConsistent s) (n : BitVec 32) : ScanConsistent (serveVoiceGo n s).state := by
  unfold Machine.serveVoiceGo
  split
  · exact h
  · exact h.goVoice _

theorem ScanConsistent.stopVoice (h : ScanConsistent s) (m : StopMode) (v : VoiceId) : ScanConsistent (stopVoice m v s) := by
  unfold Machine.stopVoice
  dsimp only
  split
  · exact h.congr rfl rfl
  · exact (h.endVoice v .stopped).arbitrate

theorem ScanConsistent.serveVoiceStop (h : ScanConsistent s) (n : BitVec 32) (mode : Byte) :
    ScanConsistent (serveVoiceStop n mode s).state := by
  unfold Machine.serveVoiceStop
  repeat' split
  · exact h
  · exact h
  · exact h.stopVoice _ _

theorem ScanConsistent.servePaused (h : ScanConsistent s) (paused : Bool) (n : BitVec 32) :
    ScanConsistent (servePaused paused n s).state := by
  unfold Machine.servePaused
  dsimp only
  repeat' split
  all_goals exact h.congr rfl rfl

theorem ScanConsistent.serveVoiceRelease (h : ScanConsistent s) (n : BitVec 32) :
    ScanConsistent (serveVoiceRelease n s).state := by
  unfold Machine.serveVoiceRelease
  dsimp only
  repeat' split
  all_goals exact h.congr rfl rfl

theorem ScanConsistent.serveVoiceStatus (h : ScanConsistent s) (voice : Byte) :
    ScanConsistent (serveVoiceStatus voice s).state := by
  unfold Machine.serveVoiceStatus
  split <;> exact h

theorem ScanConsistent.serveVoiceConfig (h : ScanConsistent s) (mode : Byte) : ScanConsistent (serveVoiceConfig mode s).state := by
  unfold Machine.serveVoiceConfig
  split <;> exact h.congr rfl rfl

theorem ScanConsistent.serveZoneSet (h : ScanConsistent s) (zone level enabled : Byte) :
    ScanConsistent (serveZoneSet zone level enabled s).state := by
  unfold Machine.serveZoneSet
  repeat' split
  · exact h
  · exact h.setLevel _ _ _
  · exact h

theorem ScanConsistent.serveOutputHalt (h : ScanConsistent s) (force : Byte) : ScanConsistent (serveOutputHalt force s).state := by
  unfold Machine.serveOutputHalt
  repeat' split
  · exact h
  · exact h
  · exact h
  · rw [answerOnly_state]
    exact h.forceVoices.haltBus.arbitrate

theorem ScanConsistent.serveClockSet (h : ScanConsistent s) (weekday hour minute second tenth start : Byte) :
    ScanConsistent (serveClockSet weekday hour minute second tenth start s).state := by
  unfold Machine.serveClockSet
  split
  · unfold loadClock
    dsimp only
    split <;> exact h.congr rfl rfl
  · exact h

theorem ScanConsistent.serveClockStart (h : ScanConsistent s) : ScanConsistent (serveClockStart s).state := by
  unfold Machine.serveClockStart
  split <;> exact h.congr rfl rfl

theorem ScanConsistent.serveCueWrite (h : ScanConsistent s) (cue : Byte) (r : RawCue) :
    ScanConsistent (serveCueWrite cue r s).state := by
  refine h.cueRequest fun c => ?_
  split <;> exact h.congr rfl rfl

theorem ScanConsistent.serveCueEnable (h : ScanConsistent s) (cue : Byte) : ScanConsistent (serveCueEnable cue s).state := by
  refine h.heldCue fun c x => ?_
  split <;> exact h.congr rfl rfl

theorem ScanConsistent.serveCueDisable (h : ScanConsistent s) (cue : Byte) : ScanConsistent (serveCueDisable cue s).state := by
  refine h.heldCue fun c x => ?_
  split <;> exact h.congr rfl rfl

theorem ScanConsistent.serveTrigSet (h : ScanConsistent s) (input : Byte) (r : RawTrigger) :
    ScanConsistent (serveTrigSet input r s).state := by
  unfold Machine.serveTrigSet
  split <;> exact h.congr rfl rfl

theorem ScanConsistent.serveOverrideSet (h : ScanConsistent s) (program level : Byte) :
    ScanConsistent (serveOverrideSet program level s).state := by
  unfold Machine.serveOverrideSet
  split <;> exact h.congr rfl rfl

theorem ScanConsistent.serveOverrideClear (h : ScanConsistent s) : ScanConsistent (serveOverrideClear s).state := by
  unfold Machine.serveOverrideClear
  repeat' split
  · exact h
  · exact h
  · exact h.clearOverride.arbitrate

end

/-! ### The commands -/

section
variable {s t : State}

theorem ScanConsistent.event {f : State → State} (hs : ScanConsistent s) (h : event f s = .next t)
    (hf : ScanConsistent s → ScanConsistent (f s)) : ScanConsistent t := by
  cases h
  split
  · exact hs
  · exact hf hs

theorem ScanConsistent.eventWhen {g : State → Bool} {f : State → State} (hs : ScanConsistent s) (h : eventWhen g f s = .next t)
    (hf : ScanConsistent s → ScanConsistent (f s)) : ScanConsistent t := by
  refine hs.event h fun hs => ?_
  split
  · exact hf hs
  · exact hs

theorem ScanConsistent.requestFrame {kind tag : Byte} {r : Bool} {serve : State → Served} (hs : ScanConsistent s)
    (served : ∀ u, ScanConsistent u → ScanConsistent (serve u).state) : ScanConsistent (requestFrame kind tag r serve s) := by
  unfold Machine.requestFrame
  split
  · exact hs.congr rfl rfl
  · have answered := served (hunt s) (hs.congr rfl rfl)
    unfold owe
    split <;> exact answered.congr rfl rfl

theorem ScanConsistent.request {kind tag : Byte} {serve : State → Served} (hs : ScanConsistent s)
    (h : request kind tag serve s = .next t) (served : ∀ u, ScanConsistent u → ScanConsistent (serve u).state) :
    ScanConsistent t :=
  hs.event h fun hs => hs.requestFrame served

/-- Every request keeps the tables of the scan. -/
theorem ScanConsistent.execRequest {i : Instr} (hs : ScanConsistent s) (h : execRequest i s = .next t) : ScanConsistent t := by
  cases i with
  | restart tag => exact hs.event h fun hs => hs.requestFrame fun _ hu => hu
  | ident tag | storeStatus tag | zoneStatus tag | clockRead tag | trigStatus tag | overrideStatus tag =>
    exact hs.request h fun _ hu => hu
  | report tag => exact hs.request h fun _ hu => hu.congr rfl rfl
  | eventsMask tag mask => exact hs.request h fun _ hu => hu.serveEventsMask _
  | storeConfig tag b => exact hs.request h fun _ hu => hu.serveStoreConfig _
  | storeInspect tag b p => exact hs.request h fun _ hu => hu.serveStoreInspect _ _ _
  | storeFormat tag => exact hs.request h fun _ hu => hu.serveStoreFormat
  | clipOpen tag clip format rate protect name => exact hs.request h fun _ hu => hu.serveClipOpen _ _ _ _ _
  | clipData tag clip offset chunk => exact hs.request h fun _ hu => hu.serveClipData _ _ _
  | clipClose tag clip => exact hs.request h fun _ hu => hu.serveClipClose _
  | clipAbort tag clip => exact hs.request h fun _ hu => hu.serveClipAbort _
  | clipErase tag clip => exact hs.request h fun _ hu => hu.serveClipErase _
  | clipRead tag clip offset length => exact hs.request h fun _ hu => hu.serveClipRead _ _ _ _
  | clipInfo tag clip => exact hs.request h fun _ hu => hu.serveClipInfo _
  | clipList tag first => exact hs.request h fun _ hu => hu.clipRequest fun _ => rfl
  | progWrite tag program cycle count steps => exact hs.request h fun _ hu => hu.serveProgWrite _ _ _ _
  | progRead tag program => exact hs.request h fun _ hu => hu.programRequest fun _ _ => hu
  | progDelete tag program => exact hs.request h fun _ hu => hu.serveProgDelete _
  | voiceStart tag o => exact hs.request h fun _ hu => hu.serveVoiceStart _
  | voicePrepare tag o => exact hs.request h fun _ hu => hu.serveVoicePrepare _
  | voiceGo tag n => exact hs.request h fun _ hu => hu.serveVoiceGo _
  | voiceStop tag n mode => exact hs.request h fun _ hu => hu.serveVoiceStop _ _
  | voicePause tag n | voiceResume tag n => exact hs.request h fun _ hu => hu.servePaused _ _
  | voiceRelease tag n => exact hs.request h fun _ hu => hu.serveVoiceRelease _
  | voiceStatus tag voice => exact hs.request h fun _ hu => hu.serveVoiceStatus _
  | voiceConfig tag mode => exact hs.request h fun _ hu => hu.serveVoiceConfig _
  | zoneSet tag zone level enabled => exact hs.request h fun _ hu => hu.serveZoneSet _ _ _
  | outputHalt tag force => exact hs.request h fun _ hu => hu.serveOutputHalt _
  | outputRun tag => exact hs.request h fun _ hu => hu.congr rfl rfl
  | clockSet tag weekday hour minute second tenth start => exact hs.request h fun _ hu => hu.serveClockSet _ _ _ _ _ _
  | clockStart tag => exact hs.request h fun _ hu => hu.serveClockStart
  | cueWrite tag cue record => exact hs.request h fun _ hu => hu.serveCueWrite _ _
  | cueRead tag cue => exact hs.request h fun _ hu => hu.heldCue fun _ _ => hu
  | cueEnable tag cue => exact hs.request h fun _ hu => hu.serveCueEnable _
  | cueDisable tag cue => exact hs.request h fun _ hu => hu.serveCueDisable _
  | cueDelete tag cue => exact hs.request h fun _ hu => hu.heldCue fun _ _ => hu.congr rfl rfl
  | trigSet tag input entry => exact hs.request h fun _ hu => hu.serveTrigSet _ _
  | trigRead tag => exact hs.request h fun _ hu => hu.congr rfl rfl
  | overrideSet tag program level => exact hs.request h fun _ hu => hu.serveOverrideSet _ _
  | overrideClear tag => exact hs.request h fun _ hu => hu.serveOverrideClear
  | _ => cases h; exact hs

theorem ScanConsistent.execFrameComplete {f : Frame} (hs : ScanConsistent s) (h : execFrameComplete f s = .next t) :
    ScanConsistent t := by
  unfold Machine.execFrameComplete takeFrame at h
  split at h
  · split at h
    · exact hs.request h fun _ hu => hu
    · exact hs.request h fun _ hu => hu
    · exact hs.execRequest h
  · cases h; exact hs

/-- Every command keeps the tables of the scan; a reset begins it anew. -/
theorem ScanConsistent.exec {c : Instr} (hs : ScanConsistent s) (h : exec c s = .next t) : ScanConsistent t := by
  have asked : Machine.execRequest c s = .next t → ScanConsistent t := hs.execRequest
  have dropped (hs : ScanConsistent s) : ScanConsistent (dropFrame s) := hs.congr rfl rfl
  cases c with
  | reset => cases h; exact scanConsistent_afterReset s
  | resetAsserted => cases h; exact hs.congr rfl rfl
  | frameComplete f => exact hs.execFrameComplete h
  | frameCrcError f => exact hs.eventWhen (show execFrameCrcError f s = _ from h) dropped
  | frameLengthDrop n => exact hs.eventWhen (show execFrameLengthDrop n s = _ from h) dropped
  | linkTimeout | byteError => exact hs.eventWhen h dropped
  | overrun f => exact hs.eventWhen (show execOverrun f s = _ from h) fun hs => hs.congr rfl rfl
  | startByte => exact hs.eventWhen (show execStartByte s = _ from h) fun hs => hs.congr rfl rfl
  | replySent =>
    refine hs.event h fun hs => ?_
    unfold replyGone
    split
    · exact scanConsistent_afterReset s
    · exact hs.congr rfl rfl
    · exact hs
    · exact hs
  | fetchComplete good => exact hs.event h fun hs => hs.fetchDone good
  | clipReadReadbackComplete good => exact hs.event h fun hs => hs.readbackDone good
  | inspectReadbackComplete good => exact hs.event h fun hs => hs.inspectDone good
  | pageProgramComplete v => exact hs.event h fun hs => hs.programDone v
  | blockEraseComplete v => exact hs.event h fun hs => hs.eraseDone v
  | scanReadComplete g p => exact hs.event h scanConsistent_scanDone
  | frameEvent | starved v | gapTimerExpiry v | holdTimerExpiry v => exact hs.eventWhen h ScanConsistent.frame
  | discardTimerExpiry v =>
    exact hs.eventWhen (show execDiscardTimerExpiry v s = _ from h) fun hs => (hs.endVoice v .discarded).arbitrate
  | waitTimerExpiry v =>
    exact hs.eventWhen (show execWaitTimerExpiry v s = _ from h) fun hs => (hs.endVoice v .waitExpired).arbitrate
  | tenthEvent => exact hs.eventWhen (show execTenthEvent s = _ from h) ScanConsistent.tenth
  | pinChange i level =>
    cases h
    split
    · exact hs
    · exact hs.congr rfl rfl
  | settleTimerExpiry i => exact hs.eventWhen h fun hs => hs.settle i
  | _ => exact asked h

end

/-! ### The reads of the scan (R167, R171) -/

section
variable {tagGood payloadGood : Bool} {s : State} {b : BlockNo}

theorem exec_scanReadComplete (out : s.inReset = false) :
    exec (.scanReadComplete tagGood payloadGood) s = .next (scanDone tagGood payloadGood s) := event_taken out

/-- The 16th read of a block that another block follows: the block is recorded, and page 0 of the next is read. -/
theorem scanDone_nextBlock {d : BlockNo} (port : s.store.port = .scanRead b 15) (next : d.val = b.val + 1) :
    (let c := scanCondition tagGood payloadGood (s.flash.read (pageAddress b 15))
     scanDone tagGood payloadGood s = (recordBlock b (classify b (s.store.scan.pages ++ [c]))
       { s with store.scan.greatest := noteLoad c s.store.scan.greatest, store.scan.pages := [] }).setPort (.scanRead d 0)) :=
  (scanDone_last port).trans (nextBlock_next next)

end

/-- Settles O26: a page by its tag and payload, a read by whether it is the last of its block, a block by its classification, and the
tables of the scan by the command that is executed. -/
theorem scanReadsOnAndClassifies : Obligations.ScanReadsOnAndClassifies := by
  refine ⟨scanCondition_spec, noteLoad_read, fun tagGood payloadGood s b p out port => ⟨fun q next => ?_, fun d last next => ?_⟩,
    fun b pages => ⟨classify_free, fun cause => ?_, fun first tags k fits e => ?_⟩,
    fun s t h => ?_, fun c s t tables h => tables.exec h⟩
  · rw [exec_scanReadComplete out, scanDone_next port q next]
  · subst last
    rw [exec_scanReadComplete out, scanDone_nextBlock port next]
    refine ⟨fun free => ?_, fun n stale => ?_, fun x candidate => ?_⟩
    · rw [free]; rfl
    · rw [stale]; rfl
    · rw [candidate]; rfl
  · exact ⟨pagesWritten pages, classify_stale cause, pagesWritten_spec pages⟩
  · rw [e, classify_candidate k fits, candidateOf]
    cases (first :: tags).getLast? <;> rfl
  · cases h; exact scanConsistent_afterReset s

end Sys2Proof.Machine
end

section
/-! SUPPORT. The part that is held in reset (R166; log entry 19), and the invariants of the state after reset. -/

namespace Sys2Proof.Machine

/-! ### Held in reset (R166) -/

section
variable {s : State}

/-- Held in reset no request is taken. -/
theorem execRequest_held {i : Instr} (held : s.inReset = true) : execRequest i s = .next s := by
  cases i with
  | reset | resetAsserted | frameComplete _ | frameCrcError _ | overrun _ | frameLengthDrop _ | linkTimeout | byteError | replySent
  | fetchComplete _ | clipReadReadbackComplete _ | inspectReadbackComplete _ | pageProgramComplete _ | blockEraseComplete _
  | scanReadComplete _ _ | frameEvent | starved _ | gapTimerExpiry _ | holdTimerExpiry _ | discardTimerExpiry _ | waitTimerExpiry _
  | tenthEvent | pinChange _ _ | settleTimerExpiry _ | startByte => rfl
  | _ => exact event_inReset held

/-- Held in reset no frame is taken, whatever it carries. -/
theorem execFrameComplete_held {f : Frame} (held : s.inReset = true) : execFrameComplete f s = .next s := by
  unfold execFrameComplete takeFrame
  split
  · split
    · exact request_inReset held
    · exact request_inReset held
    · exact execRequest_held held
  · rfl

/-- Held in reset no command but a reset and the moving of a pin changes anything (log entry 19). -/
theorem exec_held {c : Instr} (held : s.inReset = true) (notReset : c ≠ .reset) (notAsserted : c ≠ .resetAsserted)
    (noPin : ∀ i l, c ≠ .pinChange i l) : exec c s = .next s := by
  cases c with
  | reset => exact absurd rfl notReset
  | resetAsserted => exact absurd rfl notAsserted
  | pinChange i l => exact absurd rfl (noPin i l)
  | frameComplete f => exact execFrameComplete_held held
  | _ => exact event_inReset held

end

/-- Settles O6: RESET_ASSERTED by its definition, any other command as an event, which does not come about in a part that is held. -/
theorem resetAssertedHoldsThePart : Obligations.ResetAssertedHoldsThePart :=
  fun _ => ⟨rfl, fun held _ => exec_held held⟩

/-! ### The invariants after reset (R26, R121, R144, R165, R189) -/

theorem bounded_reset : Bounded State.reset := (bounded_afterReset (s := State.reset)).congr rfl

theorem attnFollows_reset : AttnFollows State.reset := by
  show false = (attnOf 0 (BitVec.allOnes 20) && !false)
  decide

/-- Settles O60: ATTN and the flash by their values, the bounds as after any other reset. -/
theorem invariantsHoldAtReset : Obligations.InvariantsHoldAtReset := ⟨attnFollows_reset, rfl, bounded_reset⟩

end Sys2Proof.Machine
end

section
/-! SUPPORT. ATTN and what asserts it (R185): every command keeps ATTN following the flags and the mask. The engine keeps it by what an
EngineStep is, the setting of a flag makes it so, and what touches no part of the Link Controller's flags leaves it as it was. -/

namespace Sys2Proof.Machine

/-- Out of reset, ATTN is asserted exactly while a flag is set whose mask setting is on. -/
def AttnLive (s : State) : Prop := s.inReset = false ∧ s.link.attn = attnOf s.link.flags s.link.mask

section
variable {s t : State}

theorem AttnLive.follows (h : AttnLive s) : AttnFollows s := by
  obtain ⟨released, attn⟩ := h
  simp [AttnFollows, released, attn]

theorem AttnFollows.live (h : AttnFollows s) (released : s.inReset = false) : AttnLive s :=
  ⟨released, by simpa [AttnFollows, released] using h⟩

/-- A flag that is set has ATTN follow at once (R184, R185). -/
theorem AttnLive.setFlag (h : AttnLive s) (f : EventFlag) : AttnLive (setFlag f s) := ⟨h.1, rfl⟩

/-- REPORT clears the flags, with ATTN after them (R186). -/
theorem AttnLive.clearFlags (h : AttnLive s) : AttnLive (clearFlags s) := ⟨h.1, rfl⟩

/-- A new mask has ATTN follow at once (R185). -/
theorem AttnLive.setMask (h : AttnLive s) (mask : BitVec 20) : AttnLive (setMask mask s) := ⟨h.1, rfl⟩

/-- The setting of a flag that an event sets only on a condition. -/
theorem AttnLive.setFlagUnless (h : AttnLive s) (f : EventFlag) (b : Bool) :
    AttnLive (if b then s else Machine.setFlag f s) := by
  split
  · exact h
  · exact h.setFlag f

/-- A step of the engine keeps ATTN following. -/
theorem EngineStep.attnLive (e : EngineStep s t) (h : AttnLive s) : AttnLive t := by
  obtain ⟨released, attn⟩ := h
  refine ⟨e.inReset.trans released, ?_⟩
  rcases e.attn with ⟨flags, same⟩ | follows
  · rw [same, flags, e.mask, attn]
  · exact follows

/-- What replaces the store's tables leaves ATTN as it was. -/
theorem AttnLive.withStore (h : AttnLive s) (x : Store) : AttnLive { s with store := x } := h

theorem AttnLive.setBlock (h : AttnLive s) (b : BlockNo) (x : Block) : AttnLive (s.setBlock b x) := h

theorem AttnLive.arbitrate (h : AttnLive s) : AttnLive (arbitrate s) := (engineStep_arbitrate s).attnLive h

theorem AttnLive.foldl {α : Type} {f : State → α → State} (h : AttnLive s) (kept : ∀ t a, AttnLive t → AttnLive (f t a))
    (l : List α) : AttnLive (l.foldl f s) := foldl_keeps AttnLive f kept l s h

theorem attnLive_afterReset : AttnLive (afterReset s) := ⟨rfl, by show false = attnOf 0 (BitVec.allOnes 20); decide⟩

/-! ### Blocks and clips -/

theorem AttnLive.queueErase (h : AttnLive s) (b : BlockNo) : AttnLive (queueErase b s) := by
  obtain ⟨⟨bs, e⟩, -⟩ := queueErase_step b s
  rw [e]; exact h

theorem AttnLive.releaseBlock (h : AttnLive s) (c : ClipId) (b : BlockNo) : AttnLive (releaseBlock c b s) := by
  unfold Machine.releaseBlock
  split
  · dsimp only; split <;> exact h
  · exact h.queueErase b

theorem AttnLive.reserveBlock (h : AttnLive s) (c : ClipId) (b : BlockNo) : AttnLive (reserveBlock c b s) := by
  unfold Machine.reserveBlock; split <;> exact h

theorem AttnLive.eraseClip (h : AttnLive s) (c : ClipId) : AttnLive (eraseClip c s) := by
  unfold Machine.eraseClip
  split
  · split <;> exact h
  · exact h

theorem AttnLive.formatBlock (h : AttnLive s) (b : BlockNo) : AttnLive (formatBlock b s) := by
  obtain ⟨⟨bs, cs, e⟩, -⟩ := formatBlock_step b s
  rw [e]; exact h

theorem AttnLive.formatEnd (h : AttnLive s) : AttnLive (formatEnd s) := by
  unfold Machine.formatEnd
  split
  · exact AttnLive.setFlag (s := { s with store.state := .service }) h .formatDone
  · exact h

theorem AttnLive.formatLists (h : AttnLive s) (clips : List ClipId) (blocks : List BlockNo) :
    AttnLive (formatLists clips blocks s) := by
  have erased : AttnLive (clips.foldl (fun s c => Machine.eraseClip c s) s) := h.foldl (fun _ c ht => ht.eraseClip c) clips
  have formatted := erased.foldl fun _ b ht => AttnLive.formatBlock ht b
  exact (AttnLive.withStore (formatted blocks) _).formatEnd

theorem AttnLive.acceptChunk (h : AttnLive s) (c : ClipId) (chunk : List Byte) : AttnLive (acceptChunk c chunk s) := by
  unfold Machine.acceptChunk
  split
  · exact h
  · exact AttnLive.arbitrate h

theorem AttnLive.takeChunk (h : AttnLive s) (c : ClipId) (offset : Nat) (chunk : List Byte) :
    AttnLive (takeChunk c offset chunk s).1 := by
  unfold Machine.takeChunk
  repeat' split
  all_goals simp only [h, AttnLive.acceptChunk, AttnLive.reserveBlock]

theorem AttnLive.abortEnd (h : AttnLive s) (c : ClipId) : AttnLive (abortEnd c s) := by
  unfold Machine.abortEnd
  split
  · exact h
  · split
    · exact ⟨h.1, rfl⟩
    · exact h

theorem AttnLive.leaveClip (h : AttnLive s) (b : BlockNo) (c : ClipId) : AttnLive (leaveClip b c s) := by
  unfold Machine.leaveClip
  split
  · exact h
  · dsimp only
    split
    · exact ⟨h.1, rfl⟩
    · exact h

/-! ### The completions at the flash port -/

theorem AttnLive.readPage (h : AttnLive s) (tag : Byte) (c : ClipId) (offset length : Nat) (taken payload : List Byte) :
    AttnLive (readPage tag c offset length taken payload s) := by
  unfold Machine.readPage
  dsimp only
  split
  · exact h
  · split <;> exact h

theorem AttnLive.readbackDone (h : AttnLive s) (good : Bool) : AttnLive (readbackDone good s) := by
  have idle : AttnLive (s.setPort .idle) := h
  unfold Machine.readbackDone
  split
  · refine AttnLive.arbitrate ?_
    split
    · exact idle.readPage _ _ _ _ _ _
    · exact idle.setFlag .storeFault
  · exact h

theorem AttnLive.inspectDone (h : AttnLive s) (good : Bool) : AttnLive (inspectDone good s) := by
  have idle : AttnLive (s.setPort .idle) := h
  unfold Machine.inspectDone
  split
  · dsimp only
    refine AttnLive.arbitrate ?_
    split
    · exact idle.setFlag .storeFault
    · exact idle
  · exact h

theorem AttnLive.fetchDone (h : AttnLive s) (good : Bool) : AttnLive (fetchDone good s) := by
  cases port : s.store.port with
  | fetch v b p => exact (engineStep_fetchDone good port).attnLive h
  | _ => simpa [Machine.fetchDone, port] using h

theorem AttnLive.programReport (h : AttnLive s) (j : ProgramJob) (x : Clip) : AttnLive (programReport j x s) := by
  unfold Machine.programReport
  dsimp only
  split
  · exact ⟨h.1, rfl⟩
  · exact h

theorem AttnLive.failureReport (h : AttnLive s) (j : ProgramJob) (x : Clip) : AttnLive (failureReport j x s) := ⟨h.1, rfl⟩

theorem AttnLive.programOutcome (h : AttnLive s) (verified : Bool) (j : ProgramJob) :
    AttnLive (programOutcome verified j s) := by
  unfold Machine.programOutcome
  split
  · exact h
  · next x _ =>
    have reported : AttnLive (if verified then Machine.programReport j x s else Machine.failureReport j x s) := by
      split
      · exact h.programReport j x
      · exact h.failureReport j x
    have queued := (h.setFlagUnless .storeFault verified).queueErase j.block
    split
    · exact reported
    · exact reported
    · exact queued
    · exact queued
    · exact queued

theorem AttnLive.programDone (h : AttnLive s) (verified : Bool) : AttnLive (programDone verified s) := by
  unfold Machine.programDone
  split
  · next j _ =>
    have written : AttnLive (countProgram verified j.block (programFlash verified j (s.setPort .idle))) := by
      unfold programFlash; split <;> exact h
    exact (written.programOutcome verified j).arbitrate
  · exact h

theorem AttnLive.eraseDone (h : AttnLive s) (verified : Bool) : AttnLive (eraseDone verified s) := by
  unfold Machine.eraseDone
  split
  · next b _ =>
    have erased : AttnLive (eraseFlash verified b (s.setPort .idle)) := by unfold eraseFlash; split <;> exact h
    have freed (x : Store) (y : Block) := ((erased.withStore x).setBlock b y).setFlagUnless .storeFault verified
    dsimp only
    refine AttnLive.arbitrate (AttnLive.formatEnd ?_)
    split
    · exact (freed _ _).leaveClip b _
    · exact freed _ _
  · exact h

/-! ### The scan -/

theorem AttnLive.rebuildStore (h : AttnLive s) : AttnLive (rebuildStore s) := by
  have rebuilt (t : State) (c : ClipId) (ht : AttnLive t) : AttnLive (rebuildClip c t) := by
    unfold rebuildClip
    split
    · next ordered _ _ => exact ht.foldl (f := fun s y => ownCandidate y s) (fun _ _ hu => hu) ordered
    · exact ht
  have left (t : State) (x : Candidate) (ht : AttnLive t) : AttnLive (leaveCandidate x t) := by
    unfold leaveCandidate; split <;> exact ht
  unfold Machine.rebuildStore
  refine AttnLive.setFlag (AttnLive.withStore ?_ _) .startDone
  refine AttnLive.foldl ?_ (fun _ b ht => ht.queueErase b) _
  exact (h.foldl rebuilt _).foldl left _

theorem AttnLive.startOverride (h : AttnLive s) : AttnLive (startOverride s) := by
  obtain ⟨t, r, step, e⟩ := startOverride_step s
  rw [e]; exact step.attnLive h

theorem AttnLive.completeScan (h : AttnLive s) : AttnLive (completeScan s) := by
  have started : AttnLive (pendingOverride (Machine.rebuildStore s)) := by
    unfold pendingOverride
    split
    · exact h.rebuildStore.startOverride
    · exact h.rebuildStore
  exact (started.withStore _).arbitrate

theorem AttnLive.recordBlock (h : AttnLive s) (b : BlockNo) (c : Classified) : AttnLive (recordBlock b c s) := by
  cases c <;> exact h

theorem AttnLive.nextBlock (h : AttnLive s) (b : BlockNo) : AttnLive (nextBlock b s) := by
  unfold Machine.nextBlock
  split
  · exact h
  · exact h.completeScan

theorem AttnLive.scanDone (h : AttnLive s) (g p : Bool) : AttnLive (scanDone g p s) := by
  unfold Machine.scanDone
  split
  · dsimp only
    split
    · exact h
    · exact ((h.withStore _).recordBlock _ _).nextBlock _
  · exact h

/-! ### Voices, the clock, the schedule and the inputs -/

theorem AttnLive.frame (h : AttnLive s) : AttnLive (frame s) := by
  obtain ⟨t, out, toParts, toFrame⟩ := frame_step s
  exact toFrame.attnLive (toParts.attnLive h)

theorem AttnLive.endVoice (h : AttnLive s) (v : VoiceId) (cause : EndCause) : AttnLive (endVoice offers v cause s) :=
  (engineStep_endVoice offersStep_offers v cause s).attnLive h

theorem AttnLive.fireCue (h : AttnLive s) (c : CueId) (x : CueEntry) : AttnLive (fireCue c x s) :=
  ⟨((engineStep_startVoice _ _ s).attnLive h).1, rfl⟩

theorem AttnLive.advanceSecond (h : AttnLive s) : AttnLive (advanceSecond s) := by
  have entered (t : State) (ht : AttnLive t) : AttnLive (enterSecond t) := by
    unfold enterSecond
    refine ht.foldl (fun u c hu => ?_) _
    split
    · exact hu.fireCue c _
    · exact hu
  unfold Machine.advanceSecond
  refine entered _ ?_
  split <;> exact h

theorem AttnLive.tenth (h : AttnLive s) : AttnLive (tenth s) := by
  unfold Machine.tenth
  dsimp only
  split
  · exact h
  · exact h.advanceSecond.arbitrate

theorem AttnLive.minuteMark (h : AttnLive s) : AttnLive (minuteMark s).1 := by
  have forward (n : Nat) : AttnLive (Nat.repeat Machine.advanceSecond n s) := by
    induction n with
    | zero => exact h
    | succ n ih => exact ih.advanceSecond
  unfold Machine.minuteMark
  split
  · exact h
  · exact h
  · dsimp only
    split
    · exact h
    · exact forward _

theorem AttnLive.appendEntry (h : AttnLive s) (x : FifoEntry) : AttnLive (appendEntry x s) := by
  unfold Machine.appendEntry
  split
  · dsimp only
    split
    · exact ⟨h.1, rfl⟩
    · exact h
  · exact ⟨h.1, rfl⟩

theorem AttnLive.carryOut (h : AttnLive s) (i : TriggerId) (e : Edge) : AttnLive (carryOut i e s).state := by
  have started (o : StartOrder) : AttnLive (triggerStart i o s).state := (engineStep_startVoice _ _ s).attnLive h
  unfold Machine.carryOut
  split
  · exact started _
  · exact started _
  · unfold followStop
    dsimp only
    split
    · exact h.endVoice _ _
    · exact h
  · exact h.foldl (fun _ v ht => AttnLive.endVoice ht v .stopped) _
  · exact h.foldl (f := fun s v => s.setVoice v { s.voice v with releaseMark := true }) (fun _ _ ht => ht) _
  · exact h.minuteMark
  · exact h

theorem AttnLive.takeEdge (h : AttnLive s) (i : TriggerId) (e : Edge) : AttnLive (takeEdge i e s) := by
  unfold Machine.takeEdge
  dsimp only
  split
  · exact (h.carryOut i e).appendEntry _
  · exact h.carryOut i e

theorem AttnLive.overrideEdge (h : AttnLive s) (e : Edge) : AttnLive (overrideEdge e s) := by
  cases e with
  | opening => exact h.setFlag .overrideOff
  | close =>
    have latched : AttnLive (runBus (Machine.setFlag .overrideOn { s with inputs.latch := true })) := ⟨h.1, rfl⟩
    show AttnLive (askOverride _)
    unfold askOverride
    split
    · exact latched
    · split
      · exact latched
      · exact latched.startOverride

theorem AttnLive.settle (h : AttnLive s) (i : InputId) : AttnLive (settle i s) := by
  have leveled (x : Input) : AttnLive (s.setInput i x) := h
  unfold Machine.settle inputEdge
  refine AttnLive.arbitrate ?_
  split
  · exact (leveled _).takeEdge _ _
  · exact (leveled _).overrideEdge _

/-! ### Zones and voices, as requests change them -/

theorem AttnLive.setLevel (h : AttnLive s) (z : ZoneId) (level : Nat) (enabled : Bool) : AttnLive (setLevel z level enabled s) := by
  have disabled (t : State) (ht : AttnLive t) : AttnLive (disableZone z t) := by
    unfold disableZone
    dsimp only
    split
    · exact ht
    · exact ((engineStep_wantAlso _ _ _).trans ((engineStep_loseLast offersStep_offers _ _).trans
        (engineStep_loseSome offersStep_offers _ _))).attnLive ht
  have leveled : AttnLive (s.setZone z { s.zone z with level := level }) := h
  refine AttnLive.arbitrate ?_
  split
  · exact disabled _ leveled
  · exact (offersStep_offers _ _).attnLive leveled
  · exact leveled
  · exact leveled

theorem AttnLive.goVoice (h : AttnLive s) (v : VoiceId) : AttnLive (goVoice v s).1 := by
  unfold Machine.goVoice
  split
  · exact h
  · split
    · exact h
    · split
      · exact h
      · split
        · exact h
        · next o _ =>
          have claimed := (engineStep_claimZones offersStep_offers v o s).attnLive h
          split <;> next e => rw [e] at claimed; simp only [claimed, AttnLive.arbitrate]

/-! ### The requests at their blocks -/

theorem attnLive_clipRequest {clip : Byte} {serve : ClipId → Served} (h : AttnLive s) (served : ∀ c, AttnLive (serve c).state) :
    AttnLive (clipRequest clip s serve).state := by
  unfold clipRequest
  split
  · exact h
  · split
    · exact h
    · exact served _

theorem attnLive_programRequest {program : Byte} {serve : ProgramId → Program → Served} (h : AttnLive s)
    (served : ∀ p x, AttnLive (serve p x).state) : AttnLive (programRequest program s serve).state := by
  unfold programRequest
  split
  · exact h
  · split
    · exact h
    · exact served _ _

theorem attnLive_cueRequest {cue : Byte} {serve : CueId → Served} (h : AttnLive s) (served : ∀ c, AttnLive (serve c).state) :
    AttnLive (cueRequest cue s serve).state := by
  unfold cueRequest
  split
  · exact h
  · exact served _

theorem attnLive_heldCue {cue : Byte} {serve : CueId → CueEntry → Served} (h : AttnLive s)
    (served : ∀ c x, AttnLive (serve c x).state) : AttnLive (heldCue cue s serve).state := by
  refine attnLive_cueRequest h fun c => ?_
  split
  · exact h
  · exact served _ _

theorem AttnLive.serveEventsMask (h : AttnLive s) (mask : BitVec 24) : AttnLive (serveEventsMask mask s).state := by
  unfold Machine.serveEventsMask
  split
  · exact h
  · exact h.setMask _

theorem AttnLive.serveStoreConfig (h : AttnLive s) (b : Byte) : AttnLive (serveStoreConfig b s).state := by
  unfold Machine.serveStoreConfig
  split
  · exact h
  · split
    · exact h
    · exact (h.withStore _).arbitrate

theorem AttnLive.serveStoreInspect (h : AttnLive s) (tag : Byte) (b : BitVec 16) (p : Byte) :
    AttnLive (serveStoreInspect tag b p s).state := by
  unfold Machine.serveStoreInspect
  split
  · exact h
  · split
    · exact (h.withStore _).arbitrate
    · exact h

theorem AttnLive.serveStoreFormat (h : AttnLive s) : AttnLive (serveStoreFormat s).state := by
  have formatted : AttnLive (Machine.arbitrate (formatStore s)) := by
    rw [formatStore_eq]
    exact (h.formatLists _ _).arbitrate
  unfold Machine.serveStoreFormat
  repeat' split
  · exact h
  · exact h
  · exact h
  · exact h
  · rw [answerOnly_state]
    exact formatted

theorem AttnLive.serveClipOpen (h : AttnLive s) (clip format rate protect : Byte) (name : Vector Byte 16) :
    AttnLive (serveClipOpen clip format rate protect name s).state := by
  refine attnLive_clipRequest h fun c => ?_
  repeat' split
  all_goals exact h

theorem AttnLive.serveClipData (h : AttnLive s) (clip : Byte) (offset : BitVec 32) (chunk : List Byte) :
    AttnLive (serveClipData clip offset chunk s).state := by
  unfold Machine.serveClipData
  repeat' split
  · exact h
  · exact h
  · exact h
  · exact h.takeChunk _ _ _

theorem AttnLive.serveClipClose (h : AttnLive s) (clip : Byte) : AttnLive (serveClipClose clip s).state := by
  have closed (x : Store) (c : ClipId) (y : Clip) : AttnLive (State.setClip { s with store := x } c (some y)) := h
  refine attnLive_clipRequest h fun c => ?_
  repeat' split
  · exact h
  · exact h
  · exact h
  · exact (closed _ _ _).arbitrate

theorem AttnLive.serveClipAbort (h : AttnLive s) (clip : Byte) : AttnLive (serveClipAbort clip s).state := by
  refine attnLive_clipRequest h fun c => ?_
  repeat' split
  · exact h
  · exact h
  · exact (((h.withStore _).foldl (fun _ b ht => ht.releaseBlock c b) _).abortEnd c).arbitrate

theorem AttnLive.serveClipErase (h : AttnLive s) (clip : Byte) : AttnLive (serveClipErase clip s).state := by
  refine attnLive_clipRequest h fun c => ?_
  repeat' split
  · exact h
  · exact h
  · exact h
  · exact h
  · exact ((h.eraseClip c).foldl (fun _ b ht => ht.queueErase b) _).arbitrate

theorem AttnLive.serveClipRead (h : AttnLive s) (tag clip : Byte) (offset : BitVec 32) (length : BitVec 16) :
    AttnLive (serveClipRead tag clip offset length s).state := by
  refine attnLive_clipRequest h fun c => ?_
  repeat' split
  · exact h
  · exact h
  · exact h
  · exact (h.withStore _).arbitrate
  · exact h

theorem AttnLive.serveClipInfo (h : AttnLive s) (clip : Byte) : AttnLive (serveClipInfo clip s).state := by
  refine attnLive_clipRequest h fun c => ?_
  split <;> exact h

theorem AttnLive.serveProgWrite (h : AttnLive s) (program cycle count : Byte) (steps : List RawStep) :
    AttnLive (serveProgWrite program cycle count steps s).state := by
  unfold Machine.serveProgWrite
  repeat' split
  all_goals exact h

theorem AttnLive.serveProgDelete (h : AttnLive s) (program : Byte) : AttnLive (serveProgDelete program s).state := by
  refine attnLive_programRequest h fun p x => ?_
  split <;> exact h

theorem AttnLive.serveVoiceStart (h : AttnLive s) (o : RawOrder) : AttnLive (serveVoiceStart o s).state := by
  have started := (engineStep_startVoice .link (readOrder o) s).attnLive h
  unfold Machine.serveVoiceStart
  split <;> next e => rw [e] at started; simp only [answer_state, started, AttnLive.arbitrate]

theorem AttnLive.serveVoicePrepare (h : AttnLive s) (o : RawOrder) : AttnLive (serveVoicePrepare o s).state := by
  unfold Machine.serveVoicePrepare
  split
  · exact h
  · next o v _ =>
    exact (((engineStep_allocate v .link o s).trans (engineStep_setVoice _ v _)).attnLive h).arbitrate

theorem AttnLive.serveVoiceGo (h : AttnLive s) (n : BitVec 32) : AttnLive (serveVoiceGo n s).state := by
  unfold Machine.serveVoiceGo
  split
  · exact h
  · exact h.goVoice _

theorem AttnLive.serveVoiceStop (h : AttnLive s) (n : BitVec 32) (mode : Byte) : AttnLive (serveVoiceStop n mode s).state := by
  have stopped (m : StopMode) (v : VoiceId) : AttnLive (stopVoice m v s) := by
    unfold stopVoice
    dsimp only
    split
    · exact h
    · exact (h.endVoice v .stopped).arbitrate
  unfold Machine.serveVoiceStop
  split
  · exact h
  · split
    · exact h
    · exact stopped _ _

theorem AttnLive.servePaused (h : AttnLive s) (paused : Bool) (n : BitVec 32) : AttnLive (servePaused paused n s).state := by
  unfold Machine.servePaused
  split
  · exact h
  · dsimp only; split <;> exact h

theorem AttnLive.serveVoiceRelease (h : AttnLive s) (n : BitVec 32) : AttnLive (serveVoiceRelease n s).state := by
  unfold Machine.serveVoiceRelease
  split
  · exact h
  · dsimp only
    repeat' split
    all_goals exact h

theorem AttnLive.serveVoiceStatus (h : AttnLive s) (voice : Byte) : AttnLive (serveVoiceStatus voice s).state := by
  unfold Machine.serveVoiceStatus; split <;> exact h

theorem AttnLive.serveVoiceConfig (h : AttnLive s) (mode : Byte) : AttnLive (serveVoiceConfig mode s).state := by
  unfold Machine.serveVoiceConfig; split <;> exact h

theorem AttnLive.serveZoneSet (h : AttnLive s) (zone level enabled : Byte) : AttnLive (serveZoneSet zone level enabled s).state := by
  unfold Machine.serveZoneSet
  split
  · split
    · exact h
    · exact h.setLevel _ _ _
  · exact h

theorem AttnLive.haltBus (h : AttnLive s) : AttnLive (haltBus (forceVoices s)) := by
  have forced : AttnLive (forceVoices s) :=
    h.foldl (fun t v ht => (engineStep_endVoice offersStep_noOffers v .forced t).attnLive ht) _
  generalize forceVoices s = u at forced
  exact forced

theorem AttnLive.serveOutputHalt (h : AttnLive s) (force : Byte) : AttnLive (serveOutputHalt force s).state := by
  unfold Machine.serveOutputHalt
  repeat' split
  · exact h
  · exact h
  · exact h
  · rw [answerOnly_state]
    exact h.haltBus.arbitrate

theorem AttnLive.serveClockSet (h : AttnLive s) (weekday hour minute second tenth start : Byte) :
    AttnLive (serveClockSet weekday hour minute second tenth start s).state := by
  unfold Machine.serveClockSet
  split
  · unfold loadClock
    dsimp only
    split <;> exact h
  · exact h

theorem AttnLive.serveClockStart (h : AttnLive s) : AttnLive (serveClockStart s).state := by
  unfold Machine.serveClockStart; split <;> exact h

theorem AttnLive.serveCueWrite (h : AttnLive s) (cue : Byte) (r : RawCue) : AttnLive (serveCueWrite cue r s).state := by
  refine attnLive_cueRequest h fun c => ?_
  split <;> exact h

theorem AttnLive.serveCueEnable (h : AttnLive s) (cue : Byte) : AttnLive (serveCueEnable cue s).state := by
  refine attnLive_heldCue h fun c x => ?_
  split <;> exact h

theorem AttnLive.serveCueDisable (h : AttnLive s) (cue : Byte) : AttnLive (serveCueDisable cue s).state := by
  refine attnLive_heldCue h fun c x => ?_
  split <;> exact h

theorem AttnLive.serveTrigSet (h : AttnLive s) (input : Byte) (r : RawTrigger) : AttnLive (serveTrigSet input r s).state := by
  unfold Machine.serveTrigSet; split <;> exact h

theorem AttnLive.serveOverrideSet (h : AttnLive s) (program level : Byte) : AttnLive (serveOverrideSet program level s).state := by
  unfold Machine.serveOverrideSet; split <;> exact h

theorem AttnLive.serveOverrideClear (h : AttnLive s) : AttnLive (serveOverrideClear s).state := by
  have cleared : AttnLive (clearOverride s) := (offersStep_offers _ _).attnLive (h.endVoice overrideVoice .stopped)
  unfold Machine.serveOverrideClear
  repeat' split
  · exact h
  · exact h
  · exact cleared.arbitrate

/-! ### The commands -/

theorem AttnLive.event {f : State → State} (hs : AttnLive s) (h : event f s = .next t) (hf : AttnLive s → AttnLive (f s)) :
    AttnLive t := by
  rw [event_taken hs.1] at h
  cases h
  exact hf hs

theorem AttnLive.eventWhen {g : State → Bool} {f : State → State} (hs : AttnLive s) (h : eventWhen g f s = .next t)
    (hf : AttnLive s → AttnLive (f s)) : AttnLive t := by
  refine hs.event h fun hs => ?_
  split
  · exact hf hs
  · exact hs

theorem AttnLive.requestFrame {kind tag : Byte} {r : Bool} {serve : State → Served} (hs : AttnLive s)
    (served : ∀ u, AttnLive u → AttnLive (serve u).state) : AttnLive (requestFrame kind tag r serve s) := by
  have served := served (hunt s) hs
  unfold Machine.requestFrame
  split
  · exact hs
  · unfold owe
    split <;> exact served

theorem AttnLive.request {kind tag : Byte} {serve : State → Served} (hs : AttnLive s) (h : request kind tag serve s = .next t)
    (served : ∀ u, AttnLive u → AttnLive (serve u).state) : AttnLive t :=
  hs.event h fun hs => hs.requestFrame served

/-- Every request keeps ATTN following. -/
theorem AttnLive.execRequest {i : Instr} (hs : AttnLive s) (h : execRequest i s = .next t) : AttnLive t := by
  cases i with
  | ident tag => exact hs.request h fun _ hu => hu
  | report tag => exact hs.request h fun _ hu => hu.clearFlags
  | eventsMask tag mask => exact hs.request h fun _ hu => hu.serveEventsMask _
  | restart tag => exact hs.event h fun hs => hs.requestFrame fun _ hu => hu
  | storeStatus tag => exact hs.request h fun _ hu => hu
  | storeConfig tag b => exact hs.request h fun _ hu => hu.serveStoreConfig _
  | storeInspect tag b p => exact hs.request h fun _ hu => hu.serveStoreInspect _ _ _
  | storeFormat tag => exact hs.request h fun _ hu => hu.serveStoreFormat
  | clipOpen tag clip format rate protect name => exact hs.request h fun _ hu => hu.serveClipOpen _ _ _ _ _
  | clipData tag clip offset chunk => exact hs.request h fun _ hu => hu.serveClipData _ _ _
  | clipClose tag clip => exact hs.request h fun _ hu => hu.serveClipClose _
  | clipAbort tag clip => exact hs.request h fun _ hu => hu.serveClipAbort _
  | clipErase tag clip => exact hs.request h fun _ hu => hu.serveClipErase _
  | clipRead tag clip offset length => exact hs.request h fun _ hu => hu.serveClipRead _ _ _ _
  | clipInfo tag clip => exact hs.request h fun _ hu => hu.serveClipInfo _
  | clipList tag first => exact hs.request h fun _ hu => attnLive_clipRequest hu fun _ => hu
  | progWrite tag program cycle count steps => exact hs.request h fun _ hu => hu.serveProgWrite _ _ _ _
  | progRead tag program => exact hs.request h fun _ hu => attnLive_programRequest hu fun _ _ => hu
  | progDelete tag program => exact hs.request h fun _ hu => hu.serveProgDelete _
  | voiceStart tag o => exact hs.request h fun _ hu => hu.serveVoiceStart _
  | voicePrepare tag o => exact hs.request h fun _ hu => hu.serveVoicePrepare _
  | voiceGo tag n => exact hs.request h fun _ hu => hu.serveVoiceGo _
  | voiceStop tag n mode => exact hs.request h fun _ hu => hu.serveVoiceStop _ _
  | voicePause tag n => exact hs.request h fun _ hu => hu.servePaused _ _
  | voiceResume tag n => exact hs.request h fun _ hu => hu.servePaused _ _
  | voiceRelease tag n => exact hs.request h fun _ hu => hu.serveVoiceRelease _
  | voiceStatus tag voice => exact hs.request h fun _ hu => hu.serveVoiceStatus _
  | voiceConfig tag mode => exact hs.request h fun _ hu => hu.serveVoiceConfig _
  | zoneSet tag zone level enabled => exact hs.request h fun _ hu => hu.serveZoneSet _ _ _
  | zoneStatus tag => exact hs.request h fun _ hu => hu
  | outputHalt tag force => exact hs.request h fun _ hu => hu.serveOutputHalt _
  | outputRun tag => exact hs.request h fun _ hu => hu
  | clockSet tag weekday hour minute second tenth start => exact hs.request h fun _ hu => hu.serveClockSet _ _ _ _ _ _
  | clockStart tag => exact hs.request h fun _ hu => hu.serveClockStart
  | clockRead tag => exact hs.request h fun _ hu => hu
  | cueWrite tag cue record => exact hs.request h fun _ hu => hu.serveCueWrite _ _
  | cueRead tag cue => exact hs.request h fun _ hu => attnLive_heldCue hu fun _ _ => hu
  | cueEnable tag cue => exact hs.request h fun _ hu => hu.serveCueEnable _
  | cueDisable tag cue => exact hs.request h fun _ hu => hu.serveCueDisable _
  | cueDelete tag cue => exact hs.request h fun _ hu => attnLive_heldCue hu fun _ _ => hu
  | trigSet tag input entry => exact hs.request h fun _ hu => hu.serveTrigSet _ _
  | trigRead tag => exact hs.request h fun _ hu => hu
  | trigStatus tag => exact hs.request h fun _ hu => hu
  | overrideSet tag program level => exact hs.request h fun _ hu => hu.serveOverrideSet _ _
  | overrideClear tag => exact hs.request h fun _ hu => hu.serveOverrideClear
  | overrideStatus tag => exact hs.request h fun _ hu => hu
  | _ => cases h; exact hs

theorem AttnLive.execFrameComplete {f : Frame} (hs : AttnLive s) (h : execFrameComplete f s = .next t) : AttnLive t := by
  unfold Machine.execFrameComplete takeFrame at h
  split at h
  · split at h
    · exact hs.request h fun _ hu => hu
    · exact hs.request h fun _ hu => hu
    · exact hs.execRequest h
  · cases h; exact hs

/-- Every command but RESET_ASSERTED keeps ATTN following, in a part that is not held. -/
theorem AttnLive.exec {c : Instr} (hs : AttnLive s) (h : exec c s = .next t) (notAsserted : c ≠ .resetAsserted) : AttnLive t := by
  have asked : Machine.execRequest c s = .next t → AttnLive t := hs.execRequest
  cases c with
  | reset => cases h; exact attnLive_afterReset
  | resetAsserted => exact absurd rfl notAsserted
  | frameComplete f => exact hs.execFrameComplete h
  | frameCrcError f => exact hs.eventWhen (show execFrameCrcError f s = _ from h) id
  | frameLengthDrop n => exact hs.eventWhen (show execFrameLengthDrop n s = _ from h) id
  | linkTimeout | byteError => exact hs.eventWhen h id
  | overrun f => exact hs.eventWhen (show execOverrun f s = _ from h) id
  | startByte => exact hs.eventWhen (show execStartByte s = _ from h) id
  | replySent =>
    refine hs.event h fun hs => ?_
    unfold replyGone
    split
    · exact attnLive_afterReset
    · exact hs
    · exact hs
    · exact hs
  | fetchComplete good => exact hs.event h fun hs => hs.fetchDone good
  | clipReadReadbackComplete good => exact hs.event h fun hs => hs.readbackDone good
  | inspectReadbackComplete good => exact hs.event h fun hs => hs.inspectDone good
  | pageProgramComplete v => exact hs.event h fun hs => hs.programDone v
  | blockEraseComplete v => exact hs.event h fun hs => hs.eraseDone v
  | scanReadComplete g p => exact hs.event h fun hs => hs.scanDone g p
  | frameEvent | starved v | gapTimerExpiry v | holdTimerExpiry v => exact hs.eventWhen h AttnLive.frame
  | discardTimerExpiry v =>
    exact hs.eventWhen (show execDiscardTimerExpiry v s = _ from h) fun hs => (hs.endVoice v .discarded).arbitrate
  | waitTimerExpiry v =>
    exact hs.eventWhen (show execWaitTimerExpiry v s = _ from h) fun hs => (hs.endVoice v .waitExpired).arbitrate
  | tenthEvent => exact hs.eventWhen (show execTenthEvent s = _ from h) AttnLive.tenth
  | pinChange i level =>
    cases h
    split <;> exact hs
  | settleTimerExpiry i => exact hs.eventWhen h fun hs => hs.settle i
  | _ => exact asked h

/-- In a part that is held ATTN stays deasserted until RESET is released (R166, R185). -/
theorem AttnFollows.exec_held {c : Instr} (hs : AttnFollows s) (held : s.inReset = true) (h : exec c s = .next t)
    (notAsserted : c ≠ .resetAsserted) : AttnFollows t := by
  by_cases reset : c = .reset
  · subst reset
    cases h
    exact attnLive_afterReset.follows
  · by_cases pin : ∃ i l, c = .pinChange i l
    · obtain ⟨i, l, rfl⟩ := pin
      cases h
      split <;> exact hs
    · rw [Machine.exec_held held reset notAsserted fun i l e => pin ⟨i, l, e⟩] at h
      cases h
      exact hs

/-- Every command keeps ATTN as R185 has it. -/
theorem AttnFollows.exec {c : Instr} (hs : AttnFollows s) (h : exec c s = .next t) : AttnFollows t := by
  by_cases asserted : c = .resetAsserted
  · subst asserted
    cases h
    simp [AttnFollows]
  · cases held : s.inReset with
    | true => exact hs.exec_held held h asserted
    | false => exact ((hs.live held).exec h asserted).follows

/-- Settles O57: a step is a command, or a second of the timers, which touches voices alone. -/
theorem stepsKeepAttn : Obligations.StepsKeepAttn := by
  intro s t hs h
  unfold step at h
  split at h
  · cases h
    unfold idleStep
    split
    · exact hs
    · exact foldl_keeps AttnFollows (fun u v => u.setVoice v (u.voice v).afterSecond) (fun _ _ hu => hu) allVoices s hs
  · next c rest _ =>
    have queued : AttnFollows { s with pending := rest } := hs
    exact queued.exec h

end
end Sys2Proof.Machine
end

section
/-! SUPPORT. The Link Controller: what its reset leaves (R189), how frames are begun, dropped and counted (R176, R178, R180, R183), the end
of a reply (R179, R188), a good frame as the request it carries (R181, R182), and its own requests (R185 to R187). -/

namespace Sys2Proof.Machine

/-- Settles O4: the tables after a reset are those of a new part, the link's among them. -/
theorem resetLeavesTheLink : Obligations.ResetLeavesTheLink := fun s => ⟨afterReset s, rfl, rfl⟩

section
variable {s : State} {f : Frame}

/-! ### Frames begun and dropped (R176, R178, R180, R183) -/

/-- A frame that is dropped leaves its count and the receiver HUNTING. -/
theorem dropFrame_eq (s : State) :
    dropFrame s = { s with link.receiver := .hunting, link.linkErrors := counted s.link.linkErrors } := rfl

/-- A good frame begun while a reply was owed leaves its count and the receiver HUNTING. -/
theorem overrun_eq (s : State) :
    hunt { s with link.overruns := riseTo Config.greatestCount s.link.overruns } =
      { s with link.receiver := .hunting, link.overruns := counted s.link.overruns } := rfl

theorem isReceiving_iff : isReceiving s = true ↔ s.link.receiver ≠ .hunting := by simp [isReceiving]

theorem isReceiving_hunting (hunting : s.link.receiver = .hunting) : isReceiving s = false := by simp [isReceiving, hunting]

theorem execStartByte_hunting (out : s.inReset = false) (hunting : s.link.receiver = .hunting) :
    execStartByte s = .next { s with link.receiver := .receiving (decide (s.link.owed ≠ .none)) } :=
  eventWhen_taken out (by rw [isReceiving_hunting hunting]; rfl)

theorem execStartByte_receiving (receiving : s.link.receiver ≠ .hunting) : execStartByte s = .next s :=
  eventWhen_not (by rw [isReceiving_iff.2 receiving]; rfl)

theorem execFrameCrcError_bad (out : s.inReset = false) (short : f.body.length ≤ 520)
    (differs : frameCrc f.kind f.tag f.body ≠ f.crc) : execFrameCrcError f s = .next (dropFrame s) :=
  eventWhen_taken out (by simp [Frame.wellFormed, Config.largestBody, frameGood, short, differs])

theorem execFrameLengthDrop_long {n : BitVec 16} (out : s.inReset = false) (long : 520 < n.toNat) :
    execFrameLengthDrop n s = .next (dropFrame s) :=
  eventWhen_taken out (decide_eq_true long)

/-- What the machine asks of a frame that ends is that it is good. -/
theorem GoodFrame.accepted (good : GoodFrame f) : (f.wellFormed && frameGood f) = true := by
  obtain ⟨short, crc⟩ := good
  simp [Frame.wellFormed, Config.largestBody, frameGood, short, crc]

theorem execOverrun_late (out : s.inReset = false) (good : GoodFrame f) (late : s.frameIsLate = true) :
    execOverrun f s = .next { s with link.receiver := .hunting, link.overruns := counted s.link.overruns } :=
  eventWhen_taken out (by rw [good.accepted, late]; rfl)

/-! ### A good frame as the request it carries (R181, R182) -/

/-- A command that is a request row: it takes the request's frame and serves it, as a frame or as a row (log entry 15). -/
def IsRequest (c : Instr) : Prop :=
  ∃ kind tag thenReset serve, ∀ s,
    execRequest c s = event (requestFrame kind tag thenReset serve) s ∧ exec c s = event (requestFrame kind tag thenReset serve) s

theorem allow_eq_request {ok : Bool} {i c : Instr} : allow ok i = .request c ↔ ok = true ∧ i = c := by
  cases ok <;> simp [allow]

/-- A frame carries requests only. -/
theorem parseRequest_isRequest {kind tag : Byte} {body : List Byte} {c : Instr} (h : parseRequest kind tag body = .request c) :
    IsRequest c := by
  unfold parseRequest at h
  dsimp only at h
  split at h
  case h_47 => cases h
  all_goals
    obtain ⟨-, rfl⟩ := allow_eq_request.1 h
    exact ⟨_, _, _, _, fun _ => ⟨rfl, rfl⟩⟩

theorem IsRequest.execRequest {c : Instr} (h : IsRequest c) (s : State) : execRequest c s = exec c s := by
  obtain ⟨kind, tag, thenReset, serve, eq⟩ := h
  obtain ⟨asFrame, asRow⟩ := eq s
  exact asFrame.trans asRow.symm

/-- A request whose frame was begun while a reply was owed is an overrun (R180). -/
theorem requestFrame_late {kind tag : Byte} {r : Bool} {serve : State → Served} (late : s.frameIsLate = true) :
    requestFrame kind tag r serve s = { s with link.receiver := .hunting, link.overruns := counted s.link.overruns } :=
  (if_pos late).trans (overrun_eq s)

theorem IsRequest.execRequest_late {c : Instr} (h : IsRequest c) (out : s.inReset = false) (late : s.frameIsLate = true) :
    Machine.execRequest c s = .next { s with link.receiver := .hunting, link.overruns := counted s.link.overruns } := by
  obtain ⟨kind, tag, thenReset, serve, eq⟩ := h
  obtain ⟨asFrame, -⟩ := eq s
  rw [asFrame, event_taken out, requestFrame_late late]

theorem execFrameComplete_good (good : GoodFrame f) (s : State) : execFrameComplete f s = takeFrame f s := if_pos good.accepted

/-- Whatever a good frame carries, it is an overrun when it was begun while a reply was owed (R180). -/
theorem takeFrame_late (out : s.inReset = false) (late : s.frameIsLate = true) :
    takeFrame f s = .next { s with link.receiver := .hunting, link.overruns := counted s.link.overruns } := by
  unfold takeFrame
  split
  · exact request_late out late
  · exact request_late out late
  · next parsed => exact (parseRequest_isRequest parsed).execRequest_late out late

/-- Settles O7, row by row: an end of a frame that comes about is the drop or the overrun that R176 to R180 give. -/
theorem framesAreBegunAndDropped : Obligations.FramesAreBegunAndDropped := by
  intro s out
  refine ⟨fun hunting => ⟨execStartByte_hunting out hunting, eventWhen_not (isReceiving_hunting hunting),
    eventWhen_not (isReceiving_hunting hunting)⟩, execStartByte_receiving, ?_, ?_⟩
  · rintro t rfl
    rw [← dropFrame_eq]
    refine ⟨fun f => execFrameCrcError_bad out, fun n => execFrameLengthDrop_long out, fun receiving => ?_⟩
    have dropped : eventWhen isReceiving dropFrame s = .next (dropFrame s) := eventWhen_taken out (isReceiving_iff.2 receiving)
    exact ⟨dropped, dropped⟩
  · rintro f t good late rfl
    exact ⟨execOverrun_late out good late, (execFrameComplete_good good s).trans (takeFrame_late out late)⟩

/-- Settles O9: a good frame is taken, and a request among its readings is its row. -/
theorem frameCompleteIsItsRequest : Obligations.FrameCompleteIsItsRequest := by
  intro f s good
  have taken : exec (.frameComplete f) s = takeFrame f s := execFrameComplete_good good s
  refine ⟨fun c parsed => ?_, fun takes parsed => ?_, fun takes parsed => ?_⟩ <;>
    rw [taken, takeFrame, parsed]
  · exact (parseRequest_isRequest parsed).execRequest s
  · exact request_answer (serve := fun s => answerOnly s .unknownKind) takes rfl
  · exact request_answer (serve := fun s => answerOnly s .badLength) takes rfl

/-! ### The end of a reply (R179, R188) -/

/-- Settles O8: the last byte of a reply ends it, or brings the reset that RESTART asked for. -/
theorem replySentEndsTheReply : Obligations.ReplySentEndsTheReply := by
  intro s out
  have sent (t : State) (live : t.inReset = false) : exec .replySent t = .next (replyGone t) := event_taken live
  have restarted (tag : Byte) : exec (.restart tag) s = .next (requestFrame 4 tag true (fun s => answerOnly s .ok) s) :=
    event_taken out
  refine ⟨fun f owed => ?_, fun f owed => ?_, fun h owed => ?_, fun owed => ?_, fun tag onTime => ⟨?_, sent _ out⟩⟩
  · rw [sent s out, replyGone, owed]
  · rw [sent s out, replyGone, owed]; rfl
  · rw [sent s out, replyGone, owed]
  · rw [sent s out, replyGone, owed]
  · rw [restarted, requestFrame, if_neg (by simp [onTime])]; rfl

/-! ### IDENT, REPORT and EVENTS.MASK (R185 to R187) -/

/-- Settles O11. -/
theorem identAnswers : Obligations.IdentAnswers := fun _ _ takes => request_answer (serve := serveIdent) takes rfl

theorem attnOf_noFlags (mask : BitVec 20) : attnOf 0 mask = false := by simp [attnOf]

/-- Clearing every flag leaves ATTN deasserted and the mask as it was. -/
theorem clearFlags_eq (s : State) : clearFlags s = { s with link.flags := 0, link.attn := false } := by
  simp only [clearFlags, Link.withFlags, attnOf_noFlags]

theorem countBlocks_hunt (p : BlockState → Bool) (s : State) : countBlocks p (hunt s) = countBlocks p s := rfl

/-- Settles O12: the fields are read before the flags are cleared. -/
theorem reportReadsAndClears : Obligations.ReportReadsAndClears := by
  intro tag s takes
  refine request_answer (serve := serveReport) takes ?_
  rw [serveReport, clearFlags_eq, reportFields, countBlocks_hunt]
  rfl

/-- The spare positions of a mask field are those from 20 on. -/
theorem spare_eq_zero_iff (mask : BitVec 24) : mask >>> 20 = 0 ↔ mask.toNat < 2 ^ 20 := by
  rw [← BitVec.toNat_inj, BitVec.toNat_ushiftRight, Nat.shiftRight_eq_div_pow]
  exact Nat.div_eq_zero_iff_lt (by decide)

theorem serveEventsMask_spare {mask : BitVec 24} (spare : 2 ^ 20 ≤ mask.toNat) :
    serveEventsMask mask s = answerOnly s .badField :=
  if_pos (mt (spare_eq_zero_iff mask).1 (Nat.not_lt.2 spare))

theorem serveEventsMask_ok {mask : BitVec 24} (inRange : mask.toNat < 2 ^ 20) :
    serveEventsMask mask s = answerOnly (setMask (mask.truncate 20) s) .ok :=
  if_neg fun spare => spare ((spare_eq_zero_iff mask).2 inRange)

/-- Settles O13: the mask is refused by its spare positions alone. -/
theorem eventsMaskReplacesTheMask : Obligations.EventsMaskReplacesTheMask := by
  intro tag mask s takes
  exact ⟨fun inRange => request_answer (serve := serveEventsMask mask) takes (serveEventsMask_ok inRange),
    fun spare => request_answer (serve := serveEventsMask mask) takes (serveEventsMask_spare spare)⟩

end

end Sys2Proof.Machine
end

section
/-! SUPPORT. The kinds of requests, the body lengths they allow and the bodies they carry (R181, R190, R194, R196, R197, R199). -/

namespace Sys2Proof.Machine

/-! ### Kinds and lengths (R181, R194) -/

theorem progWriteLength_iff (n : Nat) : progWriteLength n = true ↔ ∃ k, k ≤ 12 ∧ n = 3 + 7 * k := by
  have greatest : 3 + 7 * Config.stepsPerProgram = 87 := rfl
  simp only [progWriteLength, Bool.and_eq_true, decide_eq_true_eq, greatest]
  constructor
  · rintro ⟨⟨fixed, whole⟩, most⟩
    exact ⟨(n - 3) / 7, by omega, by omega⟩
  · rintro ⟨k, most, rfl⟩
    omega

theorem clipDataLength_iff (n : Nat) : (decide (6 ≤ n) && decide (n ≤ 517)) = true ↔ 6 ≤ n ∧ n ≤ 517 := by
  rw [Bool.and_eq_true, decide_eq_true_eq, decide_eq_true_eq]

/-- What a frame's kind and length make of it, as the table of R194 has it: an unknown kind, or a kind whose length test is the
table's. -/
theorem parseRequest_byTable (kind tag : Byte) (body : List Byte) :
    (allowedLengths kind.toNat = none ∧ parseRequest kind tag body = .unknownKind) ∨
    ∃ lengths ok c, allowedLengths kind.toNat = some lengths ∧ parseRequest kind tag body = allow ok c ∧
      (ok = true ↔ lengths body.length) := by
  unfold parseRequest
  dsimp only
  generalize kind.toNat = k
  split
  case h_10 => exact .inr ⟨_, _, _, rfl, rfl, clipDataLength_iff _⟩
  case h_17 => exact .inr ⟨_, _, _, rfl, rfl, progWriteLength_iff _⟩
  case h_47 => exact .inl ⟨by simp_all [allowedLengths], rfl⟩
  all_goals exact .inr ⟨_, _, _, rfl, rfl, decide_eq_true_iff⟩

theorem allow_eq_badLength {ok : Bool} {c : Instr} : allow ok c = .badLength ↔ ok = false := by cases ok <;> simp [allow]

theorem allow_ne_unknownKind {ok : Bool} {c : Instr} : allow ok c ≠ .unknownKind := by cases ok <;> simp [allow]

theorem unknownKind_iff (kind tag : Byte) (body : List Byte) :
    allowedLengths kind.toNat = none ↔ parseRequest kind tag body = .unknownKind := by
  rcases parseRequest_byTable kind tag body with ⟨none, unknown⟩ | ⟨lengths, ok, c, some, known, -⟩
  · simp only [none, unknown]
  · simp only [some, known, allow_ne_unknownKind, reduceCtorEq]

theorem badLength_iff (kind tag : Byte) (body : List Byte) {lengths : Nat → Prop} (row : allowedLengths kind.toNat = some lengths) :
    ¬ lengths body.length ↔ parseRequest kind tag body = .badLength := by
  rcases parseRequest_byTable kind tag body with ⟨none, -⟩ | ⟨lengths', ok, c, some, known, test⟩
  · rw [none] at row; cases row
  · obtain rfl : lengths' = lengths := Option.some.inj (some.symm.trans row)
    rw [known, allow_eq_badLength, ← test, Bool.not_eq_true]

/-! ### Bodies (R190, R194, R196, R197, R199) -/

/-- A number of three bytes read back. -/
theorem fromLe_bytes24 (w : BitVec 24) :
    BitVec.ofNat 24 (fromLe [byteOf w.toNat, byteOf (w.toNat / 256), byteOf (w.toNat / 65536)]) = w := by
  apply BitVec.eq_of_toNat_eq
  have := w.isLt
  simp only [fromLe, byteOf, BitVec.toNat_ofNat]
  omega

/-- A number of two bytes read back from its place in a body. -/
theorem wordAt_append (before after : List Byte) (w : BitVec 16) :
    wordAt (before ++ (le16 w.toNat ++ after)) before.length = w := by
  have at_ : field (before ++ (le16 w.toNat ++ after)) before.length 2 = le16 w.toNat := by
    rw [field, List.drop_left]; rfl
  rw [wordAt, at_, fromLe_le16]

/-- A number of four bytes read back from its place in a body. -/
theorem longAt_append (before after : List Byte) (w : BitVec 32) :
    longAt (before ++ (le32 w.toNat ++ after)) before.length = w := by
  have at_ : field (before ++ (le32 w.toNat ++ after)) before.length 4 = le32 w.toNat := by
    rw [field, List.drop_left]; rfl
  rw [longAt, at_, fromLe_le32]

theorem parse_eventsMask (tag : Byte) (mask : BitVec 24) :
    parseRequest 3 tag [byteOf mask.toNat, byteOf (mask.toNat / 256), byteOf (mask.toNat / 65536)] =
      .request (.eventsMask tag mask) := by
  have read := fromLe_bytes24 mask
  exact congrArg (fun m => Parsed.request (.eventsMask tag m)) read

theorem parse_storeInspect (tag : Byte) (block : BitVec 16) (page : Byte) :
    parseRequest 18 tag (le16 block.toNat ++ [page]) = .request (.storeInspect tag block page) :=
  congrArg (fun b => Parsed.request (.storeInspect tag b page)) (wordAt_append [] [page] block)

theorem parse_clipOpen (tag id format rate protect : Byte) (name : Vector Byte 16) :
    parseRequest 32 tag ([id, format, rate, protect] ++ name.toList) =
      .request (.clipOpen tag id format rate protect name) := by
  have length : ([id, format, rate, protect] ++ name.toList).length = 20 := by simp
  have read : (Vector.ofFn fun i : Fin 16 => byteAt ([id, format, rate, protect] ++ name.toList) (4 + i.val)) = name := by
    ext i h
    simp [byteAt, h, Nat.add_comm 4 i]
  exact allow_eq_request.2 ⟨decide_eq_true length, congrArg (Instr.clipOpen tag id format rate protect) read⟩

theorem parse_clipData (tag id : Byte) (offset : BitVec 32) {chunk : List Byte} (some : 1 ≤ chunk.length)
    (most : chunk.length ≤ 512) :
    parseRequest 33 tag (id :: le32 offset.toNat ++ chunk) = .request (.clipData tag id offset chunk) := by
  have length : (id :: le32 offset.toNat ++ chunk).length = 5 + chunk.length := by simp [le32]; omega
  have read : longAt (id :: le32 offset.toNat ++ chunk) 1 = offset := longAt_append [id] chunk offset
  refine allow_eq_request.2 ⟨(clipDataLength_iff _).2 (by omega), ?_⟩
  exact congrArg (fun o => Instr.clipData tag id o chunk) read

theorem parse_clipRead (tag id : Byte) (offset : BitVec 32) (length : BitVec 16) :
    parseRequest 37 tag (id :: le32 offset.toNat ++ le16 length.toNat) = .request (.clipRead tag id offset length) := by
  have offset_read : longAt (id :: le32 offset.toNat ++ le16 length.toNat) 1 = offset :=
    longAt_append [id] (le16 length.toNat) offset
  have length_read : wordAt (id :: le32 offset.toNat ++ le16 length.toNat) 5 = length :=
    wordAt_append (id :: le32 offset.toNat) [] length
  exact allow_eq_request.2 ⟨rfl, congr (congrArg (Instr.clipRead tag id) offset_read) length_read⟩

/-- The bytes of step records, seven each (R196). -/
theorem stepRecords_length (steps : List RawStep) :
    (steps.map fun r => [r.kind, r.clip, r.count] ++ le16 r.limit.toNat ++ le16 r.gap.toNat).flatten.length =
      7 * steps.length := by
  induction steps with
  | nil => rfl
  | cons r rs ih =>
    rw [List.map_cons, List.flatten_cons, List.length_append, ih, List.length_cons]
    simp [le16]
    omega

theorem parse_progWrite (tag id cycle count : Byte) {steps : List RawStep} (most : steps.length ≤ 12) :
    parseRequest 48 tag ([id, cycle, count]
        ++ (steps.map fun r => [r.kind, r.clip, r.count] ++ le16 r.limit.toNat ++ le16 r.gap.toNat).flatten) =
      .request (.progWrite tag id cycle count steps) := by
  refine allow_eq_request.2 ⟨(progWriteLength_iff _).2 ⟨steps.length, most, ?_⟩, ?_⟩
  · rw [List.length_append, stepRecords_length]; rfl
  · exact congrArg (Instr.progWrite tag id cycle count) (stepsOf_layout id cycle count steps)

/-- The start number that a request about a voice begins with (R194). -/
theorem longAt_start (start : BitVec 32) (after : List Byte) : longAt (le32 start.toNat ++ after) 0 = start :=
  longAt_append [] after start

theorem parse_byStart (tag : Byte) (start : BitVec 32) :
    parseRequest 66 tag (le32 start.toNat) = .request (.voiceGo tag start) ∧
    (∀ mode, parseRequest 67 tag (le32 start.toNat ++ [mode]) = .request (.voiceStop tag start mode)) ∧
    parseRequest 68 tag (le32 start.toNat) = .request (.voicePause tag start) ∧
    parseRequest 69 tag (le32 start.toNat) = .request (.voiceResume tag start) ∧
    parseRequest 70 tag (le32 start.toNat) = .request (.voiceRelease tag start) := by
  have read : longAt (le32 start.toNat) 0 = start := longAt_start start []
  refine ⟨?_, fun mode => ?_, ?_, ?_, ?_⟩
  · exact congrArg (fun n => Parsed.request (.voiceGo tag n)) read
  · exact congrArg (fun n => Parsed.request (.voiceStop tag n mode)) (longAt_start start [mode])
  · exact congrArg (fun n => Parsed.request (.voicePause tag n)) read
  · exact congrArg (fun n => Parsed.request (.voiceResume tag n)) read
  · exact congrArg (fun n => Parsed.request (.voiceRelease tag n)) read

/-- Settles O10: the kinds and lengths by the table; a body is read back field by field, its numbers by the lemmas above. -/
theorem kindsAndLengths : Obligations.KindsAndLengths := by
  intro kind tag body
  refine ⟨unknownKind_iff kind tag body, fun _ row => badLength_iff kind tag body row, ?_⟩
  intro is order
  refine ⟨rfl, rfl, rfl, parse_eventsMask tag, rfl, rfl, parse_storeInspect tag, parse_clipOpen tag,
    fun id offset _ => parse_clipData tag id offset, parse_clipRead tag, fun id cycle count _ => parse_progWrite tag id cycle count,
    fun o => ⟨rfl, rfl⟩, parse_byStart tag, fun _ _ _ => rfl, rfl, rfl, fun _ _ _ _ _ _ => rfl, rfl, rfl, fun _ _ => rfl,
    fun _ _ => rfl, rfl, rfl, fun _ _ => rfl, rfl, rfl, fun b => ⟨rfl, rfl, rfl, rfl, rfl, rfl, rfl, rfl, rfl, rfl, rfl, rfl, rfl, rfl, rfl⟩⟩

end Sys2Proof.Machine
end

section
/-! SUPPORT. The queue (log entry 20), and that every command answers a next state (NOTES.md, Stops). -/

namespace Sys2Proof.Machine

/-! ### The queue -/

theorem step_pending {c : Instr} {rest : List Instr} {s : State} (front : s.pending = c :: rest) :
    step s = exec c { s with pending := rest } := by
  unfold step; rw [front]

/-- Settles O1. -/
theorem stepRunsFrontCommand : Obligations.StepRunsFrontCommand := fun _ _ _ => step_pending

/-! ### Answers -/

theorem IsRequest.execRequest_answers {c : Instr} (h : IsRequest c) (s : State) : ∃ t, Machine.execRequest c s = .next t := by
  obtain ⟨kind, tag, thenReset, serve, eq⟩ := h
  obtain ⟨asFrame, -⟩ := eq s
  rw [asFrame]
  exact event_answers _ s

/-- A good frame answers whatever it carries: what parseRequest reads from it is a request. -/
theorem takeFrame_answers (f : Frame) (s : State) : ∃ t, takeFrame f s = .next t := by
  unfold takeFrame
  split
  · exact request_answers ..
  · exact request_answers ..
  · next parsed => exact (parseRequest_isRequest parsed).execRequest_answers s

theorem execFrameComplete_answers (f : Frame) (s : State) : ∃ t, execFrameComplete f s = .next t := by
  unfold execFrameComplete
  split
  · exact takeFrame_answers f s
  · exact ⟨s, rfl⟩

/-- Settles O3: the two reset commands and the moving of a pin come about even in a part that is held, a complete frame is what it
carries, and every other command, the request rows among them, is an event. -/
theorem everyCommandAnswersNext : Obligations.EveryCommandAnswersNext := by
  intro c s
  cases c with
  | reset => exact ⟨afterReset s, rfl⟩
  | resetAsserted => exact ⟨_, rfl⟩
  | pinChange i level => exact ⟨_, rfl⟩
  | frameComplete f => exact execFrameComplete_answers f s
  | _ => exact event_answers _ s

end Sys2Proof.Machine
end
